-- ==== Sys2Proof/Word.lean ====
section
/-! DEFINITION. The word types of the IPT-820: bytes of the host line, tick values, and the two
logic levels. Their plainest arithmetic is BitVec's own; the device's comparisons of ticks are in
Machine/Ticks.lean. -/

namespace Sys2Proof

/-- One byte of a frame (R177). -/
abbrev Byte := BitVec 8

/-- A tick value: 48 bits, wrapping at 2^48 (section 8 "Time", R1, R3). -/
abbrev Tick := BitVec 48

/-- A logic level: of a comparator output, of an accepted level, of the RXD pin. -/
inductive Level
  | low
  | high
deriving DecidableEq, Repr

end Sys2Proof
end

