-- ==== Sys2Proof/Syntax.lean ====
section
/-! DEFINITION. The commands of the IPT-820: one constructor for each row of
spec/opcode_table.json. A row that is a request has no operand: the request it executes stands at
the head of the intake queue (R183). A row that is an event on a pin carries what the pin brings;
a row that is an event inside the device names the channel or the slot it happens in. -/

namespace Sys2Proof

/-- The commands, in the table's order. -/
inductive Instr
  /-- POWER_RESET (R13, R176): power-on or release of RESET, with the levels of the straps RATE1
  and RATE0 (true is high). -/
  | powerReset (rate1 rate0 : Bool)
  /-- INIT_END (R176). -/
  | initEnd
  /-- REFCLK_EDGE (R8): a rising edge of REFCLK, seen at the present tick. -/
  | refclkEdge
  /-- REF_LOSS (R5). -/
  | refLoss
  /-- REGAIN (R8). -/
  | regain
  /-- REVERT (R18). -/
  | revert (channel : Fin 8)
  /-- EDGE_ACCEPTED (R17). -/
  | edgeAccepted (channel : Fin 8)
  /-- EDGE_ARRIVAL (R20): of the oldest edge in transit of the channel. -/
  | edgeArrival (channel : Fin 8)
  /-- EDGE_SEEN (R46): of the oldest held edge of the slot's job. -/
  | edgeSeen (slot : Fin 32)
  /-- DEADLINE_EXPIRY (R100): of the head entry of the deadline list. -/
  | deadlineExpiry
  /-- PROBE_STEP (R156). -/
  | probeStep (channel : Fin 8)
  /-- STRAY_BYTE (R179): a byte other than SYNC completed on RXD in HUNTING. -/
  | strayByte (byte : Byte)
  /-- BAD_LENGTH (R179): a LEN byte outside 3 to 252 completed on RXD. -/
  | badLength (byte : Byte)
  /-- RECEIVE_FRAME (R180): the last byte of a frame completed on RXD. -/
  | receiveFrame (byte : Byte)
  /-- TRUNCATION (R181). -/
  | truncation
  /-- BREAK_DETECTED (R187). -/
  | breakDetected
  /-- LINK_RESET (R188). -/
  | linkReset
  /-- REPLY_BEGIN (R186). -/
  | replyBegin
  /-- REPLY_SENT (R186). -/
  | replySent
  /-- NOTICE_BEGIN (R166). -/
  | noticeBegin
  /-- NOTICE_SENT (R168). -/
  | noticeSent
  /-- UNKNOWN_REQUEST (R185). -/
  | unknownRequest
  /-- DESCRIBE (R189). -/
  | describe
  /-- STATUS (R190). -/
  | status
  /-- TIME (R12). -/
  | time
  /-- GRANT (R165). -/
  | grant
  /-- SOFT_RESET (R191). -/
  | softReset
  /-- CHAN_SET (R26). -/
  | chanSet
  /-- CHAN_GET (R27). -/
  | chanGet
  /-- PROBE_START (R154): the request PROBE, unless its action asks for CANCEL. -/
  | probeStart
  /-- PROBE_CANCEL (R159): the request PROBE with action CANCEL. -/
  | probeCancel
  /-- CAPTURE_SET (R144). -/
  | captureSet
  /-- CAPTURE_READ (R147). -/
  | captureRead
  /-- CAPTURE_FLUSH (R149). -/
  | captureFlush
  /-- JOB_DEFINE (R37). -/
  | jobDefine
  /-- JOB_START (R41). -/
  | jobStart
  /-- JOB_STOP (R56). -/
  | jobStop
  /-- JOB_CLEAR (R58). -/
  | jobClear
  /-- JOB_GET (R59). -/
  | jobGet
  /-- RESULT_FETCH (R116). -/
  | resultFetch
  /-- RESULT_SETUP (R118). -/
  | resultSetup
  /-- RESULT_FLUSH (R119). -/
  | resultFlush
  /-- LIMIT_SET (R126). -/
  | limitSet
  /-- TICK (R1): the next tick, with the level RXD has at it. -/
  | tick (rxd : Level)
  /-- COMPARATOR_OUTPUT (R14): the input of the channel moves to an analog level, and the comparator
  follows it. Level 2c is the level of threshold code c, and level 2c + 1 lies between the levels of
  codes c and c + 1 (above code 1023 for c = 1023). -/
  | comparatorOutput (channel : Fin 8) (level : Nat)
  /-- SYNC (R179): the byte 0xC3 completed on RXD in HUNTING. -/
  | sync
  /-- FRAME_BYTE (R179): a byte of a frame, other than its last, completed on RXD. -/
  | frameByte (byte : Byte)
deriving DecidableEq, Repr

end Sys2Proof
end

