-- ==== Sys2Proof/Config.lean ====
section
/-! DEFINITION. The numbers the spec fixes for every IPT-820, and the two values it leaves open. -/

namespace Sys2Proof

/-- A since-edge count of 80 means REFCLK is absent (R5). -/
abbrev Config.lossTicks : Nat := 80

/-- Ticks of presence after which the timebase becomes NORMAL (R8). -/
abbrev Config.regainTicks : Nat := 40000

/-- The abnormal age stops at 2^47 (R9). -/
abbrev Config.ageLimit : Nat := 140737488355328

/-- Half the counter's range, the bound of the modular comparison (R3). -/
abbrev Config.halfRange : Nat := 140737488355328

/-- A 16-bit saturating counter stops at 65,535 (section 8 "Numbers"). -/
abbrev Config.counterMax : Nat := 65535

/-- The TALLY window count stops at 2^32 - 1 (R82). -/
abbrev Config.countMax : Nat := 4294967295

/-- Initialisation of the link lasts 80,000 ticks (R176). -/
abbrev Config.initTicks : Nat := 80000

/-- RXD low for 80,000 ticks is a break (R187). -/
abbrev Config.breakTicks : Nat := 80000

/-- More than 40,000 ticks of silence inside a frame truncate it (R181). -/
abbrev Config.gapTicks : Nat := 40000

/-- Deadline entries and reservations (R91, R92). -/
abbrev Config.reservations : Nat := 24

/-- Places of the result queue (R109). -/
abbrev Config.resultPlaces : Nat := 96

/-- Capture cells of the pool (R135). -/
abbrev Config.captureCells : Nat := 512

/-- Frames the intake queue holds (R183). -/
abbrev Config.intakePlaces : Nat := 4

/-- Replies the reply queue holds (R183). -/
abbrev Config.replyPlaces : Nat := 4

/-- Credits never exceed 16 (R164). -/
abbrev Config.maxCredits : Nat := 16

/-- An edge 2^40 ticks or more from the open tick ends the measurement (R64). -/
abbrev Config.spanLimit : Nat := 1099511627776

/-- 40,000,000 ticks per second times 1,000 millihertz per hertz (R68). -/
abbrev Config.rateFactor : Nat := 40000000000

/-- How many boundaries R49 lets a job take before one edge. Each one that is taken lies later than
the one before it, and there are 2^48 ticks, so no job that JOB_DEFINE accepts meets this bound. -/
abbrev Config.boundaryFuel : Nat := 281474976710656

/-- FREE VALUE (assumption 4). At 115,200, 460,800 and 3,000,000 bit/s a character does not last a
whole number of ticks (R175: "about 3,472 ticks"), and the spec does not say at which of the two
neighbouring ticks a byte counts as completed. For a rate in bit/s and the number of bytes sent so
far this says whether it is the later one. Nothing can evaluate it. -/
opaque Config.roundsUp (bitsPerSecond bytes : Nat) : Bool

/-- FREE VALUE (assumption 28). R175 has the receiver sample each bit of a character and does not say
where in the bit. For a rate in bit/s and a bit's place in the character (0 the start bit) this number,
taken modulo the whole ticks of a bit, says how many ticks into the bit the sample is taken. Nothing can
evaluate it. -/
opaque Config.samplePoint (bitsPerSecond bitPlace : Nat) : Nat

end Sys2Proof
end

