-- ==== Sys2Proof/Machine/State.lean ====
section
/-! DEFINITION. The state of the IPT-820, block by block, as plain data, and its value right after
power reset. Fields named "model's own" hold what the spec implies between two events of one tick;
each is declared in the assumption log. -/

namespace Sys2Proof.Machine

/-! ## Timebase (01_timebase_and_reference_monitor.md) -/

/-- START, NORMAL, HOLDOVER. -/
inductive TimebaseState
  | start
  | normal
  | holdover
deriving DecidableEq, Repr

/-- The timebase and the reference monitor (R1 to R13). -/
structure Timebase where
  /-- Tick counter, the current tick (R1). -/
  tick : Tick
  state : TimebaseState
  /-- Ticks since the last REFCLK edge, 0 to 80 (R5). -/
  sinceEdge : Nat
  /-- Ticks of continuous presence, 0 to 40,000, while START or HOLDOVER (R8). -/
  regain : Option Nat
  /-- The most recent tick counted in START or HOLDOVER (R9). -/
  lastAbnormal : Option Tick
  /-- Ticks since the last abnormal tick, 0 to 2^47 (R9). -/
  abnormalAge : Nat
  /-- Entries into HOLDOVER, 0 to 65,535, saturating (R10). -/
  holdoverEntries : Nat
  /-- Model's own (assumption 6): the since-edge count reached 80 at this tick, and neither the loss
  has been declared nor an edge been seen at this tick. -/
  lossDue : Bool
  /-- Model's own (assumption 6): the loss has been declared at this tick, on which no edge was seen. -/
  lossTaken : Bool
deriving DecidableEq, Repr

/-! ## Input channels and level probe (02_input_channels.md, 09_level_probe.md) -/

/-- The polarity of an accepted edge. -/
inductive Polarity
  | rise
  | fall
deriving DecidableEq, Repr

/-- A choice of polarities: NONE, RISE, FALL, BOTH (R193). -/
inductive Select
  | none
  | rise
  | fall
  | both
deriving DecidableEq, Repr

/-- DISABLED, ENABLED, PROBING (section 2.4). -/
inductive ChannelState
  | disabled
  | enabled
  | probing
deriving DecidableEq, Repr

/-- The state a channel resumes when its probe ends (R22). -/
inductive ReturnState
  | disabled
  | enabled
deriving DecidableEq, Repr

/-- An accepted edge: what it carries to the capture pool and the job table (R20). -/
structure AcceptedEdge where
  channel : Fin 8
  timestamp : Tick
  polarity : Polarity
deriving DecidableEq, Repr

/-- A change of level seen by the sampler and not yet accepted (R17). -/
structure PendingTransition where
  level : Level
  firstTick : Tick
  run : Nat
deriving DecidableEq, Repr

/-- DONE or CANCELLED. -/
inductive ProbeStatus
  | done
  | cancelled
deriving DecidableEq, Repr

/-- The outcome of the most recent probe (R157, R159). -/
structure ProbeResult where
  code : Nat
  mixed : Nat
  status : ProbeStatus
deriving DecidableEq, Repr

/-- The probe record of a running probe (chapter 9). -/
structure ProbeRecord where
  trial : Nat
  /-- The step in progress, 1 to 10. -/
  step : Nat
  /-- Dwell in ticks, 40 to 10,200. -/
  dwell : Nat
  stepStart : Tick
  highSeen : Bool
  lowSeen : Bool
  mixed : Nat
  adopt : Bool
deriving DecidableEq, Repr

/-- One input channel with its pin (chapter 2) and its level probe (chapter 9). -/
structure Channel where
  state : ChannelState
  highCode : Nat
  lowCode : Nat
  filter : Nat
  comparator : Level
  /-- The level of the last accepted edge, or the established level. -/
  accepted : Option Level
  pending : Option PendingTransition
  /-- Edges accepted and not yet arrived, oldest first (R20). -/
  inTransit : List AcceptedEdge
  glitches : Nat
  returnState : Option ReturnState
  lastProbe : Option ProbeResult
  probe : Option ProbeRecord
  /-- The pin INn: 2c at the level of code c, 2c + 1 between the levels of c and c + 1. -/
  input : Nat
  /-- Model's own (assumption 7): the sample that the glitch filter took at the present tick. -/
  sample : Option Level
deriving DecidableEq, Repr

/-! ## Capture queues (08_capture_queues.md) -/

/-- One logged edge (chapter 8). -/
structure CaptureEntry where
  timestamp : Tick
  polarity : Polarity
  gapBefore : Bool
deriving DecidableEq, Repr

/-- What a full queue does with a new logged edge. -/
inductive OverflowPolicy
  | keepOld
  | keepNew
deriving DecidableEq, Repr

/-- One channel's capture queue. Its length is the number of its entries. -/
structure CaptureQueue where
  depth : Nat
  entries : List CaptureEntry
  policy : OverflowPolicy
  select : Select
  /-- 0 for none, or 1 to depth. -/
  watermark : Nat
  loss : Nat
  gapPending : Bool
deriving DecidableEq, Repr

/-! ## Jobs (03_job_table.md, 04_measurement_kinds.md, 07_limits_and_the_alert_line.md) -/

/-- The six measurement kinds (R193). -/
inductive Kind
  | freqFixed
  | freqSync
  | period
  | width
  | phase
  | tally
deriving DecidableEq, Repr

/-- ONCE, CONTINUOUS, PERIODIC (R193). -/
inductive Repeat
  | once
  | continuous
  | periodic
deriving DecidableEq, Repr

/-- A job definition, the fields 2 to 14 of JOB_DEFINE (section 3.2). -/
structure Definition where
  kind : Kind
  channelA : Fin 8
  selectA : Select
  channelB : Fin 8
  selectB : Select
  gate : Nat
  count : Nat
  report : Nat
  target : Nat
  stall : Nat
  repeating : Repeat
  period : Nat
  queueResults : Bool
deriving DecidableEq, Repr

/-- FREE, IDLE, ARMED, ACTIVE, HOLD, DONE (R193). -/
inductive JobState
  | free
  | idle
  | armed
  | active
  | hold
  | done
deriving DecidableEq, Repr

/-- The sub-mode of ARMED. -/
inductive ArmedMode
  | at
  | onEdge
deriving DecidableEq, Repr

/-- START, CLOSE, STALL, REPORT (R47). -/
inductive Purpose
  | start
  | close
  | stall
  | report
deriving DecidableEq, Repr

/-- A timed boundary (R47). -/
structure Boundary where
  purpose : Purpose
  tick : Tick
deriving DecidableEq, Repr

/-- The running values of the open measurement (section 3.3). -/
structure Accumulators where
  count : Nat
  firstEdge : Option Tick
  lastProgress : Option Tick
  sum : Nat
  min : Option Nat
  max : Option Nat
  pendingStart : Option Tick
  skipped : Nat
  total : Nat
deriving DecidableEq, Repr

/-- A limit window with its two options (R124). -/
structure Window where
  low : Nat
  high : Nat
  band : Nat
  stallOut : Bool
  drive : Bool
deriving DecidableEq, Repr

/-- INSIDE, OUTSIDE (R193). -/
inductive AlertState
  | inside
  | outside
deriving DecidableEq, Repr

/-- COMPLETE, INTERIM, TARGET, STALLED, PARTIAL, SPAN_LIMIT (R193). -/
inductive RecordStatus
  | complete
  | interim
  | target
  | stalled
  | partialStop
  | spanLimit
deriving DecidableEq, Repr

/-- A result record (R86). -/
structure Record where
  slot : Fin 32
  sequence : BitVec 32
  kind : Kind
  status : RecordStatus
  holdover : Bool
  limitOut : Bool
  lostBefore : Nat
  missed : Nat
  startTick : Tick
  endTick : Tick
  count : Nat
  span : Nat
  value : Nat
  min : Option Nat
  max : Option Nat
  total : Option Nat
  skipped : Option Nat
deriving DecidableEq, Repr

/-- One job slot (R33). -/
structure Job where
  state : JobState
  subMode : Option ArmedMode
  armingTick : Option Tick
  definition : Option Definition
  settle : Option Nat
  startBase : Option Tick
  openTick : Option Tick
  next : Option Boundary
  acc : Accumulators
  /-- Held edges, in timestamp order (R45). -/
  held : List AcceptedEdge
  pendingMissed : Nat
  sequence : BitVec 32
  lostPending : Nat
  lostTotal : Nat
  missedTotal : Nat
  window : Option Window
  alert : AlertState
  latest : Option Record
deriving DecidableEq, Repr

/-! ## Deadline list (05_deadline_list.md) -/

/-- A deadline entry (R91). -/
structure Entry where
  due : Tick
  slot : Fin 32
  purpose : Purpose
deriving DecidableEq, Repr

/-- The deadline list and its reservation count (R91, R92). -/
structure DeadlineList where
  entries : List Entry
  reservations : Nat
deriving DecidableEq, Repr

/-! ## Result queue (06_result_records_and_the_result_queue.md) -/

/-- The result queue. Its length is the number of its records (R109). -/
structure ResultQueue where
  records : List Record
  watermark : Nat
  refused : Nat
deriving DecidableEq, Repr

/-! ## Notice queue (10_notices.md) -/

/-- The 42 sources of notices (R162). -/
inductive Source
  | job (slot : Fin 32)
  | channel (channel : Fin 8)
  | results
  | device
deriving DecidableEq, Repr

/-- A queued notice: its source and its flags, in the flag byte of R197. -/
structure QueuedNotice where
  source : Source
  flags : BitVec 8
deriving DecidableEq, Repr

/-- The notice in transmission, with the payload its snapshot fixed (R166, R167) and the refused
count that a RESULTS snapshot took (R115). -/
structure InFlight where
  source : Source
  flags : BitVec 8
  payload : List Byte
  refusedTaken : Nat
deriving DecidableEq, Repr

/-- POWER, SOFT (R193). -/
inductive RestartCause
  | power
  | soft
deriving DecidableEq, Repr

/-- The notice queue (chapter 10). -/
structure NoticeQueue where
  queued : List QueuedNotice
  inFlight : Option InFlight
  credits : Nat
  sequence : BitVec 16
  cause : RestartCause
deriving DecidableEq, Repr

/-! ## Host link (11_host_link_and_requests.md) -/

/-- The four line rates (R175). -/
inductive LineRate
  | r115200
  | r460800
  | r1000000
  | r3000000
deriving DecidableEq, Repr

/-- HUNTING, or IN_FRAME with the partial frame (SYNC, then the LEN once received, then the bytes
after it) and the last byte tick (R179). -/
inductive Receiver
  | hunting
  | inFrame (bytes : List Byte) (lastByte : Tick)
deriving DecidableEq, Repr

/-- A character in progress on RXD (R175): the tick at which its start bit began, and the levels sampled
so far, the start bit's first. -/
structure Character where
  start : Tick
  bits : List Level
deriving DecidableEq, Repr

/-- NONE, IN_BREAK (R187). -/
inductive BreakState
  | none
  | inBreak
deriving DecidableEq, Repr

/-- A request in the intake queue (R180). -/
structure Request where
  tag : Byte
  code : Byte
  payload : List Byte
deriving DecidableEq, Repr

/-- A reply in the reply queue (R184). -/
structure Reply where
  tag : Byte
  code : Byte
  payload : List Byte
deriving DecidableEq, Repr

/-- Idle, or sending one frame: its bytes, the tick its first byte began, and whether it is a
notice. The bytes still to send follow from the start tick and the line rate (R177). -/
inductive Transmitter
  | idle
  | sending (frame : List Byte) (start : Tick) (isNotice : Bool)
deriving DecidableEq, Repr

/-- The six link counters, 0 to 65,535 each, saturating (R182). -/
structure LinkCounters where
  stray : Nat
  badLength : Nat
  truncated : Nat
  badCheck : Nat
  wrongClass : Nat
  overrun : Nat
deriving DecidableEq, Repr

/-- The host link (chapter 11). -/
structure Link where
  rate : LineRate
  /-- Whether initialisation has ended (R176). -/
  initialised : Bool
  receiver : Receiver
  /-- Line-low count, 0 to 80,000 (R187). -/
  lineLow : Nat
  breakState : BreakState
  intake : List Request
  replies : List Reply
  transmitter : Transmitter
  counters : LinkCounters
  /-- The pin RXD at the present tick. -/
  rxd : Level
  /-- The character in progress on RXD (R175). -/
  character : Option Character
  /-- The byte completed on RXD at the present tick and not examined yet (R175, R179). -/
  completed : Option Byte
  /-- Model's own (assumption 8): RXD has returned high in IN_BREAK, so the link reset is due. -/
  resetDue : Bool
  /-- Model's own (assumption 9): the dispatcher has executed a request at the present tick. -/
  executed : Bool
deriving DecidableEq, Repr

/-! ## The machine -/

/-- The whole device, and the commands that wait for it. -/
structure State where
  timebase : Timebase
  channels : Vector Channel 8
  captures : Vector CaptureQueue 8
  jobs : Vector Job 32
  deadlines : DeadlineList
  results : ResultQueue
  /-- The pin ALERT: true while asserted, that is driven low (R130). -/
  alert : Bool
  notices : NoticeQueue
  link : Link
  /-- Model's own (assumption 1): the commands that wait, first in first out. -/
  pending : List Instr
deriving DecidableEq, Repr

/-- Why the machine stops with a fault. There is no such reason: the spec names no condition that
stops the device, and every command has its effect or, where its event does not take place, none
(assumption 2). -/
inductive Fault
deriving DecidableEq, Repr

/-- Why a command is refused by the model. -/
inductive Refusal
  /-- Raised by an arm of exec whose row has no meaning in this model; safe. No arm raises it. -/
  | notModelled (mnemonic : String)
deriving DecidableEq, Repr

/-- What a meaning answers. -/
abbrev Out := Host.Outcome State Fault Refusal

/-! ## Reset values -/

/-- R13. -/
def Timebase.reset : Timebase where
  tick := 0
  state := .start
  sinceEdge := 80
  regain := none
  lastAbnormal := none
  abnormalAge := 0
  holdoverEntries := 0
  lossDue := false
  lossTaken := false

/-- R30, with the level the pin has, which no reset changes. -/
def Channel.reset (input : Nat) : Channel where
  state := .disabled
  highCode := 528
  lowCode := 496
  filter := 0
  comparator := .low
  accepted := none
  pending := none
  inTransit := []
  glitches := 0
  returnState := none
  lastProbe := none
  probe := none
  input := input
  sample := none

/-- R150. -/
def CaptureQueue.reset : CaptureQueue where
  depth := 0
  entries := []
  policy := .keepOld
  select := .none
  watermark := 0
  loss := 0
  gapPending := false

/-- The accumulators of R60, and of a measurement that opens (R62). -/
def Accumulators.cleared : Accumulators where
  count := 0
  firstEdge := none
  lastProgress := none
  sum := 0
  min := none
  max := none
  pendingStart := none
  skipped := 0
  total := 0

/-- R60. -/
def Job.reset : Job where
  state := .free
  subMode := none
  armingTick := none
  definition := none
  settle := none
  startBase := none
  openTick := none
  next := none
  acc := .cleared
  held := []
  pendingMissed := 0
  sequence := 0
  lostPending := 0
  lostTotal := 0
  missedTotal := 0
  window := none
  alert := .inside
  latest := none

/-- R104. -/
def DeadlineList.reset : DeadlineList where
  entries := []
  reservations := 0

/-- R121. -/
def ResultQueue.reset : ResultQueue where
  records := []
  watermark := 1
  refused := 0

/-- R172, with RESTARTED raised (flag bit 0 of DEVICE, R197). -/
def NoticeQueue.reset : NoticeQueue where
  queued := [⟨.device, 0x01#8⟩]
  inFlight := none
  credits := 1
  sequence := 0
  cause := .power

/-- R176 and R182. -/
def LinkCounters.zero : LinkCounters where
  stray := 0
  badLength := 0
  truncated := 0
  badCheck := 0
  wrongClass := 0
  overrun := 0

/-- R176: initialisation begins, with the rate the straps give and RXD as it stands. -/
def Link.reset (rate : LineRate) (rxd : Level) : Link where
  rate := rate
  initialised := false
  receiver := .hunting
  lineLow := 0
  breakState := .none
  intake := []
  replies := []
  transmitter := .idle
  counters := .zero
  rxd := rxd
  character := none
  completed := none
  resetDue := false
  executed := false

/-- The machine right after power reset, before tick 0 is counted. DESIGN CHOICE (assumption 3):
the inputs rest at 0 V, RXD rests high and the straps are both low, which the spec leaves to the
board. -/
def State.reset : State where
  timebase := .reset
  channels := Vector.replicate 8 (.reset 0)
  captures := Vector.replicate 8 .reset
  jobs := Vector.replicate 32 .reset
  deadlines := .reset
  results := .reset
  alert := false
  notices := .reset
  link := .reset .r115200 .high
  pending := []

end Sys2Proof.Machine
end

