-- ==== Sys2Proof/Machine/Ticks.lean ====
section
/-! DEFINITION. Tick arithmetic (R3), saturating counters, and banks of like things. -/

namespace Sys2Proof.Machine

/-- The tick `n` ticks after `t`, modulo 2^48. -/
def tickAfter (t : Tick) (n : Nat) : Tick := t + BitVec.ofNat 48 n

/-- The tick `n` ticks before `t`, modulo 2^48. -/
def tickBefore (t : Tick) (n : Nat) : Tick := t - BitVec.ofNat 48 n

/-- The distance from `b` forward to `a`, (a - b) mod 2^48 (R3). -/
def distance (b a : Tick) : Nat := (a - b).toNat

/-- `a` is not earlier than `b` (R3). -/
def notEarlier (a b : Tick) : Bool := distance b a < Config.halfRange

/-- A 16-bit saturating counter raised by `n` (section 8 "Numbers"). -/
def saturate (counter n : Nat) : Nat := min (counter + n) Config.counterMax

/-- A bank with one function applied to each of its members. -/
def mapBank {α β : Type} {n : Nat} (f : α → β) (bank : Vector α n) : Vector β n :=
  ⟨⟨bank.toList.map f⟩, by simp⟩

/-- Some member of a bank satisfies `p`. -/
def anyIn {α : Type} {n : Nat} (p : α → Bool) (bank : Vector α n) : Bool := bank.toList.any p

/-- How many members of a bank satisfy `p`. -/
def countIn {α : Type} {n : Nat} (p : α → Bool) (bank : Vector α n) : Nat := bank.toList.countP p

/-- The sum of a measure over a bank. -/
def sumIn {α : Type} {n : Nat} (f : α → Nat) (bank : Vector α n) : Nat := (bank.toList.map f).sum

end Sys2Proof.Machine
end

