-- ==== Sys2Proof/Machine/Flags.lean ====
section
/-! DEFINITION. The notice flags of each source with their bits (R162, R197), and raising them
(R163); the flag byte of a result record (R195). -/

namespace Sys2Proof.Machine

/-- The flags of a JOB source. -/
inductive JobFlag
  | out
  | back
  | stall
  | missed
  | span
  | target
  | ended
deriving DecidableEq, Repr

/-- The flags of a CHANNEL source. -/
inductive ChannelFlag
  | watermark
  | loss
  | probeDone
deriving DecidableEq, Repr

/-- The flags of the RESULTS source. -/
inductive ResultsFlag
  | waiting
  | full
deriving DecidableEq, Repr

/-- The flags of the DEVICE source. -/
inductive DeviceFlag
  | restarted
  | linkError
  | intakeOverrun
  | linkReset
  | refLost
  | refGood
deriving DecidableEq, Repr

/-- Flag bits of JOB: 0 OUT, 1 IN (`back`), 2 STALL, 3 MISSED, 4 SPAN, 5 TARGET, 6 ENDED (R197). -/
def JobFlag.mask : JobFlag → BitVec 8
  | .out => 0x01#8
  | .back => 0x02#8
  | .stall => 0x04#8
  | .missed => 0x08#8
  | .span => 0x10#8
  | .target => 0x20#8
  | .ended => 0x40#8

/-- Flag bits of CHANNEL: 0 WATERMARK, 1 LOSS, 2 PROBE_DONE (R197). -/
def ChannelFlag.mask : ChannelFlag → BitVec 8
  | .watermark => 0x01#8
  | .loss => 0x02#8
  | .probeDone => 0x04#8

/-- Flag bits of RESULTS: 0 WAITING, 1 FULL (R197). -/
def ResultsFlag.mask : ResultsFlag → BitVec 8
  | .waiting => 0x01#8
  | .full => 0x02#8

/-- Flag bits of DEVICE: 0 RESTARTED, 1 LINK_ERROR, 2 INTAKE_OVERRUN, 3 LINK_RESET, 4 REF_LOST,
5 REF_GOOD (R197). -/
def DeviceFlag.mask : DeviceFlag → BitVec 8
  | .restarted => 0x01#8
  | .linkError => 0x02#8
  | .intakeOverrun => 0x04#8
  | .linkReset => 0x08#8
  | .refLost => 0x10#8
  | .refGood => 0x20#8

/-- R163: flags join the source's queued notice, or make a new notice at the tail. -/
def mergeNotice (source : Source) (flags : BitVec 8) : List QueuedNotice → List QueuedNotice
  | [] => [⟨source, flags⟩]
  | n :: rest =>
    if n.source = source then ⟨source, n.flags ||| flags⟩ :: rest
    else n :: mergeNotice source flags rest

/-- Flags raised against a source (R163). -/
def State.raise (s : State) (source : Source) (flags : BitVec 8) : State :=
  { s with notices := { s.notices with queued := mergeNotice source flags s.notices.queued } }

/-- A JOB flag, raised against the slot's own source (R162). -/
def State.raiseJob (s : State) (slot : Fin 32) (f : JobFlag) : State := s.raise (.job slot) f.mask

/-- A CHANNEL flag, raised against the channel's own source (R162). -/
def State.raiseChannel (s : State) (ch : Fin 8) (f : ChannelFlag) : State :=
  s.raise (.channel ch) f.mask

/-- A RESULTS flag. -/
def State.raiseResults (s : State) (f : ResultsFlag) : State := s.raise .results f.mask

/-- A DEVICE flag. -/
def State.raiseDevice (s : State) (f : DeviceFlag) : State := s.raise .device f.mask

/-- The value 1 of a set bit, of a yes, of a present field. -/
def bit (b : Bool) : Nat := if b then 1 else 0

/-- Min and max of a record, which are present together (R86, R195). -/
def Record.minMax (r : Record) : Option (Nat × Nat) :=
  match r.min, r.max with
  | some lo, some hi => some (lo, hi)
  | _, _ => none

/-- The flags byte of a result record (R195): HOLDOVER, LIMIT_OUT, and which optional fields follow. -/
def Record.flagsByte (r : Record) : Nat :=
  bit r.holdover + 2 * bit r.limitOut + 4 * bit r.minMax.isSome + 8 * bit r.total.isSome
    + 16 * bit r.skipped.isSome

end Sys2Proof.Machine
end

