-- ==== Sys2Proof/Machine/Frames.lean ====
section
/-! DEFINITION. Frames (R177), their CRC (R178), their characters (R175), and the byte layouts of
values, records, capture entries, notices and job replies (R192 to R198). -/

namespace Sys2Proof.Machine

/-! ## Bytes -/

/-- `n` as `size` bytes, little-endian (section 8 "Numbers"). -/
def leBytes : (size : Nat) → (n : Nat) → List Byte
  | 0, _ => []
  | k + 1, n => BitVec.ofNat 8 n :: leBytes k (n / 256)

/-- The number that bytes spell, little-endian. -/
def leNat : List Byte → Nat
  | [] => 0
  | b :: rest => b.toNat + 256 * leNat rest

/-- A tick value, 6 bytes. -/
def tickBytes (t : Tick) : List Byte := leBytes 6 t.toNat

/-- An optional field: omitted when absent. -/
def optBytes {α : Type} (f : α → List Byte) : Option α → List Byte
  | none => []
  | some a => f a

/-! ## Frames -/

/-- SYNC (R177). -/
def frameSync : Byte := 0xC3#8

/-- A LEN from 3 to 252 is stored in the partial frame (R179). -/
def lengthOk (b : Byte) : Bool := 3 ≤ b.toNat && b.toNat ≤ 252

/-- One shift of the CRC register for the top bit of `data` (R178). -/
def crcShift (crc : BitVec 16) (data : Bool) : BitVec 16 :=
  if crc.msb ^^ data then (crc <<< 1) ^^^ 0x1021#16 else crc <<< 1

/-- One byte through the CRC register, most significant bit first (R178). -/
def crcByte (crc : BitVec 16) (b : Byte) : BitVec 16 :=
  [7, 6, 5, 4, 3, 2, 1, 0].foldl (fun c i => crcShift c (b.getLsbD i)) crc

/-- The CRC of R178 over bytes. -/
def crc16 (bytes : List Byte) : BitVec 16 := bytes.foldl crcByte 0xFFFF#16

/-- A frame (R177): SYNC, LEN, CLASS, TAG, CODE, payload, CHECK low byte first. -/
def frameBytes (cls tag code : Byte) (payload : List Byte) : List Byte :=
  let body := BitVec.ofNat 8 (payload.length + 3) :: cls :: tag :: code :: payload
  frameSync :: body ++ leBytes 2 (crc16 body).toNat

/-- CLASS of a request, a reply and a notice (R177). -/
def classRequest : Byte := 0x01#8
def classReply : Byte := 0x02#8
def classNotice : Byte := 0x03#8

/-- The bits of one character in the order they stand on the line: a low start bit, eight data bits
with the least significant first, a high stop bit (R175). -/
def charBits (b : Byte) : List Level :=
  .low :: [0, 1, 2, 3, 4, 5, 6, 7].map (fun i => if b.getLsbD i then .high else .low) ++ [.high]

/-- The line rate in bit/s (R175). -/
def LineRate.bitsPerSecond : LineRate → Nat
  | .r115200 => 115200
  | .r460800 => 460800
  | .r1000000 => 1000000
  | .r3000000 => 3000000

/-- The line rate the straps RATE1 and RATE0 give (R175). -/
def strapRate : (rate1 rate0 : Bool) → LineRate
  | false, false => .r115200
  | false, true => .r460800
  | true, false => .r1000000
  | true, true => .r3000000

/-- Ticks from the start of a frame to the completion of its `k`th byte: `k` times 10 bit times
(R177) of 40,000,000 ticks per second. Where that is no whole number the byte is completed at one of
the two neighbouring ticks, and which is free (assumption 4). -/
def byteEnd (rate : LineRate) (k : Nat) : Nat :=
  let ticks := k * 400000000
  let bps := rate.bitsPerSecond
  if ticks % bps = 0 then ticks / bps
  else ticks / bps + bit (Config.roundsUp bps k)

/-- Ticks from the start of a character on RXD to the sample of the bit at `place`, 0 the start bit: within
that bit's time of 40,000,000 ticks per second over the rate (R175). Where in the bit is free
(assumption 28). -/
def sampleOffset (rate : LineRate) (place : Nat) : Nat :=
  let bps := rate.bitsPerSecond
  (place * 40000000 + bps - 1) / bps + Config.samplePoint bps place % (40000000 / bps)

/-! ## Codes (R192, R193) -/

/-- Reply codes (R192). -/
inductive ReplyCode
  | ok
  | accepted
  | unknownRequest
  | badLength
  | badValue
  | badIndex
  | jobRunning
  | jobFree
  | channelBusy
  | channelInUse
  | channelDisabled
  | startLate
  | poolExhausted
  | deadlinesExhausted
deriving DecidableEq, Repr

/-- R192. -/
def ReplyCode.toByte : ReplyCode → Byte
  | .ok => 0x00#8
  | .accepted => 0x01#8
  | .unknownRequest => 0x10#8
  | .badLength => 0x11#8
  | .badValue => 0x12#8
  | .badIndex => 0x13#8
  | .jobRunning => 0x20#8
  | .jobFree => 0x21#8
  | .channelBusy => 0x23#8
  | .channelInUse => 0x24#8
  | .channelDisabled => 0x25#8
  | .startLate => 0x26#8
  | .poolExhausted => 0x30#8
  | .deadlinesExhausted => 0x31#8

def Kind.toCode : Kind → Nat
  | .freqFixed => 0 | .freqSync => 1 | .period => 2 | .width => 3 | .phase => 4 | .tally => 5

def Select.toCode : Select → Nat
  | .none => 0 | .rise => 1 | .fall => 2 | .both => 3

def Repeat.toCode : Repeat → Nat
  | .once => 0 | .continuous => 1 | .periodic => 2

/-- The sub-mode, "as the start mode codes" (R198). -/
def ArmedMode.toCode : ArmedMode → Nat
  | .at => 1 | .onEdge => 2

def JobState.toCode : JobState → Nat
  | .free => 0 | .idle => 1 | .armed => 2 | .active => 3 | .hold => 4 | .done => 5

def RecordStatus.toCode : RecordStatus → Nat
  | .complete => 0 | .interim => 1 | .target => 2 | .stalled => 3 | .partialStop => 4
  | .spanLimit => 5

def RestartCause.toCode : RestartCause → Nat
  | .power => 0 | .soft => 1

def Purpose.toCode : Purpose → Nat
  | .start => 0 | .close => 1 | .stall => 2 | .report => 3

def AlertState.toCode : AlertState → Nat
  | .inside => 0 | .outside => 1

/-- R12. -/
def TimebaseState.toCode : TimebaseState → Nat
  | .start => 0 | .normal => 1 | .holdover => 2

/-- R27. -/
def ChannelState.toCode : ChannelState → Nat
  | .disabled => 0 | .enabled => 1 | .probing => 2

/-- R154. -/
def ReturnState.toCode : ReturnState → Nat
  | .disabled => 0 | .enabled => 1

/-- R27, R197. -/
def ProbeStatus.toCode : ProbeStatus → Nat
  | .done => 0 | .cancelled => 1

/-- R26, R27: 0 LOW, 1 HIGH, 2 absent. -/
def levelCode : Option Level → Nat
  | some .low => 0 | some .high => 1 | none => 2

/-- R196. -/
def Polarity.toCode : Polarity → Nat
  | .rise => 0 | .fall => 1

def kindOf : Nat → Option Kind
  | 0 => some .freqFixed | 1 => some .freqSync | 2 => some .period | 3 => some .width
  | 4 => some .phase | 5 => some .tally | _ => none

def selectOf : Nat → Option Select
  | 0 => some .none | 1 => some .rise | 2 => some .fall | 3 => some .both | _ => none

def repeatOf : Nat → Option Repeat
  | 0 => some .once | 1 => some .continuous | 2 => some .periodic | _ => none

/-! ## Layouts (R194 to R198) -/

/-- The definition, 31 bytes: R194 from offset 1. -/
def Definition.bytes (d : Definition) : List Byte :=
  leBytes 1 d.kind.toCode ++ leBytes 1 d.channelA.val ++ leBytes 1 d.selectA.toCode
    ++ leBytes 1 d.channelB.val ++ leBytes 1 d.selectB.toCode ++ leBytes 4 d.gate
    ++ leBytes 2 d.count ++ leBytes 4 d.report ++ leBytes 6 d.target ++ leBytes 4 d.stall
    ++ leBytes 1 d.repeating.toCode ++ leBytes 4 d.period ++ leBytes 1 (bit d.queueResults)

/-- Min, then max, 6 bytes each. -/
def minMaxBytes (m : Nat × Nat) : List Byte := leBytes 6 m.1 ++ leBytes 6 m.2

/-- A result record (R195). A total or a value past the range of its field stands modulo that range
(assumptions 27 and 33). -/
def Record.bytes (r : Record) : List Byte :=
  leBytes 1 r.slot.val ++ leBytes 4 r.sequence.toNat ++ leBytes 1 r.kind.toCode
    ++ leBytes 1 r.status.toCode ++ leBytes 1 r.flagsByte ++ leBytes 2 r.lostBefore
    ++ leBytes 2 r.missed ++ tickBytes r.startTick ++ tickBytes r.endTick ++ leBytes 4 r.count
    ++ leBytes 6 r.span ++ leBytes 8 r.value
    ++ optBytes minMaxBytes r.minMax ++ optBytes (leBytes 6) r.total
    ++ optBytes (leBytes 2) r.skipped

/-- A capture entry (R196). -/
def CaptureEntry.bytes (e : CaptureEntry) : List Byte :=
  tickBytes e.timestamp ++ leBytes 1 (e.polarity.toCode + 2 * bit e.gapBefore)

/-- The six link counters, two bytes each, in the order of R190 and R197. -/
def LinkCounters.bytes (c : LinkCounters) : List Byte :=
  leBytes 2 c.stray ++ leBytes 2 c.badLength ++ leBytes 2 c.truncated ++ leBytes 2 c.badCheck
    ++ leBytes 2 c.wrongClass ++ leBytes 2 c.overrun

/-- The notice CODE of a source's kind (R192). -/
def Source.code : Source → Byte
  | .job _ => 0x01#8
  | .channel _ => 0x02#8
  | .results => 0x03#8
  | .device => 0x04#8

/-- The source index of a notice (R197). -/
def Source.index : Source → Nat
  | .job slot => slot.val
  | .channel ch => ch.val
  | .results => 0
  | .device => 0

/-- Min and max of the accumulators, which R198 reports together. -/
def Accumulators.minMax (a : Accumulators) : Option (Nat × Nat) :=
  match a.min, a.max with
  | some lo, some hi => some (lo, hi)
  | _, _ => none

/-- The limit window in a JOB_GET reply, 26 bytes (R198). -/
def Window.bytes (w : Window) : List Byte :=
  leBytes 8 w.low ++ leBytes 8 w.high ++ leBytes 8 w.band ++ leBytes 1 (bit w.stallOut)
    ++ leBytes 1 (bit w.drive)

/-- A boundary in a JOB_GET reply, 7 bytes (R198). -/
def Boundary.bytes (b : Boundary) : List Byte := leBytes 1 b.purpose.toCode ++ tickBytes b.tick

/-- The presence word of a JOB_GET reply (R198). -/
def Job.presence (j : Job) : Nat :=
  bit j.subMode.isSome + 2 * bit j.definition.isSome + 4 * bit j.settle.isSome
    + 8 * bit j.startBase.isSome + 16 * bit j.openTick.isSome + 32 * bit j.next.isSome
    + 64 * bit j.acc.firstEdge.isSome + 128 * bit j.acc.lastProgress.isSome
    + 256 * bit j.acc.minMax.isSome + 512 * bit j.acc.pendingStart.isSome
    + 1024 * bit j.window.isSome + 2048 * bit j.latest.isSome

/-- The JOB_GET reply payload (R59, R198). -/
def Job.getBytes (slot : Fin 32) (j : Job) : List Byte :=
  leBytes 1 slot.val ++ leBytes 1 j.state.toCode ++ leBytes 2 j.presence
    ++ optBytes (fun m => leBytes 1 m.toCode) j.subMode
    ++ optBytes Definition.bytes j.definition
    ++ optBytes (leBytes 2) j.settle
    ++ optBytes tickBytes j.startBase
    ++ optBytes tickBytes j.openTick
    ++ optBytes Boundary.bytes j.next
    ++ leBytes 4 j.acc.count
    ++ optBytes tickBytes j.acc.firstEdge
    ++ optBytes tickBytes j.acc.lastProgress
    ++ leBytes 8 j.acc.sum
    ++ optBytes minMaxBytes j.acc.minMax
    ++ optBytes tickBytes j.acc.pendingStart
    ++ leBytes 2 j.acc.skipped
    ++ leBytes 6 j.acc.total
    ++ leBytes 4 j.sequence.toNat
    ++ leBytes 2 j.lostPending ++ leBytes 2 j.lostTotal ++ leBytes 2 j.missedTotal
    ++ leBytes 2 j.pendingMissed
    ++ leBytes 1 j.alert.toCode
    ++ optBytes Window.bytes j.window
    ++ optBytes Record.bytes j.latest

end Sys2Proof.Machine
end

