-- ==== Sys2Proof/Machine/Operands.lean ====
section
/-! DEFINITION. The operands of a request: its CODE (R192), the fields of its payload, and the
dispatcher's generic checks (R185). -/

namespace Sys2Proof.Machine

/-- The requests (R192). -/
inductive RequestCode
  | describe
  | status
  | time
  | grant
  | softReset
  | chanSet
  | chanGet
  | probe
  | captureSet
  | captureRead
  | captureFlush
  | jobDefine
  | jobStart
  | jobStop
  | jobClear
  | jobGet
  | resultFetch
  | resultSetup
  | resultFlush
  | limitSet
deriving DecidableEq, Repr

/-- The request code of R192 that a CODE byte is. -/
def requestCodeOf (code : Byte) : Option RequestCode :=
  match code.toNat with
  | 0x01 => some .describe
  | 0x02 => some .status
  | 0x03 => some .time
  | 0x04 => some .grant
  | 0x05 => some .softReset
  | 0x10 => some .chanSet
  | 0x11 => some .chanGet
  | 0x12 => some .probe
  | 0x18 => some .captureSet
  | 0x19 => some .captureRead
  | 0x1A => some .captureFlush
  | 0x20 => some .jobDefine
  | 0x21 => some .jobStart
  | 0x22 => some .jobStop
  | 0x23 => some .jobClear
  | 0x24 => some .jobGet
  | 0x28 => some .resultFetch
  | 0x29 => some .resultSetup
  | 0x2A => some .resultFlush
  | 0x2C => some .limitSet
  | _ => none

/-- The payload length of each request (R185). -/
def RequestCode.payloadLength : RequestCode → Nat
  | .describe | .time | .softReset | .resultFlush => 0
  | .status | .grant | .resultFetch | .resultSetup => 1
  | .jobClear | .jobGet | .captureFlush => 1
  | .jobStop | .chanGet | .captureRead => 2
  | .probe => 4
  | .chanSet | .captureSet => 7
  | .jobStart => 8
  | .limitSet => 28
  | .jobDefine => 32

/-- The field of `size` bytes at `offset` of a payload, little-endian. -/
def field (payload : List Byte) (offset size : Nat) : Nat :=
  leNat ((payload.drop offset).take size)

/-- The channel that field 1 names; the generic checks have passed, so it is below 8. -/
def channelField (payload : List Byte) : Fin 8 := Fin.ofNat 8 (field payload 0 1)

/-- The slot that field 1 names; the generic checks have passed, so it is below 32. -/
def slotField (payload : List Byte) : Fin 32 := Fin.ofNat 32 (field payload 0 1)

/-- R185, third check: the index of the lowest field that names a slot above 31 or a channel
above 7. -/
def RequestCode.badIndex (code : RequestCode) (payload : List Byte) : Option Nat :=
  match code with
  | .describe | .time | .softReset | .resultFlush => none
  | .status | .grant | .resultFetch | .resultSetup => none
  | .jobClear | .jobGet | .jobStop | .jobStart | .limitSet =>
    if field payload 0 1 > 31 then some 1 else none
  | .captureFlush | .chanGet | .captureRead | .probe | .chanSet | .captureSet =>
    if field payload 0 1 > 7 then some 1 else none
  | .jobDefine =>
    if field payload 0 1 > 31 then some 1
    else if field payload 2 1 > 7 then some 3
    else none

/-- R185, second and third check: the refusal, if there is one, and its detail. -/
def genericCheck (code : RequestCode) (payload : List Byte) : Option (ReplyCode × Nat) :=
  if payload.length ≠ code.payloadLength then some (.badLength, 0)
  else
    match code.badIndex payload with
    | some i => some (.badIndex, i)
    | none => none

/-- The action of a PROBE asks for CANCEL (R153, check 1). -/
def probeCancels (payload : List Byte) : Bool :=
  payload.length == RequestCode.payloadLength .probe && field payload 1 1 == 1

/-! ## JOB_DEFINE (R34 to R36) -/

/-- A refusal with its detail. -/
abbrev Check := Option (ReplyCode × Nat)

/-- BAD_VALUE with the field's index unless the condition holds. -/
def require (ok : Bool) (index : Nat) : Check := if ok then none else some (.badValue, index)

/-- The first check of a list that fails. -/
def firstFailure : List Check → Check
  | [] => none
  | none :: rest => firstFailure rest
  | some r :: _ => some r

/-- Kinds with a stall boundary and a stall T (R35, field 11). -/
def Kind.stalls : Kind → Bool
  | .freqSync | .period | .width | .phase => true
  | .freqFixed | .tally => false

/-- Kinds that count to N (R35, field 8). -/
def Kind.countsToN : Kind → Bool
  | .period | .width | .phase => true
  | .freqFixed | .freqSync | .tally => false

/-- Kinds with a gate G (R35, field 7). -/
def Kind.gated : Kind → Bool
  | .freqFixed | .freqSync => true
  | .period | .width | .phase | .tally => false

/-- The raw fields of JOB_DEFINE at the offsets of R194. -/
structure RawDefinition where
  kind : Nat
  channelA : Nat
  selectA : Nat
  channelB : Nat
  selectB : Nat
  gate : Nat
  count : Nat
  report : Nat
  target : Nat
  stall : Nat
  repeating : Nat
  period : Nat
  queueResults : Nat
deriving DecidableEq, Repr

/-- R194. -/
def rawDefinition (p : List Byte) : RawDefinition where
  kind := field p 1 1
  channelA := field p 2 1
  selectA := field p 3 1
  channelB := field p 4 1
  selectB := field p 5 1
  gate := field p 6 4
  count := field p 10 2
  report := field p 12 4
  target := field p 16 6
  stall := field p 22 4
  repeating := field p 26 1
  period := field p 27 4
  queueResults := field p 31 1

/-- R35, field 4. -/
def checkSelectA (k : Kind) (v : Nat) : Check :=
  require (match k with
    | .width => v == 1 || v == 2
    | .freqFixed | .freqSync | .period | .phase | .tally => 1 ≤ v && v ≤ 3) 4

/-- R34, R35 and R36, field 5. -/
def checkChannelB (k : Kind) (channelA v : Nat) : Check :=
  if k = .phase then
    if v > 7 then some (.badIndex, 5) else require (v != channelA) 5
  else require (v == 0) 5

/-- R35, field 6. -/
def checkSelectB (k : Kind) (v : Nat) : Check :=
  require (if k = .phase then 1 ≤ v && v ≤ 3 else v == 0) 6

/-- R35 and R36, field 12. -/
def checkRepeat (k : Kind) (v : Nat) : Check :=
  require (if k = .tally then v ≤ 1 else v ≤ 2) 12

/-- R35 and R36, field 13. -/
def checkPeriod (k : Kind) (r : RawDefinition) : Check :=
  require (if k = .tally then r.period == 0
    else if r.repeating = 2 then 4000 ≤ r.period && (k != .freqFixed || r.gate ≤ r.period)
    else r.period == 0) 13

/-- The fields 4 to 14 of a definition of a known kind, examined in index order (R34). -/
def checkFields (k : Kind) (r : RawDefinition) : Check :=
  firstFailure
    [ checkSelectA k r.selectA,
      checkChannelB k r.channelA r.channelB,
      checkSelectB k r.selectB,
      require (if k.gated then 400 ≤ r.gate else r.gate == 0) 7,
      require (if k.countsToN then 1 ≤ r.count else r.count == 0) 8,
      require (r.report == 0 || (k == .tally && 4000 ≤ r.report)) 9,
      require (r.target == 0 || k == .tally) 10,
      require (if k.stalls then 4000 ≤ r.stall else r.stall == 0) 11,
      checkRepeat k r.repeating,
      checkPeriod k r,
      require (r.queueResults ≤ 1) 14 ]

/-- The definition that raw fields give, once they have passed their checks. -/
def RawDefinition.build (r : RawDefinition) (k : Kind) : Definition where
  kind := k
  channelA := Fin.ofNat 8 r.channelA
  selectA := (selectOf r.selectA).getD .none
  channelB := Fin.ofNat 8 r.channelB
  selectB := (selectOf r.selectB).getD .none
  gate := r.gate
  count := r.count
  report := r.report
  target := r.target
  stall := r.stall
  repeating := (repeatOf r.repeating).getD .once
  period := r.period
  queueResults := r.queueResults == 1

/-- R34, check 3: the definition a payload gives, or the refusal of its first failing field. -/
def readDefinition (payload : List Byte) : Except (ReplyCode × Nat) Definition :=
  let r := rawDefinition payload
  match kindOf r.kind with
  | none => .error (.badValue, 2)
  | some k =>
    match checkFields k r with
    | some refusal => .error refusal
    | none => .ok (r.build k)

end Sys2Proof.Machine
end

