-- ==== Sys2Proof/Machine/Ops.lean ====
section
/-! DEFINITION. The named operations over the state: reading and writing a channel, a capture queue
and a job slot; comparator and level establishment; appending to a capture queue; the deadline list;
reservations; the record path with the limit unit and the result queue. -/

namespace Sys2Proof.Machine

/-! ## Reading and writing -/

/-- Channel `ch`. -/
def State.channel (s : State) (ch : Fin 8) : Channel := s.channels.get ch

/-- Channel `ch` replaced. -/
def State.setChannel (s : State) (ch : Fin 8) (c : Channel) : State :=
  { s with channels := s.channels.set ch c }

/-- The capture queue of channel `ch`. -/
def State.capture (s : State) (ch : Fin 8) : CaptureQueue := s.captures.get ch

/-- The capture queue of channel `ch` replaced. -/
def State.setCapture (s : State) (ch : Fin 8) (q : CaptureQueue) : State :=
  { s with captures := s.captures.set ch q }

/-- Job slot `slot`. -/
def State.job (s : State) (slot : Fin 32) : Job := s.jobs.get slot

/-- Job slot `slot` replaced. -/
def State.setJob (s : State) (slot : Fin 32) (j : Job) : State :=
  { s with jobs := s.jobs.set slot j }

/-- The tick counter. -/
def State.now (s : State) : Tick := s.timebase.tick

/-! ## Jobs and channels -/

/-- ARMED, ACTIVE and HOLD are the running states (chapter 3). -/
def JobState.running : JobState → Bool
  | .armed | .active | .hold => true
  | .free | .idle | .done => false

/-- A definition references its channel A, and its channel B for PHASE (R24). -/
def Definition.references (d : Definition) (ch : Fin 8) : Bool :=
  d.channelA == ch || (d.kind == .phase && d.channelB == ch)

/-- A job references a channel when its definition does. -/
def Job.references (j : Job) (ch : Fin 8) : Bool :=
  match j.definition with
  | some d => d.references ch
  | none => false

/-- A job in ARMED, ACTIVE or HOLD references the channel (R24). -/
def State.inUse (s : State) (ch : Fin 8) : Bool :=
  anyIn (fun j => j.state.running && j.references ch) s.jobs

/-- A select matches a polarity. -/
def Select.admits : Select → Polarity → Bool
  | .none, _ => false
  | .rise, .rise => true
  | .rise, .fall => false
  | .fall, .rise => false
  | .fall, .fall => true
  | .both, _ => true

/-- An abnormal tick occurred at or after tick `t` (R9). -/
def Timebase.abnormalSince (tb : Timebase) (t : Tick) : Bool :=
  tb.lastAbnormal.isSome && tb.abnormalAge ≤ distance t tb.tick

/-! ## Comparator -/

/-- The input is above the level of a threshold code. -/
def above (input code : Nat) : Bool := 2 * code < input

/-- The input is below the level of a threshold code. -/
def below (input code : Nat) : Bool := input < 2 * code

/-- The output a comparator is set to from the input alone (R15, R155). -/
def setOutput (input code : Nat) : Level := if above input code then .high else .low

/-- The output that follows the input across a high and a low level, with hysteresis (R14). With
equal codes it is the probe's single threshold (R155). -/
def followInput (output : Level) (input high low : Nat) : Level :=
  match output with
  | .low => if above input high then .high else .low
  | .high => if below input low then .low else .high

/-- The level is established at this tick, with the thresholds now in force (R15). -/
def Channel.establish (c : Channel) : Channel :=
  let output := setOutput c.input c.highCode
  { c with state := .enabled, comparator := output, pending := none, inTransit := [],
           accepted := some output, sample := none }

/-- The channel becomes, or stays, DISABLED (R21). -/
def Channel.disable (c : Channel) : Channel :=
  { c with state := .disabled, pending := none, inTransit := [], accepted := none, sample := none }

/-- The channel leaves PROBING for its return state (R23). -/
def Channel.endProbe (c : Channel) : Channel :=
  let freed := { c with probe := none, returnState := none }
  match c.returnState with
  | some .enabled => freed.establish
  | some .disabled => freed.disable
  | none => freed.disable

/-! ## Capture pool (R135 to R142) -/

/-- The free cells: 512 less the sum of the depths (R135). -/
def State.freeCells (s : State) : Nat := Config.captureCells - sumIn CaptureQueue.depth s.captures

/-- The head of a queue marked gap-before (R140, step 3). -/
def markHead : List CaptureEntry → List CaptureEntry
  | [] => []
  | e :: rest => { e with gapBefore := true } :: rest

/-- A logged edge offered to a queue that has room (R138). -/
def CaptureQueue.append (q : CaptureQueue) (e : AcceptedEdge) : CaptureQueue :=
  { q with entries := q.entries ++ [⟨e.timestamp, e.polarity, q.gapPending⟩], gapPending := false }

/-- A logged edge dropped by a full KEEP_OLD queue (R139). -/
def CaptureQueue.drop (q : CaptureQueue) : CaptureQueue :=
  { q with loss := saturate q.loss 1, gapPending := true }

/-- A logged edge that displaces the head of a full KEEP_NEW queue (R140). -/
def CaptureQueue.displace (q : CaptureQueue) (e : AcceptedEdge) : CaptureQueue :=
  { q with
    entries := markHead (q.entries.drop 1 ++ [⟨e.timestamp, e.polarity, q.gapPending⟩])
    gapPending := false
    loss := saturate q.loss 1 }

/-- An accepted edge arrives at the capture pool (R137 to R142). A queue of depth 0 logs nothing
(R135); its select is NONE (R144). -/
def State.logEdge (s : State) (e : AcceptedEdge) : State :=
  let q := s.capture e.channel
  if !q.select.admits e.polarity || q.depth = 0 then s
  else if q.entries.length < q.depth then
    let q' := q.append e
    let s' := s.setCapture e.channel q'
    if q.watermark > 0 && q'.entries.length = q.watermark then s'.raiseChannel e.channel .watermark
    else s'
  else
    match q.policy with
    | .keepOld => (s.setCapture e.channel q.drop).raiseChannel e.channel .loss
    | .keepNew => (s.setCapture e.channel (q.displace e)).raiseChannel e.channel .loss

/-! ## Held edges (R45) -/

/-- Edge `x`, held already, stands before edge `e`, which arrives: an earlier timestamp, or an equal
one unless `e` is of channel A and `x` is not (R45). -/
def heldBefore (channelA : Fin 8) (x e : AcceptedEdge) : Bool :=
  if x.timestamp = e.timestamp then !(e.channel == channelA && x.channel != channelA)
  else !notEarlier x.timestamp e.timestamp

/-- An edge placed among the held edges of a job, in timestamp order (R45). -/
def insertHeld (channelA : Fin 8) (e : AcceptedEdge) : List AcceptedEdge → List AcceptedEdge
  | [] => [e]
  | x :: rest => if heldBefore channelA x e then x :: insertHeld channelA e rest else e :: x :: rest

/-- An edge that arrives at the job table is given to a job that runs and references its channel. -/
def Job.hold (e : AcceptedEdge) (j : Job) : Job :=
  match j.definition with
  | some d =>
    if j.state.running && d.references e.channel then
      { j with held := insertHeld d.channelA e j.held }
    else j
  | none => j

/-- An accepted edge arrives at the job table (R45). -/
def State.holdEdge (s : State) (e : AcceptedEdge) : State :=
  { s with jobs := mapBank (Job.hold e) s.jobs }

/-! ## Deadline list (R91 to R102) -/

/-- An entry placed by its distance ahead of the present tick, behind entries with the same due tick
(R97). -/
def insertEntry (now : Tick) (e : Entry) : List Entry → List Entry
  | [] => [e]
  | x :: rest =>
    if distance now x.due ≤ distance now e.due then x :: insertEntry now e rest else e :: x :: rest

/-- The entries without those of one slot (R98). -/
def removeEntry (slot : Fin 32) (entries : List Entry) : List Entry :=
  entries.filter (fun x => x.slot != slot)

/-- A job takes its own entry out of the list (R98). -/
def State.dropEntry (s : State) (slot : Fin 32) : State :=
  { s with deadlines := { s.deadlines with entries := removeEntry slot s.deadlines.entries } }

/-- A job's settle; present while it runs (R41). -/
def Job.settleTicks (j : Job) : Nat := j.settle.getD 0

/-- The job's next boundary is set: its entry is removed, and one due at the boundary plus the settle
inserted (R47, R99). -/
def State.setBoundary (s : State) (slot : Fin 32) (b : Boundary) : State :=
  let j := s.job slot
  let s1 := (s.setJob slot { j with next := some b }).dropEntry slot
  let e : Entry := ⟨tickAfter b.tick j.settleTicks, slot, b.purpose⟩
  { s1 with deadlines := { s1.deadlines with entries := insertEntry s1.now e s1.deadlines.entries } }

/-- The job's next boundary becomes absent, and its entry is removed (R47). -/
def State.clearBoundary (s : State) (slot : Fin 32) : State :=
  (s.setJob slot { s.job slot with next := none }).dropEntry slot

/-- A reservation is taken (R92). -/
def State.takeReservation (s : State) : State :=
  { s with deadlines := { s.deadlines with reservations := s.deadlines.reservations + 1 } }

/-- A reservation is released (R93). -/
def State.releaseReservation (s : State) : State :=
  { s with deadlines := { s.deadlines with reservations := s.deadlines.reservations - 1 } }

/-- The job leaves the running states: its entry is removed, its next boundary becomes absent, its
held edges are discarded, the fields present only while it runs become absent, and its reservation is
released (R51, R56, R93). The accumulators and the open tick stay. -/
def State.leaveRunning (s : State) (slot : Fin 32) (state : JobState) : State :=
  let s1 := s.clearBoundary slot
  (s1.setJob slot { s1.job slot with
    state := state, subMode := none, armingTick := none, settle := none, startBase := none,
    held := [] }).releaseReservation

/-! ## ALERT (R130) -/

/-- A job with drive 1 stands OUTSIDE. -/
def Job.drivesAlert (j : Job) : Bool :=
  match j.window with
  | some w => w.drive && j.alert == .outside
  | none => false

/-- The pin is re-evaluated (R130). -/
def State.evaluateAlert (s : State) : State := { s with alert := anyIn Job.drivesAlert s.jobs }

/-! ## Limit unit (R124, R127 to R129) -/

/-- What the limit unit finds for a record. -/
inductive Verdict
  | notEvaluated
  | outside
  | margin
  | core
deriving DecidableEq, Repr

/-- The region of R124 that a value lies in. -/
def Window.region (w : Window) (value : Nat) : Verdict :=
  if value < w.low || w.high < value then .outside
  else if w.low + w.band ≤ value && value + w.band ≤ w.high then .core
  else .margin

/-- Whether and how a record is evaluated (R127). -/
def verdict (window : Option Window) (status : RecordStatus) (value : Nat) : Verdict :=
  match window with
  | none => .notEvaluated
  | some w =>
    match status with
    | .complete | .interim | .target => w.region value
    | .stalled => if w.stallOut then .outside else .notEvaluated
    | .partialStop | .spanLimit => .notEvaluated

/-- The alert state after a verdict (R128, R129). -/
def AlertState.after : AlertState → Verdict → AlertState
  | _, .outside => .outside
  | _, .core => .inside
  | a, .margin => a
  | a, .notEvaluated => a

/-- The limit unit evaluates a record of the slot: the alert state moves, OUT or IN is raised when it
changes, and the pin follows (R128 to R130). -/
def State.moveAlert (s : State) (slot : Fin 32) (v : Verdict) : State :=
  let j := s.job slot
  let moved := (s.setJob slot { j with alert := j.alert.after v }).evaluateAlert
  match j.alert, j.alert.after v with
  | .inside, .outside => moved.raiseJob slot .out
  | .outside, .inside => moved.raiseJob slot .back
  | .inside, .inside => moved
  | .outside, .outside => moved

/-! ## Record path (R106 to R112) -/

/-- A record offered to the result queue: appended with its lost_before (R111) or refused (R112). The
copy in the latest-result slot is the same record (R106). -/
def State.offerRecord (s : State) (slot : Fin 32) (r : Record) : State :=
  let j := s.job slot
  if s.results.records.length < Config.resultPlaces then
    let r' := { r with lostBefore := j.lostPending }
    let s1 := s.setJob slot { j with latest := some r', lostPending := 0 }
    let s2 := { s1 with results := { s1.results with records := s1.results.records ++ [r'] } }
    if s2.results.records.length = s2.results.watermark then s2.raiseResults .waiting else s2
  else
    let s1 := s.setJob slot { j with
      latest := some r, lostPending := saturate j.lostPending 1, lostTotal := saturate j.lostTotal 1 }
    ({ s1 with results := { s1.results with refused := saturate s1.results.refused 1 } }).raiseResults
      .full

/-- A record is handed on in one act: latest-result slot, limit unit, result queue (R106). -/
def State.handOn (s : State) (slot : Fin 32) (r : Record) (queueResults : Bool) : State :=
  let v := verdict (s.job slot).window r.status r.value
  let r' := { r with limitOut := v == .outside }
  let s1 := s.moveAlert slot v
  if queueResults then s1.offerRecord slot r'
  else s1.setJob slot { s1.job slot with latest := some r' }

/-! ## Replies and requests (R183 to R185) -/

/-- What a request leads to: the state after it, and its reply's code and payload (R184). -/
structure Answer where
  state : State
  code : ReplyCode
  payload : List Byte
deriving DecidableEq, Repr

/-- A refused request changes no state and carries one byte of detail (R184). -/
def refuse (s : State) (code : ReplyCode) (detail : Nat) : Answer := ⟨s, code, leBytes 1 detail⟩

/-- The success reply OK with its fields. -/
def okay (s : State) (payload : List Byte) : Answer := ⟨s, .ok, payload⟩

/-- The request the dispatcher takes at this tick: the oldest of the intake queue, while the reply
queue has room and no request has been executed at this tick (R183). The intake queue is empty while
initialisation runs (R176). -/
def State.dueRequest (s : State) : Option Request :=
  if s.link.initialised && s.link.replies.length < Config.replyPlaces && !s.link.executed then
    s.link.intake.head?
  else none

/-- The request leaves the intake queue, and its reply joins the reply queue at the same tick
(R183). -/
def finishRequest (q : Request) (a : Answer) : State :=
  { a.state with
    link := { a.state.link with
      intake := a.state.link.intake.drop 1
      replies := a.state.link.replies ++ [⟨q.tag, a.code.toByte, a.payload⟩]
      executed := true } }

/-- A request of one code is executed, if it is the one the dispatcher takes at this tick: the
generic checks first (R185), then its owner's own. `mine` tells the two rows of PROBE apart. -/
def State.serve (s : State) (code : RequestCode) (mine : List Byte → Bool)
    (handler : List Byte → State → Answer) : State :=
  match s.dueRequest with
  | none => s
  | some q =>
    if requestCodeOf q.code = some code && mine q.payload then
      match genericCheck code q.payload with
      | some (refusal, detail) => finishRequest q (refuse s refusal detail)
      | none => finishRequest q (handler q.payload s)
    else s

/-- Every payload of the request's code belongs to the row. -/
def anyPayload (_ : List Byte) : Bool := true

end Sys2Proof.Machine
end

