-- ==== Sys2Proof/Machine/Captures.lean ====
section
/-! DEFINITION. The capture requests: CAPTURE_SET, CAPTURE_READ, CAPTURE_FLUSH (chapter 8). -/

namespace Sys2Proof.Machine

/-- The value checks of CAPTURE_SET, in index order (R144, check 1). -/
def captureSetCheck (payload : List Byte) : Check :=
  let depth := field payload 1 2
  let select := field payload 4 1
  firstFailure
    [ require (depth ≤ Config.captureCells) 2,
      require (field payload 3 1 ≤ 1) 3,
      require (select ≤ 3 && (select == 0 || depth != 0)) 4,
      require (field payload 5 2 ≤ depth) 5 ]

/-- The settings of a CAPTURE_SET; the entries, the loss counter and gap pending go when the depth
changes (R144, R145). -/
def CaptureQueue.apply (q : CaptureQueue) (payload : List Byte) : CaptureQueue :=
  let depth := field payload 1 2
  let kept := if depth = q.depth then q
    else { q with entries := [], loss := 0, gapPending := false, depth := depth }
  { kept with
    policy := if field payload 3 1 = 1 then .keepNew else .keepOld
    select := (selectOf (field payload 4 1)).getD .none
    watermark := field payload 5 2 }

/-- CAPTURE_SET's own checks, then its effect (R144, R145). -/
def captureSet (payload : List Byte) (s : State) : Answer :=
  match captureSetCheck payload with
  | some (code, detail) => refuse s code detail
  | none =>
    let ch := channelField payload
    let q := s.capture ch
    let depth := field payload 1 2
    if sumIn CaptureQueue.depth s.captures - q.depth + depth > Config.captureCells then
      refuse s .poolExhausted 2
    else
      let q' := q.apply payload
      let s' := s.setCapture ch q'
      okay s' (leBytes 2 (q.entries.length - q'.entries.length) ++ leBytes 2 q'.entries.length
        ++ leBytes 2 s'.freeCells)

/-- CAPTURE_SET (R144). -/
def execCaptureSet (s : State) : Out := .next (s.serve .captureSet anyPayload captureSet)

/-- CAPTURE_READ's own check, then its effect (R147). -/
def captureRead (payload : List Byte) (s : State) : Answer :=
  let ch := channelField payload
  let q := s.capture ch
  let most := field payload 1 1
  if most = 0 || most > 32 then refuse s .badValue 2
  else
    let taken := q.entries.take most
    let left := q.entries.drop most
    okay (s.setCapture ch { q with entries := left, loss := 0 })
      (leBytes 1 ch.val ++ leBytes 1 taken.length ++ leBytes 2 left.length ++ leBytes 2 q.loss
        ++ taken.flatMap CaptureEntry.bytes)

/-- CAPTURE_READ (R147). -/
def execCaptureRead (s : State) : Out := .next (s.serve .captureRead anyPayload captureRead)

/-- CAPTURE_FLUSH's effect (R149). -/
def captureFlush (payload : List Byte) (s : State) : Answer :=
  let ch := channelField payload
  let q := s.capture ch
  okay (s.setCapture ch { q with entries := [], loss := 0, gapPending := false })
    (leBytes 2 q.entries.length ++ leBytes 2 q.loss)

/-- CAPTURE_FLUSH (R149). -/
def execCaptureFlush (s : State) : Out := .next (s.serve .captureFlush anyPayload captureFlush)

end Sys2Proof.Machine
end

