-- ==== Sys2Proof/Machine/Due.lean ====
section
/-! DEFINITION. When an event of the device takes place: the condition each rule gives for it, in
terms of the state at the present tick. An event command whose condition does not hold has no effect
(assumption 2), and a TICK waits while an event of the present tick is due (assumption 5). -/

namespace Sys2Proof.Machine

/-! ## Timebase -/

/-- REF_LOSS (R5): the since-edge count has reached 80 at this tick. -/
def lossIsDue (s : State) : Bool := s.timebase.lossDue

/-- REGAIN (R8): the regain count has reached 40,000 while START or HOLDOVER. A loss that falls on the
same tick comes first and makes the regain count absent (section 1.3.3; assumption 10). -/
def regainIsDue (s : State) : Bool :=
  s.timebase.state != .normal && s.timebase.regain == some Config.regainTicks && !s.timebase.lossDue

/-- A transition of the timebase takes effect at this tick and has not been taken yet. -/
def referenceIsDue (s : State) : Bool := lossIsDue s || regainIsDue s

/-! ## Channels and probes -/

/-- REVERT (R18): the sample of this tick equals the accepted level and a transition is pending. -/
def Channel.revertIsDue (c : Channel) : Bool :=
  c.state == .enabled && c.pending.isSome && c.sample.isSome && c.sample == c.accepted

/-- The arrival tick of an edge: timestamp + filter width + 2 (R20). -/
def Channel.arrivalTick (c : Channel) (e : AcceptedEdge) : Tick :=
  tickAfter e.timestamp (c.filter + 2)

/-- EDGE_ARRIVAL (R20): the arrival tick of the oldest edge in transit. -/
def Channel.arrivalIsDue (now : Tick) (c : Channel) : Bool :=
  match c.inTransit with
  | e :: _ => now == c.arrivalTick e
  | [] => false

/-- EDGE_ACCEPTED (R17): the pending transition's run equals filter width + 1. An edge of the channel that
arrives at this tick has arrived, so that no more than two are in transit at one time (R20;
assumption 30). -/
def Channel.acceptIsDue (now : Tick) (c : Channel) : Bool :=
  c.state == .enabled && !c.arrivalIsDue now
    && match c.pending with
      | some p => p.run == c.filter + 1
      | none => false

/-- PROBE_STEP (R156): the tick after the step's last sample. -/
def Channel.probeStepIsDue (now : Tick) (c : Channel) : Bool :=
  c.state == .probing
    && match c.probe with
      | some p => now == tickAfter p.stepStart p.dwell
      | none => false

/-- Some event of the channel is due. -/
def Channel.eventIsDue (now : Tick) (c : Channel) : Bool :=
  c.revertIsDue || c.acceptIsDue now || c.arrivalIsDue now || c.probeStepIsDue now

/-! ## Jobs and deadlines -/

/-- EDGE_SEEN (R45): the oldest held edge of a running job has timestamp + settle at this tick. -/
def Job.seenIsDue (now : Tick) (j : Job) : Bool :=
  j.state.running
    && match j.held with
      | e :: _ => now == tickAfter e.timestamp j.settleTicks
      | [] => false

/-- DEADLINE_EXPIRY (R100): the head entry's due tick equals the present tick. -/
def expiryIsDue (s : State) : Bool :=
  match s.deadlines.entries with
  | e :: _ => s.now == e.due
  | [] => false

/-! ## Host link and notices -/

/-- INIT_END (R176): tick 80,000, initialisation running. -/
def initEndIsDue (s : State) : Bool :=
  !s.link.initialised && s.now == tickAfter 0 Config.initTicks

/-- The receiver examines bytes: initialisation has ended (R176), and no break has been detected
(R187). -/
def Link.listens (l : Link) : Bool := l.initialised && l.breakState == .none

/-- A byte has been completed on RXD at this tick, and the receiver examines bytes (R175, R179). -/
def byteIsDue (s : State) : Bool := s.link.listens && s.link.completed.isSome

/-- TRUNCATION (R181): last byte tick + 40,001, in IN_FRAME. -/
def truncationIsDue (s : State) : Bool :=
  match s.link.receiver with
  | .inFrame _ last => s.now == tickAfter last (Config.gapTicks + 1)
  | .hunting => false

/-- BREAK_DETECTED (R187): the line-low count has reached 80,000 with no break detected. -/
def breakIsDue (s : State) : Bool :=
  s.link.initialised && s.link.breakState == .none && s.link.lineLow == Config.breakTicks

/-- Ticks since the frame in transmission began. -/
def State.sinceFrame (s : State) (start : Tick) : Nat := distance start s.now

/-- The transmitter has just completed a byte of its frame (R187). -/
def byteBoundary (s : State) : Bool :=
  match s.link.transmitter with
  | .sending frame start _ =>
    (List.range frame.length).any (fun k => byteEnd s.link.rate (k + 1) == s.sinceFrame start)
  | .idle => false

/-- LINK_RESET (R187): it is due, and the transmitter is idle or has just completed a byte. -/
def linkResetIsDue (s : State) : Bool :=
  s.link.resetDue && (s.link.transmitter == .idle || byteBoundary s)

/-- The last byte of the frame in transmission has been sent (R186). -/
def frameIsSent (s : State) : Bool :=
  match s.link.transmitter with
  | .sending frame start _ => byteEnd s.link.rate frame.length ≤ s.sinceFrame start
  | .idle => false

/-- The transmitter can begin a frame: idle, initialisation ended (R176), and no link reset due, which
an idle transmitter takes first (R187). -/
def transmitterFree (s : State) : Bool :=
  s.link.initialised && s.link.transmitter == .idle && !s.link.resetDue

/-- REPLY_BEGIN (R186): the transmitter is free and the reply queue not empty. -/
def replyBeginIsDue (s : State) : Bool := transmitterFree s && !s.link.replies.isEmpty

/-- NOTICE_BEGIN: the four conditions of R166. -/
def noticeBeginIsDue (s : State) : Bool :=
  transmitterFree s && s.link.replies.isEmpty && !s.notices.queued.isEmpty
    && 1 ≤ s.notices.credits

/-! ## All of it -/

/-- An event that the rules place at the present tick has not been taken yet. -/
def workIsDue (s : State) : Bool :=
  referenceIsDue s
    || anyIn (Channel.eventIsDue s.now) s.channels
    || anyIn (Job.seenIsDue s.now) s.jobs
    || expiryIsDue s
    || initEndIsDue s || byteIsDue s || truncationIsDue s || breakIsDue s || linkResetIsDue s
    || frameIsSent s || replyBeginIsDue s || noticeBeginIsDue s
    || s.dueRequest.isSome

end Sys2Proof.Machine
end

