-- ==== Sys2Proof/Machine/Channels.lean ====
section
/-! DEFINITION. The input channels: COMPARATOR_OUTPUT, REVERT, EDGE_ACCEPTED, EDGE_ARRIVAL, CHAN_SET,
CHAN_GET (chapter 2). -/

namespace Sys2Proof.Machine

/-- The input of a channel moves to a level, and the comparator follows (R14); a probe's trial
threshold is a single level with no hysteresis (R155); in DISABLED the output is not used. -/
def Channel.moveInput (c : Channel) (level : Nat) : Channel :=
  match c.state with
  | .disabled => { c with input := level }
  | .enabled =>
    { c with input := level, comparator := followInput c.comparator level c.highCode c.lowCode }
  | .probing =>
    match c.probe with
    | some p =>
      { c with input := level, comparator := followInput c.comparator level p.trial p.trial }
    | none => { c with input := level }

/-- COMPARATOR_OUTPUT (R14, R155). -/
def execComparatorOutput (ch : Fin 8) (level : Nat) (s : State) : Out :=
  .next (s.setChannel ch ((s.channel ch).moveInput level))

/-- REVERT (R18). -/
def execRevert (ch : Fin 8) (s : State) : Out :=
  let c := s.channel ch
  .next (if c.revertIsDue then
      s.setChannel ch { c with pending := none, glitches := saturate c.glitches 1 }
    else s)

/-- The polarity of an edge to a level (R17). -/
def Level.polarity : Level → Polarity
  | .high => .rise
  | .low => .fall

/-- The pending transition is accepted: the level changes, and an edge back-dated to the transition's
first tick enters transit (R17, R20). -/
def Channel.accept (c : Channel) (ch : Fin 8) : Channel :=
  match c.pending with
  | none => c
  | some p =>
    { c with
      accepted := some p.level
      pending := none
      inTransit := c.inTransit ++ [⟨ch, p.firstTick, Level.polarity p.level⟩] }

/-- EDGE_ACCEPTED (R17). -/
def execEdgeAccepted (ch : Fin 8) (s : State) : Out :=
  let c := s.channel ch
  .next (if c.acceptIsDue s.now then s.setChannel ch (c.accept ch) else s)

/-- The oldest edge in transit leaves the channel and arrives at the capture pool and at the job
table (R20, R45, R137). -/
def State.arrive (s : State) (ch : Fin 8) : State :=
  let c := s.channel ch
  match c.inTransit with
  | [] => s
  | e :: rest => ((s.setChannel ch { c with inTransit := rest }).logEdge e).holdEdge e

/-- EDGE_ARRIVAL (R20). -/
def execEdgeArrival (ch : Fin 8) (s : State) : Out :=
  .next (if (s.channel ch).arrivalIsDue s.now then s.arrive ch else s)

/-- The value checks of CHAN_SET, in index order (R25). -/
def chanSetCheck (payload : List Byte) : Check :=
  let high := field payload 2 2
  let low := field payload 4 2
  firstFailure
    [ require (field payload 1 1 ≤ 1) 2,
      require (high ≤ 1023) 3,
      require (low ≤ 1023 && low ≤ high) 4 ]

/-- The settings of an applied CHAN_SET, then the state its enable field asks for (R26). -/
def Channel.apply (c : Channel) (payload : List Byte) : Channel :=
  let set := { c with
    highCode := field payload 2 2, lowCode := field payload 4 2, filter := field payload 6 1 }
  if field payload 1 1 = 1 then set.establish else set.disable

/-- CHAN_SET's own checks, then its effect (R25, R26). -/
def chanSet (payload : List Byte) (s : State) : Answer :=
  let ch := channelField payload
  let c := s.channel ch
  if c.state = .probing then refuse s .channelBusy 0
  else if s.inUse ch then refuse s .channelInUse 0
  else
    match chanSetCheck payload with
    | some (code, detail) => refuse s code detail
    | none =>
      let c' := c.apply payload
      okay (s.setChannel ch c') (leBytes 1 c'.state.toCode ++ leBytes 1 (levelCode c'.accepted))

/-- CHAN_SET (R26). -/
def execChanSet (s : State) : Out := .next (s.serve .chanSet anyPayload chanSet)

/-- The last probe result in a CHAN_GET reply (R27). -/
def ProbeResult.bytes (r : ProbeResult) : List Byte :=
  leBytes 2 r.code ++ leBytes 1 r.mixed ++ leBytes 1 r.status.toCode

/-- The CHAN_GET reply payload (R27). -/
def State.chanGetBytes (s : State) (ch : Fin 8) : List Byte :=
  let c := s.channel ch
  leBytes 1 ch.val ++ leBytes 1 c.state.toCode ++ leBytes 1 (bit (s.inUse ch))
    ++ leBytes 2 c.highCode ++ leBytes 2 c.lowCode ++ leBytes 1 c.filter
    ++ leBytes 1 (levelCode c.accepted) ++ leBytes 2 c.glitches
    ++ leBytes 1 (bit c.lastProbe.isSome) ++ optBytes ProbeResult.bytes c.lastProbe

/-- CHAN_GET's own check, then its effect (R27 to R29). -/
def chanGet (payload : List Byte) (s : State) : Answer :=
  let ch := channelField payload
  let c := s.channel ch
  let clear := field payload 1 1
  if clear > 1 then refuse s .badValue 2
  else
    okay (if clear = 1 then s.setChannel ch { c with glitches := 0 } else s) (s.chanGetBytes ch)

/-- CHAN_GET (R27). -/
def execChanGet (s : State) : Out := .next (s.serve .chanGet anyPayload chanGet)

end Sys2Proof.Machine
end

