-- ==== Sys2Proof/Machine/Devices.lean ====
section
/-! DEFINITION. The device requests (DESCRIBE, STATUS, TIME, SOFT_RESET, section 11.6 and R12), the
refusal of an unknown request (R185), and POWER_RESET. -/

namespace Sys2Proof.Machine

/-- UNKNOWN_REQUEST (R185). -/
def execUnknownRequest (s : State) : Out :=
  .next (match s.dueRequest with
    | some q =>
      if requestCodeOf q.code = none then finishRequest q (refuse s .unknownRequest 0) else s
    | none => s)

/-- The DESCRIBE reply payload (R189). -/
def describeBytes : List Byte :=
  leBytes 1 0x4A ++ leBytes 2 0x0820 ++ leBytes 1 2 ++ leBytes 1 8 ++ leBytes 1 32 ++ leBytes 1 24
    ++ leBytes 2 512 ++ leBytes 1 96 ++ leBytes 1 42 ++ leBytes 4 40000000

/-- DESCRIBE's reply (R189). -/
def describe (_payload : List Byte) (s : State) : Answer := okay s describeBytes

/-- DESCRIBE (R189). -/
def execDescribe (s : State) : Out := .next (s.serve .describe anyPayload describe)

/-- How many slots are in a state. -/
def State.jobsIn (s : State) (state : JobState) : Nat := countIn (fun j => j.state == state) s.jobs

/-- The STATUS reply payload (R190). -/
def State.statusBytes (s : State) : List Byte :=
  leBytes 1 s.timebase.state.toCode ++ tickBytes s.now
    ++ leBytes 1 (s.jobsIn .free) ++ leBytes 1 (s.jobsIn .idle) ++ leBytes 1 (s.jobsIn .armed)
    ++ leBytes 1 (s.jobsIn .active) ++ leBytes 1 (s.jobsIn .hold) ++ leBytes 1 (s.jobsIn .done)
    ++ leBytes 1 s.deadlines.reservations ++ leBytes 1 s.results.records.length
    ++ leBytes 1 s.notices.queued.length ++ leBytes 1 s.notices.credits ++ leBytes 1 (bit s.alert)
    ++ s.link.counters.bytes

/-- STATUS's own check, then its effect (R190). -/
def status (payload : List Byte) (s : State) : Answer :=
  let clear := field payload 0 1
  if clear > 1 then refuse s .badValue 1
  else
    okay (if clear = 1 then { s with link := { s.link with counters := .zero } } else s) s.statusBytes

/-- STATUS (R190). -/
def execStatus (s : State) : Out := .next (s.serve .status anyPayload status)

/-- The last abnormal tick in a TIME reply, present at every execution tick (R9, R12). -/
def Timebase.lastAbnormalTick (tb : Timebase) : Tick := tb.lastAbnormal.getD 0

/-- TIME's reply (R12). -/
def time (_payload : List Byte) (s : State) : Answer :=
  okay s
    (tickBytes s.now ++ leBytes 1 s.timebase.state.toCode ++ leBytes 2 s.timebase.holdoverEntries
      ++ tickBytes s.timebase.lastAbnormalTick)

/-- TIME (R12). A transition of the timebase that takes effect at the execution tick is shown in the
reply, so it is taken first. -/
def execTime (s : State) : Out := .next (if referenceIsDue s then s else s.serve .time anyPayload time)

/-- A job slot, a channel and the other blocks at their soft-reset values, and RESTARTED raised into
the emptied notice queue (R191). -/
def softReset (_payload : List Byte) (s : State) : Answer :=
  let s1 := { s with
    channels := mapBank (fun (c : Channel) => Channel.reset c.input) s.channels
    captures := Vector.replicate 8 .reset
    jobs := Vector.replicate 32 .reset
    deadlines := .reset
    results := .reset
    alert := false
    notices := { s.notices with queued := [], cause := .soft } }
  okay (s1.raiseDevice .restarted) []

/-- SOFT_RESET (R191). -/
def execSoftReset (s : State) : Out := .next (s.serve .softReset anyPayload softReset)

/-- POWER_RESET (R13, R176 and the power-reset values of every block): the state right after reset,
with the line rate of the straps, the inputs and RXD as the board drives them, and the waiting
commands. -/
def execPowerReset (rate1 rate0 : Bool) (s : State) : Out :=
  .next { State.reset with
    channels := mapBank (fun (c : Channel) => Channel.reset c.input) s.channels
    link := .reset (strapRate rate1 rate0) s.link.rxd
    pending := s.pending }

end Sys2Proof.Machine
end

