-- ==== Sys2Proof/Machine/Measurement.lean ====
section
/-! DEFINITION. What a running job does: opening a measurement, forming and handing on a record,
completing and handing over, taking a boundary, and acting on an edge by its kind (chapters 3
and 4). -/

namespace Sys2Proof.Machine

/-! ## Opening (R42, R62) -/

/-- The first boundary of a kind, for a measurement that opens at `t` (R42). -/
def Definition.firstBoundary (d : Definition) (t : Tick) : Option Boundary :=
  match d.kind with
  | .freqFixed => some ⟨.close, tickAfter t d.gate⟩
  | .freqSync | .period | .width | .phase => some ⟨.stall, tickAfter t d.stall⟩
  | .tally => if d.report > 0 then some ⟨.report, tickAfter t d.report⟩ else none

/-- The job's next boundary becomes the given one, or absent. -/
def State.changeBoundary (s : State) (slot : Fin 32) : Option Boundary → State
  | some b => s.setBoundary slot b
  | none => s.clearBoundary slot

/-- A measurement opens at `t`: the job is ACTIVE, the open tick set, the accumulators cleared, and
the first boundary of its kind set (R62). -/
def State.openMeasurement (s : State) (slot : Fin 32) (d : Definition) (t : Tick) : State :=
  (s.setJob slot { s.job slot with
    state := .active, subMode := none, armingTick := none, openTick := some t,
    acc := .cleared }).changeBoundary slot (d.firstBoundary t)

/-- A CONTINUOUS FREQ_SYNC or PERIOD measurement takes the closing edge at `t` as its first edge and
first progress (R52, R62). -/
def State.openAtEdge (s : State) (slot : Fin 32) (d : Definition) (t : Tick) : State :=
  let s1 := s.openMeasurement slot d t
  let j := s1.job slot
  s1.setJob slot { j with acc := { j.acc with firstEdge := some t, lastProgress := some t } }

/-! ## Values (R68) and records (R70, R73, R75, R78, R81, R82 to R87) -/

/-- A rate in millihertz: floor(n x 40,000,000,000 / span), 0 when n or the span is 0 (R68). DESIGN CHOICE
(assumption 33): R68 says that every value fits 64 bits, and over the laps of R85 the rate of a TALLY batch
with R = 0 can pass 2^64 - 1. The rate is the exact number there too: the limit unit compares that number, and
the bytes of a record carry it modulo 2^64. -/
def rate (n span : Nat) : Nat := if n = 0 || span = 0 then 0 else n * Config.rateFactor / span

/-- A mean: floor(total / count), 0 when the count is 0 (R68). -/
def mean (total count : Nat) : Nat := if count = 0 then 0 else total / count

/-- The open tick. An ACTIVE job has one; `t` stands in for it in no job that runs. -/
def Job.opened (j : Job) (t : Tick) : Tick := j.openTick.getD t

/-- The window start of a TALLY job: the next REPORT boundary less R when R is above 0, the open tick
when R is 0 (R82). -/
def Job.windowStart (j : Job) (d : Definition) (t : Tick) : Tick :=
  match j.next with
  | some b => if d.report > 0 then tickBefore b.tick d.report else j.opened t
  | none => j.opened t

/-- The start tick of a record: the open tick; for TALLY, the window start (R86). -/
def Job.recordStart (j : Job) (d : Definition) (t : Tick) : Tick :=
  match d.kind with
  | .tally => j.windowStart d t
  | .freqFixed | .freqSync | .period | .width | .phase => j.opened t

/-- The span of a record with end tick `endTick`, as its kind gives it. -/
def Job.recordSpan (j : Job) (d : Definition) (endTick : Tick) : Nat :=
  match d.kind with
  | .freqSync | .period =>
    match j.acc.firstEdge, j.acc.lastProgress with
    | some t0, some last => distance t0 last
    | _, _ => 0
  | .freqFixed | .width | .phase | .tally => distance (j.recordStart d endTick) endTick

/-- n, the true edge count of a TALLY window: the count when R is above 0, the total when R is 0
(R82). -/
def Job.windowEdges (j : Job) (d : Definition) : Nat :=
  if d.report > 0 then j.acc.count else j.acc.total

/-- The value of a record (R68). -/
def Job.recordValue (j : Job) (d : Definition) (span : Nat) : Nat :=
  match d.kind with
  | .freqFixed | .freqSync => rate j.acc.count span
  | .period => mean span j.acc.count
  | .width | .phase => mean j.acc.sum j.acc.count
  | .tally => rate (j.windowEdges d) span

/-- Kinds whose records carry min and max when the count is at least 1 (R86). -/
def Kind.hasMinMax : Kind → Bool
  | .period | .width | .phase => true
  | .freqFixed | .freqSync | .tally => false

/-- The HOLDOVER flag (R89). -/
def State.holdoverFlag (s : State) (openTick : Tick) : Bool :=
  s.timebase.abnormalSince openTick || s.timebase.state != .normal

/-- The record a job forms with a status and an end tick (R86), before it is handed on. -/
def State.formRecord (s : State) (slot : Fin 32) (d : Definition) (status : RecordStatus)
    (endTick : Tick) : Record :=
  let j := s.job slot
  let span := j.recordSpan d endTick
  { slot := slot
    sequence := j.sequence + 1
    kind := d.kind
    status := status
    holdover := s.holdoverFlag (j.opened endTick)
    limitOut := false
    lostBefore := 0
    missed := j.pendingMissed
    startTick := j.recordStart d endTick
    endTick := endTick
    count := j.acc.count
    span := span
    value := j.recordValue d span
    min := if d.kind.hasMinMax && j.acc.count ≥ 1 then j.acc.min else none
    max := if d.kind.hasMinMax && j.acc.count ≥ 1 then j.acc.max else none
    total := if d.kind = .tally then some j.acc.total else none
    skipped := if d.kind = .phase then some j.acc.skipped else none }

/-- The status flag of a record, raised when it is formed (R88). -/
def State.raiseStatus (s : State) (slot : Fin 32) : RecordStatus → State
  | .stalled => s.raiseJob slot .stall
  | .spanLimit => s.raiseJob slot .span
  | .target => s.raiseJob slot .target
  | .complete | .interim | .partialStop => s

/-- Steps 1 to 3 of R50: the record is formed and takes the next sequence number (R38), the pending
missed count becomes 0, the status flag is raised (R88), and the record is handed on (R106). -/
def State.produce (s : State) (slot : Fin 32) (d : Definition) (status : RecordStatus)
    (endTick : Tick) : State :=
  let r := s.formRecord slot d status endTick
  let s1 := s.setJob slot { s.job slot with sequence := r.sequence, pendingMissed := 0 }
  (s1.raiseStatus slot status).handOn slot r d.queueResults

/-! ## Completion and repeat (R50 to R55) -/

/-- m of R54: the larger of 1 and ceil(d / P). -/
def gridSteps (openTick endTick : Tick) (period : Nat) : Nat :=
  max 1 ((distance openTick endTick + period - 1) / period)

/-- Skipped starts are counted and MISSED raised, when there are any (R54). -/
def State.countMissed (s : State) (slot : Fin 32) (skipped : Nat) : State :=
  if skipped ≥ 1 then
    let j := s.job slot
    (s.setJob slot { j with
      missedTotal := saturate j.missedTotal skipped
      pendingMissed := saturate j.pendingMissed skipped }).raiseJob slot .missed
  else s

/-- The job's horizon: the present tick less its settle. -/
def State.horizon (s : State) (slot : Fin 32) : Tick := tickBefore s.now (s.job slot).settleTicks

/-- The job enters HOLD with a START at `t` (R55). -/
def State.enterHold (s : State) (slot : Fin 32) (t : Tick) : State :=
  (s.setJob slot { s.job slot with state := .hold }).setBoundary slot ⟨.start, t⟩

/-- What is left to do with an edge: nothing, or to process it in the state that results. -/
structure EdgeStep where
  state : State
  again : Bool
deriving DecidableEq, Repr

/-- The repeat mode acts on a measurement that ended at `endTick` (R51 to R55, R65). `edge` is the
timestamp of the edge that completed it or limited it. -/
def State.actRepeat (s : State) (slot : Fin 32) (d : Definition) (status : RecordStatus)
    (endTick : Tick) (edge : Option Tick) : EdgeStep :=
  match d.repeating with
  | .once => ⟨(s.leaveRunning slot .done).raiseJob slot .ended, false⟩
  | .continuous =>
    match status, edge with
    | .spanLimit, some t => ⟨s.openMeasurement slot d t, true⟩
    | .complete, some t =>
      if d.kind = .freqSync || d.kind = .period then ⟨s.openAtEdge slot d t, false⟩
      else ⟨s.openMeasurement slot d t, false⟩
    | _, _ => ⟨s.openMeasurement slot d endTick, false⟩
  | .periodic =>
    let opened := (s.job slot).opened endTick
    let m := gridSteps opened endTick d.period
    let start := tickAfter opened (m * d.period)
    let s1 := s.countMissed slot (m - 1)
    if notEarlier (s.horizon slot) start then
      ⟨s1.openMeasurement slot d start,
        match edge with
        | some t => status == .spanLimit || t == start
        | none => false⟩
    else ⟨s1.enterHold slot start, false⟩

/-- A measurement completes (R50): its record is formed and handed on, its entry removed, and its
repeat mode acts. -/
def State.complete (s : State) (slot : Fin 32) (d : Definition) (status : RecordStatus)
    (endTick : Tick) (edge : Option Tick) : EdgeStep :=
  ((s.produce slot d status endTick).dropEntry slot).actRepeat slot d status endTick edge

/-! ## Boundaries (R48, R67, R70, R83) -/

/-- A REPORT boundary at `b`: the INTERIM record, then the next window (R83). -/
def State.interimReport (s : State) (slot : Fin 32) (d : Definition) (b : Tick) : State :=
  let s1 := s.produce slot d .interim b
  let j := s1.job slot
  (s1.setJob slot { j with acc := { j.acc with count := 0 } }).setBoundary slot
    ⟨.report, tickAfter b d.report⟩

/-- The boundary action as of the boundary's tick, with the job's entry removed (R48, R100). -/
def State.takeBoundary (s : State) (slot : Fin 32) (b : Boundary) : State :=
  match (s.job slot).definition with
  | none => s
  | some d =>
    let s1 := s.dropEntry slot
    match b.purpose with
    | .start => s1.openMeasurement slot d b.tick
    | .close => (s1.complete slot d .complete b.tick none).state
    | .stall => (s1.complete slot d .stalled b.tick none).state
    | .report => s1.interimReport slot d b.tick

/-! ## Edges (R63 to R66, R69, R71, R72, R74, R76, R77, R79, R80, R82, R84, R85) -/

/-- The job acts on an edge: a qualifying edge, or any edge of channel A for WIDTH (R63). -/
def Definition.actsOn (d : Definition) (e : AcceptedEdge) : Bool :=
  match d.kind with
  | .width => e.channel == d.channelA
  | .phase =>
    (e.channel == d.channelA && d.selectA.admits e.polarity)
      || (e.channel == d.channelB && d.selectB.admits e.polarity)
  | .freqFixed | .freqSync | .period | .tally =>
    e.channel == d.channelA && d.selectA.admits e.polarity

/-- The end tick of a SPAN_LIMIT record (R65, R85). -/
def Job.spanLimitEnd (j : Job) (d : Definition) (t : Tick) : Tick :=
  match d.kind with
  | .tally =>
    match j.acc.lastProgress with
    | some last => if notEarlier last (j.windowStart d t) then last else j.windowStart d t
    | none => j.windowStart d t
  | .freqFixed | .freqSync | .period | .width | .phase => j.acc.lastProgress.getD (j.opened t)

/-- One interval, width or delay enters min and max (R74). -/
def Accumulators.measure (a : Accumulators) (x : Nat) : Accumulators :=
  { a with
    min := match a.min with
      | some m => if x < m then some x else some m
      | none => some x
    max := match a.max with
      | some m => if m < x then some x else some m
      | none => some x }

/-- The accumulators of a job replaced. -/
def State.setAcc (s : State) (slot : Fin 32) (a : Accumulators) : State :=
  s.setJob slot { s.job slot with acc := a }

/-- Progress at `t` that does not complete the measurement: the STALL boundary moves to t + T
(R66). The last progress tick is in `a`. -/
def State.progress (s : State) (slot : Fin 32) (d : Definition) (a : Accumulators) (t : Tick) :
    State :=
  (s.setAcc slot a).setBoundary slot ⟨.stall, tickAfter t d.stall⟩

/-- Progress at `t`: it completes the measurement, or moves the stall boundary (R66). -/
def State.progressOrComplete (s : State) (slot : Fin 32) (d : Definition) (a : Accumulators)
    (t : Tick) (completes : Bool) : EdgeStep :=
  if completes then (s.setAcc slot a).complete slot d .complete t (some t)
  else ⟨s.progress slot d a t, false⟩

/-- A sample of WIDTH or PHASE from the pending start to `t` (R77, R80). -/
def Accumulators.sampleTo (a : Accumulators) (start t : Tick) : Accumulators :=
  let x := distance start t
  { a.measure x with
    count := a.count + 1, sum := a.sum + x, lastProgress := some t, pendingStart := none }

/-- A TALLY edge (R82, R84). DESIGN CHOICE (assumption 27): with target 0 a batch can go on past the range
of the total that R33's table gives, 0 to 2^48 - 1, over the laps of R85, and the spec gives neither a stop
nor a wrap there. The total counts on without bound, and JOB_GET and records send it modulo 2^48. -/
def State.tallyEdge (s : State) (slot : Fin 32) (d : Definition) (t : Tick) : EdgeStep :=
  let a := (s.job slot).acc
  let a' := { a with
    total := a.total + 1, count := min (a.count + 1) Config.countMax, lastProgress := some t }
  let s1 := s.setAcc slot a'
  if d.target > 0 && a'.total = d.target then s1.complete slot d .target t (some t) else ⟨s1, false⟩

/-- The kind's own step for an edge it acts on (sections 4.2 to 4.7). -/
def State.kindStep (s : State) (slot : Fin 32) (d : Definition) (e : AcceptedEdge) : EdgeStep :=
  let a := (s.job slot).acc
  let t := e.timestamp
  match d.kind with
  | .freqFixed => ⟨s.setAcc slot { a with count := a.count + 1 }, false⟩
  | .freqSync =>
    match a.firstEdge with
    | none => ⟨s.progress slot d { a with firstEdge := some t, lastProgress := some t } t, false⟩
    | some t0 =>
      s.progressOrComplete slot d { a with count := a.count + 1, lastProgress := some t } t
        (notEarlier t (tickAfter t0 d.gate))
  | .period =>
    match a.firstEdge with
    | none => ⟨s.progress slot d { a with firstEdge := some t, lastProgress := some t } t, false⟩
    | some t0 =>
      let a' := a.measure (distance (a.lastProgress.getD t0) t)
      s.progressOrComplete slot d { a' with count := a.count + 1, lastProgress := some t } t
        (a.count + 1 == d.count)
  | .width =>
    if d.selectA.admits e.polarity then ⟨s.setAcc slot { a with pendingStart := some t }, false⟩
    else
      match a.pendingStart with
      | none => ⟨s, false⟩
      | some start =>
        s.progressOrComplete slot d (a.sampleTo start t) t (a.count + 1 == d.count)
  | .phase =>
    if e.channel = d.channelA then
      let skipped := if a.pendingStart.isSome then saturate a.skipped 1 else a.skipped
      ⟨s.setAcc slot { a with pendingStart := some t, skipped := skipped }, false⟩
    else
      match a.pendingStart with
      | none => ⟨s, false⟩
      | some start =>
        s.progressOrComplete slot d (a.sampleTo start t) t (a.count + 1 == d.count)
  | .tally => s.tallyEdge slot d t

/-- An ACTIVE job processes an edge: passed over, the limiting edge (R64, R65), or the kind's step
(R63). -/
def State.processEdge (s : State) (slot : Fin 32) (d : Definition) (e : AcceptedEdge) : EdgeStep :=
  let j := s.job slot
  let opened := j.opened e.timestamp
  if !d.actsOn e then ⟨s, false⟩
  else if distance opened e.timestamp ≥ Config.spanLimit then
    s.complete slot d .spanLimit (j.spanLimitEnd d e.timestamp) (some e.timestamp)
  else s.kindStep slot d e

/-- An edge that opens a job armed ON_EDGE: a qualifying edge of channel A whose timestamp is not
earlier than the arming tick (R44, R46). -/
def Job.opensOn (j : Job) (d : Definition) (e : AcceptedEdge) : Bool :=
  e.channel == d.channelA && d.selectA.admits e.polarity
    && (match j.armingTick with
      | some t => notEarlier e.timestamp t
      | none => false)

/-- The job acts on an edge according to its state, no boundary standing before it (R46). -/
def State.actOnEdge (s : State) (slot : Fin 32) (d : Definition) (e : AcceptedEdge) : EdgeStep :=
  let j := s.job slot
  match j.state with
  | .armed =>
    if j.subMode = some .onEdge && j.opensOn d e then
      let s1 := s.setJob slot { j with
        startBase := if d.repeating = .periodic then some e.timestamp else j.startBase }
      (s1.openMeasurement slot d e.timestamp).processEdge slot d e
    else ⟨s, false⟩
  | .active =>
    if notEarlier e.timestamp (j.opened e.timestamp) then s.processEdge slot d e else ⟨s, false⟩
  | .hold | .free | .idle | .done => ⟨s, false⟩

/-- Boundary-before-edge (R49): every boundary not later than the edge is taken first, then the edge
is processed in the state that results; an edge that a completion hands on is processed again (R52,
R55). -/
def seeEdge : Nat → State → Fin 32 → AcceptedEdge → State
  | 0, s, _, _ => s
  | fuel + 1, s, slot, e =>
    let j := s.job slot
    match j.definition with
    | none => s
    | some d =>
      match j.next with
      | some b =>
        if notEarlier e.timestamp b.tick then seeEdge fuel (s.takeBoundary slot b) slot e
        else
          let r := s.actOnEdge slot d e
          if r.again then seeEdge fuel r.state slot e else r.state
      | none =>
        let r := s.actOnEdge slot d e
        if r.again then seeEdge fuel r.state slot e else r.state

end Sys2Proof.Machine
end

