-- ==== Sys2Proof/Machine/Jobs.lean ====
section
/-! DEFINITION. The job table and its deadline list: EDGE_SEEN, DEADLINE_EXPIRY, JOB_DEFINE,
JOB_START, JOB_STOP, JOB_CLEAR, JOB_GET (chapters 3, 4 and 5). -/

namespace Sys2Proof.Machine

/-- The oldest held edge leaves the held edges and the job acts on it (R45, R46, R49). -/
def State.see (s : State) (slot : Fin 32) : State :=
  let j := s.job slot
  match j.held with
  | [] => s
  | e :: rest => seeEdge Config.boundaryFuel (s.setJob slot { j with held := rest }) slot e

/-- EDGE_SEEN (R46). A record it forms tests the timebase of this tick (R89), so a transition of the
timebase that falls on the tick is taken first (assumption 29). -/
def execEdgeSeen (slot : Fin 32) (s : State) : Out :=
  .next (if (s.job slot).seenIsDue s.now && !referenceIsDue s then s.see slot else s)

/-- The list removes its head entry and hands the expiry to the owning job; the boundary tick is the
due tick less the job's settle (R100). -/
def State.expire (s : State) : State :=
  match s.deadlines.entries with
  | [] => s
  | e :: rest =>
    let s1 := { s with deadlines := { s.deadlines with entries := rest } }
    s1.takeBoundary e.slot ⟨e.purpose, tickBefore e.due (s.job e.slot).settleTicks⟩

/-- DEADLINE_EXPIRY (R100). A transition of the timebase that falls on the tick is taken first, as for
EDGE_SEEN (R89; assumption 29). -/
def execDeadlineExpiry (s : State) : Out :=
  .next (if expiryIsDue s && !referenceIsDue s then s.expire else s)

/-! ## Requests -/

/-- A definition replaces the slot's (R37). -/
def Job.define (j : Job) (d : Definition) : Job :=
  { j with
    state := .idle, definition := some d, openTick := none, next := none, acc := .cleared,
    held := [], lostTotal := 0, missedTotal := 0, pendingMissed := 0, window := none,
    alert := .inside, latest := none }

/-- JOB_DEFINE's own checks, then its effect (R34, R37). -/
def jobDefine (payload : List Byte) (s : State) : Answer :=
  let slot := slotField payload
  let j := s.job slot
  if j.state.running then refuse s .jobRunning 0
  else
    match readDefinition payload with
    | .error (code, detail) => refuse s code detail
    | .ok d => okay (s.setJob slot (j.define d)).evaluateAlert []

/-- JOB_DEFINE (R37). -/
def execJobDefine (s : State) : Out := .next (s.serve .jobDefine anyPayload jobDefine)

/-- A referenced channel of a definition is in a state. -/
def State.referencedIn (s : State) (d : Definition) (state : ChannelState) : Bool :=
  (s.channel d.channelA).state == state
    || (d.kind == .phase && (s.channel d.channelB).state == state)

/-- The settle fixed at a start: the largest filter width of the referenced channels, plus 4
(R41). -/
def State.settleOf (s : State) (d : Definition) : Nat :=
  (if d.kind = .phase then max (s.channel d.channelA).filter (s.channel d.channelB).filter
    else (s.channel d.channelA).filter) + 4

/-- A JOB_START is checked in the order of R40. -/
def jobStartCheck (payload : List Byte) (s : State) : Except (ReplyCode × Nat) Definition :=
  let j := s.job (slotField payload)
  let mode := field payload 1 1
  let ahead := distance s.now (BitVec.ofNat 48 (field payload 2 6))
  if mode > 2 then .error (.badValue, 2)
  else if j.state = .free then .error (.jobFree, 0)
  else if j.state.running then .error (.jobRunning, 0)
  else
    match j.definition with
    | none => .error (.jobFree, 0)
    | some d =>
      if s.referencedIn d .disabled then .error (.channelDisabled, 0)
      else if s.referencedIn d .probing then .error (.channelBusy, 0)
      else if mode = 1 && !(1 ≤ ahead && ahead ≤ 4294967295) then .error (.startLate, 3)
      else if s.deadlines.reservations ≥ Config.reservations then .error (.deadlinesExhausted, 0)
      else .ok d

/-- What every start mode does: the reservation, the settle, the cleared accumulators (R41). -/
def State.enrol (s : State) (slot : Fin 32) (d : Definition) : State :=
  let j := s.job slot
  (s.setJob slot { j with
    settle := some (s.settleOf d), acc := .cleared, held := [], pendingMissed := 0 }).takeReservation

/-- The start base of a PERIODIC job (R42, R43). -/
def Definition.base (d : Definition) (t : Tick) : Option Tick :=
  if d.repeating = .periodic then some t else none

/-- Start mode NOW (R42). -/
def State.startNow (s : State) (slot : Fin 32) (d : Definition) : State :=
  (s.setJob slot { s.job slot with startBase := d.base s.now }).openMeasurement slot d s.now

/-- Start mode AT (R43). -/
def State.startAt (s : State) (slot : Fin 32) (d : Definition) (t : Tick) : State :=
  (s.setJob slot { s.job slot with
    state := .armed, subMode := some .at, startBase := d.base t }).setBoundary slot ⟨.start, t⟩

/-- Start mode ON_EDGE (R44). -/
def State.startOnEdge (s : State) (slot : Fin 32) : State :=
  s.setJob slot { s.job slot with
    state := .armed, subMode := some .onEdge, armingTick := some s.now, next := none }

/-- JOB_START's own checks, then its effect and its reply (R40 to R44, R198). -/
def jobStart (payload : List Byte) (s : State) : Answer :=
  match jobStartCheck payload s with
  | .error (code, detail) => refuse s code detail
  | .ok d =>
    let slot := slotField payload
    let s1 := s.enrol slot d
    let start := BitVec.ofNat 48 (field payload 2 6)
    let settle := leBytes 2 (s.settleOf d)
    match field payload 1 1 with
    | 0 => okay (s1.startNow slot d) (leBytes 1 3 ++ settle ++ leBytes 1 1 ++ tickBytes s.now)
    | 1 => okay (s1.startAt slot d start) (leBytes 1 2 ++ settle ++ leBytes 1 1 ++ tickBytes start)
    | _ => okay (s1.startOnEdge slot) (leBytes 1 2 ++ settle ++ leBytes 1 0)

/-- JOB_START (R41). -/
def execJobStart (s : State) : Out := .next (s.serve .jobStart anyPayload jobStart)

/-- The end tick of a PARTIAL record: the job's horizon, or the open tick where the horizon is earlier
(R87). -/
def State.partialEnd (s : State) (slot : Fin 32) : Tick :=
  let h := s.horizon slot
  let opened := (s.job slot).opened h
  if notEarlier h opened then h else opened

/-- The PARTIAL record that a stop with keep partial forms of an ACTIVE job (R56, R87). -/
def State.keepPartial (s : State) (slot : Fin 32) : State :=
  let j := s.job slot
  match j.state, j.definition with
  | .active, some d => s.produce slot d .partialStop (s.partialEnd slot)
  | _, _ => s

/-- JOB_STOP's own check, then its effect (R56). -/
def jobStop (payload : List Byte) (s : State) : Answer :=
  let slot := slotField payload
  let found := (s.job slot).state
  let keep := field payload 1 1
  if keep > 1 then refuse s .badValue 2
  else
    let s1 := if keep = 1 then s.keepPartial slot else s
    okay (if found.running then s1.leaveRunning slot .idle else s1) (leBytes 1 found.toCode)

/-- JOB_STOP (R56). A transition of the timebase that falls on the tick is taken first, as for EDGE_SEEN
(R89; assumption 29). -/
def execJobStop (s : State) : Out :=
  .next (if referenceIsDue s then s else s.serve .jobStop anyPayload jobStop)

/-- A slot is freed (R58). -/
def Job.clear (j : Job) : Job :=
  { j with
    state := .free, definition := none, openTick := none, next := none, acc := .cleared,
    window := none, alert := .inside, latest := none, pendingMissed := 0 }

/-- JOB_CLEAR's own check, then its effect (R58). -/
def jobClear (payload : List Byte) (s : State) : Answer :=
  let slot := slotField payload
  let j := s.job slot
  if j.state.running then refuse s .jobRunning 0
  else okay (s.setJob slot j.clear).evaluateAlert (leBytes 1 j.state.toCode)

/-- JOB_CLEAR (R58). -/
def execJobClear (s : State) : Out := .next (s.serve .jobClear anyPayload jobClear)

/-- JOB_GET's reply (R59). -/
def jobGet (payload : List Byte) (s : State) : Answer :=
  let slot := slotField payload
  okay s ((s.job slot).getBytes slot)

/-- JOB_GET (R59). -/
def execJobGet (s : State) : Out := .next (s.serve .jobGet anyPayload jobGet)

end Sys2Proof.Machine
end

