-- ==== Sys2Proof/Machine/Limits.lean ====
section
/-! DEFINITION. LIMIT_SET (chapter 7). -/

namespace Sys2Proof.Machine

/-- The field checks of LIMIT_SET, in index order (R125, check 2). -/
def limitSetCheck (payload : List Byte) : Check :=
  let present := field payload 1 1
  let low := field payload 2 8
  let high := field payload 10 8
  let band := field payload 18 8
  let stallOut := field payload 26 1
  let drive := field payload 27 1
  if present > 1 then some (.badValue, 2)
  else if present = 0 then
    firstFailure
      [ require (low == 0) 3, require (high == 0) 4, require (band == 0) 5,
        require (stallOut == 0) 6, require (drive == 0) 7 ]
  else
    firstFailure
      [ require (low ≤ high) 4, require (2 * band ≤ high - low) 5, require (stallOut ≤ 1) 6,
        require (drive ≤ 1) 7 ]

/-- The window that a LIMIT_SET gives (R126, step 1). -/
def limitWindow (payload : List Byte) : Option Window :=
  if field payload 1 1 = 1 then
    some
      { low := field payload 2 8
        high := field payload 10 8
        band := field payload 18 8
        stallOut := field payload 26 1 == 1
        drive := field payload 27 1 == 1 }
  else none

/-- LIMIT_SET's own checks, then its effect (R125, R126). -/
def limitSet (payload : List Byte) (s : State) : Answer :=
  let slot := slotField payload
  let j := s.job slot
  if j.state = .free then refuse s .jobFree 0
  else
    match limitSetCheck payload with
    | some (code, detail) => refuse s code detail
    | none =>
      let s' := (s.setJob slot { j with
        window := limitWindow payload, alert := .inside }).evaluateAlert
      okay s' (leBytes 1 j.alert.toCode ++ leBytes 1 (bit s'.alert))

/-- LIMIT_SET (R126). -/
def execLimitSet (s : State) : Out := .next (s.serve .limitSet anyPayload limitSet)

end Sys2Proof.Machine
end

