-- ==== Sys2Proof/Machine/Notices.lean ====
section
/-! DEFINITION. The notice queue: NOTICE_BEGIN, NOTICE_SENT, GRANT (chapter 10), and what a link reset
does to it (R170, R171). -/

namespace Sys2Proof.Machine

/-- The detail of a notice, as the source's kind gives it (R167, R197). -/
def State.noticeDetail (s : State) : Source → List Byte
  | .job slot => leBytes 1 (s.job slot).state.toCode ++ leBytes 4 (s.job slot).sequence.toNat
  | .channel ch =>
    leBytes 2 (s.capture ch).entries.length ++ leBytes 2 (s.capture ch).loss
      ++ leBytes 1 (bit (s.channel ch).lastProbe.isSome)
      ++ optBytes (fun (r : ProbeResult) => leBytes 2 r.code ++ leBytes 1 r.status.toCode)
        (s.channel ch).lastProbe
  | .results => leBytes 1 s.results.records.length ++ leBytes 2 s.results.refused
  | .device => leBytes 1 s.notices.cause.toCode ++ s.link.counters.bytes

/-- The payload of a notice frame, from the snapshot at this tick (R167, R197). -/
def State.noticePayload (s : State) (n : QueuedNotice) : List Byte :=
  leBytes 2 s.notices.sequence.toNat ++ tickBytes s.now ++ leBytes 1 n.source.index ++ [n.flags]
    ++ s.noticeDetail n.source

/-- The head notice begins transmission in one act: it enters the in-flight slot, consumes a credit,
takes its snapshot, and the transmitter begins its frame (R166, R167); a RESULTS snapshot zeroes the
refused count (R115). -/
def State.beginNotice (s : State) : State :=
  match s.notices.queued with
  | [] => s
  | n :: rest =>
    let payload := s.noticePayload n
    let taken := if n.source = .results then s.results.refused else 0
    { s with
      notices := { s.notices with
        queued := rest
        inFlight := some ⟨n.source, n.flags, payload, taken⟩
        credits := s.notices.credits - 1 }
      results := { s.results with
        refused := if n.source = .results then 0 else s.results.refused }
      link := { s.link with
        transmitter := .sending (frameBytes classNotice 0 n.source.code payload) s.now true } }

/-- NOTICE_BEGIN (R166). -/
def execNoticeBegin (s : State) : Out := .next (if noticeBeginIsDue s then s.beginNotice else s)

/-- The frame in transmission is a notice. -/
def Transmitter.sendsNotice : Transmitter → Bool
  | .sending _ _ isNotice => isNotice
  | .idle => false

/-- The frame in transmission is a reply. -/
def Transmitter.sendsReply : Transmitter → Bool
  | .sending _ _ isNotice => !isNotice
  | .idle => false

/-- NOTICE_SENT (R168). -/
def execNoticeSent (s : State) : Out :=
  .next (if frameIsSent s && s.link.transmitter.sendsNotice then
      { s with
        notices := { s.notices with inFlight := none, sequence := s.notices.sequence + 1 }
        link := { s.link with transmitter := .idle } }
    else s)

/-- A returned notice stands at the head, joined with the source's queued notice if there is one
(R170, step 3). -/
def returnNotice (source : Source) (flags : BitVec 8) (queued : List QueuedNotice) :
    List QueuedNotice :=
  let waiting := match queued.find? (fun n => n.source = source) with
    | some n => n.flags
    | none => 0
  ⟨source, waiting ||| flags⟩ :: queued.filter (fun n => n.source != source)

/-- A notice in flight at a link reset is cut off and returned, and a RESULTS notice gives its refused
count back (R170). -/
def State.cutOffNotice (s : State) : State :=
  match s.notices.inFlight with
  | none => s
  | some f =>
    { s with
      notices := { s.notices with
        queued := returnNotice f.source f.flags s.notices.queued, inFlight := none
        credits := min (s.notices.credits + 1) Config.maxCredits }
      results := { s.results with refused := saturate s.results.refused f.refusedTaken } }

/-- What a link reset does to the notice queue (R171). -/
def State.resetNotices (s : State) : State :=
  let s1 := s.cutOffNotice
  ({ s1 with notices := { s1.notices with credits := 1 } }).raiseDevice .linkReset

/-- GRANT's own check, then its effect (R165). -/
def grant (payload : List Byte) (s : State) : Answer :=
  let n := field payload 0 1
  if n > Config.maxCredits then refuse s .badValue 1
  else
    let credits := min Config.maxCredits (s.notices.credits + n)
    okay { s with notices := { s.notices with credits := credits } } (leBytes 1 credits)

/-- GRANT (R165). -/
def execGrant (s : State) : Out := .next (s.serve .grant anyPayload grant)

end Sys2Proof.Machine
end

