-- ==== Sys2Proof/Machine/Timebase.lean ====
section
/-! DEFINITION. The timebase and the reference monitor: TICK, REFCLK_EDGE, REF_LOSS, REGAIN
(chapter 1), with what a tick does in the channels, the probes and the line monitor. -/

namespace Sys2Proof.Machine

/-- The tick that a TICK counts: tick 0 after power reset (R9), the next one after that (R1). -/
def Timebase.nextTick (tb : Timebase) : Tick :=
  if tb.lastAbnormal.isNone then tb.tick else tb.tick + 1

/-- A tick in the timebase: the counter (R1), the since-edge count (R5), the regain count (R8) and the
abnormal history (R9). An edge at this tick follows as REFCLK_EDGE. -/
def Timebase.onTick (tb : Timebase) : Timebase :=
  let tick := tb.nextTick
  let abnormal := tb.state != .normal
  { tb with
    tick := tick
    sinceEdge := min (tb.sinceEdge + 1) Config.lossTicks
    lossDue := tb.sinceEdge + 1 == Config.lossTicks
    lossTaken := false
    regain := if abnormal then tb.regain.map (fun n => min (n + 1) Config.regainTicks) else tb.regain
    lastAbnormal := if abnormal then some tick else tb.lastAbnormal
    abnormalAge := if abnormal then 0 else min (tb.abnormalAge + 1) Config.ageLimit }

/-- The glitch filter takes the sample of an ENABLED channel (R16, R17): a pending transition is
created or its run extended. A revert follows as REVERT, an acceptance as EDGE_ACCEPTED. -/
def Channel.filterSample (now : Tick) (c : Channel) : Channel :=
  let level := c.comparator
  let pending :=
    if c.accepted = some level then c.pending
    else
      match c.pending with
      | none => some ⟨level, now, 1⟩
      | some p => some { p with run := p.run + 1 }
  { c with sample := some level, pending := pending }

/-- A sample enters a probe step (R155). -/
def ProbeRecord.see (p : ProbeRecord) (level : Level) : ProbeRecord :=
  { p with highSeen := p.highSeen || level == .high, lowSeen := p.lowSeen || level == .low }

/-- The probe takes the sample of a PROBING channel, while its step's dwell lasts (R155). -/
def Channel.probeSample (now : Tick) (c : Channel) : Channel :=
  match c.probe with
  | none => c
  | some p =>
    if now == tickAfter p.stepStart p.dwell then c
    else { c with probe := some (p.see c.comparator) }

/-- A tick in a channel (R16, R155). -/
def Channel.onTick (now : Tick) (c : Channel) : Channel :=
  match c.state with
  | .disabled => c
  | .enabled => c.filterSample now
  | .probing => c.probeSample now

/-! ## Characters on RXD (R175) -/

/-- What the receiver has of RXD after a tick: the character in progress, and the byte completed at this
tick. -/
structure Heard where
  character : Option Character
  byte : Option Byte
deriving DecidableEq, Repr

/-- The character in progress at a tick: the one that was, or, after RXD has rested high, one whose start
bit begins with RXD low (R175; assumption 28). -/
def characterAt (now : Tick) (before rxd : Level) : Option Character → Option Character
  | some c => some c
  | none => if before = .high && rxd = .low then some ⟨now, []⟩ else none

/-- The byte that eight sampled data bits spell, least significant first (R175). -/
def byteOf (bits : List Level) : Byte :=
  BitVec.ofNat 8 (bits.foldr (fun level n => bit (level == .high) + 2 * n) 0)

/-- A sample of RXD enters a character (R175): a start bit that is sampled high is none (assumption 28);
the stop bit completes the character, and when it is high a byte, which the receiver discards in
IN_BREAK (R187). DESIGN CHOICE (assumption 32): a byte whose stop bit is sampled at the tick of the link
reset is discarded too. -/
def Character.sample (c : Character) (inBreak : Bool) (rxd : Level) : Heard :=
  if c.bits.length = 0 && rxd = .high then ⟨none, none⟩
  else if c.bits.length = 9 then
    ⟨none, if rxd = .high && !inBreak then some (byteOf (c.bits.drop 1)) else none⟩
  else ⟨some { c with bits := c.bits ++ [rxd] }, none⟩

/-- The receiver at a tick: it samples the next bit of the character in progress at its sampling tick
(R175). -/
def hear (rate : LineRate) (inBreak : Bool) (now : Tick) (before rxd : Level)
    (character : Option Character) : Heard :=
  match characterAt now before rxd character with
  | none => ⟨none, none⟩
  | some c =>
    if distance c.start now = sampleOffset rate c.bits.length then c.sample inBreak rxd
    else ⟨some c, none⟩

/-! ## The tick -/

/-- A tick in the host link: the level of RXD, and from the end of initialisation the receiver's sampling
(R175, R176) and the line-low count (R187). In IN_BREAK the count stays, and RXD high makes the link reset
due. -/
def Link.onTick (now : Tick) (rxd : Level) (l : Link) : Link :=
  let counted :=
    if !l.initialised || l.breakState = .inBreak then l.lineLow
    else if rxd = .low then min (l.lineLow + 1) Config.breakTicks
    else 0
  let heard :=
    if l.initialised then hear l.rate (l.breakState == .inBreak) now l.rxd rxd l.character
    else ⟨none, none⟩
  { l with
    rxd := rxd
    character := heard.character
    completed := heard.byte
    lineLow := counted
    resetDue := l.resetDue || (l.breakState == .inBreak && rxd == .high)
    executed := false }

/-- The next tick in every block that counts or samples. -/
def State.onTick (s : State) (rxd : Level) : State :=
  let tb := s.timebase.onTick
  { s with
    timebase := tb
    channels := mapBank (Channel.onTick tb.tick) s.channels
    link := s.link.onTick tb.tick rxd }

/-- TICK (R1). The tick comes when every event of the present one has been taken (assumption 5). -/
def execTick (rxd : Level) (s : State) : Out := .next (if workIsDue s then s else s.onTick rxd)

/-- A REFCLK edge zeroes the since-edge count; seen while the count is 80 in START or HOLDOVER it
begins a presence (R5, R8). An edge at the tick on which the count would reach 80 forestalls the loss
(R5: "each tick without an edge adds 1"). -/
def Timebase.onEdge (tb : Timebase) : Timebase :=
  { tb with
    sinceEdge := 0
    lossDue := false
    regain :=
      if tb.state != .normal && tb.sinceEdge == Config.lossTicks && !tb.lossDue then some 0
      else tb.regain }

/-- REFCLK_EDGE (R5, R8). A tick at which a loss has been declared is a tick without an edge (R5): an edge
comes at a later one. DESIGN CHOICE (assumption 31): an edge commanded after power reset and before tick 0
has been counted is taken as an edge, and begins a presence. -/
def execRefclkEdge (s : State) : Out :=
  .next (if s.timebase.lossTaken then s else { s with timebase := s.timebase.onEdge })

/-- A loss declared in NORMAL takes the timebase into HOLDOVER (R6); in START or HOLDOVER it abandons
the regain (R7). -/
def State.declareLoss (s : State) : State :=
  let tb := s.timebase
  match tb.state with
  | .normal =>
    ({ s with timebase := { tb with
        state := .holdover, holdoverEntries := saturate tb.holdoverEntries 1, regain := none,
        lastAbnormal := some tb.tick, abnormalAge := 0, lossDue := false,
        lossTaken := true } }).raiseDevice .refLost
  | .start | .holdover =>
    { s with timebase := { tb with regain := none, lossDue := false, lossTaken := true } }

/-- REF_LOSS (R5 to R7). -/
def execRefLoss (s : State) : Out := .next (if lossIsDue s then s.declareLoss else s)

/-- The timebase becomes NORMAL, and this tick is not abnormal: the last abnormal tick is the tick
before it (R8). -/
def State.becomeNormal (s : State) : State :=
  let tb := s.timebase
  ({ s with timebase := { tb with
      state := .normal, regain := none, lastAbnormal := some (tickBefore tb.tick 1),
      abnormalAge := 1 } }).raiseDevice .refGood

/-- REGAIN (R8, R11). -/
def execRegain (s : State) : Out := .next (if regainIsDue s then s.becomeNormal else s)

end Sys2Proof.Machine
end

