-- ==== Sys2Proof/Machine/Links.lean ====
section
/-! DEFINITION. The host link: the receiver (STRAY_BYTE, SYNC, FRAME_BYTE, BAD_LENGTH, RECEIVE_FRAME,
TRUNCATION), the line monitor (BREAK_DETECTED, LINK_RESET), the transmitter (REPLY_BEGIN, REPLY_SENT)
and INIT_END (sections 11.1 to 11.5). -/

namespace Sys2Proof.Machine

/-- The receiver takes byte `b` at this tick: it is the byte completed on RXD (R175), and the receiver
examines bytes. -/
def State.takes (s : State) (b : Byte) : Bool := s.link.listens && s.link.completed == some b

/-- The bytes of the frame in collection, if byte `b`, completed at this tick, joins them: the receiver is
IN_FRAME, and a truncation due at this tick has been taken (R181). -/
def State.collecting (s : State) (b : Byte) : Option (List Byte) :=
  match s.link.receiver with
  | .inFrame bytes _ => if s.takes b && !truncationIsDue s then some bytes else none
  | .hunting => none

/-- Byte `b`, completed at this tick, is examined in HUNTING. -/
def State.huntingFor (s : State) (b : Byte) : Bool := s.takes b && s.link.receiver == .hunting

/-- The byte completed at this tick has been examined. -/
def State.examined (s : State) : State := { s with link := { s.link with completed := none } }

/-- A link counter raised by one (R182). -/
def State.setCounters (s : State) (c : LinkCounters) : State :=
  { s with link := { s.link with counters := c } }

/-- The receiver's state replaced. -/
def State.setReceiver (s : State) (r : Receiver) : State :=
  { s with link := { s.link with receiver := r } }

/-- STRAY_BYTE (R179). -/
def execStrayByte (b : Byte) (s : State) : Out :=
  let c := s.link.counters
  .next (if s.huntingFor b && b != frameSync then
      s.examined.setCounters { c with stray := saturate c.stray 1 }
    else s)

/-- SYNC (R179). -/
def execSync (s : State) : Out :=
  .next (if s.huntingFor frameSync then s.examined.setReceiver (.inFrame [frameSync] s.now)
    else s)

/-- LEN is the next byte of the frame (R179). -/
def lengthIsNext (bytes : List Byte) : Bool := bytes.length == 1

/-- The LEN of a partial frame that holds it. -/
def lengthOf (bytes : List Byte) : Nat := (bytes.getD 1 0).toNat

/-- The next byte is the last of the frame, of LEN + 4 bytes (R177, R180). -/
def lastIsNext (bytes : List Byte) : Bool :=
  2 ≤ bytes.length && bytes.length + 1 == lengthOf bytes + 4

/-- FRAME_BYTE (R179): a valid LEN, or a later byte other than the last. -/
def execFrameByte (b : Byte) (s : State) : Out :=
  .next (match s.collecting b with
    | some bytes =>
      if (if lengthIsNext bytes then lengthOk b else !lastIsNext bytes) then
        s.examined.setReceiver (.inFrame (bytes ++ [b]) s.now)
      else s
    | none => s)

/-- BAD_LENGTH (R179). -/
def execBadLength (b : Byte) (s : State) : Out :=
  let c := s.link.counters
  .next (match s.collecting b with
    | some bytes =>
      if lengthIsNext bytes && !lengthOk b then
        (s.examined.setReceiver .hunting).setCounters { c with badLength := saturate c.badLength 1 }
      else s
    | none => s)

/-- The bytes of a frame from LEN through its last payload byte, which the CRC covers (R178). -/
def frameBody (frame : List Byte) : List Byte := (frame.drop 1).take (lengthOf frame + 1)

/-- The CHECK received, low byte first (R178). -/
def frameCheck (frame : List Byte) : Nat := leNat (frame.drop (lengthOf frame + 2))

/-- TAG, CODE and payload of a frame (R177). -/
def frameRequest (frame : List Byte) : Request :=
  let body := frameBody frame
  ⟨body.getD 2 0, body.getD 3 0, body.drop 4⟩

/-- A complete frame is checked for CRC and class, and discarded or appended to the intake queue
(R180). -/
def State.takeFrame (s : State) (frame : List Byte) : State :=
  let s1 := s.setReceiver .hunting
  let c := s1.link.counters
  if (crc16 (frameBody frame)).toNat ≠ frameCheck frame then
    (s1.setCounters { c with badCheck := saturate c.badCheck 1 }).raiseDevice .linkError
  else if (frameBody frame).getD 1 0 ≠ classRequest then
    (s1.setCounters { c with wrongClass := saturate c.wrongClass 1 }).raiseDevice .linkError
  else if s1.link.intake.length ≥ Config.intakePlaces then
    (s1.setCounters { c with overrun := saturate c.overrun 1 }).raiseDevice .intakeOverrun
  else { s1 with link := { s1.link with intake := s1.link.intake ++ [frameRequest frame] } }

/-- RECEIVE_FRAME (R180). -/
def execReceiveFrame (b : Byte) (s : State) : Out :=
  .next (match s.collecting b with
    | some bytes => if lastIsNext bytes then s.examined.takeFrame (bytes ++ [b]) else s
    | none => s)

/-- TRUNCATION (R181). -/
def execTruncation (s : State) : Out :=
  let c := s.link.counters
  .next (if truncationIsDue s then
      (s.setReceiver .hunting).setCounters { c with truncated := saturate c.truncated 1 }
    else s)

/-- BREAK_DETECTED (R187). -/
def execBreakDetected (s : State) : Out :=
  .next (if breakIsDue s then { s with link := { s.link with breakState := .inBreak } } else s)

/-- What a link reset does to the link (R188): receiver HUNTING, both queues empty, the transmitter
stopped, the break over. -/
def Link.cut (l : Link) : Link :=
  { l with
    receiver := .hunting, intake := [], replies := [], transmitter := .idle, breakState := .none,
    lineLow := 0, resetDue := false }

/-- LINK_RESET (R188, R170, R171). -/
def execLinkReset (s : State) : Out :=
  .next (if linkResetIsDue s then ({ s with link := s.link.cut }).resetNotices else s)

/-- The head reply leaves the reply queue, and the transmitter begins its frame (R184, R186). -/
def State.beginReply (s : State) : State :=
  match s.link.replies with
  | [] => s
  | r :: rest =>
    { s with
      link := { s.link with
        replies := rest
        transmitter := .sending (frameBytes classReply r.tag r.code r.payload) s.now false } }

/-- REPLY_BEGIN (R186). -/
def execReplyBegin (s : State) : Out := .next (if replyBeginIsDue s then s.beginReply else s)

/-- REPLY_SENT (R186). -/
def execReplySent (s : State) : Out :=
  .next (if frameIsSent s && s.link.transmitter.sendsReply then
      { s with link := { s.link with transmitter := .idle } }
    else s)

/-- The link at the end of initialisation (R176): its reset values, with the line rate and RXD as they
are. Counting of RXD low begins at this tick (assumption 17), and so does the receiver's work: a line that
is low at it counts as one that has just fallen (assumption 28). -/
def Link.endInit (now : Tick) (l : Link) : Link :=
  { Link.reset l.rate l.rxd with
    initialised := true
    character := (hear l.rate false now .high l.rxd none).character
    lineLow := if l.rxd = .low then 1 else 0
    executed := l.executed }

/-- INIT_END (R176). -/
def execInitEnd (s : State) : Out :=
  .next (if initEndIsDue s then { s with link := s.link.endInit s.now } else s)

/-- The level of TXD at the present tick, between the ticks of which the line does not change: the bit
of the frame that the elapsed bit times reach, high at rest (R175, R177). -/
def State.txd (s : State) : Level :=
  match s.link.transmitter with
  | .idle => .high
  | .sending frame start _ =>
    let elapsed := s.sinceFrame start * s.link.rate.bitsPerSecond / 40000000
    (frame.flatMap charBits).getD elapsed .high

end Sys2Proof.Machine
end

