-- ==== Sys2Proof/Machine/Probes.lean ====
section
/-! DEFINITION. The level probe: PROBE_START, PROBE_STEP, PROBE_CANCEL (chapter 9). -/

namespace Sys2Proof.Machine

/-- The weight of the bit that a step decides: 2^(10 - k) (R156). -/
def stepWeight (step : Nat) : Nat := 2 ^ (10 - step)

/-- The result so far: the trial code with the bit of the step in progress cleared (chapter 9). -/
def ProbeRecord.soFar (p : ProbeRecord) : Nat := p.trial - stepWeight p.step

/-- A probe step begins: the comparator is set from the input against the trial threshold, and the
step's first sample is taken at this tick (R155). -/
def Channel.beginStep (c : Channel) (p : ProbeRecord) : Channel :=
  let output := setOutput c.input p.trial
  { c with comparator := output, probe := some (p.see output) }

/-- The probe's own checks, in order (R153). -/
def probeStartCheck (payload : List Byte) (s : State) : Check :=
  let ch := channelField payload
  if field payload 1 1 > 1 then some (.badValue, 2)
  else if (s.channel ch).state = .probing then some (.channelBusy, 0)
  else if s.inUse ch then some (.channelInUse, 0)
  else if field payload 2 1 = 0 then some (.badValue, 3)
  else if field payload 3 1 > 1 then some (.badValue, 4)
  else none

/-- The return state that a channel keeps (R22). -/
def Channel.toReturn (c : Channel) : ReturnState :=
  if c.state = .enabled then .enabled else .disabled

/-- A channel enters PROBING and step 1 begins (R22, R154). -/
def Channel.startProbe (c : Channel) (now : Tick) (dwell : Nat) (adopt : Bool) : Channel :=
  ({ c with
    state := .probing, returnState := some c.toReturn, pending := none, inTransit := [],
    accepted := none, sample := none }).beginStep
    { trial := 512, step := 1, dwell := dwell, stepStart := now, highSeen := false,
      lowSeen := false, mixed := 0, adopt := adopt }

/-- PROBE START's own checks, then its effect (R153, R154). -/
def probeStart (payload : List Byte) (s : State) : Answer :=
  match probeStartCheck payload s with
  | some (code, detail) => refuse s code detail
  | none =>
    let ch := channelField payload
    let c := s.channel ch
    let dwell := 40 * field payload 2 1
    ⟨s.setChannel ch (c.startProbe s.now dwell (field payload 3 1 == 1)), .accepted,
      leBytes 1 c.toReturn.toCode ++ tickBytes (tickAfter s.now (10 * dwell))⟩

/-- PROBE_START (R154): the request PROBE whose action is not CANCEL, refusals included. -/
def execProbeStart (s : State) : Out :=
  .next (s.serve .probe (fun p => !probeCancels p) probeStart)

/-- The code after a step is decided: the bit is kept when HIGH was seen (R156). -/
def ProbeRecord.decided (p : ProbeRecord) : Nat := if p.highSeen then p.trial else p.soFar

/-- The mixed-step count after a step is decided (R156). -/
def ProbeRecord.mixedAfter (p : ProbeRecord) : Nat :=
  if p.highSeen && p.lowSeen then p.mixed + 1 else p.mixed

/-- The adopted high code (R158). -/
def adoptedHigh (code high low : Nat) : Nat := min (code / 2 + (high - low) / 2) 1023

/-- The adopted low code (R158): the new high code less w, and 0 below 0. -/
def adoptedLow (code high low : Nat) : Nat := adoptedHigh code high low - (high - low)

/-- The codes a completed probe leaves (R157, step 2). -/
def Channel.adopt (c : Channel) (p : ProbeRecord) (code : Nat) : Channel :=
  if p.adopt then
    { c with highCode := adoptedHigh code c.highCode c.lowCode
             lowCode := adoptedLow code c.highCode c.lowCode }
  else c

/-- Step 10 is decided: result, ADOPT, return state (R157). -/
def Channel.completeProbe (c : Channel) (p : ProbeRecord) : Channel :=
  (({ c with lastProbe := some ⟨p.decided, p.mixedAfter, .done⟩ }).adopt p p.decided).endProbe

/-- The next step begins at this tick (R156). -/
def Channel.nextStep (c : Channel) (p : ProbeRecord) (now : Tick) : Channel :=
  c.beginStep { p with
    step := p.step + 1, trial := p.decided + stepWeight (p.step + 1), stepStart := now,
    highSeen := false, lowSeen := false, mixed := p.mixedAfter }

/-- A probe step is decided (R156, R157). -/
def State.decideStep (s : State) (ch : Fin 8) : State :=
  let c := s.channel ch
  match c.probe with
  | none => s
  | some p =>
    if p.step = 10 then (s.setChannel ch (c.completeProbe p)).raiseChannel ch .probeDone
    else s.setChannel ch (c.nextStep p s.now)

/-- PROBE_STEP (R156). -/
def execProbeStep (ch : Fin 8) (s : State) : Out :=
  .next (if (s.channel ch).probeStepIsDue s.now then s.decideStep ch else s)

/-- A running probe stops; what is stored is the result so far (R159). -/
def Channel.cancelProbe (c : Channel) (p : ProbeRecord) : Channel :=
  ({ c with lastProbe := some ⟨p.soFar, p.mixed, .cancelled⟩ }).endProbe

/-- PROBE CANCEL's effect (R159). -/
def probeCancel (payload : List Byte) (s : State) : Answer :=
  let ch := channelField payload
  let c := s.channel ch
  let found := leBytes 1 c.state.toCode
  if c.state = .probing then
    match c.probe with
    | some p => okay ((s.setChannel ch (c.cancelProbe p)).raiseChannel ch .probeDone) found
    | none => okay s found
  else okay s found

/-- PROBE_CANCEL (R159): the request PROBE whose action is CANCEL. -/
def execProbeCancel (s : State) : Out := .next (s.serve .probe probeCancels probeCancel)

end Sys2Proof.Machine
end

