-- ==== Sys2Proof/Machine/Results.lean ====
section
/-! DEFINITION. The result queue's requests: RESULT_FETCH, RESULT_SETUP, RESULT_FLUSH (chapter 6). -/

namespace Sys2Proof.Machine

/-- The result queue's records replaced. -/
def State.setRecords (s : State) (records : List Record) : State :=
  { s with results := { s.results with records := records } }

/-- RESULT_FETCH's own check, then its effect (R116). -/
def resultFetch (payload : List Byte) (s : State) : Answer :=
  let most := field payload 0 1
  let records := s.results.records
  if most = 0 || most > 4 then refuse s .badValue 1
  else
    let taken := records.take most
    let left := records.drop most
    okay (s.setRecords left)
      (leBytes 1 taken.length ++ leBytes 1 left.length ++ taken.flatMap Record.bytes)

/-- RESULT_FETCH (R116). -/
def execResultFetch (s : State) : Out := .next (s.serve .resultFetch anyPayload resultFetch)

/-- RESULT_SETUP's own check, then its effect (R118). -/
def resultSetup (payload : List Byte) (s : State) : Answer :=
  let mark := field payload 0 1
  if mark = 0 || mark > Config.resultPlaces then refuse s .badValue 1
  else
    okay { s with results := { s.results with watermark := mark } }
      (leBytes 1 mark ++ leBytes 1 s.results.records.length)

/-- RESULT_SETUP (R118). -/
def execResultSetup (s : State) : Out := .next (s.serve .resultSetup anyPayload resultSetup)

/-- RESULT_FLUSH's effect (R119). -/
def resultFlush (_payload : List Byte) (s : State) : Answer :=
  okay (s.setRecords []) (leBytes 1 s.results.records.length)

/-- RESULT_FLUSH (R119). -/
def execResultFlush (s : State) : Out := .next (s.serve .resultFlush anyPayload resultFlush)

end Sys2Proof.Machine
end

