-- ==== Sys2Proof/Machine/Dispatch.lean ====
section
/-! DEFINITION. The meaning of every command, one arm per row of spec/opcode_table.json. -/

namespace Sys2Proof.Machine

def exec (i : Instr) (s : State) : Host.Outcome State Fault Refusal :=
  match i with
  | .powerReset rate1 rate0 => Sys2Proof.Machine.execPowerReset rate1 rate0 s
  | .initEnd => Sys2Proof.Machine.execInitEnd s
  | .refclkEdge => Sys2Proof.Machine.execRefclkEdge s
  | .refLoss => Sys2Proof.Machine.execRefLoss s
  | .regain => Sys2Proof.Machine.execRegain s
  | .revert channel => Sys2Proof.Machine.execRevert channel s
  | .edgeAccepted channel => Sys2Proof.Machine.execEdgeAccepted channel s
  | .edgeArrival channel => Sys2Proof.Machine.execEdgeArrival channel s
  | .edgeSeen slot => Sys2Proof.Machine.execEdgeSeen slot s
  | .deadlineExpiry => Sys2Proof.Machine.execDeadlineExpiry s
  | .probeStep channel => Sys2Proof.Machine.execProbeStep channel s
  | .strayByte byte => Sys2Proof.Machine.execStrayByte byte s
  | .badLength byte => Sys2Proof.Machine.execBadLength byte s
  | .receiveFrame byte => Sys2Proof.Machine.execReceiveFrame byte s
  | .truncation => Sys2Proof.Machine.execTruncation s
  | .breakDetected => Sys2Proof.Machine.execBreakDetected s
  | .linkReset => Sys2Proof.Machine.execLinkReset s
  | .replyBegin => Sys2Proof.Machine.execReplyBegin s
  | .replySent => Sys2Proof.Machine.execReplySent s
  | .noticeBegin => Sys2Proof.Machine.execNoticeBegin s
  | .noticeSent => Sys2Proof.Machine.execNoticeSent s
  | .unknownRequest => Sys2Proof.Machine.execUnknownRequest s
  | .describe => Sys2Proof.Machine.execDescribe s
  | .status => Sys2Proof.Machine.execStatus s
  | .time => Sys2Proof.Machine.execTime s
  | .grant => Sys2Proof.Machine.execGrant s
  | .softReset => Sys2Proof.Machine.execSoftReset s
  | .chanSet => Sys2Proof.Machine.execChanSet s
  | .chanGet => Sys2Proof.Machine.execChanGet s
  | .probeStart => Sys2Proof.Machine.execProbeStart s
  | .probeCancel => Sys2Proof.Machine.execProbeCancel s
  | .captureSet => Sys2Proof.Machine.execCaptureSet s
  | .captureRead => Sys2Proof.Machine.execCaptureRead s
  | .captureFlush => Sys2Proof.Machine.execCaptureFlush s
  | .jobDefine => Sys2Proof.Machine.execJobDefine s
  | .jobStart => Sys2Proof.Machine.execJobStart s
  | .jobStop => Sys2Proof.Machine.execJobStop s
  | .jobClear => Sys2Proof.Machine.execJobClear s
  | .jobGet => Sys2Proof.Machine.execJobGet s
  | .resultFetch => Sys2Proof.Machine.execResultFetch s
  | .resultSetup => Sys2Proof.Machine.execResultSetup s
  | .resultFlush => Sys2Proof.Machine.execResultFlush s
  | .limitSet => Sys2Proof.Machine.execLimitSet s
  | .tick rxd => Sys2Proof.Machine.execTick rxd s
  | .comparatorOutput channel level => Sys2Proof.Machine.execComparatorOutput channel level s
  | .sync => Sys2Proof.Machine.execSync s
  | .frameByte byte => Sys2Proof.Machine.execFrameByte byte s

end Sys2Proof.Machine
end

