-- ==== Sys2Proof/Safety.lean ====
section
/-! DEFINITION. What counts as a lawful state: the laws the spec states of the device at every tick,
block by block, and the terms in which a request is asked and answered. -/

namespace Sys2Proof.Machine

/-! ## Jobs and deadlines (R94, R95) -/

/-- The entries a slot holds: one for its next boundary, due at the boundary plus the settle, and none
without one (R95). -/
def Job.expectedEntries (slot : Fin 32) (j : Job) : List Entry :=
  match j.next with
  | some b => [⟨tickAfter b.tick j.settleTicks, slot, b.purpose⟩]
  | none => []

/-- The next boundary has a purpose. -/
def Job.nextIs (j : Job) (p : Purpose) : Prop := ∃ t, j.next = some ⟨p, t⟩

/-- The next boundary that R95 gives an ACTIVE job of a kind. -/
def Job.activeBoundary (j : Job) (d : Definition) : Prop :=
  match d.kind with
  | .freqFixed => j.nextIs .close
  | .freqSync | .period | .width | .phase => j.nextIs .stall
  | .tally => if d.report > 0 then j.nextIs .report else j.next = none

/-- The next boundary and the definition that each state of a job has (table of chapter 3, R95). -/
def Job.boundaryLaw (j : Job) : Prop :=
  match j.state, j.definition with
  | .free, _ => j.next = none
  | .idle, _ => j.next = none
  | .done, _ => j.next = none
  | .armed, some _ =>
    (j.subMode = some .at ∧ j.nextIs .start) ∨ (j.subMode = some .onEdge ∧ j.next = none)
  | .active, some d => j.activeBoundary d
  | .hold, some d => d.repeating = .periodic ∧ j.nextIs .start
  | .armed, none => False
  | .active, none => False
  | .hold, none => False

/-- How many jobs are in ARMED, ACTIVE or HOLD. -/
def State.runningJobs (s : State) : Nat := countIn (fun j => j.state.running) s.jobs

/-- R94: the reservation count is the number of running jobs and at most 24. R95: every slot holds
exactly the entries its next boundary gives, and the boundary its state gives. -/
def State.deadlineLaw (s : State) : Prop :=
  s.deadlines.reservations = s.runningJobs
    ∧ s.deadlines.reservations ≤ 24
    ∧ ∀ slot, (s.job slot).boundaryLaw
        ∧ s.deadlines.entries.filter (fun e => e.slot == slot)
            = (s.job slot).expectedEntries slot

/-- R96: the entries stand in non-decreasing order of their distance ahead of the present tick. -/
def State.deadlineOrder (s : State) : Prop :=
  s.deadlines.entries.Pairwise (fun a b => distance s.now a.due ≤ distance s.now b.due)

/-! ## Channels (R16, R22, R24) -/

/-- R24: every channel referenced by a running job is ENABLED. -/
def State.channelsInUseEnabled (s : State) : Prop :=
  ∀ slot d ch, (s.job slot).state.running = true → (s.job slot).definition = some d →
    d.references ch = true → (s.channel ch).state = .enabled

/-- What each state of a channel holds (sections 2.4 and 9, R16, R17, R22): the accepted level in
ENABLED alone, the probe record and the return state in PROBING alone, a pending transition only in
ENABLED and only away from the accepted level, edges in transit only in ENABLED. -/
def Channel.shape (c : Channel) : Prop :=
  match c.state with
  | .disabled =>
    c.accepted = none ∧ c.pending = none ∧ c.inTransit = [] ∧ c.probe = none ∧ c.returnState = none
  | .enabled =>
    (∃ a, c.accepted = some a ∧ ∀ p, c.pending = some p → p.level ≠ a)
      ∧ c.probe = none ∧ c.returnState = none
  | .probing =>
    c.accepted = none ∧ c.pending = none ∧ c.inTransit = []
      ∧ c.probe.isSome = true ∧ c.returnState.isSome = true

/-- Every channel has the shape of its state. -/
def State.channelShapes (s : State) : Prop := ∀ ch, (s.channel ch).shape

/-- How many ticks an edge of the channel still has to go before it arrives (R20). -/
def Channel.ahead (now : Tick) (c : Channel) (e : AcceptedEdge) : Nat := distance now (c.arrivalTick e)

/-- R20: at most two edges are in transit, in the order of their arrival, each within two ticks of it. A
pending transition has stood for 1 to filter width + 1 samples up to the present one, or to the one before it
while a revert is due (R17, R18), and no edge in transit was accepted within its run (R19). -/
def Channel.transitLaw (now : Tick) (c : Channel) : Prop :=
  c.inTransit.length ≤ 2
    ∧ (c.inTransit.map (c.ahead now)).Pairwise (· < ·)
    ∧ (∀ e ∈ c.inTransit, c.ahead now e ≤ 2)
    ∧ ∀ p, c.pending = some p →
        1 ≤ p.run ∧ p.run ≤ c.filter + 1
          ∧ (c.sample ≠ c.accepted → tickAfter p.firstTick (p.run - 1) = now)
          ∧ (c.sample = c.accepted → p.run ≤ c.filter ∧ tickAfter p.firstTick p.run = now)
          ∧ ∀ e ∈ c.inTransit, c.ahead now e + p.run ≤ 2

/-- Every channel keeps R20, and before tick 0 has been counted the link is still in its initialisation and no
channel has left DISABLED (R9, R30, R176). -/
def State.transitLaw (s : State) : Prop :=
  (s.timebase.lastAbnormal = none →
      s.link.initialised = false ∧ ∀ ch, (s.channel ch).state = .disabled)
    ∧ ∀ ch, (s.channel ch).transitLaw s.now

/-! ## Capacities (R109, R114, R135, R136, R164, R183) and saturating counters (R182) -/

/-- A capture queue holds no more entries than its depth, and its watermark is none or at most the
depth (R136, R144). -/
def CaptureQueue.bounded (q : CaptureQueue) : Prop :=
  q.entries.length ≤ q.depth ∧ q.watermark ≤ q.depth

/-- No queue of the result path, the link and the captures, nor the pool or the credits, exceeds what the spec
gives it. -/
def State.capacities (s : State) : Prop :=
  s.results.records.length ≤ 96
    ∧ 1 ≤ s.results.watermark ∧ s.results.watermark ≤ 96
    ∧ s.link.intake.length ≤ 4
    ∧ s.link.replies.length ≤ 4
    ∧ s.notices.credits ≤ 16
    ∧ (∀ ch, (s.capture ch).bounded)
    ∧ sumIn CaptureQueue.depth s.captures ≤ 512

/-- The saturating counters of a job slot (table of section 3.1, R54, R79, R112) stand at 65,535 or
below. -/
def Job.counters (j : Job) : Prop :=
  j.pendingMissed ≤ 65535 ∧ j.lostPending ≤ 65535 ∧ j.lostTotal ≤ 65535 ∧ j.missedTotal ≤ 65535
    ∧ j.acc.skipped ≤ 65535

/-- The six link counters stand at 65,535 or below (R182). -/
def LinkCounters.bounded (c : LinkCounters) : Prop :=
  c.stray ≤ 65535 ∧ c.badLength ≤ 65535 ∧ c.truncated ≤ 65535 ∧ c.badCheck ≤ 65535
    ∧ c.wrongClass ≤ 65535 ∧ c.overrun ≤ 65535

/-- Every saturating counter of the device stands at 65,535 or below: the holdover entry count (R10), the
glitch counters (R18), the loss counters (R142), the counters of the job slots, the refused count (R112), the
link counters (R182); and the line-low count at 80,000 or below (R187). -/
def State.counters (s : State) : Prop :=
  s.timebase.holdoverEntries ≤ 65535
    ∧ (∀ ch, (s.channel ch).glitches ≤ 65535)
    ∧ (∀ ch, (s.capture ch).loss ≤ 65535)
    ∧ (∀ slot, (s.job slot).counters)
    ∧ s.results.refused ≤ 65535
    ∧ s.link.counters.bounded
    ∧ s.link.lineLow ≤ 80000

/-! ## Timebase (R5, R8, R9, R10) -/

/-- The counts of the timebase stay in their ranges; the regain count is present in START and HOLDOVER
alone (R8); in START and HOLDOVER the last abnormal tick, once there is one, is the present tick; in
NORMAL it lies as many ticks back as the abnormal age says, until the age has stopped at 2^47 (R9). A loss
that has been declared at this tick leaves the since-edge count at 80 and no regain count (R5 to R7). -/
def Timebase.lawful (tb : Timebase) : Prop :=
  tb.sinceEdge ≤ 80 ∧ tb.abnormalAge ≤ 2 ^ 47 ∧ tb.holdoverEntries ≤ 65535
    ∧ (∀ n, tb.regain = some n → n ≤ 40000 ∧ tb.state ≠ .normal)
    ∧ (tb.lossDue = true → tb.sinceEdge = 80)
    ∧ (tb.lossTaken = true → tb.sinceEdge = 80 ∧ tb.lossDue = false ∧ tb.regain = none)
    ∧ (tb.lastAbnormal = none → tb.state = .start ∧ tb.tick = 0 ∧ tb.abnormalAge = 0)
    ∧ (tb.state ≠ .normal → ∀ a, tb.lastAbnormal = some a → a = tb.tick ∧ tb.abnormalAge = 0)
    ∧ (tb.state = .normal → ∀ a, tb.lastAbnormal = some a →
        1 ≤ tb.abnormalAge ∧ (tb.abnormalAge < 2 ^ 47 → distance a tb.tick = tb.abnormalAge))

/-! ## ALERT, notices, transmission -/

/-- R130: ALERT is asserted exactly when a job with drive 1 is OUTSIDE. -/
def State.alertLaw (s : State) : Prop :=
  s.alert = true ↔
    ∃ slot w, (s.job slot).window = some w ∧ w.drive = true ∧ (s.job slot).alert = .outside

/-- R163: no two queued notices of one source. -/
def State.noticeSources (s : State) : Prop := (s.notices.queued.map QueuedNotice.source).Nodup

/-- A notice is in the in-flight slot exactly while the transmitter sends a notice frame (R166, R168,
R170), and while initialisation runs the transmitter is idle and both queues of the link are empty
(R176). -/
def State.transmissionLaw (s : State) : Prop :=
  (s.notices.inFlight.isSome = true ↔ s.link.transmitter.sendsNotice = true)
    ∧ (s.link.initialised = false →
        s.link.transmitter = .idle ∧ s.link.intake = [] ∧ s.link.replies = [])

/-! ## Requests -/

/-- A running job references the channel (R24). -/
def State.claimed (s : State) (ch : Fin 8) : Prop :=
  ∃ slot d, (s.job slot).state.running = true ∧ (s.job slot).definition = some d
    ∧ d.references ch = true

/-- The values that R35 and R36 allow in a definition, field by field. -/
def Definition.allowed (d : Definition) : Prop :=
  (match d.kind with
    | .width => d.selectA = .rise ∨ d.selectA = .fall
    | .freqFixed | .freqSync | .period | .phase | .tally => d.selectA ≠ .none)
  ∧ (if d.kind = .phase then d.channelB ≠ d.channelA else d.channelB = 0)
  ∧ (if d.kind = .phase then d.selectB ≠ .none else d.selectB = .none)
  ∧ (match d.kind with
    | .freqFixed | .freqSync => 400 ≤ d.gate ∧ d.gate < 2 ^ 32
    | .period | .width | .phase | .tally => d.gate = 0)
  ∧ (match d.kind with
    | .period | .width | .phase => 1 ≤ d.count ∧ d.count ≤ 65535
    | .freqFixed | .freqSync | .tally => d.count = 0)
  ∧ (d.report = 0 ∨ (d.kind = .tally ∧ 4000 ≤ d.report ∧ d.report < 2 ^ 32))
  ∧ (d.target = 0 ∨ (d.kind = .tally ∧ d.target < 2 ^ 48))
  ∧ (match d.kind with
    | .freqSync | .period | .width | .phase => 4000 ≤ d.stall ∧ d.stall < 2 ^ 32
    | .freqFixed | .tally => d.stall = 0)
  ∧ (d.kind = .tally → d.repeating ≠ .periodic)
  ∧ (if d.repeating = .periodic then
      4000 ≤ d.period ∧ d.period < 2 ^ 32 ∧ (d.kind = .freqFixed → d.gate ≤ d.period)
    else d.period = 0)

/-- Every definition that a slot holds has values that R35 and R36 allow. -/
def State.definitionsAllowed (s : State) : Prop :=
  ∀ slot d, (s.job slot).definition = some d → d.allowed

/-- An entry stands in a list by its distance ahead of the tick: no entry before it lies further ahead,
and the entry behind it does (R97). -/
def Entry.placed (now : Tick) (e : Entry) (old new : List Entry) : Prop :=
  ∃ before behind, old = before ++ behind ∧ new = before ++ e :: behind
    ∧ (∀ x ∈ before, distance now x.due ≤ distance now e.due)
    ∧ ∀ x ∈ behind.head?, distance now e.due < distance now x.due

/-- The entries of the slots other than one. -/
def State.otherEntries (s : State) (slot : Fin 32) : List Entry :=
  s.deadlines.entries.filter (fun e => e.slot != slot)

/-- The command that executes a request (table of spec/opcode_table.json): PROBE has two rows. -/
def RequestCode.row (code : RequestCode) (payload : List Byte) : Instr :=
  match code with
  | .describe => .describe
  | .status => .status
  | .time => .time
  | .grant => .grant
  | .softReset => .softReset
  | .chanSet => .chanSet
  | .chanGet => .chanGet
  | .probe => if probeCancels payload then .probeCancel else .probeStart
  | .captureSet => .captureSet
  | .captureRead => .captureRead
  | .captureFlush => .captureFlush
  | .jobDefine => .jobDefine
  | .jobStart => .jobStart
  | .jobStop => .jobStop
  | .jobClear => .jobClear
  | .jobGet => .jobGet
  | .resultFetch => .resultFetch
  | .resultSetup => .resultSetup
  | .resultFlush => .resultFlush
  | .limitSet => .limitSet

/-- The dispatcher takes a request with this tag, code and payload at this tick (R183): it is the
oldest in the intake queue, `rest` stands behind it, the reply queue has room, and no request has been
executed at this tick. -/
def State.asks (s : State) (tag code : Byte) (payload : List Byte) (rest : List Request) : Prop :=
  s.link.initialised = true ∧ s.link.replies.length < 4 ∧ s.link.executed = false
    ∧ s.link.intake = ⟨tag, code, payload⟩ :: rest

/-- The request has been executed: it has left the intake queue, and its reply has joined the reply
queue (R183, R184). -/
def State.answered (s : State) (tag : Byte) (rest : List Request) (code : Byte)
    (payload : List Byte) : State :=
  { s with link := { s.link with
      intake := rest, replies := s.link.replies ++ [⟨tag, code, payload⟩], executed := true } }

/-- A command completes with a next state. -/
def completes (c : Instr) (s t : State) : Prop := exec c s = .next t

/-! ## What a job sees, and what an act of a job leaves alone -/

/-- At this tick the running job of a slot sees its oldest held edge, no boundary stands before it (R45,
R49), and a transition of the timebase that falls on the tick has been taken (assumption 29). -/
def State.sees (s : State) (slot : Fin 32) (d : Definition) (settle : Nat) (e : AcceptedEdge)
    (rest : List AcceptedEdge) : Prop :=
  (s.job slot).state.running = true ∧ (s.job slot).definition = some d
    ∧ (s.job slot).settle = some settle ∧ (s.job slot).held = e :: rest
    ∧ s.now = tickAfter e.timestamp settle ∧ referenceIsDue s = false
    ∧ ∀ b, (s.job slot).next = some b → notEarlier e.timestamp b.tick = false

/-- The job is ACTIVE, and the edge it sees is neither earlier than its open tick nor at the span limit
(R46, R64). -/
def State.processes (s : State) (slot : Fin 32) (d : Definition) (settle : Nat) (e : AcceptedEdge)
    (rest : List AcceptedEdge) : Prop :=
  s.sees slot d settle e rest ∧ (s.job slot).state = .active
    ∧ ∃ opened, (s.job slot).openTick = some opened ∧ notEarlier e.timestamp opened = true
        ∧ distance opened e.timestamp < 2 ^ 40

/-- The job is ACTIVE and sees an edge that lies at its span limit: 2^40 ticks or more, and less than 2^47,
from the open tick (R46, R64). -/
def State.limits (s : State) (slot : Fin 32) (d : Definition) (settle : Nat) (opened : Tick)
    (e : AcceptedEdge) (rest : List AcceptedEdge) : Prop :=
  s.sees slot d settle e rest ∧ (s.job slot).state = .active ∧ (s.job slot).openTick = some opened
    ∧ notEarlier e.timestamp opened = true ∧ 2 ^ 40 ≤ distance opened e.timestamp

/-- The head entry falls due at this tick; it is a slot's, and gives the boundary at `b` (R100); a transition
of the timebase that falls on the tick has been taken (assumption 29). -/
def State.expires (s : State) (slot : Fin 32) (d : Definition) (settle : Nat) (purpose : Purpose)
    (b : Tick) : Prop :=
  (s.job slot).definition = some d ∧ (s.job slot).settle = some settle ∧ s.now = tickAfter b settle
    ∧ referenceIsDue s = false ∧ ∃ rest, s.deadlines.entries = ⟨s.now, slot, purpose⟩ :: rest

/-- The entry of a slot stands for its next boundary among the entries of the other slots, and where there is
none the slot has no entry (R47, R97 to R99). -/
def State.entryStands (s : State) (slot : Fin 32) (next : Option Boundary) (settle : Nat) (t : State) :
    Prop :=
  match next with
  | none => t.deadlines.entries = s.otherEntries slot
  | some b =>
    Entry.placed s.now ⟨tickAfter b.tick settle, slot, b.purpose⟩ (s.otherEntries slot)
      t.deadlines.entries

/-- One job has become another and its entry stands for its next boundary; nothing else has changed but
the reservation count, which has become the given one (R47, R97 to R99). -/
def State.jobBecomes (s : State) (slot : Fin 32) (j : Job) (settle reservations : Nat) (t : State) :
    Prop :=
  t = { s with jobs := t.jobs, deadlines := t.deadlines }
    ∧ t.job slot = j ∧ (∀ k, k ≠ slot → t.job k = s.job k)
    ∧ t.deadlines.reservations = reservations
    ∧ s.entryStands slot j.next settle t

/-- What an act of one job that forms a record leaves alone: every other job, and every block but the job
table, the deadline list, the result queue, ALERT and the queued notices. -/
def State.sparesOthers (s : State) (slot : Fin 32) (t : State) : Prop :=
  t.timebase = s.timebase ∧ t.channels = s.channels ∧ t.captures = s.captures ∧ t.link = s.link
    ∧ t.pending = s.pending ∧ t.notices.inFlight = s.notices.inFlight
    ∧ t.notices.credits = s.notices.credits ∧ t.notices.sequence = s.notices.sequence
    ∧ t.notices.cause = s.notices.cause ∧ ∀ k, k ≠ slot → t.job k = s.job k

/-- Flags have been raised against a source and not yet sent. -/
def State.raised (s : State) (source : Source) (flags : BitVec 8) : Prop :=
  ∃ n ∈ s.notices.queued, n.source = source ∧ n.flags &&& flags = flags

/-! ## What the end of a measurement does (R50 to R55, R86 to R90, R106 to R112) -/

/-- A rate in millihertz, 0 when nothing was counted or the span is 0 (R68); the exact number past 2^64 - 1
too, the model's choice (assumption 33). -/
def milliHertz (n span : Nat) : Nat := if n = 0 ∨ span = 0 then 0 else n * 40000000000 / span

/-- What a record tells of the measurement of a job, whose accumulators are those at the end, that opened at
`opened` and ends at `endTick`: start and end, count, span, value and the optional fields, each as the job's
kind gives it (R70, R73, R75, R78, R81 to R87). -/
def Record.tells (r : Record) (d : Definition) (j : Job) (opened endTick : Tick) : Prop :=
  r.startTick =
      (match d.kind, j.next with
        | .tally, some b => if 0 < d.report then tickBefore b.tick d.report else opened
        | _, _ => opened)
    ∧ r.endTick = endTick ∧ r.count = j.acc.count
    ∧ r.span =
      (match d.kind, j.acc.firstEdge, j.acc.lastProgress with
        | .freqSync, some first, some last | .period, some first, some last => distance first last
        | .freqSync, _, _ | .period, _, _ => 0
        | _, _, _ => distance r.startTick endTick)
    ∧ r.value =
      (match d.kind with
        | .freqFixed | .freqSync => milliHertz r.count r.span
        | .period => if r.count = 0 then 0 else r.span / r.count
        | .width | .phase => if r.count = 0 then 0 else j.acc.sum / r.count
        | .tally => milliHertz (if 0 < d.report then r.count else j.acc.total) r.span)
    ∧ (let ranges : Prop := (d.kind = .period ∨ d.kind = .width ∨ d.kind = .phase) ∧ 1 ≤ r.count
      (ranges → r.min = j.acc.min ∧ r.max = j.acc.max) ∧ (¬ranges → r.min = none ∧ r.max = none))
    ∧ r.total = (if d.kind = .tally then some j.acc.total else none)
    ∧ r.skipped = (if d.kind = .phase then some j.acc.skipped else none)

/-- A job forms a record and hands it on (R50, R106). The record has the slot, the kind, the status, the next
sequence number (R38) and the pending missed count. HOLDOVER is set when the timebase is not NORMAL, or its
abnormal age does not pass the ticks since the open tick (R9, R89). The limit unit's verdict gives LIMIT_OUT,
the alert state and OUT or IN (R127 to R129); the status raises its flag (R88). With queue results 1 the
record is offered to the result queue, which appends it below 96 (R111) and refuses it at 96 (R112); with 0
it is not offered (R110). It is the latest result (R107). -/
def State.takesRecord (s : State) (slot : Fin 32) (d : Definition) (status : RecordStatus) (opened : Tick)
    (r : Record) (t : State) : Prop :=
  r.slot = slot ∧ r.kind = d.kind ∧ r.status = status
    ∧ r.sequence = (s.job slot).sequence + 1 ∧ (t.job slot).sequence = r.sequence
    ∧ r.missed = (s.job slot).pendingMissed ∧ (t.job slot).latest = some r
    ∧ (r.holdover = true ↔ s.timebase.state ≠ .normal
        ∨ (s.timebase.lastAbnormal ≠ none ∧ s.timebase.abnormalAge ≤ distance opened s.now))
    ∧ (let found := verdict (s.job slot).window status r.value
      (r.limitOut = true ↔ found = .outside)
        ∧ (found = .outside → (t.job slot).alert = .outside
            ∧ ((s.job slot).alert = .inside → t.raised (.job slot) 0x01#8))
        ∧ (found = .core → (t.job slot).alert = .inside
            ∧ ((s.job slot).alert = .outside → t.raised (.job slot) 0x02#8))
        ∧ (found = .margin ∨ found = .notEvaluated → (t.job slot).alert = (s.job slot).alert))
    ∧ (status = .stalled → t.raised (.job slot) 0x04#8)
    ∧ (status = .spanLimit → t.raised (.job slot) 0x10#8)
    ∧ (status = .target → t.raised (.job slot) 0x20#8)
    ∧ (d.queueResults = false → t.results = s.results ∧ r.lostBefore = 0
        ∧ (t.job slot).lostPending = (s.job slot).lostPending
        ∧ (t.job slot).lostTotal = (s.job slot).lostTotal)
    ∧ (d.queueResults = true → s.results.records.length < 96 →
        t.results = { s.results with records := s.results.records ++ [r] }
        ∧ r.lostBefore = (s.job slot).lostPending ∧ (t.job slot).lostPending = 0
        ∧ (t.job slot).lostTotal = (s.job slot).lostTotal
        ∧ (s.results.records.length + 1 = s.results.watermark → t.raised .results 0x01#8))
    ∧ (d.queueResults = true → 96 ≤ s.results.records.length →
        t.results = { s.results with refused := min (s.results.refused + 1) 65535 }
        ∧ r.lostBefore = 0
        ∧ (t.job slot).lostPending = min ((s.job slot).lostPending + 1) 65535
        ∧ (t.job slot).lostTotal = min ((s.job slot).lostTotal + 1) 65535
        ∧ t.raised .results 0x02#8)

/-- A job whose measurement opens at a tick (R62): ACTIVE, the accumulators cleared but for a first edge that
a closing edge gives the next measurement (R52), the first boundary of its kind (R42). -/
def Job.opensAt (j : Job) (d : Definition) (t : Tick) (first : Option Tick) : Job :=
  { j with
    state := .active, subMode := none, armingTick := none, openTick := some t,
    acc := { count := 0, firstEdge := first, lastProgress := first, sum := 0, min := none, max := none,
             pendingStart := none, skipped := 0, total := 0 },
    next :=
      match d.kind with
      | .freqFixed => some ⟨.close, tickAfter t d.gate⟩
      | .freqSync | .period | .width | .phase => some ⟨.stall, tickAfter t d.stall⟩
      | .tally => if 0 < d.report then some ⟨.report, tickAfter t d.report⟩ else none }

/-- The measurement of a job ends at `endTick` with the accumulators `a` (R50): the job hands on its record,
and its repeat mode acts, `held` the held edges it keeps if it goes on. ONCE: DONE, with ENDED raised and the
reservation released (R51). CONTINUOUS: the next measurement opens at `reopen` (R52). PERIODIC: the next start
is the grid point m P after the open tick, for the least m of at least 1 that brings it to `endTick` or later,
and the m - 1 skipped starts are missed (R54); it opens the next measurement at once when it is not later than
the horizon, and else the job waits for it in HOLD (R55). `first` is the closing edge that the next
measurement takes as its first, if it takes one (R52, R62). -/
def State.ends (s : State) (slot : Fin 32) (d : Definition) (settle : Nat) (opened : Tick)
    (a : Accumulators) (held : List AcceptedEdge) (status : RecordStatus) (endTick reopen : Tick)
    (first : Option Tick) (t : State) : Prop :=
  s.sparesOthers slot t ∧ ∃ r, s.takesRecord slot d status opened r t
    ∧ r.tells d { s.job slot with acc := a } opened endTick
    ∧ let j : Job := { s.job slot with
        acc := a, held := held, sequence := r.sequence, latest := some r, pendingMissed := 0,
        lostPending := (t.job slot).lostPending, lostTotal := (t.job slot).lostTotal,
        alert := (t.job slot).alert }
      (d.repeating = .once →
        t.job slot = { j with
            state := .done, subMode := none, armingTick := none, settle := none, startBase := none,
            next := none, held := [] }
          ∧ t.deadlines = { entries := s.otherEntries slot,
                            reservations := s.deadlines.reservations - 1 }
          ∧ t.raised (.job slot) 0x40#8)
      ∧ (d.repeating ≠ .once →
        t.deadlines.reservations = s.deadlines.reservations
          ∧ s.entryStands slot (t.job slot).next settle t)
      ∧ (d.repeating = .continuous → t.job slot = j.opensAt d reopen first)
      ∧ (d.repeating = .periodic → ∀ m, 1 ≤ m → distance opened endTick ≤ m * d.period →
        (m = 1 ∨ (m - 1) * d.period < distance opened endTick) →
        let start := tickAfter opened (m * d.period)
        let j : Job := { j with
          pendingMissed := min (m - 1) 65535,
          missedTotal := if m = 1 then (s.job slot).missedTotal
            else min ((s.job slot).missedTotal + (m - 1)) 65535 }
        (2 ≤ m → t.raised (.job slot) 0x08#8)
          ∧ (notEarlier (tickBefore s.now settle) start = false →
              t.job slot = { j with state := .hold, next := some ⟨.start, start⟩ })
          ∧ (notEarlier (tickBefore s.now settle) start = true →
              t.job slot = j.opensAt d start first))

/-- A measurement meets its span limit at an edge (R64, R65, R85): it ends at `endTick` without the edge, and
the edge, at the front of the held edges again, is then seen in the state that results: under ONCE it is
discarded with the held edges, under CONTINUOUS it is the first of the measurement that opens at its
timestamp, and under PERIODIC it falls in the measurement that has opened at the next start, or is ignored in
HOLD. -/
def State.limitEnds (s : State) (slot : Fin 32) (d : Definition) (settle : Nat) (opened : Tick)
    (e : AcceptedEdge) (rest : List AcceptedEdge) (endTick : Tick) : Prop :=
  ∃ u t, s.ends slot d settle opened (s.job slot).acc rest .spanLimit endTick e.timestamp none u
    ∧ completes (.edgeSeen slot) s t
    ∧ (d.repeating = .once → t = u)
    ∧ (d.repeating ≠ .once →
        completes (.edgeSeen slot) (u.setJob slot { u.job slot with held := e :: rest }) t)

end Sys2Proof.Machine
end

