-- ==== Sys2Proof/Certificates/Slice0/Obligations.lean ====
section
/-! DEFINITION. The statements for the provers. Each names in its docstring the rules of spec/ it states;
a statement that rests on a choice of the model says so and names the log entry. -/

open Sys2Proof Sys2Proof.Machine

/-! ## The machine -/

/-- A step takes the command at the front of the queue and runs it on the state with the queue's rest; on
an empty queue the block idles. The model's choice: assumption 1. -/
def Obligations.StepRunsFrontCommand : Prop :=
  ∀ s : State,
    (∀ c rest, s.pending = c :: rest → step s = exec c { s with pending := rest })
      ∧ (s.pending = [] → step s = .next s)

/-- Every command completes in every state with a next state, and none touches the queue of commands:
no rule names a condition that stops the device. The model's choice: assumptions 1 and 2. -/
def Obligations.EveryCommandCompletes : Prop :=
  ∀ (c : Instr) (s : State), ∃ t, completes c s t ∧ t.pending = s.pending

/-- The state right after reset satisfies every law of Safety.lean. -/
def Obligations.ResetIsLawful : Prop :=
  State.reset.timebase.lawful ∧ State.reset.deadlineLaw ∧ State.reset.deadlineOrder
    ∧ State.reset.channelsInUseEnabled ∧ State.reset.channelShapes ∧ State.reset.capacities
    ∧ State.reset.alertLaw ∧ State.reset.noticeSources ∧ State.reset.transmissionLaw
    ∧ State.reset.transitLaw ∧ State.reset.definitionsAllowed ∧ State.reset.counters

/-- POWER_RESET sets every block to its values after power reset (R13, R30, R60, R104, R121, R133, R150,
R172, R176), with the line rate that the straps give (R175). The model's choice: the levels of the input pins
and of RXD stay (assumption 3), and so does the queue of commands (assumption 1); the fields of the model's own
take the values of assumptions 6 to 9 and 28. -/
def Obligations.PowerResetSetsEveryBlock : Prop :=
  ∀ (rate1 rate0 : Bool) (s : State), ∃ t, completes (.powerReset rate1 rate0) s t
    ∧ t.timebase = { tick := 0, state := .start, sinceEdge := 80, regain := none, lastAbnormal := none,
                     abnormalAge := 0, holdoverEntries := 0, lossDue := false, lossTaken := false }
    ∧ (∀ ch, t.channel ch =
        { state := .disabled, highCode := 528, lowCode := 496, filter := 0, comparator := .low,
          accepted := none, pending := none, inTransit := [], glitches := 0, returnState := none,
          lastProbe := none, probe := none, input := (s.channel ch).input, sample := none })
    ∧ (∀ ch, t.capture ch =
        { depth := 0, entries := [], policy := .keepOld, select := .none, watermark := 0, loss := 0,
          gapPending := false })
    ∧ t.freeCells = 512
    ∧ (∀ slot, t.job slot =
        { state := .free, subMode := none, armingTick := none, definition := none, settle := none,
          startBase := none, openTick := none, next := none,
          acc := { count := 0, firstEdge := none, lastProgress := none, sum := 0, min := none,
                   max := none, pendingStart := none, skipped := 0, total := 0 },
          held := [], pendingMissed := 0, sequence := 0, lostPending := 0, lostTotal := 0,
          missedTotal := 0, window := none, alert := .inside, latest := none })
    ∧ t.deadlines = { entries := [], reservations := 0 }
    ∧ t.results = { records := [], watermark := 1, refused := 0 }
    ∧ t.alert = false
    ∧ t.notices = { queued := [⟨.device, 0x01#8⟩], inFlight := none, credits := 1, sequence := 0,
                    cause := .power }
    ∧ t.link.rate.bitsPerSecond =
        (match rate1, rate0 with
          | false, false => 115200 | false, true => 460800
          | true, false => 1000000 | true, true => 3000000)
    ∧ t.link.initialised = false ∧ t.link.receiver = .hunting ∧ t.link.lineLow = 0
    ∧ t.link.breakState = .none ∧ t.link.intake = [] ∧ t.link.replies = []
    ∧ t.link.transmitter = .idle
    ∧ t.link.counters = { stray := 0, badLength := 0, truncated := 0, badCheck := 0, wrongClass := 0,
                          overrun := 0 }
    ∧ t.link.rxd = s.link.rxd ∧ t.link.character = none ∧ t.link.completed = none
    ∧ t.link.resetDue = false ∧ t.link.executed = false
    ∧ t.pending = s.pending

/-- SOFT_RESET is answered OK with no fields, every block other than the timebase and the host link takes
its soft-reset values, and the link is untouched but for the request and its reply (R191); a notice in
flight, the credits and the sequence counter stay, and RESTARTED stands alone in the queue (R173). The
pins and the queue of commands stay. -/
def Obligations.SoftResetSparesTimebaseAndLink : Prop :=
  ∀ (s : State) (tag : Byte) (rest : List Request), s.asks tag 0x05 [] rest →
    ∃ t : State, completes .softReset s (t.answered tag rest 0x00 [])
      ∧ t.timebase = s.timebase ∧ t.link = s.link ∧ t.pending = s.pending
      ∧ (∀ ch, t.channel ch =
          { state := .disabled, highCode := 528, lowCode := 496, filter := 0, comparator := .low,
            accepted := none, pending := none, inTransit := [], glitches := 0, returnState := none,
            lastProbe := none, probe := none, input := (s.channel ch).input, sample := none })
      ∧ (∀ ch, t.capture ch =
          { depth := 0, entries := [], policy := .keepOld, select := .none, watermark := 0, loss := 0,
            gapPending := false })
      ∧ t.freeCells = 512
      ∧ (∀ slot, t.job slot =
          { state := .free, subMode := none, armingTick := none, definition := none, settle := none,
            startBase := none, openTick := none, next := none,
            acc := { count := 0, firstEdge := none, lastProgress := none, sum := 0, min := none,
                     max := none, pendingStart := none, skipped := 0, total := 0 },
            held := [], pendingMissed := 0, sequence := 0, lostPending := 0, lostTotal := 0,
            missedTotal := 0, window := none, alert := .inside, latest := none })
      ∧ t.deadlines = { entries := [], reservations := 0 }
      ∧ t.results = { records := [], watermark := 1, refused := 0 }
      ∧ t.alert = false
      ∧ t.notices = { queued := [⟨.device, 0x01#8⟩], inFlight := s.notices.inFlight,
                      credits := s.notices.credits, sequence := s.notices.sequence, cause := .soft }

/-! ## Timebase -/

/-- Only TICK and POWER_RESET move the tick counter: a TICK by at most one, modulo 2^48, and power reset
to 0 (R1). A TICK that leaves it alone waits for an event of the present tick (assumption 5), or counts
tick 0. -/
def Obligations.OnlyTickAndPowerResetMoveTheCounter : Prop :=
  ∀ (c : Instr) (s t : State), completes c s t →
    t.now = s.now
      ∨ (∃ rxd, c = .tick rxd ∧ workIsDue s = false ∧ s.timebase.lastAbnormal.isSome = true
          ∧ t.now = s.now + 1)
      ∨ ∃ rate1 rate0, c = .powerReset rate1 rate0 ∧ t.now = 0

/-- The holdover entry count (R10): an entry into HOLDOVER from NORMAL adds one, stopping at 65,535;
power reset sets it to 0; no other command, in any state, moves it. -/
def Obligations.HoldoverEntriesCountEntries : Prop :=
  ∀ (c : Instr) (s t : State), completes c s t →
    t.timebase.holdoverEntries =
      (match c with
        | .powerReset _ _ => 0
        | _ =>
          if s.timebase.state = .normal ∧ t.timebase.state = .holdover then
            min (s.timebase.holdoverEntries + 1) 65535
          else s.timebase.holdoverEntries)

/-- Every command keeps the law of the timebase (R5, R8, R9, R10): the ranges of its counts, a regain
count in START and HOLDOVER alone, and the last abnormal tick as far back as the abnormal age says. -/
def Obligations.EveryStepKeepsTheTimebaseLaw : Prop :=
  ∀ s t : State, s.timebase.lawful → step s = .next t → t.timebase.lawful

/-- TICK, once every event of the present tick has been taken (assumption 5): the counter (R1), the
since-edge count (R5), the regain count (R8) and the abnormal history (R9), and the line-low count (R187).
The first TICK after power reset counts tick 0 (R9; assumption 12). RXD high in IN_BREAK makes the link reset
due (R187), and one that is due stays due when RXD falls again, which is the model's inference (assumption 8).
Nothing else changes but the channels and the receiver's character, whose samples other statements give. -/
def Obligations.TickCountsTime : Prop :=
  ∀ (s : State) (rxd : Level), workIsDue s = false →
    ∃ t, completes (.tick rxd) s t
      ∧ t.now = (if s.timebase.lastAbnormal = none then s.now else s.now + 1)
      ∧ t.timebase.state = s.timebase.state
      ∧ t.timebase.holdoverEntries = s.timebase.holdoverEntries
      ∧ t.timebase.sinceEdge = min (s.timebase.sinceEdge + 1) 80
      ∧ (t.timebase.lossDue = true ↔ s.timebase.sinceEdge = 79) ∧ t.timebase.lossTaken = false
      ∧ (s.timebase.state ≠ .normal →
          t.timebase.regain = s.timebase.regain.map (fun n => min (n + 1) 40000)
            ∧ t.timebase.lastAbnormal = some t.now ∧ t.timebase.abnormalAge = 0)
      ∧ (s.timebase.state = .normal →
          t.timebase.regain = s.timebase.regain
            ∧ t.timebase.lastAbnormal = s.timebase.lastAbnormal
            ∧ t.timebase.abnormalAge = min (s.timebase.abnormalAge + 1) (2 ^ 47))
      ∧ t.link = { s.link with
          rxd := rxd, character := t.link.character, completed := t.link.completed,
          lineLow := t.link.lineLow, resetDue := t.link.resetDue, executed := false }
      ∧ t.link.lineLow =
          (if s.link.initialised = false ∨ s.link.breakState = .inBreak then s.link.lineLow
            else if rxd = .low then min (s.link.lineLow + 1) 80000 else 0)
      ∧ (t.link.resetDue = true ↔
          s.link.resetDue = true ∨ (s.link.breakState = .inBreak ∧ rxd = .high))
      ∧ t = { s with timebase := t.timebase, channels := t.channels, link := t.link }

/-- REFCLK_EDGE sets the since-edge count to 0 (R5); seen in START or HOLDOVER while the count is 80 it
begins a presence, and a regain count that is present stays (R8); so does an edge commanded before tick 0 has
been counted, the model's choice (assumption 31). An edge at the tick on which the count
would reach 80 forestalls the loss, and one commanded after the loss of its tick has been declared is not seen
at that tick, on which there is no edge (R5, read so in assumption 6). REGAIN, once the count has reached 40,000, makes the
timebase NORMAL: the regain count becomes absent, the tick before is the last abnormal tick, and REF_GOOD
is raised (R8, R11). -/
def Obligations.PresenceAndRegain : Prop :=
  (∀ s : State,
    (s.timebase.lossTaken = false →
      completes .refclkEdge s { s with timebase := { s.timebase with
        sinceEdge := 0, lossDue := false,
        regain :=
          if s.timebase.state ≠ .normal ∧ s.timebase.sinceEdge = 80 ∧ s.timebase.lossDue = false
          then some 0 else s.timebase.regain } })
    ∧ (s.timebase.lossTaken = true → completes .refclkEdge s s))
  ∧ ∀ s : State, s.timebase.state ≠ .normal → s.timebase.regain = some 40000 →
      s.timebase.lossDue = false →
      completes .regain s (({ s with timebase := { s.timebase with
        state := .normal, regain := none, lastAbnormal := some (s.now - 1), abnormalAge := 1 } }).raise
          .device 0x20#8)

/-- A loss declared in NORMAL: HOLDOVER, one more entry up to 65,535, no regain count, this tick the last
abnormal tick, and REF_LOST raised (R6). A loss declared in START or HOLDOVER: the state, the entry count
and the notices stay, and the regain count becomes absent, so that the next edge begins the wait anew
(R7). An edge is seen at a later tick than the loss (R5; assumption 6). -/
def Obligations.LossDeclared : Prop :=
  ∀ s : State, s.timebase.lossDue = true →
    (s.timebase.state = .normal →
      completes .refLoss s (({ s with timebase := { s.timebase with
        state := .holdover, holdoverEntries := min (s.timebase.holdoverEntries + 1) 65535,
        regain := none, lastAbnormal := some s.now, abnormalAge := 0, lossDue := false,
        lossTaken := true } }).raise .device 0x10#8))
    ∧ (s.timebase.state ≠ .normal →
      ∃ t, completes .refLoss s t
        ∧ t = { s with timebase := { s.timebase with
            regain := none, lossDue := false, lossTaken := true } }
        ∧ completes .refclkEdge t t
        ∧ (s.timebase.sinceEdge = 80 → ∀ rxd u v, workIsDue t = false → completes (.tick rxd) t u →
            completes .refclkEdge u v → v.timebase.regain = some 0))

/-- TIME is answered with the execution tick, the state, the entry count and the last abnormal tick, and
changes no state; in START and HOLDOVER the last abnormal tick is the tick field, in NORMAL it is earlier
(R12). A transition of the timebase that falls on the tick is taken first. -/
def Obligations.TimeReportsTheTimebase : Prop :=
  ∀ (s : State) (tag : Byte) (rest : List Request) (last : Tick), s.asks tag 0x03 [] rest →
    referenceIsDue s = false → s.timebase.lastAbnormal = some last →
    completes .time s (s.answered tag rest 0x00
        (leBytes 6 s.now.toNat
          ++ ([match s.timebase.state with | .start => 0 | .normal => 1 | .holdover => 2] : List Byte)
          ++ leBytes 2 s.timebase.holdoverEntries ++ leBytes 6 last.toNat))
      ∧ (s.timebase.lawful →
          (s.timebase.state ≠ .normal → last = s.now)
            ∧ (s.timebase.state = .normal → s.timebase.abnormalAge < 2 ^ 47 →
                last ≠ s.now ∧ notEarlier last s.now = false))

/-! ## Input channels -/

/-- COMPARATOR_OUTPUT: in ENABLED the comparator follows the input with hysteresis (R14); in a probe it
follows it across the trial threshold, unchanged while the input rests on it (R155); in DISABLED it is
not used. Nothing else changes. The scale of the input is the model's (assumption 11): level 2c is the
level of code c. -/
def Obligations.ComparatorFollowsTheInput : Prop :=
  ∀ (s : State) (ch : Fin 8) (level : Nat),
    ∃ t, completes (.comparatorOutput ch level) s t
      ∧ t = s.setChannel ch { s.channel ch with
          input := level, comparator := (t.channel ch).comparator }
      ∧ ((s.channel ch).state = .disabled →
          (t.channel ch).comparator = (s.channel ch).comparator)
      ∧ ((s.channel ch).state = .enabled →
          ((t.channel ch).comparator = .high ↔
            ((s.channel ch).comparator = .low ∧ 2 * (s.channel ch).highCode < level)
              ∨ ((s.channel ch).comparator = .high ∧ 2 * (s.channel ch).lowCode ≤ level)))
      ∧ ∀ p, (s.channel ch).state = .probing → (s.channel ch).probe = some p →
          ((t.channel ch).comparator = .high ↔
            2 * p.trial < level ∨ (level = 2 * p.trial ∧ (s.channel ch).comparator = .high))

/-- A TICK that does not wait samples every comparator (R16). In ENABLED the glitch filter creates or
extends a pending transition on a sample that differs from the accepted level (R17). In PROBING the sample
enters the step's HIGH seen and LOW seen while its dwell lasts (R155). A DISABLED channel is unchanged. -/
def Obligations.TickSamplesEveryChannel : Prop :=
  ∀ (s : State) (rxd : Level), workIsDue s = false →
    ∃ t, completes (.tick rxd) s t ∧ ∀ ch,
      ((s.channel ch).state = .disabled → t.channel ch = s.channel ch)
      ∧ (∀ a, (s.channel ch).state = .enabled → (s.channel ch).accepted = some a →
          t.channel ch = { s.channel ch with
            sample := some (s.channel ch).comparator
            pending :=
              if (s.channel ch).comparator = a then (s.channel ch).pending
              else match (s.channel ch).pending with
                | none => some ⟨(s.channel ch).comparator, t.now, 1⟩
                | some p => some { p with run := p.run + 1 } })
      ∧ ∀ p, (s.channel ch).state = .probing → (s.channel ch).probe = some p →
          t.channel ch = { s.channel ch with
            probe := some (if t.now = tickAfter p.stepStart p.dwell then p
              else { p with
                highSeen := p.highSeen || (s.channel ch).comparator == .high
                lowSeen := p.lowSeen || (s.channel ch).comparator == .low }) }

/-- A sample equal to the accepted level ends a pending transition and counts one glitch, up to 65,535,
with no edge and no change of level (R18). A pending transition whose run has reached the filter width
plus 1 is accepted, once an edge of the channel that arrives at this tick has arrived (R20, read so in
assumption 30): the level changes, and an edge with the transition's first tick enters transit behind those in
transit (R17). -/
def Obligations.PendingTransitionRevertsOrIsAccepted : Prop :=
  ∀ (s : State) (ch : Fin 8) (p : PendingTransition),
    (s.channel ch).state = .enabled → (s.channel ch).pending = some p →
    (∀ a, (s.channel ch).accepted = some a → (s.channel ch).sample = some a →
      completes (.revert ch) s (s.setChannel ch { s.channel ch with
        pending := none, glitches := min ((s.channel ch).glitches + 1) 65535 }))
    ∧ (p.run = (s.channel ch).filter + 1 →
      (∀ e more, (s.channel ch).inTransit = e :: more →
        s.now ≠ tickAfter e.timestamp ((s.channel ch).filter + 2)) →
      completes (.edgeAccepted ch) s (s.setChannel ch { s.channel ch with
        accepted := some p.level, pending := none,
        inTransit := (s.channel ch).inTransit ++
          [⟨ch, p.firstTick, match p.level with | .high => .rise | .low => .fall⟩] }))

/-- At its timestamp plus the filter width plus 2 the oldest edge in transit leaves the channel, is
offered to the capture pool, and joins the held edges of the jobs that run and reference its channel
(R20, R45): behind the held edges of an earlier timestamp, or of an equal one unless the edge is of
channel A and the held one is not. Nothing else changes. -/
def Obligations.EdgeArrivesAtPoolAndJobs : Prop :=
  ∀ (s : State) (ch : Fin 8) (e : AcceptedEdge) (rest : List AcceptedEdge),
    (s.channel ch).inTransit = e :: rest → s.now = tickAfter e.timestamp ((s.channel ch).filter + 2) →
    ∃ t, completes (.edgeArrival ch) s t
      ∧ t.channel ch = { s.channel ch with inTransit := rest }
      ∧ (∀ k, k ≠ ch → t.channel k = s.channel k)
      ∧ t.captures = (s.logEdge e).captures ∧ t.notices = (s.logEdge e).notices
      ∧ t = { s with
          channels := t.channels, captures := t.captures, jobs := t.jobs, notices := t.notices }
      ∧ ∀ slot,
          ((∀ d, (s.job slot).definition = some d →
              (s.job slot).state.running = false ∨ d.references e.channel = false) →
            t.job slot = s.job slot)
          ∧ ∀ d, (s.job slot).definition = some d → (s.job slot).state.running = true →
              d.references e.channel = true →
              ∃ before behind, (s.job slot).held = before ++ behind
                ∧ t.job slot = { s.job slot with held := before ++ e :: behind }
                ∧ (∀ x ∈ before,
                    (x.timestamp ≠ e.timestamp → notEarlier x.timestamp e.timestamp = false)
                      ∧ (x.timestamp = e.timestamp →
                        ¬(e.channel = d.channelA ∧ x.channel ≠ d.channelA)))
                ∧ ∀ x ∈ behind.head?,
                    (x.timestamp ≠ e.timestamp → notEarlier x.timestamp e.timestamp = true)
                      ∧ (x.timestamp = e.timestamp →
                        e.channel = d.channelA ∧ x.channel ≠ d.channelA)

/-- An arriving edge at its channel's capture queue. Passed over when the log select does not take its
polarity (R137). Into a queue below its depth: appended with the gap-before mark when gap pending is yes,
and WATERMARK raised when the new length equals a watermark above 0 (R138, R141). Into a full queue:
dropped under KEEP_OLD (R139), displacing the head under KEEP_NEW (R140); either counts one loss up to
65,535 and raises LOSS (R142). -/
def Obligations.CaptureQueueLogsAnEdge : Prop :=
  ∀ (s : State) (e : AcceptedEdge) (q : CaptureQueue), s.capture e.channel = q →
    ((q.select = .none ∨ (q.select = .rise ∧ e.polarity = .fall)
        ∨ (q.select = .fall ∧ e.polarity = .rise)) → s.logEdge e = s)
    ∧ ((q.select = .both ∨ (q.select = .rise ∧ e.polarity = .rise)
        ∨ (q.select = .fall ∧ e.polarity = .fall)) →
      (q.entries.length < q.depth →
        let t := s.setCapture e.channel { q with
          entries := q.entries ++ [⟨e.timestamp, e.polarity, q.gapPending⟩], gapPending := false }
        s.logEdge e =
          if 0 < q.watermark ∧ q.entries.length + 1 = q.watermark then
            t.raise (.channel e.channel) 0x01#8
          else t)
      ∧ (0 < q.depth → q.depth ≤ q.entries.length → q.policy = .keepOld →
        s.logEdge e = (s.setCapture e.channel { q with
          loss := min (q.loss + 1) 65535, gapPending := true }).raise (.channel e.channel) 0x02#8)
      ∧ ∀ oldest left, 0 < q.depth → q.depth ≤ q.entries.length → q.policy = .keepNew →
        q.entries = oldest :: left →
        s.logEdge e = (s.setCapture e.channel { q with
          entries :=
            (match left with
              | [] => [⟨e.timestamp, e.polarity, true⟩]
              | next :: more =>
                { next with gapBefore := true }
                  :: (more ++ [⟨e.timestamp, e.polarity, q.gapPending⟩])),
          loss := min (q.loss + 1) 65535, gapPending := false }).raise (.channel e.channel) 0x02#8)

/-- CHAN_SET. The first check that fails refuses it, and nothing changes: PROBING, a running job on the
channel, enable above 1, high code above 1023, low code above 1023 or above the high code (R25). Else the
settings are stored and the channel takes the state asked for: ENABLED, with the level established from
the input against the new high code and the pending transition and edges in transit gone, or DISABLED,
with no accepted level (R15, R21, R26). The scale of the input is the model's choice: 2c is the level of code
c (assumption 11). -/
def Obligations.ChanSetChecksThenApplies : Prop :=
  ∀ (s : State) (tag : Byte) (rest : List Request) (ch : Fin 8) (enable filter : Byte) (high low : Nat),
    high < 65536 → low < 65536 →
    s.asks tag 0x10
      (leBytes 1 ch.val ++ [enable] ++ leBytes 2 high ++ leBytes 2 low ++ [filter]) rest →
    ((s.channel ch).state = .probing → completes .chanSet s (s.answered tag rest 0x23 [0]))
    ∧ ((s.channel ch).state ≠ .probing →
      (s.claimed ch → completes .chanSet s (s.answered tag rest 0x24 [0]))
      ∧ (¬s.claimed ch →
        (1 < enable.toNat → completes .chanSet s (s.answered tag rest 0x12 [2]))
        ∧ (enable.toNat ≤ 1 → 1023 < high → completes .chanSet s (s.answered tag rest 0x12 [3]))
        ∧ (enable.toNat ≤ 1 → high ≤ 1023 → (1023 < low ∨ high < low) →
            completes .chanSet s (s.answered tag rest 0x12 [4]))
        ∧ (high ≤ 1023 → low ≤ high →
          (enable = 1 →
            let level : Level := if 2 * high < (s.channel ch).input then .high else .low
            completes .chanSet s ((s.setChannel ch { s.channel ch with
              state := .enabled, highCode := high, lowCode := low, filter := filter.toNat,
              comparator := level, accepted := some level, pending := none, inTransit := [],
              sample := none }).answered tag rest 0x00
                [1, match level with | .low => 0 | .high => 1]))
          ∧ (enable = 0 →
            completes .chanSet s ((s.setChannel ch { s.channel ch with
              state := .disabled, highCode := high, lowCode := low, filter := filter.toNat,
              accepted := none, pending := none, inTransit := [],
              sample := none }).answered tag rest 0x00 [0, 2])))))

/-- CHAN_GET: a clear field above 1 is refused; otherwise the channel's state is reported, in use when a
running job references it, and with clear 1 the glitch counter is zeroed after it has been reported
(R27, R28, R29). -/
def Obligations.ChanGetReportsTheChannel : Prop :=
  ∀ (s : State) (tag : Byte) (rest : List Request) (ch : Fin 8) (clear : Byte),
    s.asks tag 0x11 (leBytes 1 ch.val ++ [clear]) rest →
    (1 < clear.toNat → completes .chanGet s (s.answered tag rest 0x12 [2]))
    ∧ (clear.toNat ≤ 1 → ∃ used : Byte,
        ((s.claimed ch ∧ used = 1) ∨ (¬s.claimed ch ∧ used = 0))
        ∧ completes .chanGet s
          ((if clear = 1 then s.setChannel ch { s.channel ch with glitches := 0 } else s).answered
            tag rest 0x00
            (leBytes 1 ch.val
              ++ ([match (s.channel ch).state with
                  | .disabled => 0 | .enabled => 1 | .probing => 2] : List Byte)
              ++ [used]
              ++ leBytes 2 (s.channel ch).highCode ++ leBytes 2 (s.channel ch).lowCode
              ++ leBytes 1 (s.channel ch).filter
              ++ ([match (s.channel ch).accepted with
                  | some .low => 0 | some .high => 1 | none => 2] : List Byte)
              ++ leBytes 2 (s.channel ch).glitches
              ++ (match (s.channel ch).lastProbe with
                | none => [0]
                | some r => (1 : Byte) :: leBytes 2 r.code ++ leBytes 1 r.mixed
                    ++ ([match r.status with | .done => 0 | .cancelled => 1] : List Byte)))))

/-- Every command keeps three laws of the channels. The shape of each: the accepted level in ENABLED alone, a
pending transition away from it, edges in transit in ENABLED alone, probe record and return state in PROBING
alone (section 2.4, R16, R17, R20 to R23). Every channel that a running job references is ENABLED (R24); the law of
the deadline list, an invariant of its own, is a premise of this one. And at most two edges of a channel are in
transit, in the order of their arrival, each within two ticks of it, with a pending transition as old as its run
(R17 to R20); the law of the timebase and the shapes, invariants of their own, are premises of this one. -/
def Obligations.EveryStepKeepsTheChannelLaws : Prop :=
  ∀ s t : State, step s = .next t →
    (s.channelShapes → t.channelShapes)
      ∧ (s.deadlineLaw → s.channelsInUseEnabled → t.channelsInUseEnabled)
      ∧ (s.timebase.lawful → s.channelShapes → s.transitLaw → t.transitLaw)

/-! ## Level probe -/

/-- PROBE with an action other than CANCEL, which the row PROBE_START answers by the model's choice
(assumption 16). The first check that fails refuses it, and nothing changes:
action above 1, PROBING, a running job on the channel, dwell 0, ADOPT above 1 (R153). Else the channel
enters PROBING and step 1 begins at trial code 512, with its first sample, and the reply gives the return
state and the completion tick (R22, R154, R155). The scale of the input is the model's
(assumption 11): level 2c is the level of code c. -/
def Obligations.ProbeStartChecksThenBegins : Prop :=
  ∀ (s : State) (tag : Byte) (rest : List Request) (ch : Fin 8) (action dwell adopt : Byte),
    s.asks tag 0x12 (leBytes 1 ch.val ++ [action, dwell, adopt]) rest → action ≠ 1 →
    (1 < action.toNat → completes .probeStart s (s.answered tag rest 0x12 [2]))
    ∧ (action = 0 →
      ((s.channel ch).state = .probing → completes .probeStart s (s.answered tag rest 0x23 [0]))
      ∧ ((s.channel ch).state ≠ .probing →
        (s.claimed ch → completes .probeStart s (s.answered tag rest 0x24 [0]))
        ∧ (¬s.claimed ch →
          (dwell = 0 → completes .probeStart s (s.answered tag rest 0x12 [3]))
          ∧ (dwell ≠ 0 → 1 < adopt.toNat → completes .probeStart s (s.answered tag rest 0x12 [4]))
          ∧ (dwell ≠ 0 → adopt.toNat ≤ 1 →
            let level : Level := if 1024 < (s.channel ch).input then .high else .low
            let back : ReturnState := if (s.channel ch).state = .enabled then .enabled else .disabled
            completes .probeStart s ((s.setChannel ch { s.channel ch with
              state := .probing, returnState := some back, accepted := none, pending := none,
              inTransit := [], sample := none, comparator := level,
              probe := some
                { trial := 512, step := 1, dwell := 40 * dwell.toNat, stepStart := s.now,
                  highSeen := level == .high, lowSeen := level == .low, mixed := 0,
                  adopt := adopt == 1 } }).answered tag rest 0x01
                ((match back with | .disabled => 0 | .enabled => 1)
                  :: leBytes 6 (tickAfter s.now (400 * dwell.toNat)).toNat))))))

/-- At its start tick plus the dwell a step is decided: its bit is kept when HIGH was seen, and the
mixed-step count grows when both levels were seen (R156). A step before the tenth is followed at that tick
by the next one, with its bit set, the comparator set from the input, and its first sample (R155, R156).
The tenth completes the probe: the result is stored as DONE, with ADOPT the adopted codes become the
channel's own, the channel takes its return state, ENABLED with a level established against the codes now in
force, and PROBE_DONE is raised (R23, R157). The adopted codes are half the code plus half the hysteresis,
at most 1023, and that less the hysteresis, at least 0 (R158). The scale of the input is the model's choice:
2c is the level of code c (assumption 11). -/
def Obligations.ProbeStepsDecideTheCode : Prop :=
  ∀ (s : State) (ch : Fin 8) (p : ProbeRecord),
    (s.channel ch).state = .probing → (s.channel ch).probe = some p →
    s.now = tickAfter p.stepStart p.dwell →
    let code := if p.highSeen = true then p.trial else p.trial - 2 ^ (10 - p.step)
    let mixed := if p.highSeen = true ∧ p.lowSeen = true then p.mixed + 1 else p.mixed
    (p.step ≤ 9 →
      let trial := code + 2 ^ (9 - p.step)
      let level : Level := if 2 * trial < (s.channel ch).input then .high else .low
      completes (.probeStep ch) s (s.setChannel ch { s.channel ch with
        comparator := level,
        probe := some
          { trial := trial, step := p.step + 1, dwell := p.dwell, stepStart := s.now,
            highSeen := level == .high, lowSeen := level == .low, mixed := mixed,
            adopt := p.adopt } }))
    ∧ (p.step = 10 →
      let w := (s.channel ch).highCode - (s.channel ch).lowCode
      let high := if p.adopt = true then min (code / 2 + w / 2) 1023 else (s.channel ch).highCode
      let low := if p.adopt = true then high - w else (s.channel ch).lowCode
      let level : Level := if 2 * high < (s.channel ch).input then .high else .low
      ((s.channel ch).returnState = some .enabled →
        completes (.probeStep ch) s ((s.setChannel ch { s.channel ch with
          state := .enabled, highCode := high, lowCode := low, comparator := level,
          accepted := some level, pending := none, inTransit := [], sample := none,
          returnState := none, probe := none, lastProbe := some ⟨code, mixed, .done⟩ }).raise
            (.channel ch) 0x04#8))
      ∧ ((s.channel ch).returnState = some .disabled →
        completes (.probeStep ch) s ((s.setChannel ch { s.channel ch with
          state := .disabled, highCode := high, lowCode := low, accepted := none, pending := none,
          inTransit := [], sample := none, returnState := none, probe := none,
          lastProbe := some ⟨code, mixed, .done⟩ }).raise (.channel ch) 0x04#8)))

/-- PROBE with action CANCEL is taken in every channel state and answered with the state found. In PROBING
the bits decided so far are stored as CANCELLED, the channel's own codes stay, it takes its return state,
and PROBE_DONE is raised; otherwise nothing changes (R159). Fields 3 and 4 are not examined (R153). The scale
of the input, against which a level is established, is the model's choice: 2c is the level of code c
(assumption 11). -/
def Obligations.ProbeCancelStoresTheResultSoFar : Prop :=
  ∀ (s : State) (tag : Byte) (rest : List Request) (ch : Fin 8) (dwell adopt : Byte),
    s.asks tag 0x12 (leBytes 1 ch.val ++ [1, dwell, adopt]) rest →
    ((s.channel ch).state = .disabled → completes .probeCancel s (s.answered tag rest 0x00 [0]))
    ∧ ((s.channel ch).state = .enabled → completes .probeCancel s (s.answered tag rest 0x00 [1]))
    ∧ ∀ p, (s.channel ch).state = .probing → (s.channel ch).probe = some p →
      let result : ProbeResult := ⟨p.trial - 2 ^ (10 - p.step), p.mixed, .cancelled⟩
      let level : Level := if 2 * (s.channel ch).highCode < (s.channel ch).input then .high else .low
      ((s.channel ch).returnState = some .enabled →
        completes .probeCancel s (((s.setChannel ch { s.channel ch with
          state := .enabled, comparator := level, accepted := some level, pending := none,
          inTransit := [], sample := none, returnState := none, probe := none,
          lastProbe := some result }).raise (.channel ch) 0x04#8).answered tag rest 0x00 [2]))
      ∧ ((s.channel ch).returnState = some .disabled →
        completes .probeCancel s (((s.setChannel ch { s.channel ch with
          state := .disabled, accepted := none, pending := none, inTransit := [], sample := none,
          returnState := none, probe := none,
          lastProbe := some result }).raise (.channel ch) 0x04#8).answered tag rest 0x00 [2]))

/-! ## Capture queues -/

/-- CAPTURE_SET. The first check that fails refuses it, and nothing changes: depth above 512, policy above
1, select above 3, a select with depth 0, a watermark above the depth, and depths that would sum to more
than 512 (R144). Else the settings are stored; with another depth the entries, the loss counter and gap
pending go (R144), with the same depth they stay (R145). The reply gives the entries discarded, the length
and the free cells (R135). -/
def Obligations.CaptureSetChecksThenApplies : Prop :=
  ∀ (s : State) (tag : Byte) (rest : List Request) (ch : Fin 8) (policy select : Byte)
    (depth mark : Nat), depth < 65536 → mark < 65536 →
    s.asks tag 0x18
      (leBytes 1 ch.val ++ leBytes 2 depth ++ [policy, select] ++ leBytes 2 mark) rest →
    let total := sumIn CaptureQueue.depth
      (s.setCapture ch { s.capture ch with depth := depth }).captures
    (512 < depth → completes .captureSet s (s.answered tag rest 0x12 [2]))
    ∧ (depth ≤ 512 →
      (1 < policy.toNat → completes .captureSet s (s.answered tag rest 0x12 [3]))
      ∧ (policy.toNat ≤ 1 →
        ((3 < select.toNat ∨ (select ≠ 0 ∧ depth = 0)) →
          completes .captureSet s (s.answered tag rest 0x12 [4]))
        ∧ (select.toNat ≤ 3 → (select = 0 ∨ depth ≠ 0) →
          (depth < mark → completes .captureSet s (s.answered tag rest 0x12 [5]))
          ∧ (mark ≤ depth → 512 < total →
              completes .captureSet s (s.answered tag rest 0x30 [2]))
          ∧ (mark ≤ depth → total ≤ 512 →
            let policy' : OverflowPolicy := if policy = 1 then .keepNew else .keepOld
            let select' : Select := if select = 0 then .none else if select = 1 then .rise
              else if select = 2 then .fall else .both
            (depth ≠ (s.capture ch).depth →
              completes .captureSet s ((s.setCapture ch
                { depth := depth, entries := [], policy := policy', select := select',
                  watermark := mark, loss := 0, gapPending := false }).answered tag rest 0x00
                  (leBytes 2 (s.capture ch).entries.length ++ [0, 0] ++ leBytes 2 (512 - total))))
            ∧ (depth = (s.capture ch).depth →
              completes .captureSet s ((s.setCapture ch { s.capture ch with
                policy := policy', select := select', watermark := mark }).answered tag rest 0x00
                  ([0, 0] ++ leBytes 2 (s.capture ch).entries.length
                    ++ leBytes 2 (512 - total))))))))

/-- CAPTURE_READ with a max of 0 or above 32 is refused; otherwise it removes the oldest entries, up to
max, reports them with the length left and the loss counter, and zeroes the loss counter (R147).
CAPTURE_FLUSH removes every entry, zeroes the loss counter and clears gap pending, and reports the number
removed and the loss counter found (R149). -/
def Obligations.CaptureReadAndFlush : Prop :=
  (∀ (s : State) (tag : Byte) (rest : List Request) (ch : Fin 8) (most : Byte),
    s.asks tag 0x19 (leBytes 1 ch.val ++ [most]) rest →
    ((most = 0 ∨ 32 < most.toNat) → completes .captureRead s (s.answered tag rest 0x12 [2]))
    ∧ (most ≠ 0 → most.toNat ≤ 32 →
      ∃ taken left, (s.capture ch).entries = taken ++ left
        ∧ taken.length = min most.toNat (s.capture ch).entries.length
        ∧ completes .captureRead s ((s.setCapture ch { s.capture ch with
            entries := left, loss := 0 }).answered tag rest 0x00
              (leBytes 1 ch.val ++ leBytes 1 taken.length ++ leBytes 2 left.length
                ++ leBytes 2 (s.capture ch).loss
                ++ taken.flatMap (fun e => leBytes 6 e.timestamp.toNat
                  ++ ([match e.polarity, e.gapBefore with
                      | .rise, false => 0 | .fall, false => 1
                      | .rise, true => 2 | .fall, true => 3] : List Byte))))))
  ∧ ∀ (s : State) (tag : Byte) (rest : List Request) (ch : Fin 8),
    s.asks tag 0x1A (leBytes 1 ch.val) rest →
    completes .captureFlush s ((s.setCapture ch { s.capture ch with
      entries := [], loss := 0, gapPending := false }).answered tag rest 0x00
        (leBytes 2 (s.capture ch).entries.length ++ leBytes 2 (s.capture ch).loss))

/-- No command brings the result queue past 96 records and its watermark out of 1 to 96 (R109, R114), the
capture pool past 512 cells and a capture queue or its watermark past its depth (R135, R136, R144), the link
past 4 requests and 4 replies (R183), or the credits past 16 (R164). None brings a saturating counter past
65,535: the holdover entry count (R10), the glitch counters (R18), the loss counters (R142), the five counters
of every job slot (section 3.1, R54, R79, R112), the refused count (R112, R115) and the six link counters
(R182); nor the line-low count past 80,000 (R187). The notice queue never holds more than 42 notices where no
two are of one source (R163), and the deadline list never more than 24 entries where its law holds (R94, R95);
that every step keeps these two laws is EveryStepKeepsTheNoticeLaws and EveryStepKeepsTheDeadlineLaw. -/
def Obligations.EveryStepKeepsTheCapacities : Prop :=
  (∀ s t : State, step s = .next t →
    (s.capacities → t.capacities) ∧ (s.counters → t.counters))
  ∧ ∀ s : State,
    (s.noticeSources → s.notices.queued.length ≤ 42)
      ∧ (s.deadlineLaw → s.deadlines.entries.length ≤ 24)

/-! ## Job table -/

/-- JOB_DEFINE's payload and the definition are the same thing (R34, R35, R36, R194): every definition
with allowed values reads back from its bytes, and a payload that reads as a definition has allowed values
and those very bytes. A kind that is none of the six is refused at field 2. For a known kind the fields 4 to
14 are examined in index order against the table of R35 and the cross checks of R36, at the offsets of R194:
the first that fails is refused BAD_VALUE with its index, but a channel B above 7 of a PHASE job BAD_INDEX with
5; where none fails, the payload reads as a definition. -/
def Obligations.DefinitionsReadBack : Prop :=
  (∀ (slot : Byte) (d : Definition), d.allowed → readDefinition (slot :: d.bytes) = .ok d)
  ∧ (∀ (payload : List Byte) (d : Definition), payload.length = 32 → (payload.getD 2 0).toNat ≤ 7 →
      readDefinition payload = .ok d → d.allowed ∧ payload.drop 1 = d.bytes)
  ∧ (∀ payload : List Byte, payload.length = 32 → 5 < (payload.getD 1 0).toNat →
      readDefinition payload = .error (.badValue, 2))
  ∧ ∀ payload : List Byte, payload.length = 32 → (payload.getD 1 0).toNat ≤ 5 →
      (payload.getD 2 0).toNat ≤ 7 →
      let f (offset size : Nat) : Nat := leNat ((payload.drop offset).take size)
      let freqFixed : Prop := f 1 1 = 0
      let gated : Prop := f 1 1 ≤ 1
      let width : Prop := f 1 1 = 3
      let phase : Prop := f 1 1 = 4
      let tally : Prop := f 1 1 = 5
      let passes : Nat → Prop
        | 4 => 1 ≤ f 3 1 ∧ f 3 1 ≤ 3 ∧ (width → f 3 1 ≤ 2)
        | 5 => if phase then f 4 1 ≤ 7 ∧ f 4 1 ≠ f 2 1 else f 4 1 = 0
        | 6 => if phase then 1 ≤ f 5 1 ∧ f 5 1 ≤ 3 else f 5 1 = 0
        | 7 => if gated then 400 ≤ f 6 4 else f 6 4 = 0
        | 8 => if gated ∨ tally then f 10 2 = 0 else 1 ≤ f 10 2
        | 9 => f 12 4 = 0 ∨ (tally ∧ 4000 ≤ f 12 4)
        | 10 => f 16 6 = 0 ∨ tally
        | 11 => if freqFixed ∨ tally then f 22 4 = 0 else 4000 ≤ f 22 4
        | 12 => f 26 1 ≤ 2 ∧ (tally → f 26 1 ≠ 2)
        | 13 => if f 26 1 = 2 then 4000 ≤ f 27 4 ∧ (freqFixed → f 6 4 ≤ f 27 4) else f 27 4 = 0
        | 14 => f 31 1 ≤ 1
        | _ => True
      (∀ i, 4 ≤ i → i ≤ 14 → ¬passes i → (∀ k, 4 ≤ k → k < i → passes k) →
        readDefinition payload = .error (if i = 5 ∧ phase ∧ 7 < f 4 1 then (.badIndex, 5)
          else (.badValue, i)))
      ∧ ((∀ i, 4 ≤ i → i ≤ 14 → passes i) → ∃ d, readDefinition payload = .ok d)

/-- JOB_DEFINE on a running job is refused JOB_RUNNING; a payload that does not read as a definition is
refused as its first failing field says; else the slot becomes IDLE with the definition, its runtime
fields cleared, its lost total, missed counts, window, alert state and latest result reset, its sequence
counter and lost pending count kept, and ALERT is re-evaluated (R34, R37). -/
def Obligations.JobDefineReplacesTheDefinition : Prop :=
  ∀ (s : State) (tag : Byte) (rest : List Request) (slot : Fin 32) (fields : List Byte),
    fields.length = 31 → (fields.getD 1 0).toNat ≤ 7 →
    s.asks tag 0x20 (leBytes 1 slot.val ++ fields) rest →
    ((s.job slot).state.running = true → completes .jobDefine s (s.answered tag rest 0x20 [0]))
    ∧ ((s.job slot).state.running = false →
      (∀ code i, readDefinition (leBytes 1 slot.val ++ fields) = .error (code, i) →
        completes .jobDefine s (s.answered tag rest code.toByte (leBytes 1 i)))
      ∧ ∀ d, readDefinition (leBytes 1 slot.val ++ fields) = .ok d →
        completes .jobDefine s ((s.setJob slot { s.job slot with
          state := .idle, definition := some d, openTick := none, next := none,
          acc := { count := 0, firstEdge := none, lastProgress := none, sum := 0, min := none,
                   max := none, pendingStart := none, skipped := 0, total := 0 },
          held := [], lostTotal := 0, missedTotal := 0, pendingMissed := 0, window := none,
          alert := .inside, latest := none }).evaluateAlert.answered tag rest 0x00 []))

/-- JOB_START of an IDLE or DONE slot whose channels are ENABLED, with a reservation free: the settle is
the largest filter width of the channels plus 4, the accumulators are cleared, a reservation is taken, and
the job takes the state of its start mode with the first boundary of its kind (R41 to R44, R92, R198). -/
def Obligations.JobStartTakesTheModesState : Prop :=
  ∀ (s : State) (tag mode : Byte) (rest : List Request) (slot : Fin 32) (start : Tick)
    (d : Definition),
    s.asks tag 0x21 (leBytes 1 slot.val ++ [mode] ++ leBytes 6 start.toNat) rest →
    (s.job slot).definition = some d → ((s.job slot).state = .idle ∨ (s.job slot).state = .done) →
    (∀ ch, d.references ch = true → (s.channel ch).state = .enabled) →
    s.deadlines.reservations < 24 →
    let settle := 4 + (if d.kind = .phase then
        max (s.channel d.channelA).filter (s.channel d.channelB).filter
      else (s.channel d.channelA).filter)
    let zeros : Accumulators :=
      { count := 0, firstEdge := none, lastProgress := none, sum := 0, min := none, max := none,
        pendingStart := none, skipped := 0, total := 0 }
    let base (t : Tick) : Option Tick := if d.repeating = .periodic then some t else none
    (mode = 0 → ∃ t : State, completes .jobStart s (t.answered tag rest 0x00
          ([3] ++ leBytes 2 settle ++ [1] ++ leBytes 6 s.now.toNat))
        ∧ s.jobBecomes slot { s.job slot with
            state := .active, subMode := none, armingTick := none, settle := some settle,
            startBase := base s.now, openTick := some s.now, acc := zeros, held := [],
            pendingMissed := 0,
            next :=
              match d.kind with
              | .freqFixed => some ⟨.close, tickAfter s.now d.gate⟩
              | .freqSync | .period | .width | .phase => some ⟨.stall, tickAfter s.now d.stall⟩
              | .tally => if 0 < d.report then some ⟨.report, tickAfter s.now d.report⟩ else none }
            settle (s.deadlines.reservations + 1) t)
    ∧ (mode = 1 → 1 ≤ distance s.now start → distance s.now start < 2 ^ 32 →
        ∃ t : State, completes .jobStart s (t.answered tag rest 0x00
            ([2] ++ leBytes 2 settle ++ [1] ++ leBytes 6 start.toNat))
          ∧ s.jobBecomes slot { s.job slot with
              state := .armed, subMode := some .at, settle := some settle, startBase := base start,
              acc := zeros, held := [], pendingMissed := 0, next := some ⟨.start, start⟩ }
              settle (s.deadlines.reservations + 1) t)
    ∧ (mode = 2 → completes .jobStart s
        ({ s.setJob slot { s.job slot with
            state := .armed, subMode := some .onEdge, armingTick := some s.now, settle := some settle,
            acc := zeros, held := [], pendingMissed := 0, next := none } with
          deadlines := { s.deadlines with
            reservations := s.deadlines.reservations + 1 } }.answered tag rest 0x00
            ([2] ++ leBytes 2 settle ++ [0])))

/-- The first check of JOB_START that fails refuses it, and nothing changes: a mode above 2, a FREE slot, a
running one, a channel DISABLED, a channel PROBING, a start tick not 1 to 2^32 - 1 ticks ahead in mode AT,
24 reservations (R40, R92). -/
def Obligations.JobStartChecksInOrder : Prop :=
  ∀ (s : State) (tag mode : Byte) (rest : List Request) (slot : Fin 32) (start : Tick),
    s.asks tag 0x21 (leBytes 1 slot.val ++ [mode] ++ leBytes 6 start.toNat) rest →
    (2 < mode.toNat → completes .jobStart s (s.answered tag rest 0x12 [2]))
    ∧ (mode.toNat ≤ 2 →
      ((s.job slot).state = .free → completes .jobStart s (s.answered tag rest 0x21 [0]))
      ∧ ((s.job slot).state.running = true → completes .jobStart s (s.answered tag rest 0x20 [0]))
      ∧ ∀ d, (s.job slot).definition = some d →
        ((s.job slot).state = .idle ∨ (s.job slot).state = .done) →
        ((∃ ch, d.references ch = true ∧ (s.channel ch).state = .disabled) →
          completes .jobStart s (s.answered tag rest 0x25 [0]))
        ∧ ((∀ ch, d.references ch = true → (s.channel ch).state ≠ .disabled) →
          ((∃ ch, d.references ch = true ∧ (s.channel ch).state = .probing) →
            completes .jobStart s (s.answered tag rest 0x23 [0]))
          ∧ ((∀ ch, d.references ch = true → (s.channel ch).state ≠ .probing) →
            (mode = 1 → (distance s.now start = 0 ∨ 2 ^ 32 ≤ distance s.now start) →
              completes .jobStart s (s.answered tag rest 0x26 [3]))
            ∧ ((mode = 1 → distance s.now start ≠ 0 ∧ distance s.now start < 2 ^ 32) →
              24 ≤ s.deadlines.reservations →
              completes .jobStart s (s.answered tag rest 0x31 [0])))))

/-- JOB_STOP: a keep partial above 1 is refused; a job that does not run stays as it is; a running one
becomes IDLE, its entry removed, its held edges discarded, its reservation released, its accumulators
kept; with keep partial 1 an ACTIVE job first forms a PARTIAL record that ends at its horizon, or at its
open tick where the horizon is earlier, and hands it on (R56, R87, R89, R106). The reply is the state found
(R198). A transition of the timebase that falls on the tick is taken first (assumption 29). The model's choice:
the total and the rate of a TALLY batch have no bound (assumptions 27 and 33). -/
def Obligations.JobStopLeavesTheRunningStates : Prop :=
  ∀ (s : State) (tag keep : Byte) (rest : List Request) (slot : Fin 32),
    s.asks tag 0x22 (leBytes 1 slot.val ++ [keep]) rest → referenceIsDue s = false →
    let found : Byte := match (s.job slot).state with
      | .free => 0 | .idle => 1 | .armed => 2 | .active => 3 | .hold => 4 | .done => 5
    (1 < keep.toNat → completes .jobStop s (s.answered tag rest 0x12 [2]))
    ∧ (keep.toNat ≤ 1 →
      ((s.job slot).state.running = false → completes .jobStop s (s.answered tag rest 0x00 [found]))
      ∧ ((s.job slot).state.running = true → (keep = 0 ∨ (s.job slot).state ≠ .active) →
        completes .jobStop s ({ s.setJob slot { s.job slot with
            state := .idle, subMode := none, armingTick := none, settle := none, startBase := none,
            next := none, held := [] } with
          deadlines := { entries := s.otherEntries slot,
                         reservations := s.deadlines.reservations - 1 } }.answered
            tag rest 0x00 [found]))
      ∧ ∀ d settle opened, keep = 1 → (s.job slot).state = .active →
        (s.job slot).definition = some d → (s.job slot).settle = some settle →
        (s.job slot).openTick = some opened →
        ∃ (t : State) (r : Record), completes .jobStop s (t.answered tag rest 0x00 [3])
          ∧ s.sparesOthers slot t
          ∧ s.takesRecord slot d .partialStop opened r t
          ∧ r.tells d (s.job slot) opened
              (if notEarlier (tickBefore s.now settle) opened = true then tickBefore s.now settle
                else opened)
          ∧ r.limitOut = false
          ∧ t.job slot = { s.job slot with
              state := .idle, subMode := none, armingTick := none, settle := none, startBase := none,
              next := none, held := [], sequence := (s.job slot).sequence + 1, pendingMissed := 0,
              latest := some r, lostPending := (t.job slot).lostPending,
              lostTotal := (t.job slot).lostTotal }
          ∧ t.deadlines = { entries := s.otherEntries slot,
                            reservations := s.deadlines.reservations - 1 }
          ∧ (s.alertLaw → t.alert = s.alert))

/-- JOB_CLEAR on a running job is refused; else the slot becomes FREE, with its sequence counter, lost
counts and missed total kept, and ALERT is re-evaluated (R58). JOB_GET is answered in every state and changes
no state (R59). Its reply gives the fields of R59 in order, in the layout of R198: slot, state, a presence word
with a bit for each optional field, the fields with each absent one omitted, the definition in the layout of
R194 and the latest result in that of R195. It is 37 bytes when every optional field is absent, and at most 202
with the optional fields of a latest result that a kind can have (R86). That a total or a value past the range of
its field stands in the reply modulo that range is the model's choice (assumptions 27 and 33). -/
def Obligations.JobClearAndJobGet : Prop :=
  (∀ (s : State) (tag : Byte) (rest : List Request) (slot : Fin 32),
    s.asks tag 0x23 (leBytes 1 slot.val) rest →
    ((s.job slot).state.running = true → completes .jobClear s (s.answered tag rest 0x20 [0]))
    ∧ ((s.job slot).state.running = false →
      completes .jobClear s ((s.setJob slot { s.job slot with
        state := .free, definition := none, openTick := none, next := none,
        acc := { count := 0, firstEdge := none, lastProgress := none, sum := 0, min := none,
                 max := none, pendingStart := none, skipped := 0, total := 0 },
        window := none, alert := .inside, latest := none, pendingMissed := 0 }).evaluateAlert.answered
          tag rest 0x00
          [match (s.job slot).state with
            | .free => 0 | .idle => 1 | .armed => 2 | .active => 3 | .hold => 4 | .done => 5])))
  ∧ ∀ (s : State) (tag : Byte) (rest : List Request) (slot : Fin 32),
    s.asks tag 0x24 (leBytes 1 slot.val) rest →
    let j := s.job slot
    let present (n : Nat) (is : Bool) : Nat := if is = true then 2 ^ n else 0
    let kindCode (k : Kind) : Byte := match k with
      | .freqFixed => 0 | .freqSync => 1 | .period => 2 | .width => 3 | .phase => 4 | .tally => 5
    let selectCode (x : Select) : Byte := match x with
      | .none => 0 | .rise => 1 | .fall => 2 | .both => 3
    let byte (b : Byte) : List Byte := [b]
    let ticks (t : Option Tick) : List Byte := (t.map (fun t => leBytes 6 t.toNat)).getD []
    let reply : List Byte :=
      leBytes 1 slot.val
        ++ byte (match j.state with
            | .free => 0 | .idle => 1 | .armed => 2 | .active => 3 | .hold => 4 | .done => 5)
        ++ leBytes 2 (present 0 j.subMode.isSome + present 1 j.definition.isSome
          + present 2 j.settle.isSome + present 3 j.startBase.isSome + present 4 j.openTick.isSome
          + present 5 j.next.isSome + present 6 j.acc.firstEdge.isSome
          + present 7 j.acc.lastProgress.isSome + present 8 (j.acc.min.isSome && j.acc.max.isSome)
          + present 9 j.acc.pendingStart.isSome + present 10 j.window.isSome
          + present 11 j.latest.isSome)
        ++ (match j.subMode with | none => [] | some .at => byte 1 | some .onEdge => byte 2)
        ++ (match j.definition with
          | none => []
          | some d => byte (kindCode d.kind) ++ leBytes 1 d.channelA.val ++ byte (selectCode d.selectA)
              ++ leBytes 1 d.channelB.val ++ byte (selectCode d.selectB) ++ leBytes 4 d.gate
              ++ leBytes 2 d.count ++ leBytes 4 d.report ++ leBytes 6 d.target ++ leBytes 4 d.stall
              ++ byte (match d.repeating with | .once => 0 | .continuous => 1 | .periodic => 2)
              ++ leBytes 4 d.period ++ byte (if d.queueResults = true then 1 else 0))
        ++ (match j.settle with | none => [] | some n => leBytes 2 n)
        ++ ticks j.startBase ++ ticks j.openTick
        ++ (match j.next with
          | none => []
          | some b =>
            byte (match b.purpose with | .start => 0 | .close => 1 | .stall => 2 | .report => 3)
              ++ leBytes 6 b.tick.toNat)
        ++ leBytes 4 j.acc.count ++ ticks j.acc.firstEdge ++ ticks j.acc.lastProgress
        ++ leBytes 8 j.acc.sum
        ++ (match j.acc.min, j.acc.max with
          | some lo, some hi => leBytes 6 lo ++ leBytes 6 hi | _, _ => [])
        ++ ticks j.acc.pendingStart ++ leBytes 2 j.acc.skipped ++ leBytes 6 j.acc.total
        ++ leBytes 4 j.sequence.toNat
        ++ leBytes 2 j.lostPending ++ leBytes 2 j.lostTotal ++ leBytes 2 j.missedTotal
        ++ leBytes 2 j.pendingMissed
        ++ byte (match j.alert with | .inside => 0 | .outside => 1)
        ++ (match j.window with
          | none => []
          | some w => leBytes 8 w.low ++ leBytes 8 w.high ++ leBytes 8 w.band
              ++ byte (if w.stallOut = true then 1 else 0) ++ byte (if w.drive = true then 1 else 0))
        ++ (match j.latest with
          | none => []
          | some r => leBytes 1 r.slot.val ++ leBytes 4 r.sequence.toNat
              ++ byte (kindCode r.kind)
              ++ byte (match r.status with
                  | .complete => 0 | .interim => 1 | .target => 2 | .stalled => 3
                  | .partialStop => 4 | .spanLimit => 5)
              ++ leBytes 1 (present 0 r.holdover + present 1 r.limitOut
                + present 2 (r.min.isSome && r.max.isSome) + present 3 r.total.isSome
                + present 4 r.skipped.isSome)
              ++ leBytes 2 r.lostBefore ++ leBytes 2 r.missed ++ leBytes 6 r.startTick.toNat
              ++ leBytes 6 r.endTick.toNat ++ leBytes 4 r.count ++ leBytes 6 r.span
              ++ leBytes 8 r.value
              ++ (match r.min, r.max with
                | some lo, some hi => leBytes 6 lo ++ leBytes 6 hi | _, _ => [])
              ++ (match r.total with | some n => leBytes 6 n | none => [])
              ++ (match r.skipped with | some n => leBytes 2 n | none => []))
    completes .jobGet s (s.answered tag rest 0x00 reply)
    ∧ (j.subMode = none → j.definition = none → j.settle = none → j.startBase = none →
        j.openTick = none → j.next = none → j.acc.firstEdge = none → j.acc.lastProgress = none →
        j.acc.min = none → j.acc.pendingStart = none → j.window = none → j.latest = none →
        reply.length = 37)
    ∧ ((∀ r, j.latest = some r → r.total = none ∨ (r.min = none ∧ r.skipped = none)) →
        reply.length ≤ 202)

/-- Every command keeps the law of the deadline list (R94, R95): the reservation count is the number of
jobs in ARMED, ACTIVE or HOLD and at most 24; every slot holds exactly one entry for its next boundary,
due at the boundary plus its settle, and none without one; and every state and kind has the next boundary
that R95 gives it. And every definition a slot holds keeps values that R35 and R36 allow. -/
def Obligations.EveryStepKeepsTheDeadlineLaw : Prop :=
  ∀ s t : State, step s = .next t →
    (s.deadlineLaw → t.deadlineLaw) ∧ (s.definitionsAllowed → t.definitionsAllowed)

/-- Every command keeps the entries in non-decreasing order of their distance ahead of the present tick
(R96), across the wrap of the counter (R102): a TICK waits for the expiries of the present tick
(assumption 5). -/
def Obligations.EveryStepKeepsTheDeadlineOrder : Prop :=
  ∀ s t : State, s.deadlineOrder → step s = .next t → t.deadlineOrder

/-- The expiry of a START opens the measurement as of the boundary tick: ACTIVE, open tick and first
boundary counted from it, accumulators cleared (R43, R55, R62, R100). -/
def Obligations.StartExpiryOpensTheMeasurement : Prop :=
  ∀ (s : State) (slot : Fin 32) (d : Definition) (settle : Nat) (b : Tick),
    s.expires slot d settle .start b →
    ∃ t, completes .deadlineExpiry s t
      ∧ s.jobBecomes slot { s.job slot with
          state := .active, subMode := none, armingTick := none, openTick := some b,
          acc := { count := 0, firstEdge := none, lastProgress := none, sum := 0, min := none,
                   max := none, pendingStart := none, skipped := 0, total := 0 },
          next :=
            match d.kind with
            | .freqFixed => some ⟨.close, tickAfter b d.gate⟩
            | .freqSync | .period | .width | .phase => some ⟨.stall, tickAfter b d.stall⟩
            | .tally => if 0 < d.report then some ⟨.report, tickAfter b d.report⟩ else none }
          settle s.deadlines.reservations t

/-- The expiry of a CLOSE completes a FREQ_FIXED gate, and that of a STALL ends a measurement STALLED, as
of the boundary tick: the record with its start, end, count, span, value and optional fields (R67, R68, R70,
R73, R75, R78, R81, R86), its HOLDOVER flag (R9, R89), the limit unit's verdict and the STALL flag (R88, R127
to R129), offered to the result queue with queue results 1 (R106, R110 to R112); and then the repeat mode: DONE
with ENDED raised and the reservation released under ONCE (R51), the next measurement opened at the boundary
under CONTINUOUS (R52), the next start under PERIODIC (R54, R55). -/
def Obligations.CloseAndStallEndTheMeasurement : Prop :=
  ∀ (s : State) (slot : Fin 32) (d : Definition) (settle : Nat) (purpose : Purpose) (b opened : Tick),
    s.expires slot d settle purpose b → (s.job slot).openTick = some opened →
    ((purpose = .close ∧ d.kind = .freqFixed)
      ∨ (purpose = .stall ∧ d.kind ≠ .freqFixed ∧ d.kind ≠ .tally)) →
    ∃ t, completes .deadlineExpiry s t
      ∧ s.ends slot d settle opened (s.job slot).acc (s.job slot).held
          (if purpose = .close then .complete else .stalled) b b none t

/-- The expiry of a REPORT forms the INTERIM record of the window that ends at the boundary; the count
restarts, the total and the open tick stay, and the next report lies R ticks further (R83). The record has the
HOLDOVER flag of a test from the open tick (R9, R89) and is handed on to the limit unit and, with queue results
1, to the result queue (R106, R110 to R112, R127 to R129). -/
def Obligations.ReportExpiryFormsAnInterimRecord : Prop :=
  ∀ (s : State) (slot : Fin 32) (d : Definition) (settle : Nat) (b opened : Tick),
    s.expires slot d settle .report b → d.kind = .tally → 0 < d.report → d.report < 2 ^ 32 →
    (s.job slot).next = some ⟨.report, b⟩ → (s.job slot).openTick = some opened →
    ∃ (t : State) (r : Record), completes .deadlineExpiry s t ∧ s.sparesOthers slot t
      ∧ s.takesRecord slot d .interim opened r t ∧ r.tells d (s.job slot) opened b
      ∧ r.startTick = tickBefore b d.report ∧ r.endTick = b
      ∧ r.count = (s.job slot).acc.count ∧ r.span = d.report
      ∧ r.value = (s.job slot).acc.count * 40000000000 / d.report
      ∧ r.total = some (s.job slot).acc.total
      ∧ t.job slot = { s.job slot with
          acc := { (s.job slot).acc with count := 0 }, next := some ⟨.report, tickAfter b d.report⟩,
          sequence := (s.job slot).sequence + 1, pendingMissed := 0, latest := some r,
          lostPending := (t.job slot).lostPending, lostTotal := (t.job slot).lostTotal,
          alert := (t.job slot).alert }
      ∧ t.deadlines.reservations = s.deadlines.reservations
      ∧ Entry.placed s.now ⟨tickAfter (tickAfter b d.report) settle, slot, .report⟩
          (s.otherEntries slot) t.deadlines.entries

/-! ## Edges of a job -/

/-- FREQ_FIXED counts each qualifying edge and moves no boundary (R69). TALLY adds each to the total and to
the count of the window, and takes it as its last progress; the edge that makes the total equal the target
completes the batch TARGET at that edge, and the repeat mode acts: a CONTINUOUS job opens its next batch at the
edge (R82, R84, R50 to R52). A qualifying edge 2^40 ticks or more from the open tick ends the batch SPAN_LIMIT
before it has any effect, at the last progress tick where that is present and not earlier than the window start,
else at the window start (R64, R65, R85); FREQ_FIXED never meets the limit (R64). That the total
has no bound (assumption 27), and the rate of the record none (assumption 33), is the model's choice. -/
def Obligations.CountingKindsCountEdges : Prop :=
  ∀ (s : State) (slot : Fin 32) (d : Definition) (settle : Nat) (e : AcceptedEdge)
    (rest : List AcceptedEdge),
    e.channel = d.channelA → d.selectA.admits e.polarity = true →
    let a := (s.job slot).acc
    let later : Accumulators := { a with
      count := min (a.count + 1) 4294967295, total := a.total + 1, lastProgress := some e.timestamp }
    (s.processes slot d settle e rest →
      (d.kind = .freqFixed →
        completes (.edgeSeen slot) s (s.setJob slot { s.job slot with
          held := rest, acc := { a with count := a.count + 1 } }))
      ∧ (d.kind = .tally →
        (d.target = 0 ∨ a.total + 1 ≠ d.target →
          completes (.edgeSeen slot) s (s.setJob slot { s.job slot with held := rest, acc := later }))
        ∧ ∀ opened, (s.job slot).openTick = some opened → d.target ≠ 0 → a.total + 1 = d.target →
          d.repeating ≠ .periodic →
          ∃ t, completes (.edgeSeen slot) s t
            ∧ s.ends slot d settle opened later rest .target e.timestamp e.timestamp none t))
    ∧ ∀ opened, s.limits slot d settle opened e rest → d.kind = .tally → d.allowed →
        let window := match (s.job slot).next with
          | some b => if 0 < d.report then tickBefore b.tick d.report else opened
          | none => opened
        (∀ last, a.lastProgress = some last → notEarlier last window = true →
          s.limitEnds slot d settle opened e rest last)
        ∧ ((∀ last, a.lastProgress = some last → notEarlier last window = false) →
          s.limitEnds slot d settle opened e rest window)

/-- FREQ_SYNC and PERIOD: the first qualifying edge is t0, which starts no count (R71, R74). A later one
adds 1 to the count, for PERIOD with its interval in min and max; it moves the STALL boundary to its
timestamp plus T (R66), or completes the measurement at its timestamp: for PERIOD when the count reaches N,
for FREQ_SYNC when it is not earlier than t0 + G (R72, R74). On completion the repeat mode acts: a CONTINUOUS
job, and a PERIODIC one whose next start is that very tick, takes the closing edge as the t0 of the next
measurement (R50 to R55, R62). A qualifying edge 2^40 ticks or more from the open tick ends a PERIOD
measurement SPAN_LIMIT at its last progress tick, before it has any effect (R64, R65); FREQ_SYNC never meets the
limit (R64). -/
def Obligations.IntervalKindsMeasureBetweenEdges : Prop :=
  ∀ (s : State) (slot : Fin 32) (d : Definition) (settle : Nat) (e : AcceptedEdge)
    (rest : List AcceptedEdge),
    e.channel = d.channelA → d.selectA.admits e.polarity = true →
    (d.kind = .period ∨ d.kind = .freqSync) →
    let a := (s.job slot).acc
    (s.processes slot d settle e rest →
      (a.firstEdge = none → ∃ t, completes (.edgeSeen slot) s t
        ∧ s.jobBecomes slot { s.job slot with
            held := rest,
            acc := { a with firstEdge := some e.timestamp, lastProgress := some e.timestamp },
            next := some ⟨.stall, tickAfter e.timestamp d.stall⟩ } settle s.deadlines.reservations t)
      ∧ ∀ first last, a.firstEdge = some first → a.lastProgress = some last →
        let x := distance last e.timestamp
        let later : Accumulators := { a with
          count := a.count + 1, lastProgress := some e.timestamp,
          min := if d.kind = .period then
              (match a.min with | some m => some (min m x) | none => some x) else a.min,
          max := if d.kind = .period then
              (match a.max with | some m => some (max m x) | none => some x) else a.max }
        let closes : Prop := (d.kind = .period ∧ a.count + 1 = d.count)
          ∨ (d.kind = .freqSync ∧ notEarlier e.timestamp (tickAfter first d.gate) = true)
        (¬closes → ∃ t, completes (.edgeSeen slot) s t
          ∧ s.jobBecomes slot { s.job slot with
              held := rest, acc := later, next := some ⟨.stall, tickAfter e.timestamp d.stall⟩ }
              settle s.deadlines.reservations t)
        ∧ ∀ opened, (s.job slot).openTick = some opened → closes →
          (d.repeating = .periodic → d.allowed) →
          ∃ t, completes (.edgeSeen slot) s t
            ∧ s.ends slot d settle opened later rest .complete e.timestamp e.timestamp
                (some e.timestamp) t)
    ∧ ∀ opened last, s.limits slot d settle opened e rest → d.kind = .period → d.allowed →
        a.lastProgress = some last → (s.job slot).next = some ⟨.stall, tickAfter last d.stall⟩ →
        notEarlier e.timestamp last = true →
        s.limitEnds slot d settle opened e rest last

/-- WIDTH: a leading edge sets the pending start (R76); a trailing one with a start pending completes a
width (R77). PHASE: a qualifying edge of channel A sets the pending start and counts one replaced as
skipped, up to 65,535 (R79); one of channel B with a start pending completes a delay (R80). A completed
sample enters count, sum, min and max and moves the STALL boundary (R66). A trailing edge or channel B edge
with no start pending changes nothing but the held edges. The sample that brings the count to N completes the
measurement, and the repeat mode acts, no start pending in the measurement that follows (R50 to R55, R62). An
edge the kind acts on, 2^40 ticks or more from the open tick, ends the measurement SPAN_LIMIT at its last
progress tick, before it has any effect (R64, R65). -/
def Obligations.SampleKindsMeasureFromThePendingStart : Prop :=
  ∀ (s : State) (slot : Fin 32) (d : Definition) (settle : Nat) (e : AcceptedEdge)
    (rest : List AcceptedEdge),
    let a := (s.job slot).acc
    let starts : Prop := (d.kind = .width ∨ d.kind = .phase) ∧ e.channel = d.channelA
      ∧ d.selectA.admits e.polarity = true
    let stops : Prop :=
      (d.kind = .width ∧ e.channel = d.channelA ∧ d.selectA.admits e.polarity = false)
        ∨ (d.kind = .phase ∧ e.channel ≠ d.channelA ∧ e.channel = d.channelB
            ∧ d.selectB.admits e.polarity = true)
    (s.processes slot d settle e rest →
      (starts → d.kind = .width → completes (.edgeSeen slot) s (s.setJob slot { s.job slot with
          held := rest, acc := { a with pendingStart := some e.timestamp } }))
      ∧ (starts → d.kind = .phase → completes (.edgeSeen slot) s (s.setJob slot { s.job slot with
          held := rest,
          acc := { a with
            pendingStart := some e.timestamp,
            skipped := if a.pendingStart = none then a.skipped else min (a.skipped + 1) 65535 } }))
      ∧ (stops → a.pendingStart = none →
          completes (.edgeSeen slot) s (s.setJob slot { s.job slot with held := rest }))
      ∧ ∀ start, stops → a.pendingStart = some start →
        let x := distance start e.timestamp
        let later : Accumulators := { a with
          count := a.count + 1, sum := a.sum + x, lastProgress := some e.timestamp,
          pendingStart := none,
          min := match a.min with | some m => some (min m x) | none => some x,
          max := match a.max with | some m => some (max m x) | none => some x }
        (a.count + 1 ≠ d.count → ∃ t, completes (.edgeSeen slot) s t
          ∧ s.jobBecomes slot { s.job slot with
              held := rest, acc := later, next := some ⟨.stall, tickAfter e.timestamp d.stall⟩ }
              settle s.deadlines.reservations t)
        ∧ ∀ opened, (s.job slot).openTick = some opened → a.count + 1 = d.count →
          (d.repeating = .periodic → d.allowed) →
          ∃ t, completes (.edgeSeen slot) s t
            ∧ s.ends slot d settle opened later rest .complete e.timestamp e.timestamp none t)
    ∧ ∀ opened last, s.limits slot d settle opened e rest → (starts ∨ stops) → d.allowed →
        a.lastProgress = some last → (s.job slot).next = some ⟨.stall, tickAfter last d.stall⟩ →
        notEarlier e.timestamp last = true →
        s.limitEnds slot d settle opened e rest last

/-- An edge the job ignores or passes over changes nothing but the held edges it leaves (R46, R63): any in
ARMED(AT) and HOLD; in ARMED(ON_EDGE) one of channel B, one that does not qualify, or one earlier than the
arming tick; in ACTIVE one earlier than the open tick, or one the kind does not act on. In ARMED(ON_EDGE) a
qualifying edge opens the measurement at its timestamp and is processed in it (R44): the state it leaves is that
which the measurement, opened with the edge still held, leaves of it; and but for a TALLY batch that it
completes, a FREQ_FIXED job has counted it, a FREQ_SYNC or PERIOD job taken it as t0, a WIDTH or PHASE job as
its pending start, and a TALLY job as the first of its total (R69, R71, R74, R76, R79, R82). -/
def Obligations.IgnoredAndOpeningEdges : Prop :=
  ∀ (s : State) (slot : Fin 32) (d : Definition) (settle : Nat) (e : AcceptedEdge)
    (rest : List AcceptedEdge), s.sees slot d settle e rest →
    let qualifiesA : Prop := e.channel = d.channelA ∧ d.selectA.admits e.polarity = true
    let qualifiesB : Prop := e.channel = d.channelB ∧ d.selectB.admits e.polarity = true
    let acts : Prop := match d.kind with
      | .width => e.channel = d.channelA
      | .phase => qualifiesA ∨ qualifiesB
      | .freqFixed | .freqSync | .period | .tally => qualifiesA
    ((((s.job slot).state = .armed ∧ (s.job slot).subMode = some .at)
        ∨ (s.job slot).state = .hold
        ∨ (∃ a, (s.job slot).state = .armed ∧ (s.job slot).armingTick = some a
            ∧ (¬qualifiesA ∨ notEarlier e.timestamp a = false))
        ∨ (∃ o, (s.job slot).state = .active ∧ (s.job slot).openTick = some o
            ∧ (notEarlier e.timestamp o = false ∨ ¬acts))) →
      completes (.edgeSeen slot) s (s.setJob slot { s.job slot with held := rest }))
    ∧ ∀ a, (s.job slot).state = .armed → (s.job slot).subMode = some .onEdge →
      (s.job slot).armingTick = some a → qualifiesA → notEarlier e.timestamp a = true →
      let opened : Job := { s.job slot with
        startBase := if d.repeating = .periodic then some e.timestamp else (s.job slot).startBase }
      let counts (b : Bool) : Nat := if b = true then 1 else 0
      let takes (b : Bool) : Option Tick := if b = true then some e.timestamp else none
      (d.allowed → ∃ u t, completes (.edgeSeen slot) s t ∧ completes (.edgeSeen slot) u t
        ∧ s.jobBecomes slot (opened.opensAt d e.timestamp none) settle s.deadlines.reservations u)
      ∧ (d.kind ≠ .tally ∨ d.target ≠ 1 → ∃ t, completes (.edgeSeen slot) s t
        ∧ s.jobBecomes slot { opened.opensAt d e.timestamp none with
            held := rest,
            acc :=
              { count := counts (d.kind == .freqFixed || d.kind == .tally),
                firstEdge := takes (d.kind == .freqSync || d.kind == .period),
                lastProgress :=
                  takes (d.kind == .freqSync || d.kind == .period || d.kind == .tally),
                sum := 0, min := none, max := none,
                pendingStart := takes (d.kind == .width || d.kind == .phase), skipped := 0,
                total := counts (d.kind == .tally) } }
            settle s.deadlines.reservations t)

/-- Boundary before edge (R48, R49), for an edge at the tick B of its job's next boundary. For every running
job and every purpose (START, CLOSE, STALL, REPORT): the boundary is taken first, for the expiry of the boundary
followed by the edge leaves the very state that the edge alone leaves. So a CONTINUOUS FREQ_FIXED gate closes
without the edge, and the edge is the first of the gate that opens at B. A transition of the timebase that falls
on the tick is taken before either (assumption 29). -/
def Obligations.BoundaryIsTakenBeforeTheEdge : Prop :=
  ∀ (s : State) (slot : Fin 32) (d : Definition) (settle : Nat) (e : AcceptedEdge)
    (rest : List AcceptedEdge) (purpose : Purpose),
    (s.job slot).state.running = true → (s.job slot).definition = some d →
    (s.job slot).settle = some settle → (s.job slot).held = e :: rest →
    s.now = tickAfter e.timestamp settle → referenceIsDue s = false →
    (s.job slot).next = some ⟨purpose, e.timestamp⟩ → (s.job slot).boundaryLaw → d.allowed →
    (∀ more, s.deadlines.entries = ⟨s.now, slot, purpose⟩ :: more →
      ∃ u t, completes .deadlineExpiry s u ∧ completes (.edgeSeen slot) u t
        ∧ completes (.edgeSeen slot) s t)
    ∧ ∀ opened, (s.job slot).openTick = some opened → (s.job slot).state = .active →
      d.kind = .freqFixed → d.repeating = .continuous →
      e.channel = d.channelA → d.selectA.admits e.polarity = true →
      ∃ (t : State) (r : Record), completes (.edgeSeen slot) s t ∧ s.sparesOthers slot t
        ∧ s.takesRecord slot d .complete opened r t ∧ r.tells d (s.job slot) opened e.timestamp
        ∧ (t.job slot).state = .active ∧ (t.job slot).openTick = some e.timestamp
        ∧ (t.job slot).acc.count = 1 ∧ (t.job slot).held = rest
        ∧ (t.job slot).next = some ⟨.close, tickAfter e.timestamp d.gate⟩

/-- A PERIODIC measurement that opened at C and ends at the boundary E, by the STALL of a kind that has one or
the CLOSE of a FREQ_FIXED gate: the next start is C + m P for the least m of at least 1 whose grid point is not
earlier than E, and the m - 1 skipped starts enter the missed counts and raise MISSED (R54). Where that start is
later than the horizon the job enters HOLD with a START at it, its open tick and accumulators kept; where it is
E itself the measurement opens at once (R55). So a gate of G ticks with P = G abuts the next one, and with
G < P the job waits in HOLD until C + P (R36, R54, R55). -/
def Obligations.PeriodicJobFindsTheNextStart : Prop :=
  ∀ (s : State) (slot : Fin 32) (d : Definition) (settle m : Nat) (purpose : Purpose) (e opened : Tick),
    s.expires slot d settle purpose e → (s.job slot).openTick = some opened →
    d.repeating = .periodic →
    ((purpose = .stall ∧ d.kind ≠ .freqFixed ∧ d.kind ≠ .tally)
      ∨ (purpose = .close ∧ d.kind = .freqFixed)) →
    4000 ≤ d.period → d.period < 2 ^ 32 →
    1 ≤ m → distance opened e ≤ m * d.period → (m = 1 ∨ (m - 1) * d.period < distance opened e) →
    let start := tickAfter opened (m * d.period)
    let first (t : Tick) : Boundary :=
      if purpose = .close then ⟨.close, tickAfter t d.gate⟩ else ⟨.stall, tickAfter t d.stall⟩
    ∃ t, completes .deadlineExpiry s t ∧ s.sparesOthers slot t
      ∧ (m = 1 → (t.job slot).missedTotal = (s.job slot).missedTotal
          ∧ (t.job slot).pendingMissed = 0)
      ∧ (2 ≤ m → (t.job slot).missedTotal = min ((s.job slot).missedTotal + (m - 1)) 65535
          ∧ (t.job slot).pendingMissed = min (m - 1) 65535 ∧ t.raised (.job slot) 0x08#8)
      ∧ t.deadlines.reservations = s.deadlines.reservations
      ∧ (notEarlier e start = false →
          (t.job slot).state = .hold ∧ (t.job slot).next = some ⟨.start, start⟩
            ∧ (t.job slot).openTick = some opened ∧ (t.job slot).acc = (s.job slot).acc
            ∧ Entry.placed s.now ⟨tickAfter start settle, slot, .start⟩ (s.otherEntries slot)
                t.deadlines.entries)
      ∧ (start = e →
          (t.job slot).state = .active ∧ (t.job slot).openTick = some e
            ∧ (t.job slot).acc.count = 0 ∧ (t.job slot).acc.firstEdge = none
            ∧ (t.job slot).next = some (first e)
            ∧ Entry.placed s.now ⟨tickAfter (first e).tick settle, slot, purpose⟩
                (s.otherEntries slot) t.deadlines.entries)
      ∧ (purpose = .close → e = tickAfter opened d.gate →
          (d.period = d.gate → (t.job slot).state = .active ∧ (t.job slot).openTick = some e
            ∧ (t.job slot).next = some ⟨.close, tickAfter e d.gate⟩)
          ∧ (d.gate < d.period → (t.job slot).state = .hold
            ∧ (t.job slot).next = some ⟨.start, tickAfter opened d.period⟩))

/-! ## Result queue -/

/-- A record offered to the result queue. Below 96 it is appended with the slot's lost pending count as its
lost_before, the count restarts, and WAITING is raised when the new length equals the watermark (R111). At
96 it is refused: the queue is unchanged, lost pending, lost total and the refused count each grow by one up
to 65,535, and FULL is raised (R112). Either way it is the slot's latest result (R106, R107). -/
def Obligations.QueueAppendsOrRefusesARecord : Prop :=
  ∀ (s : State) (slot : Fin 32) (r : Record),
    (s.results.records.length < 96 →
      let queued : Record := { r with lostBefore := (s.job slot).lostPending }
      let t := { s.setJob slot { s.job slot with latest := some queued, lostPending := 0 } with
        results := { s.results with records := s.results.records ++ [queued] } }
      s.offerRecord slot r =
        if s.results.records.length + 1 = s.results.watermark then t.raise .results 0x01#8 else t)
    ∧ (96 ≤ s.results.records.length →
      s.offerRecord slot r =
        { s.setJob slot { s.job slot with
            latest := some r,
            lostPending := min ((s.job slot).lostPending + 1) 65535,
            lostTotal := min ((s.job slot).lostTotal + 1) 65535 } with
          results := { s.results with
            refused := min (s.results.refused + 1) 65535 } }.raise .results 0x02#8)

/-- RESULT_FETCH with a max of 0 or above 4 is refused; else the oldest records, up to max, leave the queue
and stand in the reply, each in the layout of R195, with the length that remains (R116). RESULT_SETUP with a
watermark of 0 or above 96 is refused; else the watermark becomes the request's value, and the reply gives
the watermark and the length (R118). RESULT_FLUSH removes every record and reports how many (R119). Nothing
else changes, and no flag is raised.
That a total or a value past the range of its field stands in the reply modulo that range is the model's choice
(assumptions 27 and 33). -/
def Obligations.ResultRequestsFetchSetUpAndFlush : Prop :=
  (∀ (s : State) (tag most : Byte) (rest : List Request), s.asks tag 0x28 [most] rest →
    ((most = 0 ∨ 4 < most.toNat) → completes .resultFetch s (s.answered tag rest 0x12 [1]))
    ∧ (most ≠ 0 → most.toNat ≤ 4 → ∃ taken left, s.results.records = taken ++ left
      ∧ taken.length = min most.toNat s.results.records.length
      ∧ completes .resultFetch s
        ({ s with results := { s.results with records := left } }.answered tag rest 0x00
          (leBytes 1 taken.length ++ leBytes 1 left.length ++ taken.flatMap (fun (r : Record) =>
            leBytes 1 r.slot.val ++ leBytes 4 r.sequence.toNat
              ++ ([match r.kind with
                    | .freqFixed => 0 | .freqSync => 1 | .period => 2 | .width => 3 | .phase => 4
                    | .tally => 5,
                  match r.status with
                    | .complete => 0 | .interim => 1 | .target => 2 | .stalled => 3
                    | .partialStop => 4 | .spanLimit => 5] : List Byte)
              ++ leBytes 1 ((if r.holdover = true then 1 else 0)
                + (if r.limitOut = true then 2 else 0)
                + (if r.min.isSome = true ∧ r.max.isSome = true then 4 else 0)
                + (if r.total.isSome = true then 8 else 0)
                + (if r.skipped.isSome = true then 16 else 0))
              ++ leBytes 2 r.lostBefore ++ leBytes 2 r.missed ++ leBytes 6 r.startTick.toNat
              ++ leBytes 6 r.endTick.toNat ++ leBytes 4 r.count ++ leBytes 6 r.span
              ++ leBytes 8 r.value
              ++ (match r.min, r.max with
                  | some lo, some hi => leBytes 6 lo ++ leBytes 6 hi | _, _ => [])
              ++ (match r.total with | some n => leBytes 6 n | none => [])
              ++ (match r.skipped with | some n => leBytes 2 n | none => []))))))
  ∧ (∀ (s : State) (tag mark : Byte) (rest : List Request), s.asks tag 0x29 [mark] rest →
    ((mark = 0 ∨ 96 < mark.toNat) → completes .resultSetup s (s.answered tag rest 0x12 [1]))
    ∧ (mark ≠ 0 → mark.toNat ≤ 96 →
      completes .resultSetup s ({ s with results := { s.results with
        watermark := mark.toNat } }.answered tag rest 0x00
          ([mark] ++ leBytes 1 s.results.records.length))))
  ∧ ∀ (s : State) (tag : Byte) (rest : List Request), s.asks tag 0x2A [] rest →
    completes .resultFlush s ({ s with results := { s.results with records := [] } }.answered
      tag rest 0x00 (leBytes 1 s.results.records.length))

/-- The result queue is first in, first out (R109): RESULT_FETCH and RESULT_FLUSH take records from its
head alone, power reset and an executed soft reset empty it, and every other command leaves the records it
holds as they are, with any new ones behind them. -/
def Obligations.ResultQueueIsFifo : Prop :=
  ∀ (c : Instr) (s t : State), completes c s t →
    match c with
    | .resultFetch | .resultFlush => t.results.records <:+ s.results.records
    | .powerReset _ _ => t.results.records = []
    | .softReset => t.results.records = [] ∨ t.results.records = s.results.records
    | _ => s.results.records <+: t.results.records

/-! ## Limits and ALERT -/

/-- Which records are evaluated (R127), how a record handed on goes to the result queue, which takes it below
96, refuses it at 96 and is not offered it with queue results 0 (R106, R110 to R112), and how it moves the alert state (R128, R129): a value outside the
window, or a STALLED record under STALL_OUT, makes the job OUTSIDE and raises OUT if it was INSIDE; a value
in the core makes it INSIDE and raises IN if it was OUTSIDE; a value in the margin, and a record that is not
evaluated, moves nothing. LIMIT_OUT is set exactly on a record found outside. A record below or above the
window is outside, one at least the band within it is core (R124). A value past 2^64 - 1 is compared as the number
it is, the model's choice (assumption 33). -/
def Obligations.LimitUnitMovesTheAlertState : Prop :=
  (∀ (status : RecordStatus) (value : Nat), verdict none status value = .notEvaluated)
  ∧ (∀ (w : Window) (status : RecordStatus) (value : Nat),
      ((status = .partialStop ∨ status = .spanLimit) →
        verdict (some w) status value = .notEvaluated)
      ∧ (status = .stalled →
        verdict (some w) status value = if w.stallOut = true then .outside else .notEvaluated)
      ∧ ((status = .complete ∨ status = .interim ∨ status = .target) →
        (verdict (some w) status value = .outside ↔ value < w.low ∨ w.high < value)
        ∧ (verdict (some w) status value = .core ↔
            w.low ≤ value ∧ value ≤ w.high ∧ w.low + w.band ≤ value ∧ value + w.band ≤ w.high)
        ∧ verdict (some w) status value ≠ .notEvaluated))
  ∧ ∀ (s : State) (slot : Fin 32) (r : Record) (queue : Bool),
    let v := verdict (s.job slot).window r.status r.value
    let t := s.handOn slot r queue
    (∃ r', (t.job slot).latest = some r' ∧ (r'.limitOut = true ↔ v = .outside)
      ∧ r' = { r with limitOut := r'.limitOut, lostBefore := r'.lostBefore })
    ∧ (v = .outside → (t.job slot).alert = .outside
        ∧ ((s.job slot).alert = .inside → t.raised (.job slot) 0x01#8))
    ∧ (v = .core → (t.job slot).alert = .inside
        ∧ ((s.job slot).alert = .outside → t.raised (.job slot) 0x02#8))
    ∧ ((v = .margin ∨ v = .notEvaluated) → (t.job slot).alert = (s.job slot).alert)
    ∧ (queue = false → t.results = s.results)
    ∧ (queue = true → 96 ≤ s.results.records.length →
        t.results = { s.results with refused := min (s.results.refused + 1) 65535 })
    ∧ (queue = true → s.results.records.length < 96 → ∃ r', (t.job slot).latest = some r'
        ∧ r'.lostBefore = (s.job slot).lostPending
        ∧ t.results = { s.results with records := s.results.records ++ [r'] })

/-- LIMIT_SET on a FREE slot is refused JOB_FREE; then the fields 2 to 7 are examined in index order, and
the first that fails gives its index: the presence above 1; with no window a field that is not 0; with one,
high below low, twice the band above high - low, STALL_OUT or drive above 1 (R125). Else the window is
replaced or becomes absent, the alert state becomes INSIDE, ALERT is re-evaluated, no flag is raised, and
the reply gives the alert state found and the pin (R126). -/
def Obligations.LimitSetChecksThenApplies : Prop :=
  ∀ (s : State) (tag present stall drive : Byte) (rest : List Request) (slot : Fin 32)
    (low high band : Nat), low < 2 ^ 64 → high < 2 ^ 64 → band < 2 ^ 64 →
    s.asks tag 0x2C
      (leBytes 1 slot.val ++ [present] ++ leBytes 8 low ++ leBytes 8 high ++ leBytes 8 band
        ++ [stall, drive]) rest →
    let apply (w : Option Window) : Prop :=
      ∃ t, t = (s.setJob slot { s.job slot with window := w, alert := .inside }).evaluateAlert
        ∧ t.alertLaw
        ∧ completes .limitSet s (t.answered tag rest 0x00
            [match (s.job slot).alert with | .inside => 0 | .outside => 1,
              if t.alert = true then 1 else 0])
    ((s.job slot).state = .free → completes .limitSet s (s.answered tag rest 0x21 [0]))
    ∧ ((s.job slot).state ≠ .free →
      (1 < present.toNat → completes .limitSet s (s.answered tag rest 0x12 [2]))
      ∧ (present = 0 →
        (low ≠ 0 → completes .limitSet s (s.answered tag rest 0x12 [3]))
        ∧ (low = 0 → high ≠ 0 → completes .limitSet s (s.answered tag rest 0x12 [4]))
        ∧ (low = 0 → high = 0 → band ≠ 0 → completes .limitSet s (s.answered tag rest 0x12 [5]))
        ∧ (low = 0 → high = 0 → band = 0 → stall ≠ 0 →
            completes .limitSet s (s.answered tag rest 0x12 [6]))
        ∧ (low = 0 → high = 0 → band = 0 → stall = 0 → drive ≠ 0 →
            completes .limitSet s (s.answered tag rest 0x12 [7]))
        ∧ (low = 0 → high = 0 → band = 0 → stall = 0 → drive = 0 → apply none))
      ∧ (present = 1 →
        (high < low → completes .limitSet s (s.answered tag rest 0x12 [4]))
        ∧ (low ≤ high → high - low < 2 * band →
            completes .limitSet s (s.answered tag rest 0x12 [5]))
        ∧ (low ≤ high → 2 * band ≤ high - low → 1 < stall.toNat →
            completes .limitSet s (s.answered tag rest 0x12 [6]))
        ∧ (low ≤ high → 2 * band ≤ high - low → stall.toNat ≤ 1 → 1 < drive.toNat →
            completes .limitSet s (s.answered tag rest 0x12 [7]))
        ∧ (low ≤ high → 2 * band ≤ high - low → stall.toNat ≤ 1 → drive.toNat ≤ 1 →
            apply (some { low := low, high := high, band := band, stallOut := stall == 1,
                          drive := drive == 1 }))))

/-- Every command keeps the law of ALERT (R130): the pin is asserted exactly when a job with drive 1 has
alert state OUTSIDE. -/
def Obligations.EveryStepKeepsTheAlertLaw : Prop :=
  ∀ s t : State, s.alertLaw → step s = .next t → t.alertLaw

/-! ## Notices -/

/-- Raising flags against a source (R163): without a queued notice of the source a new one joins the tail;
with one the flags are added to it, and it keeps its place. Nothing else changes. -/
def Obligations.RaisingAFlagMergesOrAppends : Prop :=
  ∀ (s : State) (source : Source) (flags : BitVec 8),
    s.raise source flags = { s with notices := { s.notices with
        queued := (s.raise source flags).notices.queued } }
    ∧ ((∀ n ∈ s.notices.queued, n.source ≠ source) →
        (s.raise source flags).notices.queued = s.notices.queued ++ [⟨source, flags⟩])
    ∧ ∀ before behind old, s.notices.queued = before ++ ⟨source, old⟩ :: behind →
        (∀ n ∈ before, n.source ≠ source) →
        (s.raise source flags).notices.queued = before ++ ⟨source, old ||| flags⟩ :: behind

/-- Every command keeps two laws: no two queued notices have one source (R163), and a notice is in flight
exactly while the transmitter sends a notice frame, with an idle transmitter and empty queues of the link
while initialisation runs (R166, R168, R170, R176). -/
def Obligations.EveryStepKeepsTheNoticeLaws : Prop :=
  ∀ s t : State, step s = .next t →
    (s.noticeSources → t.noticeSources) ∧ (s.transmissionLaw → t.transmissionLaw)

/-- NOTICE_BEGIN, with the transmitter free, no reply waiting and a credit: the head notice leaves the
queue, a credit is consumed, and the frame of its snapshot begins, with the sequence number, the tick, the
source, the flags and the detail of its kind (R166, R167, R197); a RESULTS snapshot zeroes the refused count
(R115). NOTICE_SENT, at the last byte: the in-flight slot is absent, the sequence counter one further, the
transmitter idle (R168). -/
def Obligations.NoticeIsSentWithItsSnapshot : Prop :=
  (∀ (s : State) (n : QueuedNotice) (rest : List QueuedNotice),
    s.link.initialised = true → s.link.transmitter = .idle → s.link.resetDue = false →
    s.link.replies = [] → s.notices.queued = n :: rest → 1 ≤ s.notices.credits →
    let index : Nat := match n.source with
      | .job slot => slot.val | .channel ch => ch.val | .results => 0 | .device => 0
    let code : Byte := match n.source with
      | .job _ => 1 | .channel _ => 2 | .results => 3 | .device => 4
    let detail : List Byte := match n.source with
      | .job slot =>
        ([match (s.job slot).state with
          | .free => 0 | .idle => 1 | .armed => 2 | .active => 3 | .hold => 4 | .done => 5] : List Byte)
          ++ leBytes 4 (s.job slot).sequence.toNat
      | .channel ch =>
        leBytes 2 (s.capture ch).entries.length ++ leBytes 2 (s.capture ch).loss
          ++ (match (s.channel ch).lastProbe with
            | none => [0]
            | some r => (1 : Byte) :: leBytes 2 r.code
                ++ ([match r.status with | .done => 0 | .cancelled => 1] : List Byte))
      | .results => leBytes 1 s.results.records.length ++ leBytes 2 s.results.refused
      | .device =>
        ([match s.notices.cause with | .power => 0 | .soft => 1] : List Byte)
          ++ leBytes 2 s.link.counters.stray ++ leBytes 2 s.link.counters.badLength
          ++ leBytes 2 s.link.counters.truncated ++ leBytes 2 s.link.counters.badCheck
          ++ leBytes 2 s.link.counters.wrongClass ++ leBytes 2 s.link.counters.overrun
    let payload := leBytes 2 s.notices.sequence.toNat ++ leBytes 6 s.now.toNat ++ leBytes 1 index
      ++ [n.flags] ++ detail
    completes .noticeBegin s { s with
      notices := { s.notices with
        queued := rest, credits := s.notices.credits - 1,
        inFlight := some ⟨n.source, n.flags, payload,
          if n.source = .results then s.results.refused else 0⟩ },
      results := { s.results with
        refused := if n.source = .results then 0 else s.results.refused },
      link := { s.link with
        transmitter := .sending (frameBytes 0x03 0 code payload) s.now true } })
  ∧ ∀ (s : State) (frame : List Byte) (start : Tick),
    s.link.transmitter = .sending frame start true →
    byteEnd s.link.rate frame.length ≤ distance start s.now →
    completes .noticeSent s { s with
      notices := { s.notices with inFlight := none, sequence := s.notices.sequence + 1 },
      link := { s.link with transmitter := .idle } }

/-- GRANT with n above 16 is refused BAD_VALUE with detail 1, the credits unchanged; else the credits become
min(16, credits + n), the reply gives them, and nothing else changes, whether a notice is in flight or not
(R165). -/
def Obligations.GrantAddsCredits : Prop :=
  ∀ (s : State) (tag n : Byte) (rest : List Request), s.asks tag 0x04 [n] rest →
    (16 < n.toNat → completes .grant s (s.answered tag rest 0x12 [1]))
    ∧ (n.toNat ≤ 16 →
      completes .grant s ({ s with notices := { s.notices with
        credits := min 16 (s.notices.credits + n.toNat) } }.answered tag rest 0x00
          (leBytes 1 (min 16 (s.notices.credits + n.toNat)))))

/-! ## Host link -/

/-- The receiver. From the end of initialisation RXD falling from high to low begins a character, RXD is
sampled once within the time of each bit, and the tenth sample completes the character: with the stop bit high a
byte, of its eight data bits with the least significant first, and with it low none (R175, R176). The model's
choices (assumption 28): where in a bit the sample lies is a free value, a start bit sampled high begins none,
and in IN_BREAK no byte is completed, at the tick of the link reset neither (assumption 32). The receiver examines the byte of this tick alone, and a byte that has
not been completed is examined by no command (R179). In HUNTING SYNC begins a frame at this tick, and any other
byte counts as stray. In IN_FRAME the LEN byte joins the frame if it lies in 3 to 252, and ends it and counts as
bad length if not; a later byte that is not the last joins. Each byte that joins sets the last byte tick. 40,001
ticks after the last byte the frame is truncated and counted (R181). The counters stop at 65,535 (R182). -/
def Obligations.ReceiverCollectsAFrame : Prop :=
  (∀ (s : State) (b : Byte), s.link.initialised = true → s.link.breakState = .none →
    s.link.completed = some b →
    let t := { s with link := { s.link with completed := none } }
    (s.link.receiver = .hunting →
      (b = 0xC3 →
        completes .sync s { t with link := { t.link with receiver := .inFrame [0xC3] s.now } })
      ∧ (b ≠ 0xC3 → completes (.strayByte b) s { t with link := { t.link with
          counters := { s.link.counters with stray := min (s.link.counters.stray + 1) 65535 } } }))
    ∧ ∀ bytes last, s.link.receiver = .inFrame bytes last → s.now ≠ tickAfter last 40001 →
      (bytes.length = 1 →
        (3 ≤ b.toNat → b.toNat ≤ 252 → completes (.frameByte b) s
          { t with link := { t.link with receiver := .inFrame (bytes ++ [b]) s.now } })
        ∧ ((b.toNat < 3 ∨ 252 < b.toNat) → completes (.badLength b) s
          { t with link := { t.link with
            receiver := .hunting,
            counters := { s.link.counters with
              badLength := min (s.link.counters.badLength + 1) 65535 } } }))
      ∧ (2 ≤ bytes.length → bytes.length + 1 < (bytes.getD 1 0).toNat + 4 →
        completes (.frameByte b) s
          { t with link := { t.link with receiver := .inFrame (bytes ++ [b]) s.now } }))
  ∧ (∀ (s : State) (bytes : List Byte) (last : Tick), s.link.receiver = .inFrame bytes last →
      s.now = tickAfter last 40001 → completes .truncation s
        { s with link := { s.link with
          receiver := .hunting,
          counters := { s.link.counters with
            truncated := min (s.link.counters.truncated + 1) 65535 } } })
  ∧ (∀ (s : State) (b : Byte), s.link.completed ≠ some b →
      completes (.strayByte b) s s ∧ completes (.frameByte b) s s ∧ completes (.badLength b) s s
        ∧ completes (.receiveFrame b) s s ∧ (b = 0xC3 → completes .sync s s))
  ∧ (∀ (s : State) (rxd : Level), workIsDue s = false → ∃ t, completes (.tick rxd) s t
      ∧ (s.link.initialised = false → t.link.character = none ∧ t.link.completed = none)
      ∧ (s.link.initialised = true →
        (s.link.character = none →
          t.link.completed = none
          ∧ t.link.character = (if s.link.rxd = .high ∧ rxd = .low then
              some ⟨t.now, if sampleOffset s.link.rate 0 = 0 then [.low] else []⟩ else none))
        ∧ ∀ c, s.link.character = some c →
          (distance c.start t.now ≠ sampleOffset s.link.rate c.bits.length →
            t.link.character = some c ∧ t.link.completed = none)
          ∧ (distance c.start t.now = sampleOffset s.link.rate c.bits.length →
            (c.bits.length ≠ 9 → t.link.completed = none
              ∧ t.link.character =
                (if c.bits = [] ∧ rxd = .high then none else some ⟨c.start, c.bits ++ [rxd]⟩))
            ∧ (c.bits.length = 9 → t.link.character = none
              ∧ (rxd = .low ∨ s.link.breakState = .inBreak → t.link.completed = none)
              ∧ (rxd = .high → s.link.breakState = .none → ∃ b, t.link.completed = some b
                ∧ ∀ i, i < 8 → (b.getLsbD i = true ↔ c.bits[i + 1]? = some .high))))))
  ∧ ∀ (rate : LineRate) (place : Nat),
      place * 40000000 ≤ sampleOffset rate place * rate.bitsPerSecond
        ∧ sampleOffset rate place * rate.bitsPerSecond < (place + 1) * 40000000

/-- The last byte of a frame (R180), for every CLASS, TAG, CODE and payload: with a CRC that differs the
frame counts as bad check and raises LINK_ERROR; with a CLASS that is not request, as wrong class and raises
LINK_ERROR; with 4 requests waiting, as overrun and raises INTAKE_OVERRUN; else TAG, CODE and payload join
the intake queue. The receiver is HUNTING in every case. So a frame in the form of R177 with the CRC of R178
reads back as the request it carries. That CRC begins at 0xFFFF and takes each byte most significant bit first
with the polynomial 0x1021, without reflection and without a final inversion; over the nine characters
123456789 it is 0x29B1 (R178). -/
def Obligations.ReceivedFrameReadsBack : Prop :=
  (∀ (s : State) (cls tag code check1 check2 : Byte) (payload : List Byte) (last : Tick),
    payload.length ≤ 249 → s.link.initialised = true → s.link.breakState = .none →
    s.link.completed = some check2 →
    s.link.receiver = .inFrame
      ([0xC3, BitVec.ofNat 8 (payload.length + 3), cls, tag, code] ++ payload ++ [check1]) last →
    s.now ≠ tickAfter last 40001 →
    let crc := crc16 ([BitVec.ofNat 8 (payload.length + 3), cls, tag, code] ++ payload)
    let t := { s with link := { s.link with receiver := .hunting, completed := none } }
    let c := s.link.counters
    (crc.toNat ≠ check1.toNat + 256 * check2.toNat →
      completes (.receiveFrame check2) s (({ t with link := { t.link with
        counters := { c with badCheck := min (c.badCheck + 1) 65535 } } }).raise .device 0x02#8))
    ∧ (crc.toNat = check1.toNat + 256 * check2.toNat →
      (cls ≠ 0x01 →
        completes (.receiveFrame check2) s (({ t with link := { t.link with
          counters := { c with wrongClass := min (c.wrongClass + 1) 65535 } } }).raise .device 0x02#8))
      ∧ (cls = 0x01 → 4 ≤ s.link.intake.length →
        completes (.receiveFrame check2) s (({ t with link := { t.link with
          counters := { c with overrun := min (c.overrun + 1) 65535 } } }).raise .device 0x04#8))
      ∧ (cls = 0x01 → s.link.intake.length < 4 →
        completes (.receiveFrame check2) s { t with link := { t.link with
          intake := s.link.intake ++ [⟨tag, code, payload⟩] } }
        ∧ frameBytes 0x01 tag code payload =
            [0xC3, BitVec.ofNat 8 (payload.length + 3), 0x01, tag, code] ++ payload
              ++ [check1, check2])))
  ∧ crc16 [] = 0xFFFF#16
  ∧ (∀ (bytes : List Byte) (b : Byte), crc16 (bytes ++ [b]) =
      [7, 6, 5, 4, 3, 2, 1, 0].foldl
        (fun (c : BitVec 16) i => if c.msb ≠ b.getLsbD i then (c <<< 1) ^^^ 0x1021#16 else c <<< 1)
        (crc16 bytes))
  ∧ crc16 [0x31, 0x32, 0x33, 0x34, 0x35, 0x36, 0x37, 0x38, 0x39] = 0x29B1#16

/-- A line-low count of 80,000 is a break (R187). LINK_RESET, when it is due and the transmitter is idle or
has just completed a byte (R187): the receiver is HUNTING, both queues of the link are empty, the
transmitter is idle, the break is over, and the rate and the counters stay (R188); a notice in flight
returns to the head with its flags, joined with those of its source's queued notice, and a RESULTS notice
gives its refused count back (R170); the credits are 1 and LINK_RESET is raised (R171). Nothing else
changes. -/
def Obligations.BreakAndLinkReset : Prop :=
  (∀ s : State, s.link.initialised = true → s.link.breakState = .none → s.link.lineLow = 80000 →
    completes .breakDetected s { s with link := { s.link with breakState := .inBreak } })
  ∧ ∀ s : State, s.link.resetDue = true →
    (s.link.transmitter = .idle
      ∨ ∃ frame start notice k, s.link.transmitter = .sending frame start notice
          ∧ 1 ≤ k ∧ k ≤ frame.length ∧ byteEnd s.link.rate k = distance start s.now) →
    ∃ (t : State) (queued : List QueuedNotice),
      completes .linkReset s t
      ∧ t = { s with notices := t.notices, results := t.results, link := t.link }
      ∧ t.link = { s.link with
          receiver := .hunting, intake := [], replies := [], transmitter := .idle,
          breakState := .none, lineLow := 0, resetDue := false }
      ∧ t.results = { s.results with refused := t.results.refused }
      ∧ t.notices = { s.notices with
          queued := mergeNotice .device 0x08#8 queued, inFlight := none, credits := 1 }
      ∧ (s.notices.inFlight = none →
          queued = s.notices.queued ∧ t.results.refused = s.results.refused)
      ∧ ∀ f, s.notices.inFlight = some f →
          t.results.refused = min (s.results.refused + f.refusedTaken) 65535
          ∧ ((∀ n ∈ s.notices.queued, n.source ≠ f.source) →
              queued = ⟨f.source, f.flags⟩ :: s.notices.queued)
          ∧ ∀ before old behind, s.notices.queued = before ++ ⟨f.source, old⟩ :: behind →
              (∀ n ∈ before ++ behind, n.source ≠ f.source) →
              queued = ⟨f.source, old ||| f.flags⟩ :: (before ++ behind)

/-- REPLY_BEGIN, with the transmitter free and a reply waiting: the head reply leaves the queue and its
frame begins, of CLASS 0x02 with its TAG, code and payload (R177, R184, R186). REPLY_SENT, at the last byte:
the transmitter is idle (R186). TXD rests high; while a frame is sent each byte takes ten bit times, a low start
bit, eight data bits with the least significant first, a high stop bit, and after the last one the line is high
(R175, R177; the pin is read from the state, assumption 19). INIT_END, at tick 80,000: the link holds the values
of R176, but that RXD low at that tick counts as the first of a low period and begins a character, which is the
model's inference (assumptions 17 and 28). -/
def Obligations.RepliesAndTheEndOfInitialisation : Prop :=
  (∀ (s : State) (r : Reply) (rest : List Reply),
    s.link.initialised = true → s.link.transmitter = .idle → s.link.resetDue = false →
    s.link.replies = r :: rest →
    completes .replyBegin s { s with link := { s.link with
      replies := rest, transmitter := .sending (frameBytes 0x02 r.tag r.code r.payload) s.now false } })
  ∧ (∀ (s : State) (frame : List Byte) (start : Tick),
    s.link.transmitter = .sending frame start false →
    byteEnd s.link.rate frame.length ≤ distance start s.now →
    completes .replySent s { s with link := { s.link with transmitter := .idle } })
  ∧ (∀ s : State, s.link.transmitter = .idle → s.txd = .high)
  ∧ (∀ (s : State) (frame : List Byte) (start : Tick) (notice : Bool),
    s.link.transmitter = .sending frame start notice →
    let reached (bits : Nat) : Prop :=
      bits * 40000000 ≤ distance start s.now * s.link.rate.bitsPerSecond
    (∀ k place b, frame[k]? = some b → place < 10 → reached (10 * k + place) →
      ¬reached (10 * k + place + 1) →
      (s.txd = .low ↔ place = 0 ∨ (1 ≤ place ∧ place ≤ 8 ∧ b.getLsbD (place - 1) = false)))
    ∧ (reached (10 * frame.length) → s.txd = .high))
  ∧ ∀ s : State, s.link.initialised = false → s.now = 80000 →
    completes .initEnd s { s with link :=
      { rate := s.link.rate, initialised := true, receiver := .hunting,
        lineLow := if s.link.rxd = .low then 1 else 0, breakState := .none, intake := [],
        replies := [], transmitter := .idle,
        counters := { stray := 0, badLength := 0, truncated := 0, badCheck := 0, wrongClass := 0,
                      overrun := 0 },
        rxd := s.link.rxd,
        character := if s.link.rxd = .low then
            some ⟨80000, if sampleOffset s.link.rate 0 = 0 then [.low] else []⟩ else none,
        completed := none, resetDue := false, executed := s.link.executed } }

/-- The dispatcher's generic checks, in order (R185), over the codes and payload lengths of R192 and R185: a
code that is none of the twenty is refused UNKNOWN_REQUEST; a payload of another length BAD_LENGTH; a slot
above 31 or a channel above 7 BAD_INDEX with its field. TIME and JOB_STOP wait for a transition of the timebase
that falls on the tick (assumptions 15 and 29). The model's choice: which of PROBE's two rows answers a refusal,
its START row unless the action asks for CANCEL (assumption 16). -/
def Obligations.DispatcherChecksCodeLengthIndex : Prop :=
  let table : List (Byte × RequestCode × Nat) :=
    [(0x01, .describe, 0), (0x02, .status, 1), (0x03, .time, 0), (0x04, .grant, 1),
      (0x05, .softReset, 0), (0x10, .chanSet, 7), (0x11, .chanGet, 2), (0x12, .probe, 4),
      (0x18, .captureSet, 7), (0x19, .captureRead, 2), (0x1A, .captureFlush, 1),
      (0x20, .jobDefine, 32), (0x21, .jobStart, 8), (0x22, .jobStop, 2), (0x23, .jobClear, 1),
      (0x24, .jobGet, 1), (0x28, .resultFetch, 1), (0x29, .resultSetup, 1), (0x2A, .resultFlush, 0),
      (0x2C, .limitSet, 28)]
  let ofSlot : List RequestCode := [.jobDefine, .jobStart, .jobStop, .jobClear, .jobGet, .limitSet]
  let ofChannel : List RequestCode :=
    [.chanSet, .chanGet, .probe, .captureSet, .captureRead, .captureFlush]
  ∀ (s : State) (tag code : Byte) (payload : List Byte) (rest : List Request),
    s.asks tag code payload rest →
    ((∀ row ∈ table, code ≠ row.1) →
      completes .unknownRequest s (s.answered tag rest 0x10 [0]))
    ∧ ∀ row ∈ table, code = row.1 → (row.2.1 = .time ∨ row.2.1 = .jobStop → referenceIsDue s = false) →
      (payload.length ≠ row.2.2 →
        completes (row.2.1.row payload) s (s.answered tag rest 0x11 [0]))
      ∧ (payload.length = row.2.2 →
        (row.2.1 ∈ ofSlot → 31 < (payload.getD 0 0).toNat →
          completes (row.2.1.row payload) s (s.answered tag rest 0x13 [1]))
        ∧ (row.2.1 ∈ ofChannel → 7 < (payload.getD 0 0).toNat →
          completes (row.2.1.row payload) s (s.answered tag rest 0x13 [1]))
        ∧ (row.2.1 = .jobDefine → (payload.getD 0 0).toNat ≤ 31 → 7 < (payload.getD 2 0).toNat →
          completes .jobDefine s (s.answered tag rest 0x13 [3])))

/-- A refused request changes no state of the device, and its reply carries one byte of detail (R184): if a
command has put a reply with a code other than OK and ACCEPTED behind the waiting replies, then all it has
done is take the request from the intake queue and add that reply, with the request's TAG. -/
def Obligations.RefusedRequestChangesNothing : Prop :=
  ∀ (c : Instr) (s t : State) (tag code : Byte) (payload : List Byte) (rest : List Request)
    (r : Reply), s.asks tag code payload rest → completes c s t →
    t.link.replies = s.link.replies ++ [r] → r.code ≠ 0x00 → r.code ≠ 0x01 →
    t = s.answered tag rest r.code r.payload ∧ r.tag = tag ∧ r.payload.length = 1

/-- DESCRIBE is answered with the 15 bytes that name the device, and changes no state (R189). STATUS with a
clear above 1 is refused; else it reports the device at the execution tick in 30 bytes,
and with clear 1 it zeroes the link counters after they have been reported (R190). The job counts are those
of the slots in each state and sum to 32, and under the law of the deadline list ARMED, ACTIVE and HOLD
together are the reservations (R94). -/
def Obligations.DescribeAndStatusReportTheDevice : Prop :=
  (∀ (s : State) (tag : Byte) (rest : List Request), s.asks tag 0x01 [] rest →
    completes .describe s (s.answered tag rest 0x00
      ([0x4A, 0x20, 0x08, 2, 8, 32, 24, 0x00, 0x02, 96, 42] ++ leBytes 4 40000000)))
  ∧ ∀ (s : State) (tag clear : Byte) (rest : List Request), s.asks tag 0x02 [clear] rest →
    let jobs (state : JobState) : Nat :=
      ((List.finRange 32).filter (fun slot => (s.job slot).state == state)).length
    (1 < clear.toNat → completes .status s (s.answered tag rest 0x12 [1]))
    ∧ (clear.toNat ≤ 1 →
      completes .status s
        ((if clear = 1 then { s with link := { s.link with counters :=
            { stray := 0, badLength := 0, truncated := 0, badCheck := 0, wrongClass := 0,
              overrun := 0 } } }
          else s).answered tag rest 0x00
          (([match s.timebase.state with
              | .start => 0 | .normal => 1 | .holdover => 2] : List Byte)
            ++ leBytes 6 s.now.toNat ++ leBytes 1 (jobs .free) ++ leBytes 1 (jobs .idle)
            ++ leBytes 1 (jobs .armed) ++ leBytes 1 (jobs .active) ++ leBytes 1 (jobs .hold)
            ++ leBytes 1 (jobs .done) ++ leBytes 1 s.deadlines.reservations
            ++ leBytes 1 s.results.records.length ++ leBytes 1 s.notices.queued.length
            ++ leBytes 1 s.notices.credits ++ [if s.alert = true then 1 else 0]
            ++ leBytes 2 s.link.counters.stray ++ leBytes 2 s.link.counters.badLength
            ++ leBytes 2 s.link.counters.truncated ++ leBytes 2 s.link.counters.badCheck
            ++ leBytes 2 s.link.counters.wrongClass ++ leBytes 2 s.link.counters.overrun)))
    ∧ jobs .free + jobs .idle + jobs .armed + jobs .active + jobs .hold + jobs .done = 32
    ∧ (s.deadlineLaw →
        jobs .armed + jobs .active + jobs .hold = s.deadlines.reservations)
end

