-- ==== Sys2Proof/Laws/State.lean ====
section
/-! SUPPORT. What each named update of the state leaves as it was, one lemma per field, and what reading a
member of a bank gives after one member has been replaced. -/

namespace Sys2Proof.Machine

variable (s : State)

/-! ### setChannel -/

@[simp] theorem State.setChannel_timebase (ch : Fin 8) (c : Channel) :
    (s.setChannel ch c).timebase = s.timebase := rfl
@[simp] theorem State.setChannel_captures (ch : Fin 8) (c : Channel) :
    (s.setChannel ch c).captures = s.captures := rfl
@[simp] theorem State.setChannel_jobs (ch : Fin 8) (c : Channel) :
    (s.setChannel ch c).jobs = s.jobs := rfl
@[simp] theorem State.setChannel_deadlines (ch : Fin 8) (c : Channel) :
    (s.setChannel ch c).deadlines = s.deadlines := rfl
@[simp] theorem State.setChannel_results (ch : Fin 8) (c : Channel) :
    (s.setChannel ch c).results = s.results := rfl
@[simp] theorem State.setChannel_alert (ch : Fin 8) (c : Channel) :
    (s.setChannel ch c).alert = s.alert := rfl
@[simp] theorem State.setChannel_notices (ch : Fin 8) (c : Channel) :
    (s.setChannel ch c).notices = s.notices := rfl
@[simp] theorem State.setChannel_link (ch : Fin 8) (c : Channel) :
    (s.setChannel ch c).link = s.link := rfl
@[simp] theorem State.setChannel_pending (ch : Fin 8) (c : Channel) :
    (s.setChannel ch c).pending = s.pending := rfl
@[simp] theorem State.job_setChannel (ch : Fin 8) (c : Channel) (k : Fin 32) :
    (s.setChannel ch c).job k = s.job k := rfl
@[simp] theorem State.capture_setChannel (ch : Fin 8) (c : Channel) (k : Fin 8) :
    (s.setChannel ch c).capture k = s.capture k := rfl
@[simp] theorem State.now_setChannel (ch : Fin 8) (c : Channel) :
    (s.setChannel ch c).now = s.now := rfl

/-! ### setCapture -/

@[simp] theorem State.setCapture_timebase (ch : Fin 8) (q : CaptureQueue) :
    (s.setCapture ch q).timebase = s.timebase := rfl
@[simp] theorem State.setCapture_channels (ch : Fin 8) (q : CaptureQueue) :
    (s.setCapture ch q).channels = s.channels := rfl
@[simp] theorem State.setCapture_jobs (ch : Fin 8) (q : CaptureQueue) :
    (s.setCapture ch q).jobs = s.jobs := rfl
@[simp] theorem State.setCapture_deadlines (ch : Fin 8) (q : CaptureQueue) :
    (s.setCapture ch q).deadlines = s.deadlines := rfl
@[simp] theorem State.setCapture_results (ch : Fin 8) (q : CaptureQueue) :
    (s.setCapture ch q).results = s.results := rfl
@[simp] theorem State.setCapture_alert (ch : Fin 8) (q : CaptureQueue) :
    (s.setCapture ch q).alert = s.alert := rfl
@[simp] theorem State.setCapture_notices (ch : Fin 8) (q : CaptureQueue) :
    (s.setCapture ch q).notices = s.notices := rfl
@[simp] theorem State.setCapture_link (ch : Fin 8) (q : CaptureQueue) :
    (s.setCapture ch q).link = s.link := rfl
@[simp] theorem State.setCapture_pending (ch : Fin 8) (q : CaptureQueue) :
    (s.setCapture ch q).pending = s.pending := rfl
@[simp] theorem State.job_setCapture (ch : Fin 8) (q : CaptureQueue) (k : Fin 32) :
    (s.setCapture ch q).job k = s.job k := rfl
@[simp] theorem State.channel_setCapture (ch : Fin 8) (q : CaptureQueue) (k : Fin 8) :
    (s.setCapture ch q).channel k = s.channel k := rfl
@[simp] theorem State.now_setCapture (ch : Fin 8) (q : CaptureQueue) :
    (s.setCapture ch q).now = s.now := rfl

/-! ### setJob -/

@[simp] theorem State.setJob_timebase (slot : Fin 32) (j : Job) :
    (s.setJob slot j).timebase = s.timebase := rfl
@[simp] theorem State.setJob_channels (slot : Fin 32) (j : Job) :
    (s.setJob slot j).channels = s.channels := rfl
@[simp] theorem State.setJob_captures (slot : Fin 32) (j : Job) :
    (s.setJob slot j).captures = s.captures := rfl
@[simp] theorem State.setJob_deadlines (slot : Fin 32) (j : Job) :
    (s.setJob slot j).deadlines = s.deadlines := rfl
@[simp] theorem State.setJob_results (slot : Fin 32) (j : Job) :
    (s.setJob slot j).results = s.results := rfl
@[simp] theorem State.setJob_alert (slot : Fin 32) (j : Job) :
    (s.setJob slot j).alert = s.alert := rfl
@[simp] theorem State.setJob_notices (slot : Fin 32) (j : Job) :
    (s.setJob slot j).notices = s.notices := rfl
@[simp] theorem State.setJob_link (slot : Fin 32) (j : Job) :
    (s.setJob slot j).link = s.link := rfl
@[simp] theorem State.setJob_pending (slot : Fin 32) (j : Job) :
    (s.setJob slot j).pending = s.pending := rfl
@[simp] theorem State.channel_setJob (slot : Fin 32) (j : Job) (k : Fin 8) :
    (s.setJob slot j).channel k = s.channel k := rfl
@[simp] theorem State.capture_setJob (slot : Fin 32) (j : Job) (k : Fin 8) :
    (s.setJob slot j).capture k = s.capture k := rfl
@[simp] theorem State.now_setJob (slot : Fin 32) (j : Job) :
    (s.setJob slot j).now = s.now := rfl

/-! ### raise -/

@[simp] theorem State.raise_timebase (source : Source) (flags : BitVec 8) :
    (s.raise source flags).timebase = s.timebase := rfl
@[simp] theorem State.raise_channels (source : Source) (flags : BitVec 8) :
    (s.raise source flags).channels = s.channels := rfl
@[simp] theorem State.raise_captures (source : Source) (flags : BitVec 8) :
    (s.raise source flags).captures = s.captures := rfl
@[simp] theorem State.raise_jobs (source : Source) (flags : BitVec 8) :
    (s.raise source flags).jobs = s.jobs := rfl
@[simp] theorem State.raise_deadlines (source : Source) (flags : BitVec 8) :
    (s.raise source flags).deadlines = s.deadlines := rfl
@[simp] theorem State.raise_results (source : Source) (flags : BitVec 8) :
    (s.raise source flags).results = s.results := rfl
@[simp] theorem State.raise_alert (source : Source) (flags : BitVec 8) :
    (s.raise source flags).alert = s.alert := rfl
@[simp] theorem State.raise_link (source : Source) (flags : BitVec 8) :
    (s.raise source flags).link = s.link := rfl
@[simp] theorem State.raise_pending (source : Source) (flags : BitVec 8) :
    (s.raise source flags).pending = s.pending := rfl
@[simp] theorem State.job_raise (source : Source) (flags : BitVec 8) (k : Fin 32) :
    (s.raise source flags).job k = s.job k := rfl
@[simp] theorem State.channel_raise (source : Source) (flags : BitVec 8) (k : Fin 8) :
    (s.raise source flags).channel k = s.channel k := rfl
@[simp] theorem State.capture_raise (source : Source) (flags : BitVec 8) (k : Fin 8) :
    (s.raise source flags).capture k = s.capture k := rfl
@[simp] theorem State.now_raise (source : Source) (flags : BitVec 8) :
    (s.raise source flags).now = s.now := rfl

/-! ### dropEntry -/

@[simp] theorem State.dropEntry_timebase (slot : Fin 32) :
    (s.dropEntry slot).timebase = s.timebase := rfl
@[simp] theorem State.dropEntry_channels (slot : Fin 32) :
    (s.dropEntry slot).channels = s.channels := rfl
@[simp] theorem State.dropEntry_captures (slot : Fin 32) :
    (s.dropEntry slot).captures = s.captures := rfl
@[simp] theorem State.dropEntry_jobs (slot : Fin 32) :
    (s.dropEntry slot).jobs = s.jobs := rfl
@[simp] theorem State.dropEntry_results (slot : Fin 32) :
    (s.dropEntry slot).results = s.results := rfl
@[simp] theorem State.dropEntry_alert (slot : Fin 32) :
    (s.dropEntry slot).alert = s.alert := rfl
@[simp] theorem State.dropEntry_notices (slot : Fin 32) :
    (s.dropEntry slot).notices = s.notices := rfl
@[simp] theorem State.dropEntry_link (slot : Fin 32) :
    (s.dropEntry slot).link = s.link := rfl
@[simp] theorem State.dropEntry_pending (slot : Fin 32) :
    (s.dropEntry slot).pending = s.pending := rfl
@[simp] theorem State.job_dropEntry (slot : Fin 32) (k : Fin 32) :
    (s.dropEntry slot).job k = s.job k := rfl
@[simp] theorem State.channel_dropEntry (slot : Fin 32) (k : Fin 8) :
    (s.dropEntry slot).channel k = s.channel k := rfl
@[simp] theorem State.capture_dropEntry (slot : Fin 32) (k : Fin 8) :
    (s.dropEntry slot).capture k = s.capture k := rfl
@[simp] theorem State.now_dropEntry (slot : Fin 32) :
    (s.dropEntry slot).now = s.now := rfl

/-! ### takeReservation -/

@[simp] theorem State.takeReservation_timebase :
    (s.takeReservation).timebase = s.timebase := rfl
@[simp] theorem State.takeReservation_channels :
    (s.takeReservation).channels = s.channels := rfl
@[simp] theorem State.takeReservation_captures :
    (s.takeReservation).captures = s.captures := rfl
@[simp] theorem State.takeReservation_jobs :
    (s.takeReservation).jobs = s.jobs := rfl
@[simp] theorem State.takeReservation_results :
    (s.takeReservation).results = s.results := rfl
@[simp] theorem State.takeReservation_alert :
    (s.takeReservation).alert = s.alert := rfl
@[simp] theorem State.takeReservation_notices :
    (s.takeReservation).notices = s.notices := rfl
@[simp] theorem State.takeReservation_link :
    (s.takeReservation).link = s.link := rfl
@[simp] theorem State.takeReservation_pending :
    (s.takeReservation).pending = s.pending := rfl
@[simp] theorem State.job_takeReservation (k : Fin 32) :
    (s.takeReservation).job k = s.job k := rfl
@[simp] theorem State.channel_takeReservation (k : Fin 8) :
    (s.takeReservation).channel k = s.channel k := rfl
@[simp] theorem State.capture_takeReservation (k : Fin 8) :
    (s.takeReservation).capture k = s.capture k := rfl
@[simp] theorem State.now_takeReservation :
    (s.takeReservation).now = s.now := rfl

/-! ### releaseReservation -/

@[simp] theorem State.releaseReservation_timebase :
    (s.releaseReservation).timebase = s.timebase := rfl
@[simp] theorem State.releaseReservation_channels :
    (s.releaseReservation).channels = s.channels := rfl
@[simp] theorem State.releaseReservation_captures :
    (s.releaseReservation).captures = s.captures := rfl
@[simp] theorem State.releaseReservation_jobs :
    (s.releaseReservation).jobs = s.jobs := rfl
@[simp] theorem State.releaseReservation_results :
    (s.releaseReservation).results = s.results := rfl
@[simp] theorem State.releaseReservation_alert :
    (s.releaseReservation).alert = s.alert := rfl
@[simp] theorem State.releaseReservation_notices :
    (s.releaseReservation).notices = s.notices := rfl
@[simp] theorem State.releaseReservation_link :
    (s.releaseReservation).link = s.link := rfl
@[simp] theorem State.releaseReservation_pending :
    (s.releaseReservation).pending = s.pending := rfl
@[simp] theorem State.job_releaseReservation (k : Fin 32) :
    (s.releaseReservation).job k = s.job k := rfl
@[simp] theorem State.channel_releaseReservation (k : Fin 8) :
    (s.releaseReservation).channel k = s.channel k := rfl
@[simp] theorem State.capture_releaseReservation (k : Fin 8) :
    (s.releaseReservation).capture k = s.capture k := rfl
@[simp] theorem State.now_releaseReservation :
    (s.releaseReservation).now = s.now := rfl

/-! ### evaluateAlert -/

@[simp] theorem State.evaluateAlert_timebase :
    (s.evaluateAlert).timebase = s.timebase := rfl
@[simp] theorem State.evaluateAlert_channels :
    (s.evaluateAlert).channels = s.channels := rfl
@[simp] theorem State.evaluateAlert_captures :
    (s.evaluateAlert).captures = s.captures := rfl
@[simp] theorem State.evaluateAlert_jobs :
    (s.evaluateAlert).jobs = s.jobs := rfl
@[simp] theorem State.evaluateAlert_deadlines :
    (s.evaluateAlert).deadlines = s.deadlines := rfl
@[simp] theorem State.evaluateAlert_results :
    (s.evaluateAlert).results = s.results := rfl
@[simp] theorem State.evaluateAlert_notices :
    (s.evaluateAlert).notices = s.notices := rfl
@[simp] theorem State.evaluateAlert_link :
    (s.evaluateAlert).link = s.link := rfl
@[simp] theorem State.evaluateAlert_pending :
    (s.evaluateAlert).pending = s.pending := rfl
@[simp] theorem State.job_evaluateAlert (k : Fin 32) :
    (s.evaluateAlert).job k = s.job k := rfl
@[simp] theorem State.channel_evaluateAlert (k : Fin 8) :
    (s.evaluateAlert).channel k = s.channel k := rfl
@[simp] theorem State.capture_evaluateAlert (k : Fin 8) :
    (s.evaluateAlert).capture k = s.capture k := rfl
@[simp] theorem State.now_evaluateAlert :
    (s.evaluateAlert).now = s.now := rfl

/-! ### setAcc -/

@[simp] theorem State.setAcc_timebase (slot : Fin 32) (a : Accumulators) :
    (s.setAcc slot a).timebase = s.timebase := rfl
@[simp] theorem State.setAcc_channels (slot : Fin 32) (a : Accumulators) :
    (s.setAcc slot a).channels = s.channels := rfl
@[simp] theorem State.setAcc_captures (slot : Fin 32) (a : Accumulators) :
    (s.setAcc slot a).captures = s.captures := rfl
@[simp] theorem State.setAcc_deadlines (slot : Fin 32) (a : Accumulators) :
    (s.setAcc slot a).deadlines = s.deadlines := rfl
@[simp] theorem State.setAcc_results (slot : Fin 32) (a : Accumulators) :
    (s.setAcc slot a).results = s.results := rfl
@[simp] theorem State.setAcc_alert (slot : Fin 32) (a : Accumulators) :
    (s.setAcc slot a).alert = s.alert := rfl
@[simp] theorem State.setAcc_notices (slot : Fin 32) (a : Accumulators) :
    (s.setAcc slot a).notices = s.notices := rfl
@[simp] theorem State.setAcc_link (slot : Fin 32) (a : Accumulators) :
    (s.setAcc slot a).link = s.link := rfl
@[simp] theorem State.setAcc_pending (slot : Fin 32) (a : Accumulators) :
    (s.setAcc slot a).pending = s.pending := rfl
@[simp] theorem State.channel_setAcc (slot : Fin 32) (a : Accumulators) (k : Fin 8) :
    (s.setAcc slot a).channel k = s.channel k := rfl
@[simp] theorem State.capture_setAcc (slot : Fin 32) (a : Accumulators) (k : Fin 8) :
    (s.setAcc slot a).capture k = s.capture k := rfl
@[simp] theorem State.now_setAcc (slot : Fin 32) (a : Accumulators) :
    (s.setAcc slot a).now = s.now := rfl

/-! ### setRecords -/

@[simp] theorem State.setRecords_timebase (records : List Record) :
    (s.setRecords records).timebase = s.timebase := rfl
@[simp] theorem State.setRecords_channels (records : List Record) :
    (s.setRecords records).channels = s.channels := rfl
@[simp] theorem State.setRecords_captures (records : List Record) :
    (s.setRecords records).captures = s.captures := rfl
@[simp] theorem State.setRecords_jobs (records : List Record) :
    (s.setRecords records).jobs = s.jobs := rfl
@[simp] theorem State.setRecords_deadlines (records : List Record) :
    (s.setRecords records).deadlines = s.deadlines := rfl
@[simp] theorem State.setRecords_alert (records : List Record) :
    (s.setRecords records).alert = s.alert := rfl
@[simp] theorem State.setRecords_notices (records : List Record) :
    (s.setRecords records).notices = s.notices := rfl
@[simp] theorem State.setRecords_link (records : List Record) :
    (s.setRecords records).link = s.link := rfl
@[simp] theorem State.setRecords_pending (records : List Record) :
    (s.setRecords records).pending = s.pending := rfl
@[simp] theorem State.job_setRecords (records : List Record) (k : Fin 32) :
    (s.setRecords records).job k = s.job k := rfl
@[simp] theorem State.channel_setRecords (records : List Record) (k : Fin 8) :
    (s.setRecords records).channel k = s.channel k := rfl
@[simp] theorem State.capture_setRecords (records : List Record) (k : Fin 8) :
    (s.setRecords records).capture k = s.capture k := rfl
@[simp] theorem State.now_setRecords (records : List Record) :
    (s.setRecords records).now = s.now := rfl

/-! ### examined -/

@[simp] theorem State.examined_timebase : s.examined.timebase = s.timebase := rfl
@[simp] theorem State.examined_channels : s.examined.channels = s.channels := rfl
@[simp] theorem State.examined_captures : s.examined.captures = s.captures := rfl
@[simp] theorem State.examined_jobs : s.examined.jobs = s.jobs := rfl
@[simp] theorem State.examined_deadlines : s.examined.deadlines = s.deadlines := rfl
@[simp] theorem State.examined_results : s.examined.results = s.results := rfl
@[simp] theorem State.examined_alert : s.examined.alert = s.alert := rfl
@[simp] theorem State.examined_notices : s.examined.notices = s.notices := rfl
@[simp] theorem State.examined_pending : s.examined.pending = s.pending := rfl
@[simp] theorem State.job_examined (k : Fin 32) : s.examined.job k = s.job k := rfl
@[simp] theorem State.channel_examined (k : Fin 8) : s.examined.channel k = s.channel k := rfl
@[simp] theorem State.capture_examined (k : Fin 8) : s.examined.capture k = s.capture k := rfl
@[simp] theorem State.now_examined : s.examined.now = s.now := rfl

/-! ### setReceiver -/

@[simp] theorem State.setReceiver_timebase (r : Receiver) :
    (s.setReceiver r).timebase = s.timebase := rfl
@[simp] theorem State.setReceiver_channels (r : Receiver) :
    (s.setReceiver r).channels = s.channels := rfl
@[simp] theorem State.setReceiver_captures (r : Receiver) :
    (s.setReceiver r).captures = s.captures := rfl
@[simp] theorem State.setReceiver_jobs (r : Receiver) :
    (s.setReceiver r).jobs = s.jobs := rfl
@[simp] theorem State.setReceiver_deadlines (r : Receiver) :
    (s.setReceiver r).deadlines = s.deadlines := rfl
@[simp] theorem State.setReceiver_results (r : Receiver) :
    (s.setReceiver r).results = s.results := rfl
@[simp] theorem State.setReceiver_alert (r : Receiver) :
    (s.setReceiver r).alert = s.alert := rfl
@[simp] theorem State.setReceiver_notices (r : Receiver) :
    (s.setReceiver r).notices = s.notices := rfl
@[simp] theorem State.setReceiver_pending (r : Receiver) :
    (s.setReceiver r).pending = s.pending := rfl
@[simp] theorem State.job_setReceiver (r : Receiver) (k : Fin 32) :
    (s.setReceiver r).job k = s.job k := rfl
@[simp] theorem State.channel_setReceiver (r : Receiver) (k : Fin 8) :
    (s.setReceiver r).channel k = s.channel k := rfl
@[simp] theorem State.capture_setReceiver (r : Receiver) (k : Fin 8) :
    (s.setReceiver r).capture k = s.capture k := rfl
@[simp] theorem State.now_setReceiver (r : Receiver) :
    (s.setReceiver r).now = s.now := rfl

/-! ### setCounters -/

@[simp] theorem State.setCounters_timebase (c : LinkCounters) :
    (s.setCounters c).timebase = s.timebase := rfl
@[simp] theorem State.setCounters_channels (c : LinkCounters) :
    (s.setCounters c).channels = s.channels := rfl
@[simp] theorem State.setCounters_captures (c : LinkCounters) :
    (s.setCounters c).captures = s.captures := rfl
@[simp] theorem State.setCounters_jobs (c : LinkCounters) :
    (s.setCounters c).jobs = s.jobs := rfl
@[simp] theorem State.setCounters_deadlines (c : LinkCounters) :
    (s.setCounters c).deadlines = s.deadlines := rfl
@[simp] theorem State.setCounters_results (c : LinkCounters) :
    (s.setCounters c).results = s.results := rfl
@[simp] theorem State.setCounters_alert (c : LinkCounters) :
    (s.setCounters c).alert = s.alert := rfl
@[simp] theorem State.setCounters_notices (c : LinkCounters) :
    (s.setCounters c).notices = s.notices := rfl
@[simp] theorem State.setCounters_pending (c : LinkCounters) :
    (s.setCounters c).pending = s.pending := rfl
@[simp] theorem State.job_setCounters (c : LinkCounters) (k : Fin 32) :
    (s.setCounters c).job k = s.job k := rfl
@[simp] theorem State.channel_setCounters (c : LinkCounters) (k : Fin 8) :
    (s.setCounters c).channel k = s.channel k := rfl
@[simp] theorem State.capture_setCounters (c : LinkCounters) (k : Fin 8) :
    (s.setCounters c).capture k = s.capture k := rfl
@[simp] theorem State.now_setCounters (c : LinkCounters) :
    (s.setCounters c).now = s.now := rfl

/-! ### holdEdge -/

@[simp] theorem State.holdEdge_timebase (e : AcceptedEdge) :
    (s.holdEdge e).timebase = s.timebase := rfl
@[simp] theorem State.holdEdge_channels (e : AcceptedEdge) :
    (s.holdEdge e).channels = s.channels := rfl
@[simp] theorem State.holdEdge_captures (e : AcceptedEdge) :
    (s.holdEdge e).captures = s.captures := rfl
@[simp] theorem State.holdEdge_deadlines (e : AcceptedEdge) :
    (s.holdEdge e).deadlines = s.deadlines := rfl
@[simp] theorem State.holdEdge_results (e : AcceptedEdge) :
    (s.holdEdge e).results = s.results := rfl
@[simp] theorem State.holdEdge_alert (e : AcceptedEdge) :
    (s.holdEdge e).alert = s.alert := rfl
@[simp] theorem State.holdEdge_notices (e : AcceptedEdge) :
    (s.holdEdge e).notices = s.notices := rfl
@[simp] theorem State.holdEdge_link (e : AcceptedEdge) :
    (s.holdEdge e).link = s.link := rfl
@[simp] theorem State.holdEdge_pending (e : AcceptedEdge) :
    (s.holdEdge e).pending = s.pending := rfl
@[simp] theorem State.channel_holdEdge (e : AcceptedEdge) (k : Fin 8) :
    (s.holdEdge e).channel k = s.channel k := rfl
@[simp] theorem State.capture_holdEdge (e : AcceptedEdge) (k : Fin 8) :
    (s.holdEdge e).capture k = s.capture k := rfl
@[simp] theorem State.now_holdEdge (e : AcceptedEdge) :
    (s.holdEdge e).now = s.now := rfl

/-! ### answered -/

@[simp] theorem State.answered_timebase (tag : Byte) (rest : List Request) (code : Byte) (payload : List Byte) :
    (s.answered tag rest code payload).timebase = s.timebase := rfl
@[simp] theorem State.answered_channels (tag : Byte) (rest : List Request) (code : Byte) (payload : List Byte) :
    (s.answered tag rest code payload).channels = s.channels := rfl
@[simp] theorem State.answered_captures (tag : Byte) (rest : List Request) (code : Byte) (payload : List Byte) :
    (s.answered tag rest code payload).captures = s.captures := rfl
@[simp] theorem State.answered_jobs (tag : Byte) (rest : List Request) (code : Byte) (payload : List Byte) :
    (s.answered tag rest code payload).jobs = s.jobs := rfl
@[simp] theorem State.answered_deadlines (tag : Byte) (rest : List Request) (code : Byte) (payload : List Byte) :
    (s.answered tag rest code payload).deadlines = s.deadlines := rfl
@[simp] theorem State.answered_results (tag : Byte) (rest : List Request) (code : Byte) (payload : List Byte) :
    (s.answered tag rest code payload).results = s.results := rfl
@[simp] theorem State.answered_alert (tag : Byte) (rest : List Request) (code : Byte) (payload : List Byte) :
    (s.answered tag rest code payload).alert = s.alert := rfl
@[simp] theorem State.answered_notices (tag : Byte) (rest : List Request) (code : Byte) (payload : List Byte) :
    (s.answered tag rest code payload).notices = s.notices := rfl
@[simp] theorem State.answered_pending (tag : Byte) (rest : List Request) (code : Byte) (payload : List Byte) :
    (s.answered tag rest code payload).pending = s.pending := rfl
@[simp] theorem State.job_answered (tag : Byte) (rest : List Request) (code : Byte) (payload : List Byte) (k : Fin 32) :
    (s.answered tag rest code payload).job k = s.job k := rfl
@[simp] theorem State.channel_answered (tag : Byte) (rest : List Request) (code : Byte) (payload : List Byte) (k : Fin 8) :
    (s.answered tag rest code payload).channel k = s.channel k := rfl
@[simp] theorem State.capture_answered (tag : Byte) (rest : List Request) (code : Byte) (payload : List Byte) (k : Fin 8) :
    (s.answered tag rest code payload).capture k = s.capture k := rfl
@[simp] theorem State.now_answered (tag : Byte) (rest : List Request) (code : Byte) (payload : List Byte) :
    (s.answered tag rest code payload).now = s.now := rfl

/-! ### The flags of each kind of source -/

@[simp] theorem State.raiseJob_eq (slot : Fin 32) (f : JobFlag) : s.raiseJob slot f = s.raise (.job slot) f.mask := rfl
@[simp] theorem State.raiseChannel_eq (ch : Fin 8) (f : ChannelFlag) : s.raiseChannel ch f = s.raise (.channel ch) f.mask := rfl
@[simp] theorem State.raiseResults_eq (f : ResultsFlag) : s.raiseResults f = s.raise .results f.mask := rfl
@[simp] theorem State.raiseDevice_eq (f : DeviceFlag) : s.raiseDevice f = s.raise .device f.mask := rfl

/-! ### What the updates of one field write -/

@[simp] theorem State.raise_queued (source : Source) (flags : BitVec 8) :
    (s.raise source flags).notices.queued = mergeNotice source flags s.notices.queued := rfl
@[simp] theorem State.raise_inFlight (source : Source) (flags : BitVec 8) :
    (s.raise source flags).notices.inFlight = s.notices.inFlight := rfl
@[simp] theorem State.raise_credits (source : Source) (flags : BitVec 8) :
    (s.raise source flags).notices.credits = s.notices.credits := rfl
@[simp] theorem State.raise_sequence (source : Source) (flags : BitVec 8) :
    (s.raise source flags).notices.sequence = s.notices.sequence := rfl
@[simp] theorem State.raise_cause (source : Source) (flags : BitVec 8) :
    (s.raise source flags).notices.cause = s.notices.cause := rfl
@[simp] theorem State.dropEntry_entries (slot : Fin 32) :
    (s.dropEntry slot).deadlines.entries = removeEntry slot s.deadlines.entries := rfl
@[simp] theorem State.dropEntry_reservations (slot : Fin 32) :
    (s.dropEntry slot).deadlines.reservations = s.deadlines.reservations := rfl
@[simp] theorem State.takeReservation_entries :
    s.takeReservation.deadlines.entries = s.deadlines.entries := rfl
@[simp] theorem State.takeReservation_reservations :
    s.takeReservation.deadlines.reservations = s.deadlines.reservations + 1 := rfl
@[simp] theorem State.releaseReservation_entries :
    s.releaseReservation.deadlines.entries = s.deadlines.entries := rfl
@[simp] theorem State.releaseReservation_reservations :
    s.releaseReservation.deadlines.reservations = s.deadlines.reservations - 1 := rfl
@[simp] theorem State.evaluateAlert_alert :
    s.evaluateAlert.alert = anyIn Job.drivesAlert s.jobs := rfl
@[simp] theorem State.setRecords_records (records : List Record) :
    (s.setRecords records).results.records = records := rfl
@[simp] theorem State.setRecords_watermark (records : List Record) :
    (s.setRecords records).results.watermark = s.results.watermark := rfl
@[simp] theorem State.setRecords_refused (records : List Record) :
    (s.setRecords records).results.refused = s.results.refused := rfl

/-! ### Reading after replacing -/

theorem get_set {α : Type} {n : Nat} (bank : Vector α n) (i k : Fin n) (a : α) :
    (bank.set i a).get k = if k = i then a else bank.get k := by
  have h := Vector.getElem_set (xs := bank) (i := i.val) (x := a) (j := k.val) i.isLt k.isLt
  have hk : ∀ v : Vector α n, v.get k = v[k.val] := fun _ => rfl
  rw [hk, hk, h]
  by_cases e : k = i
  · simp [e]
  · have : ¬ i.val = k.val := fun q => e (Fin.ext q.symm)
    simp [e, this]

theorem get_ext {α : Type} {n : Nat} {v w : Vector α n} (h : ∀ k, v.get k = w.get k) : v = w := by
  apply Vector.ext
  intro i hi
  exact h ⟨i, hi⟩

theorem State.job_setJob (i k : Fin 32) (j : Job) :
    (s.setJob i j).job k = if k = i then j else s.job k := get_set _ _ _ _

theorem State.channel_setChannel (i k : Fin 8) (c : Channel) :
    (s.setChannel i c).channel k = if k = i then c else s.channel k := get_set _ _ _ _

theorem State.capture_setCapture (i k : Fin 8) (q : CaptureQueue) :
    (s.setCapture i q).capture k = if k = i then q else s.capture k := get_set _ _ _ _

@[simp] theorem State.job_setJob_self (i : Fin 32) (j : Job) : (s.setJob i j).job i = j := by
  simp [State.job_setJob]

@[simp] theorem State.channel_setChannel_self (i : Fin 8) (c : Channel) :
    (s.setChannel i c).channel i = c := by simp [State.channel_setChannel]

@[simp] theorem State.capture_setCapture_self (i : Fin 8) (q : CaptureQueue) :
    (s.setCapture i q).capture i = q := by simp [State.capture_setCapture]

theorem State.job_setJob_ne {i k : Fin 32} (h : k ≠ i) (j : Job) :
    (s.setJob i j).job k = s.job k := by simp [State.job_setJob, h]

theorem State.channel_setChannel_ne {i k : Fin 8} (h : k ≠ i) (c : Channel) :
    (s.setChannel i c).channel k = s.channel k := by simp [State.channel_setChannel, h]

theorem State.capture_setCapture_ne {i k : Fin 8} (h : k ≠ i) (q : CaptureQueue) :
    (s.setCapture i q).capture k = s.capture k := by simp [State.capture_setCapture, h]

@[simp] theorem State.job_setAcc_self (i : Fin 32) (a : Accumulators) :
    (s.setAcc i a).job i = { s.job i with acc := a } := by simp [State.setAcc]

@[simp] theorem State.setJob_setJob (i : Fin 32) (j j' : Job) :
    (s.setJob i j).setJob i j' = s.setJob i j' := by
  have : (s.jobs.set i j).set i j' = s.jobs.set i j' := by
    apply get_ext; intro k; simp only [get_set]; split <;> rfl
  simp only [State.setJob, this]

/-! ### Banks -/

theorem get_mapBank {α β : Type} {n : Nat} (f : α → β) (bank : Vector α n) (k : Fin n) :
    (mapBank f bank).get k = f (bank.get k) := by
  have : (mapBank f bank).get k = (bank.toList.map f)[k.val]'(by simp) := rfl
  rw [this]
  simp
  rfl

theorem anyIn_eq_true {α : Type} {n : Nat} (p : α → Bool) (bank : Vector α n) :
    anyIn p bank = true ↔ ∃ k, p (bank.get k) = true := by
  simp only [anyIn, List.any_eq_true]
  constructor
  · rintro ⟨x, hx, hp⟩
    obtain ⟨i, hi, rfl⟩ := List.mem_iff_getElem.mp hx
    refine ⟨⟨i, by simpa using hi⟩, ?_⟩
    have : bank.get ⟨i, by simpa using hi⟩ = bank.toList[i] := by simp; rfl
    rw [this]; exact hp
  · rintro ⟨k, hp⟩
    refine ⟨bank.get k, ?_, hp⟩
    have : bank.get k = bank.toList[k.val]'(by simp) := by simp; rfl
    rw [this]
    exact List.getElem_mem _

@[simp] theorem get_replicate {α : Type} {n : Nat} (a : α) (k : Fin n) :
    (Vector.replicate n a).get k = a := by
  have : (Vector.replicate n a).get k = (Vector.replicate n a)[k.val] := rfl
  rw [this]; simp

theorem State.holdEdge_job (e : AcceptedEdge) (k : Fin 32) :
    (s.holdEdge e).job k = (s.job k).hold e := get_mapBank _ _ _

end Sys2Proof.Machine
end

