-- ==== Sys2Proof/Laws/Banks.lean ====
section
/-! SUPPORT. Counting and summing over a bank when one member is replaced, and little-endian bytes. -/

namespace Sys2Proof.Machine

theorem toList_set {α : Type} {n : Nat} (bank : Vector α n) (i : Fin n) (a : α) :
    (bank.set i a).toList = bank.toList.set i a := Vector.toList_set ..

theorem countP_set {α : Type} (p : α → Bool) :
    ∀ (l : List α) (i : Nat) (h : i < l.length) (a : α),
      (l.set i a).countP p + (if p l[i] then 1 else 0) = l.countP p + (if p a then 1 else 0)
  | x :: l, 0, _, a => by simp [List.countP_cons]; omega
  | x :: l, i + 1, h, a => by
    have := countP_set p l i (by simpa using h) a
    simp [List.countP_cons]
    omega

/-- A count over a bank after one member has been replaced. -/
theorem countIn_set {α : Type} {n : Nat} (p : α → Bool) (bank : Vector α n) (i : Fin n) (a : α) :
    countIn p (bank.set i a) + (if p (bank.get i) then 1 else 0)
      = countIn p bank + (if p a then 1 else 0) := by
  have := countP_set p bank.toList i (by simp) a
  have e : bank.get i = bank.toList[i.val]'(by simp) := by simp; rfl
  simpa only [countIn, toList_set, e] using this

theorem sum_map_set {α : Type} (f : α → Nat) :
    ∀ (l : List α) (i : Nat) (h : i < l.length) (a : α),
      ((l.set i a).map f).sum + f l[i] = (l.map f).sum + f a
  | x :: l, 0, _, a => by simp; omega
  | x :: l, i + 1, h, a => by
    have := sum_map_set f l i (by simpa using h) a
    simp only [List.set_cons_succ, List.map_cons, List.sum_cons, List.getElem_cons_succ]
    omega

/-- A sum over a bank after one member has been replaced. -/
theorem sumIn_set {α : Type} {n : Nat} (f : α → Nat) (bank : Vector α n) (i : Fin n) (a : α) :
    sumIn f (bank.set i a) + f (bank.get i) = sumIn f bank + f a := by
  have := sum_map_set f bank.toList i (by simp) a
  have e : bank.get i = bank.toList[i.val]'(by simp) := by simp; rfl
  simpa only [sumIn, toList_set, e] using this

/-- A count over a bank whose every member keeps what is counted. -/
theorem countIn_mapBank {α : Type} {n : Nat} (p : α → Bool) (f : α → α) (h : ∀ a, p (f a) = p a)
    (bank : Vector α n) : countIn p (mapBank f bank) = countIn p bank := by
  simp only [countIn, mapBank]
  show (bank.toList.map f).countP p = _
  rw [List.countP_map]
  congr 1
  funext a
  exact h a

theorem countIn_replicate {α : Type} (n : Nat) (p : α → Bool) (a : α) (h : p a = false) :
    countIn p (Vector.replicate n a) = 0 := by
  simp [countIn, h]

/-! ### Bytes -/

@[simp] theorem length_leBytes : ∀ size n, (leBytes size n).length = size
  | 0, _ => rfl
  | k + 1, n => by simp [leBytes, length_leBytes k]

/-- Reading bytes back gives the number, modulo what the bytes can hold. -/
theorem leNat_leBytes : ∀ size n, leNat (leBytes size n) = n % 256 ^ size
  | 0, n => by simp [leBytes, leNat, Nat.mod_one]
  | k + 1, n => by
    have := leNat_leBytes k (n / 256)
    have e : (2 : Nat) ^ 8 = 256 := rfl
    simp only [leBytes, leNat, this, BitVec.toNat_ofNat, e]
    rw [pow_succ', Nat.mod_mul]

theorem leNat_leBytes_of_lt {size n : Nat} (h : n < 256 ^ size) : leNat (leBytes size n) = n := by
  rw [leNat_leBytes, Nat.mod_eq_of_lt h]

theorem leNat_lt : ∀ l : List Byte, leNat l < 256 ^ l.length
  | [] => by simp [leNat]
  | b :: l => by
    have := leNat_lt l
    have := b.isLt
    simp only [leNat, List.length_cons, Nat.pow_succ]
    omega

/-- Writing a number that bytes spell gives the bytes back. -/
theorem leBytes_leNat : ∀ l : List Byte, leBytes l.length (leNat l) = l
  | [] => rfl
  | b :: l => by
    have hb := b.isLt
    have e : (b.toNat + 256 * leNat l) / 256 = leNat l := by omega
    have m : BitVec.ofNat 8 (b.toNat + 256 * leNat l) = b := by
      apply BitVec.eq_of_toNat_eq
      simp only [BitVec.toNat_ofNat]
      omega
    simp only [leNat, List.length_cons, leBytes, e, m, leBytes_leNat l]

end Sys2Proof.Machine
end

