-- ==== Sys2Proof/Laws/Acts.lean ====
section
/-! SUPPORT. What a job can do to the device, said once: every meaning that opens, completes, stops or
feeds a measurement of a slot is a sequence of the few acts below. Whatever each act keeps, they all
keep. -/

namespace Sys2Proof.Machine

/-- A saturating counter never passes its maximum. -/
theorem saturate_le (counter n : Nat) : saturate counter n ≤ 65535 := Nat.min_le_right _ _

/-- One act of the job in `slot`. -/
inductive JobAct (slot : Fin 32) : State → State → Prop
  /-- The slot is written; its limit window and alert state stay, and its counters in their range. -/
  | write (s : State) (j : Job) (window : j.window = (s.job slot).window)
      (alert : j.alert = (s.job slot).alert) (definition : j.definition = (s.job slot).definition)
      (counters : (s.job slot).counters → j.counters) : JobAct slot s (s.setJob slot j)
  /-- The limit unit evaluates a record of the slot. -/
  | evaluate (s : State) (v : Verdict) : JobAct slot s (s.moveAlert slot v)
  /-- A flag is raised. -/
  | flag (s : State) (source : Source) (flags : BitVec 8) : JobAct slot s (s.raise source flags)
  /-- The slot's entry leaves the deadline list. -/
  | drop (s : State) : JobAct slot s (s.dropEntry slot)
  /-- An entry of the slot joins the deadline list. -/
  | insert (s : State) (due : Tick) (purpose : Purpose) :
      JobAct slot s { s with deadlines := { s.deadlines with
        entries := insertEntry s.now ⟨due, slot, purpose⟩ s.deadlines.entries } }
  /-- The slot's reservation is released. -/
  | release (s : State) : JobAct slot s s.releaseReservation
  /-- A record joins the result queue, which has room. -/
  | append (s : State) (r : Record) (room : s.results.records.length < Config.resultPlaces) :
      JobAct slot s { s with results := { s.results with records := s.results.records ++ [r] } }
  /-- The result queue refuses a record. -/
  | refuse (s : State) (n : Nat) (most : n ≤ Config.counterMax) :
      JobAct slot s { s with results := { s.results with refused := n } }

/-- Any number of acts of the job in `slot`. -/
abbrev JobActs (slot : Fin 32) : State → State → Prop := Relation.ReflTransGen (JobAct slot)

/-- What one act keeps, and every act after it, they all keep. -/
theorem JobActs.keeps {slot : Fin 32} {s t : State} {P : State → Prop}
    (step : ∀ s t, JobAct slot s t → P s → P t) (h : JobActs slot s t) (hs : P s) : P t := by
  induction h with
  | refl => exact hs
  | tail _ act ih => exact step _ _ act ih

/-- Acts, and then one more. -/
theorem JobActs.last {slot : Fin 32} {s t u : State} (act : JobAct slot t u) (h : JobActs slot s t) :
    JobActs slot s u := h.tail act

/-- Acts, and then more. -/
theorem JobActs.after {slot : Fin 32} {s t u : State} (acts : JobActs slot t u)
    (h : JobActs slot s t) : JobActs slot s u := h.trans acts

variable (slot : Fin 32) (s : State) (d : Definition)

/-- Writing the slot with its limit fields and its definition as they are. -/
theorem write_acts (j : Job) (w : j.window = (s.job slot).window) (a : j.alert = (s.job slot).alert)
    (d : j.definition = (s.job slot).definition) (c : (s.job slot).counters → j.counters) :
    JobActs slot s (s.setJob slot j) := .single (.write s j w a d c)

theorem setBoundary_acts (b : Boundary) : JobActs slot s (s.setBoundary slot b) := by
  refine .last (.insert _ _ _) (.last (.drop _) ?_)
  exact write_acts slot s { s.job slot with next := some b } rfl rfl rfl id

theorem clearBoundary_acts : JobActs slot s (s.clearBoundary slot) := by
  refine .last (.drop _) ?_
  exact write_acts slot s { s.job slot with next := none } rfl rfl rfl id

theorem changeBoundary_acts (b : Option Boundary) : JobActs slot s (s.changeBoundary slot b) := by
  cases b with
  | none => exact clearBoundary_acts slot s
  | some b => exact setBoundary_acts slot s b

theorem leaveRunning_acts (state : JobState) : JobActs slot s (s.leaveRunning slot state) := by
  refine .last (.release _) (.after (write_acts slot _ _ ?_ ?_ ?_ id) (clearBoundary_acts slot s)) <;> rfl

theorem offerRecord_acts (r : Record) : JobActs slot s (s.offerRecord slot r) := by
  have queued : (s.job slot).counters → { s.job slot with lostPending := 0 }.counters :=
    fun c => ⟨c.1, Nat.zero_le _, c.2.2⟩
  unfold State.offerRecord
  dsimp only
  split
  · split
    · refine .last (.flag _ _ _) (.last (.append _ _ ‹_›) (write_acts slot s _ ?_ ?_ ?_ queued)) <;> rfl
    · refine .last (.append _ _ ‹_›) (write_acts slot s _ ?_ ?_ ?_ queued) <;> rfl
  · refine .last (.flag _ _ _) (.last (.refuse _ _ (saturate_le _ _))
      (write_acts slot s _ ?_ ?_ ?_ fun c => ⟨c.1, saturate_le _ _, saturate_le _ _, c.2.2.2⟩)) <;> rfl

/-- What the limit unit leaves in the job slots. -/
theorem moveAlert_job (v : Verdict) (k : Fin 32) :
    (s.moveAlert slot v).job k
      = if k = slot then { s.job slot with alert := (s.job slot).alert.after v } else s.job k := by
  have h : ∀ j, ((s.setJob slot j).evaluateAlert).job k = if k = slot then j else s.job k := by
    intro j; simp [State.job_setJob]
  unfold State.moveAlert
  dsimp only
  split <;> simp only [State.raiseJob_eq, State.job_raise, h]

theorem handOn_acts (r : Record) (queue : Bool) : JobActs slot s (s.handOn slot r queue) := by
  unfold State.handOn
  dsimp only
  split
  · exact .after (offerRecord_acts slot _ _) (.single (.evaluate s _))
  · refine .last (.write _ _ ?_ ?_ ?_ id) (.single (.evaluate s _)) <;> rfl

theorem raiseStatus_acts (status : RecordStatus) :
    JobActs slot s (s.raiseStatus slot status) := by
  cases status <;> first | exact .refl | exact .single (.flag _ _ _)

theorem produce_acts (status : RecordStatus) (endTick : Tick) :
    JobActs slot s (s.produce slot d status endTick) := by
  refine .after (handOn_acts slot _ _ _) (.after (raiseStatus_acts slot _ status) ?_)
  refine write_acts slot s _ ?_ ?_ ?_ (fun c => ⟨Nat.zero_le _, c.2⟩) <;> rfl

theorem openMeasurement_acts (t : Tick) : JobActs slot s (s.openMeasurement slot d t) := by
  refine .after (changeBoundary_acts slot _ _)
    (write_acts slot s _ ?_ ?_ ?_ fun c => ⟨c.1, c.2.1, c.2.2.1, c.2.2.2.1, Nat.zero_le _⟩) <;> rfl

theorem openAtEdge_acts (t : Tick) : JobActs slot s (s.openAtEdge slot d t) := by
  refine .last (.write _ _ ?_ ?_ ?_ id) (openMeasurement_acts slot s d t) <;> rfl

theorem countMissed_acts (n : Nat) : JobActs slot s (s.countMissed slot n) := by
  unfold State.countMissed
  split
  · refine .last (.flag _ _ _) (write_acts slot s _ ?_ ?_ ?_
      fun c => ⟨saturate_le _ _, c.2.1, c.2.2.1, saturate_le _ _, c.2.2.2.2⟩) <;> rfl
  · exact .refl

theorem enterHold_acts (t : Tick) : JobActs slot s (s.enterHold slot t) := by
  refine .after (setBoundary_acts slot _ _) (write_acts slot s _ ?_ ?_ ?_ id) <;> rfl

theorem actRepeat_acts (status : RecordStatus) (endTick : Tick) (edge : Option Tick) :
    JobActs slot s (s.actRepeat slot d status endTick edge).state := by
  unfold State.actRepeat
  split
  · exact .last (.flag _ _ _) (leaveRunning_acts slot s .done)
  · split
    · exact openMeasurement_acts slot s d _
    · split
      · exact openAtEdge_acts slot s d _
      · exact openMeasurement_acts slot s d _
    · exact openMeasurement_acts slot s d _
  · dsimp only
    split
    · exact .after (openMeasurement_acts slot _ d _) (countMissed_acts slot s _)
    · exact .after (enterHold_acts slot _ _) (countMissed_acts slot s _)

theorem complete_acts (status : RecordStatus) (endTick : Tick) (edge : Option Tick) :
    JobActs slot s (s.complete slot d status endTick edge).state :=
  .after (actRepeat_acts slot _ d status endTick edge)
    (.last (.drop _) (produce_acts slot s d status endTick))

theorem interimReport_acts (b : Tick) : JobActs slot s (s.interimReport slot d b) := by
  refine .after (setBoundary_acts slot _ _) (.last (.write _ _ ?_ ?_ ?_ id)
    (produce_acts slot s d .interim b)) <;> rfl

/-- Taking a boundary (R48) is a sequence of acts of the slot's job. -/
theorem takeBoundary_acts (b : Boundary) : JobActs slot s (s.takeBoundary slot b) := by
  have h : JobActs slot s (s.dropEntry slot) := .single (.drop s)
  unfold State.takeBoundary
  split
  · exact .refl
  · dsimp only
    split
    · exact .after (openMeasurement_acts slot _ _ _) h
    · exact .after (complete_acts slot _ _ _ _ _) h
    · exact .after (complete_acts slot _ _ _ _ _) h
    · exact .after (interimReport_acts slot _ _ _) h

/-- Accumulators whose skipped count is in its range where the job's counters are. -/
abbrev Job.accepts (j : Job) (a : Accumulators) : Prop := j.counters → a.skipped ≤ 65535

theorem setAcc_acts (a : Accumulators) (h : (s.job slot).accepts a) : JobActs slot s (s.setAcc slot a) := by
  refine write_acts slot s _ ?_ ?_ ?_ (fun c => ⟨c.1, c.2.1, c.2.2.1, c.2.2.2.1, h c⟩) <;> rfl

theorem progress_acts (a : Accumulators) (t : Tick) (h : (s.job slot).accepts a) :
    JobActs slot s (s.progress slot d a t) :=
  .after (setBoundary_acts slot _ _) (setAcc_acts slot s a h)

theorem progressOrComplete_acts (a : Accumulators) (t : Tick) (completes : Bool)
    (h : (s.job slot).accepts a) : JobActs slot s (s.progressOrComplete slot d a t completes).state := by
  unfold State.progressOrComplete
  split
  · exact .after (complete_acts slot _ d _ _ _) (setAcc_acts slot s a h)
  · exact progress_acts slot s d a t h

theorem tallyEdge_acts (t : Tick) : JobActs slot s (s.tallyEdge slot d t).state := by
  unfold State.tallyEdge
  dsimp only
  split
  · exact .after (complete_acts slot _ d _ _ _) (setAcc_acts slot s _ fun c => c.2.2.2.2)
  · exact setAcc_acts slot s _ fun c => c.2.2.2.2

theorem kindStep_acts (e : AcceptedEdge) : JobActs slot s (s.kindStep slot d e).state := by
  have same : (s.job slot).counters → (s.job slot).acc.skipped ≤ 65535 := fun c => c.2.2.2.2
  unfold State.kindStep
  dsimp only
  split
  · exact setAcc_acts slot s _ same
  · split
    · exact progress_acts slot s d _ _ same
    · exact progressOrComplete_acts slot s d _ _ _ same
  · split
    · exact progress_acts slot s d _ _ same
    · exact progressOrComplete_acts slot s d _ _ _ same
  · split
    · exact setAcc_acts slot s _ same
    · split
      · exact .refl
      · exact progressOrComplete_acts slot s d _ _ _ same
  · split
    · refine setAcc_acts slot s _ fun c => ?_
      dsimp only
      split
      · exact saturate_le _ _
      · exact same c
    · split
      · exact .refl
      · exact progressOrComplete_acts slot s d _ _ _ same
  · exact tallyEdge_acts slot s d _

theorem processEdge_acts (e : AcceptedEdge) : JobActs slot s (s.processEdge slot d e).state := by
  unfold State.processEdge
  dsimp only
  split
  · exact .refl
  · split
    · exact complete_acts slot s d _ _ _
    · exact kindStep_acts slot s d e

theorem actOnEdge_acts (e : AcceptedEdge) : JobActs slot s (s.actOnEdge slot d e).state := by
  unfold State.actOnEdge
  dsimp only
  split
  · split
    · refine .after (processEdge_acts slot _ d e) (.after (openMeasurement_acts slot _ d _)
        (write_acts slot s _ ?_ ?_ ?_ id)) <;> rfl
    · exact .refl
  · split
    · exact processEdge_acts slot s d e
    · exact .refl
  all_goals exact .refl

theorem seeEdge_acts (fuel : Nat) (s : State) (e : AcceptedEdge) :
    JobActs slot s (seeEdge fuel s slot e) := by
  induction fuel generalizing s with
  | zero => exact .refl
  | succ fuel ih =>
    unfold seeEdge
    dsimp only
    split
    · exact .refl
    · split
      · split
        · exact .after (ih _) (takeBoundary_acts slot s _)
        · split
          · exact .after (ih _) (actOnEdge_acts slot s _ e)
          · exact actOnEdge_acts slot s _ e
      · split
        · exact .after (ih _) (actOnEdge_acts slot s _ e)
        · exact actOnEdge_acts slot s _ e

/-- EDGE_SEEN is a sequence of acts of the slot's job. -/
theorem see_acts : JobActs slot s (s.see slot) := by
  unfold State.see
  dsimp only
  split
  · exact .refl
  · refine .after (seeEdge_acts slot _ _ _) (write_acts slot s _ ?_ ?_ ?_ id) <;> rfl

theorem keepPartial_acts : JobActs slot s (s.keepPartial slot) := by
  unfold State.keepPartial
  dsimp only
  split
  · exact produce_acts slot s _ _ _
  · exact .refl

end Sys2Proof.Machine
end

