-- ==== Sys2Proof/Laws/ActsKeep.lean ====
section
/-! SUPPORT. What the acts of a job keep: every other block, every other slot, the order of the result
queue, and the laws that speak of one queue alone. -/

namespace Sys2Proof.Machine

/-! ### One act -/

section
variable {slot : Fin 32} {s t : State}

/-- The limit unit touches the slot, the pin and the notice queue. -/
theorem moveAlert_eq (s : State) (slot : Fin 32) (v : Verdict) :
    ∃ queued, s.moveAlert slot v
      = { (s.setJob slot { s.job slot with alert := (s.job slot).alert.after v }).evaluateAlert with
          notices := { s.notices with queued := queued } } := by
  unfold State.moveAlert
  dsimp only
  split
  · exact ⟨_, rfl⟩
  · exact ⟨_, rfl⟩
  · exact ⟨s.notices.queued, rfl⟩
  · exact ⟨s.notices.queued, rfl⟩

@[simp] theorem moveAlert_deadlines (s : State) (slot : Fin 32) (v : Verdict) :
    (s.moveAlert slot v).deadlines = s.deadlines := by
  obtain ⟨q, h⟩ := moveAlert_eq s slot v; rw [h]; rfl

@[simp] theorem moveAlert_results (s : State) (slot : Fin 32) (v : Verdict) :
    (s.moveAlert slot v).results = s.results := by
  obtain ⟨q, h⟩ := moveAlert_eq s slot v; rw [h]; rfl

/-- What one act of a job leaves as it was. -/
theorem JobAct.frame (h : JobAct slot s t) :
    t.timebase = s.timebase ∧ t.channels = s.channels ∧ t.captures = s.captures
      ∧ t.link = s.link ∧ t.pending = s.pending
      ∧ t.notices.inFlight = s.notices.inFlight ∧ t.notices.credits = s.notices.credits
      ∧ t.notices.sequence = s.notices.sequence ∧ t.notices.cause = s.notices.cause
      ∧ t.results.watermark = s.results.watermark := by
  cases h with
  | evaluate v => obtain ⟨q, h⟩ := moveAlert_eq s slot v; rw [h]; exact ⟨rfl, rfl, rfl, rfl, rfl, rfl, rfl, rfl, rfl, rfl⟩
  | _ => exact ⟨rfl, rfl, rfl, rfl, rfl, rfl, rfl, rfl, rfl, rfl⟩

/-- No act of a job touches another slot, or the definition and the limit window of its own. -/
theorem JobAct.jobs (h : JobAct slot s t) :
    (∀ k, k ≠ slot → t.job k = s.job k)
      ∧ (t.job slot).definition = (s.job slot).definition
      ∧ (t.job slot).window = (s.job slot).window := by
  cases h with
  | write j w a d _ => exact ⟨fun k hk => s.job_setJob_ne hk j, by simpa using d, by simpa using w⟩
  | evaluate v =>
    refine ⟨fun k hk => ?_, ?_, ?_⟩
    · rw [moveAlert_job]; simp [hk]
    · rw [moveAlert_job]; simp
    · rw [moveAlert_job]; simp
  | _ => exact ⟨fun _ _ => rfl, rfl, rfl⟩

end

/-! ### All of them -/

section
variable {slot : Fin 32} {s t : State}

/-- What the acts of a job leave as it was. -/
theorem JobActs.frame (h : JobActs slot s t) :
    t.timebase = s.timebase ∧ t.channels = s.channels ∧ t.captures = s.captures
      ∧ t.link = s.link ∧ t.pending = s.pending
      ∧ t.notices.inFlight = s.notices.inFlight ∧ t.notices.credits = s.notices.credits
      ∧ t.notices.sequence = s.notices.sequence ∧ t.notices.cause = s.notices.cause
      ∧ t.results.watermark = s.results.watermark := by
  induction h with
  | refl => exact ⟨rfl, rfl, rfl, rfl, rfl, rfl, rfl, rfl, rfl, rfl⟩
  | tail _ act ih =>
    obtain ⟨a, b, c, d, e, f, g, i, j, k⟩ := act.frame
    obtain ⟨a', b', c', d', e', f', g', i', j', k'⟩ := ih
    exact ⟨a.trans a', b.trans b', c.trans c', d.trans d', e.trans e', f.trans f', g.trans g',
      i.trans i', j.trans j', k.trans k'⟩

theorem JobActs.timebase (h : JobActs slot s t) : t.timebase = s.timebase := h.frame.1
theorem JobActs.channels (h : JobActs slot s t) : t.channels = s.channels := h.frame.2.1
theorem JobActs.captures (h : JobActs slot s t) : t.captures = s.captures := h.frame.2.2.1
theorem JobActs.link (h : JobActs slot s t) : t.link = s.link := h.frame.2.2.2.1
theorem JobActs.pending (h : JobActs slot s t) : t.pending = s.pending := h.frame.2.2.2.2.1
theorem JobActs.inFlight (h : JobActs slot s t) : t.notices.inFlight = s.notices.inFlight :=
  h.frame.2.2.2.2.2.1
theorem JobActs.credits (h : JobActs slot s t) : t.notices.credits = s.notices.credits :=
  h.frame.2.2.2.2.2.2.1
theorem JobActs.watermark (h : JobActs slot s t) : t.results.watermark = s.results.watermark :=
  h.frame.2.2.2.2.2.2.2.2.2
theorem JobActs.now (h : JobActs slot s t) : t.now = s.now := by
  unfold State.now; rw [h.timebase]
theorem JobActs.channel (h : JobActs slot s t) (ch : Fin 8) : t.channel ch = s.channel ch := by
  unfold State.channel; rw [h.channels]

/-- No act of a job touches another slot, or the definition and the limit window of its own. -/
theorem JobActs.jobs (h : JobActs slot s t) :
    (∀ k, k ≠ slot → t.job k = s.job k)
      ∧ (t.job slot).definition = (s.job slot).definition
      ∧ (t.job slot).window = (s.job slot).window := by
  induction h with
  | refl => exact ⟨fun _ _ => rfl, rfl, rfl⟩
  | tail _ act ih =>
    obtain ⟨a, b, c⟩ := act.jobs
    obtain ⟨a', b', c'⟩ := ih
    exact ⟨fun k hk => (a k hk).trans (a' k hk), b.trans b', c.trans c'⟩

theorem JobActs.job_ne (h : JobActs slot s t) {k : Fin 32} (hk : k ≠ slot) : t.job k = s.job k :=
  h.jobs.1 k hk

/-- Every slot keeps its definition. -/
theorem JobActs.definition (h : JobActs slot s t) (k : Fin 32) :
    (t.job k).definition = (s.job k).definition := by
  by_cases e : k = slot
  · subst e; exact h.jobs.2.1
  · rw [h.job_ne e]

/-- Every slot keeps its limit window. -/
theorem JobActs.window (h : JobActs slot s t) (k : Fin 32) :
    (t.job k).window = (s.job k).window := by
  by_cases e : k = slot
  · subst e; exact h.jobs.2.2
  · rw [h.job_ne e]

/-- The result queue gains records at its tail alone (R109). -/
theorem JobActs.records (h : JobActs slot s t) : s.results.records <+: t.results.records := by
  induction h with
  | refl => exact List.prefix_rfl
  | tail _ act ih =>
    refine ih.trans ?_
    cases act with
    | append r _ => exact List.prefix_append _ _
    | evaluate v => simp
    | _ => exact List.prefix_rfl

/-- The result queue never passes its 96 places (R109). -/
theorem JobActs.records_length (h : JobActs slot s t) (hs : s.results.records.length ≤ 96) :
    t.results.records.length ≤ 96 := by
  refine h.keeps (P := fun s => s.results.records.length ≤ 96) ?_ hs
  intro s t act hs
  cases act with
  | append r room => have : s.results.records.length < 96 := room; simp; omega
  | evaluate v => simpa using hs
  | _ => exact hs

/-! ### Saturating counters (section 3.1, R112) -/

/-- A job slot whose counters are in their range, written into a device whose counters are. -/
theorem setJob_counters {j : Job} (hj : j.counters) (h : s.counters) : (s.setJob slot j).counters := by
  obtain ⟨hold, glitch, loss, jobs, rest⟩ := h
  refine ⟨hold, glitch, loss, fun k => ?_, rest⟩
  rw [State.job_setJob]
  split
  · exact hj
  · exact jobs k

/-- A channel whose glitch counter is in its range, written into such a device (R18). -/
theorem setChannel_counters {ch : Fin 8} {c : Channel} (hc : c.glitches ≤ 65535) (h : s.counters) :
    (s.setChannel ch c).counters := by
  obtain ⟨hold, glitch, rest⟩ := h
  refine ⟨hold, fun k => ?_, rest⟩
  rw [State.channel_setChannel]
  split
  · exact hc
  · exact glitch k

/-- A capture queue whose loss counter is in its range, written into such a device (R142). -/
theorem setCapture_counters {ch : Fin 8} {q : CaptureQueue} (hq : q.loss ≤ 65535) (h : s.counters) :
    (s.setCapture ch q).counters := by
  obtain ⟨hold, glitch, loss, rest⟩ := h
  refine ⟨hold, glitch, fun k => ?_, rest⟩
  rw [State.capture_setCapture]
  split
  · exact hq
  · exact loss k

/-- The acts of a job keep every saturating counter in its range. -/
theorem JobActs.counters (h : JobActs slot s t) (hs : s.counters) : t.counters := by
  refine h.keeps ?_ hs
  intro s t act hs
  cases act with
  | write j w a d c => exact setJob_counters (c (hs.2.2.2.1 slot)) hs
  | evaluate v =>
    obtain ⟨q, e⟩ := moveAlert_eq s slot v
    rw [e]
    exact setJob_counters (s := s) (j := { s.job slot with alert := (s.job slot).alert.after v })
      (hs.2.2.2.1 slot) hs
  | refuse n most => exact ⟨hs.1, hs.2.1, hs.2.2.1, hs.2.2.2.1, most, hs.2.2.2.2.2⟩
  | _ => exact hs

/-! ### The notice queue (R163) -/

theorem mergeNotice_mem {source x : Source} {flags : BitVec 8} :
    ∀ {l : List QueuedNotice}, x ∈ (mergeNotice source flags l).map QueuedNotice.source
      ↔ x = source ∨ x ∈ l.map QueuedNotice.source
  | [] => by simp [mergeNotice]
  | n :: rest => by
    unfold mergeNotice
    split
    · rename_i h; simp [h]
    · have := mergeNotice_mem (source := source) (x := x) (flags := flags) (l := rest)
      simp only [List.map_cons, List.mem_cons, this]
      tauto

/-- Raising a flag never makes a second notice of a source. -/
theorem mergeNotice_nodup {source : Source} {flags : BitVec 8} :
    ∀ {l : List QueuedNotice}, (l.map QueuedNotice.source).Nodup →
      ((mergeNotice source flags l).map QueuedNotice.source).Nodup
  | [], _ => by simp [mergeNotice]
  | n :: rest, h => by
    simp only [List.map_cons, List.nodup_cons] at h
    unfold mergeNotice
    split
    · rename_i e; subst e; exact List.nodup_cons.mpr h
    · rename_i e
      simp only [List.map_cons, List.nodup_cons, mergeNotice_mem]
      exact ⟨fun q => q.elim e h.1, mergeNotice_nodup h.2⟩

/-- Raising a flag keeps R163's one notice per source. -/
theorem raise_noticeSources (source : Source) (flags : BitVec 8) (h : s.noticeSources) :
    (s.raise source flags).noticeSources := mergeNotice_nodup h

theorem moveAlert_noticeSources (v : Verdict) (h : s.noticeSources) :
    (s.moveAlert slot v).noticeSources := by
  unfold State.moveAlert
  dsimp only
  split
  · exact raise_noticeSources _ _ h
  · exact raise_noticeSources _ _ h
  · exact h
  · exact h

/-- The acts of a job keep R163's one notice per source. -/
theorem JobActs.noticeSources (h : JobActs slot s t) (hs : s.noticeSources) : t.noticeSources := by
  refine h.keeps ?_ hs
  intro s t act hs
  cases act with
  | flag source flags => exact raise_noticeSources _ _ hs
  | evaluate v => exact moveAlert_noticeSources v hs
  | _ => exact hs

/-! ### ALERT (R130) -/

theorem drivesAlert_congr {j k : Job} (w : j.window = k.window) (a : j.alert = k.alert) :
    j.drivesAlert = k.drivesAlert := by
  unfold Job.drivesAlert; rw [w, a]

/-- A bank of jobs drives the pin as long as each of its jobs drives it as before. -/
theorem anyIn_drives_congr {js ks : Vector Job 32}
    (h : ∀ k, (js.get k).drivesAlert = (ks.get k).drivesAlert) :
    anyIn Job.drivesAlert js = anyIn Job.drivesAlert ks := by
  rw [Bool.eq_iff_iff, anyIn_eq_true, anyIn_eq_true]
  exact ⟨fun ⟨k, q⟩ => ⟨k, h k ▸ q⟩, fun ⟨k, q⟩ => ⟨k, (h k).symm ▸ q⟩⟩

/-- R130 as an equation: the pin is what its evaluation gives. -/
theorem alertLaw_iff : s.alertLaw ↔ s.alert = anyIn Job.drivesAlert s.jobs := by
  have h : (∃ slot w, (s.job slot).window = some w ∧ w.drive = true
      ∧ (s.job slot).alert = .outside) ↔ anyIn Job.drivesAlert s.jobs = true := by
    rw [anyIn_eq_true]
    refine exists_congr fun k => ?_
    show _ ↔ (s.job k).drivesAlert = true
    unfold Job.drivesAlert
    cases (s.job k).window <;> simp
  exact (iff_congr Iff.rfl h).trans Bool.eq_iff_iff.symm

theorem evaluateAlert_alertLaw (s : State) : s.evaluateAlert.alertLaw := alertLaw_iff.mpr rfl

/-- A slot written with its limit fields as they are keeps the pin's law. -/
theorem setJob_alertLaw {j : Job} (w : j.window = (s.job slot).window)
    (a : j.alert = (s.job slot).alert) (h : s.alertLaw) : (s.setJob slot j).alertLaw := by
  rw [alertLaw_iff] at h ⊢
  rw [State.setJob_alert, h]
  refine anyIn_drives_congr fun k => ?_
  show (s.job k).drivesAlert = ((s.setJob slot j).job k).drivesAlert
  rw [State.job_setJob]
  split
  · rename_i e; subst e; exact drivesAlert_congr w.symm a.symm
  · rfl

theorem moveAlert_alertLaw (s : State) (slot : Fin 32) (v : Verdict) :
    (s.moveAlert slot v).alertLaw := by
  obtain ⟨q, h⟩ := moveAlert_eq s slot v
  rw [h]
  exact evaluateAlert_alertLaw (s.setJob slot _)

/-- The acts of a job keep R130. -/
theorem JobActs.alertLaw (h : JobActs slot s t) (hs : s.alertLaw) : t.alertLaw := by
  refine h.keeps ?_ hs
  intro s t act hs
  cases act with
  | write j w a d _ => exact setJob_alertLaw w a hs
  | evaluate v => exact moveAlert_alertLaw s slot v
  | _ => exact hs

/-! ### The deadline list (R96, R97) -/

theorem insertEntry_pairwise {now : Tick} {e : Entry} :
    ∀ {l : List Entry}, l.Pairwise (fun a b => distance now a.due ≤ distance now b.due) →
      (insertEntry now e l).Pairwise (fun a b => distance now a.due ≤ distance now b.due)
  | [], _ => by simp [insertEntry]
  | x :: rest, h => by
    have mem : ∀ {l : List Entry} {y : Entry}, y ∈ insertEntry now e l → y = e ∨ y ∈ l := by
      intro l
      induction l with
      | nil => intro y hy; simpa [insertEntry] using hy
      | cons z l ih =>
        intro y hy
        unfold insertEntry at hy
        split at hy
        · rcases List.mem_cons.mp hy with rfl | hy
          · simp
          · rcases ih hy with rfl | hy
            · simp
            · simp [hy]
        · simpa using hy
    rw [List.pairwise_cons] at h
    unfold insertEntry
    split
    · rename_i le
      rw [List.pairwise_cons]
      refine ⟨fun y hy => ?_, insertEntry_pairwise h.2⟩
      rcases mem hy with rfl | hy
      · exact le
      · exact h.1 y hy
    · rename_i lt
      rw [List.pairwise_cons]
      refine ⟨fun y hy => ?_, List.pairwise_cons.mpr h⟩
      rcases List.mem_cons.mp hy with rfl | hy
      · omega
      · have := h.1 y hy; omega

/-- The acts of a job keep the list's order (R96). -/
theorem JobActs.deadlineOrder (h : JobActs slot s t) (hs : s.deadlineOrder) : t.deadlineOrder := by
  refine h.keeps ?_ hs
  intro s t act hs
  cases act with
  | drop => exact List.Pairwise.filter _ hs
  | insert due purpose => exact insertEntry_pairwise hs
  | evaluate v =>
    obtain ⟨q, h⟩ := moveAlert_eq s slot v
    rw [h]; exact hs
  | _ => exact hs

/-- Inserting an entry of a slot gives the slot that entry behind its own, and no other slot
anything. -/
theorem insertEntry_filter (now : Tick) (e : Entry) (k : Fin 32) :
    ∀ l : List Entry, (∀ x ∈ l, x.slot ≠ e.slot) →
      (insertEntry now e l).filter (fun x => x.slot == k)
        = if e.slot = k then [e] else l.filter (fun x => x.slot == k)
  | [], _ => by by_cases h : e.slot = k <;> simp [insertEntry, h]
  | x :: rest, h => by
    have hx : x.slot ≠ e.slot := h x (by simp)
    have hr : ∀ y ∈ rest, y.slot ≠ e.slot := fun y hy => h y (by simp [hy])
    have ih := insertEntry_filter now e k rest hr
    have none_of : e.slot = k → rest.filter (fun y => y.slot == k) = [] := by
      rintro rfl
      exact List.filter_eq_nil_iff.mpr fun y hy => by simpa using hr y hy
    by_cases hk : e.slot = k
    · have hxk : x.slot ≠ k := hk ▸ hx
      unfold insertEntry
      split <;> simp [hk, hxk, ih, none_of hk]
    · unfold insertEntry
      split <;> simp [hk, ih, List.filter_cons]

end

end Sys2Proof.Machine
end

