-- ==== Sys2Proof/Laws/Deadlines.lean ====
section
/-! SUPPORT. The laws of R94 and R95 for one slot: what opening, holding, completing and leaving do to
the slot's next boundary, to its entry and to the reservation count. -/

namespace Sys2Proof.Machine

/-! ### The slot's law and the count's law -/

/-- R95 for one slot. -/
def State.slotLaw (s : State) (slot : Fin 32) : Prop :=
  (s.job slot).boundaryLaw
    ∧ s.deadlines.entries.filter (fun e => e.slot == slot) = (s.job slot).expectedEntries slot

/-- R94's equation. -/
def State.countLaw (s : State) : Prop := s.deadlines.reservations = s.runningJobs

/-- The job in `slot` runs with definition `d`, and the count is right. -/
structure Runs (slot : Fin 32) (d : Definition) (s : State) : Prop where
  running : (s.job slot).state.running = true
  definition : (s.job slot).definition = some d
  count : s.countLaw

theorem runningJobs_setJob (s : State) (slot : Fin 32) (j : Job) :
    (s.setJob slot j).runningJobs + (if (s.job slot).state.running then 1 else 0)
      = s.runningJobs + (if j.state.running then 1 else 0) :=
  countIn_set (fun (k : Job) => k.state.running) s.jobs slot j

theorem runningJobs_of_jobs {s t : State} (h : t.jobs = s.jobs) : t.runningJobs = s.runningJobs := by
  unfold State.runningJobs; rw [h]

theorem runningJobs_setJob_same (s : State) (slot : Fin 32) (j : Job)
    (h : j.state.running = (s.job slot).state.running) :
    (s.setJob slot j).runningJobs = s.runningJobs := by
  have := runningJobs_setJob s slot j
  rw [h] at this
  omega

/-! ### Setting and clearing the boundary -/

theorem setBoundary_job (s : State) (slot k : Fin 32) (b : Boundary) :
    (s.setBoundary slot b).job k = if k = slot then { s.job slot with next := some b } else s.job k := by
  show (s.setJob slot _).job k = _
  rw [State.job_setJob]

@[simp] theorem setBoundary_reservations (s : State) (slot : Fin 32) (b : Boundary) :
    (s.setBoundary slot b).deadlines.reservations = s.deadlines.reservations := rfl

theorem clearBoundary_job (s : State) (slot k : Fin 32) :
    (s.clearBoundary slot).job k = if k = slot then { s.job slot with next := none } else s.job k := by
  show (s.setJob slot _).job k = _
  rw [State.job_setJob]

@[simp] theorem clearBoundary_reservations (s : State) (slot : Fin 32) :
    (s.clearBoundary slot).deadlines.reservations = s.deadlines.reservations := rfl

theorem removeEntry_slot {slot : Fin 32} {l : List Entry} :
    ∀ x ∈ removeEntry slot l, x.slot ≠ slot := by
  intro x hx
  simpa [removeEntry] using (List.mem_filter.mp hx).2

theorem removeEntry_filter_self (slot : Fin 32) (l : List Entry) :
    (removeEntry slot l).filter (fun e => e.slot == slot) = [] :=
  List.filter_eq_nil_iff.mpr fun x hx => by simpa using removeEntry_slot x hx

/-- Setting the next boundary gives the slot exactly the entry R95 asks for. -/
theorem setBoundary_entries (s : State) (slot : Fin 32) (b : Boundary) :
    (s.setBoundary slot b).deadlines.entries.filter (fun e => e.slot == slot)
      = ((s.setBoundary slot b).job slot).expectedEntries slot := by
  show (insertEntry _ _ (removeEntry slot s.deadlines.entries)).filter _ = _
  rw [insertEntry_filter _ _ _ _ removeEntry_slot, setBoundary_job]
  simp [Job.expectedEntries]
  rfl

theorem clearBoundary_entries (s : State) (slot : Fin 32) :
    (s.clearBoundary slot).deadlines.entries.filter (fun e => e.slot == slot)
      = ((s.clearBoundary slot).job slot).expectedEntries slot := by
  rw [clearBoundary_job, if_pos rfl]
  exact removeEntry_filter_self slot _

theorem setBoundary_running (s : State) (slot : Fin 32) (b : Boundary) :
    (s.setBoundary slot b).runningJobs = s.runningJobs :=
  runningJobs_setJob_same s slot { s.job slot with next := some b } rfl

theorem clearBoundary_running (s : State) (slot : Fin 32) :
    (s.clearBoundary slot).runningJobs = s.runningJobs :=
  runningJobs_setJob_same s slot { s.job slot with next := none } rfl

/-! ### Opening, holding, leaving -/

variable {slot : Fin 32} {d : Definition} {s : State}

/-- A slot written with another running state still runs. -/
theorem Runs.setJob (h : Runs slot d s) {j : Job} (r : j.state.running = true)
    (e : j.definition = some d) : Runs slot d (s.setJob slot j) where
  running := by simpa using r
  definition := by simpa using e
  count := by
    have := h.count
    unfold State.countLaw at *
    rw [runningJobs_setJob_same s slot j (r.trans h.running.symm)]
    exact this

theorem Runs.setBoundary (h : Runs slot d s) (b : Boundary) : Runs slot d (s.setBoundary slot b) where
  running := by rw [setBoundary_job]; simpa using h.running
  definition := by rw [setBoundary_job]; simpa using h.definition
  count := by
    have := h.count
    unfold State.countLaw at *
    rw [setBoundary_running]; exact this

theorem Runs.clearBoundary (h : Runs slot d s) : Runs slot d (s.clearBoundary slot) where
  running := by rw [clearBoundary_job]; simpa using h.running
  definition := by rw [clearBoundary_job]; simpa using h.definition
  count := by
    have := h.count
    unfold State.countLaw at *
    rw [clearBoundary_running]; exact this

theorem Runs.dropEntry (h : Runs slot d s) : Runs slot d (s.dropEntry slot) := ⟨h.1, h.2, h.3⟩

theorem Runs.raise (h : Runs slot d s) (source : Source) (flags : BitVec 8) :
    Runs slot d (s.raise source flags) := ⟨h.1, h.2, h.3⟩

/-- Opening a measurement leaves the slot ACTIVE, with the boundary of its kind. -/
theorem Runs.openMeasurement (h : Runs slot d s) (t : Tick) :
    Runs slot d (s.openMeasurement slot d t) ∧ (s.openMeasurement slot d t).slotLaw slot := by
  have h1 : Runs slot d (s.setJob slot { s.job slot with
      state := .active, subMode := none, armingTick := none, openTick := some t,
      acc := .cleared }) := h.setJob rfl h.definition
  have hs : ∀ b, d.firstBoundary t = some b →
      s.openMeasurement slot d t = (s.setJob slot { s.job slot with
        state := .active, subMode := none, armingTick := none, openTick := some t,
        acc := .cleared }).setBoundary slot b := by
    intro b hb; unfold State.openMeasurement; rw [hb]; rfl
  have hn : d.firstBoundary t = none →
      s.openMeasurement slot d t = (s.setJob slot { s.job slot with
        state := .active, subMode := none, armingTick := none, openTick := some t,
        acc := .cleared }).clearBoundary slot := by
    intro hb; unfold State.openMeasurement; rw [hb]; rfl
  have hd := h.definition
  cases e : d.firstBoundary t with
  | some b =>
    rw [hs b e]
    refine ⟨h1.setBoundary b, ?_, setBoundary_entries _ _ _⟩
    rw [setBoundary_job]
    unfold Definition.firstBoundary at e
    unfold Job.boundaryLaw Job.activeBoundary Job.nextIs
    simp only [State.job_setJob_self, if_true, hd]
    cases k : d.kind <;> simp only [k] at e ⊢
    · exact ⟨_, e.symm⟩
    · exact ⟨_, e.symm⟩
    · exact ⟨_, e.symm⟩
    · exact ⟨_, e.symm⟩
    · exact ⟨_, e.symm⟩
    · split at e
      · rename_i r; simp only [r, if_true]; exact ⟨_, e.symm⟩
      · exact absurd e (by simp)
  | none =>
    rw [hn e]
    refine ⟨h1.clearBoundary, ?_, clearBoundary_entries _ _⟩
    rw [clearBoundary_job]
    unfold Definition.firstBoundary at e
    unfold Job.boundaryLaw Job.activeBoundary
    simp only [State.job_setJob_self, if_true, hd]
    cases k : d.kind <;> simp only [k] at e ⊢ <;> try exact absurd e (Option.some_ne_none _)
    by_cases r : d.report > 0
    · rw [if_pos r] at e; exact absurd e (Option.some_ne_none _)
    · rw [if_neg r]; trivial

/-- Writing the accumulators, or the held edges, keeps the slot's law. -/
theorem slotLaw_setJob {j : Job} (h : s.slotLaw slot) (st : j.state = (s.job slot).state)
    (sm : j.subMode = (s.job slot).subMode) (df : j.definition = (s.job slot).definition)
    (nx : j.next = (s.job slot).next) (se : j.settle = (s.job slot).settle) :
    (s.setJob slot j).slotLaw slot := by
  obtain ⟨a, b⟩ := h
  unfold State.slotLaw
  rw [State.job_setJob_self]
  refine ⟨?_, ?_⟩
  · unfold Job.boundaryLaw Job.activeBoundary Job.nextIs at *
    rw [st, sm, df, nx]; exact a
  · rw [State.setJob_deadlines, b]
    unfold Job.expectedEntries Job.settleTicks
    rw [nx, se]

/-- Entering HOLD leaves the slot with its START (R55). -/
theorem Runs.enterHold (h : Runs slot d s) (p : d.repeating = .periodic) (t : Tick) :
    Runs slot d (s.enterHold slot t) ∧ (s.enterHold slot t).slotLaw slot := by
  have h1 : Runs slot d (s.setJob slot { s.job slot with state := .hold }) :=
    h.setJob rfl h.definition
  refine ⟨h1.setBoundary _, ?_, setBoundary_entries _ _ _⟩
  show ((State.setBoundary _ slot ⟨.start, t⟩).job slot).boundaryLaw
  rw [setBoundary_job]
  unfold Job.boundaryLaw Job.nextIs
  simp only [State.job_setJob_self, if_true, h.definition]
  exact ⟨p, _, rfl⟩

/-- A job that leaves the running states gives its entry and its reservation back (R93). -/
theorem Runs.leaveRunning (h : Runs slot d s) {state : JobState}
    (st : state = .done ∨ state = .idle) :
    (s.leaveRunning slot state).countLaw ∧ (s.leaveRunning slot state).slotLaw slot := by
  obtain ⟨j, e, js, jn⟩ : ∃ j, s.leaveRunning slot state
      = ((s.clearBoundary slot).setJob slot j).releaseReservation ∧ j.state = state
        ∧ j.next = none := by
    refine ⟨_, rfl, rfl, ?_⟩
    show ((s.clearBoundary slot).job slot).next = none
    rw [clearBoundary_job, if_pos rfl]
  have hr := runningJobs_setJob (s.clearBoundary slot) slot j
  have run : ((s.clearBoundary slot).job slot).state.running = true := (h.clearBoundary).running
  have off : state.running = false := by rcases st with rfl | rfl <;> rfl
  have c := h.count
  unfold State.countLaw at c
  rw [e]
  refine ⟨?_, ?_, ?_⟩
  · show s.deadlines.reservations - 1 = ((s.clearBoundary slot).setJob slot j).runningJobs
    rw [run, clearBoundary_running, js, off] at hr
    simp at hr
    omega
  · show (((s.clearBoundary slot).setJob slot j).job slot).boundaryLaw
    rw [State.job_setJob_self]
    unfold Job.boundaryLaw
    rw [js]
    rcases st with rfl | rfl <;> exact jn
  · show (s.clearBoundary slot).deadlines.entries.filter _
      = (((s.clearBoundary slot).setJob slot j).job slot).expectedEntries slot
    rw [State.job_setJob_self, Job.expectedEntries, jn]
    exact removeEntry_filter_self slot _

/-! ### Records -/

/-- What forming and handing on a record keeps of a slot: everything the boundary and the measurement
depend on. -/
structure SameRun (j k : Job) : Prop where
  state : k.state = j.state
  subMode : k.subMode = j.subMode
  armingTick : k.armingTick = j.armingTick
  definition : k.definition = j.definition
  settle : k.settle = j.settle
  startBase : k.startBase = j.startBase
  openTick : k.openTick = j.openTick
  next : k.next = j.next
  acc : k.acc = j.acc
  held : k.held = j.held
  missedTotal : k.missedTotal = j.missedTotal

theorem SameRun.refl (j : Job) : SameRun j j := ⟨rfl, rfl, rfl, rfl, rfl, rfl, rfl, rfl, rfl, rfl, rfl⟩

theorem SameRun.trans {i j k : Job} (h : SameRun i j) (h' : SameRun j k) : SameRun i k :=
  ⟨h'.1.trans h.1, h'.2.trans h.2, h'.3.trans h.3, h'.4.trans h.4, h'.5.trans h.5, h'.6.trans h.6,
    h'.7.trans h.7, h'.8.trans h.8, h'.9.trans h.9, h'.10.trans h.10, h'.11.trans h.11⟩

theorem offerRecord_run (s : State) (slot : Fin 32) (r : Record) :
    (s.offerRecord slot r).deadlines = s.deadlines
      ∧ SameRun (s.job slot) ((s.offerRecord slot r).job slot) := by
  have key : ∀ j, ((s.setJob slot j).job slot) = j := fun j => State.job_setJob_self s slot j
  unfold State.offerRecord
  dsimp only
  split
  · split
    · exact ⟨rfl, by rw [State.raiseResults_eq, State.job_raise]; show SameRun _ ((s.setJob slot _).job slot); rw [key]; exact ⟨rfl, rfl, rfl, rfl, rfl, rfl, rfl, rfl, rfl, rfl, rfl⟩⟩
    · exact ⟨rfl, by show SameRun _ ((s.setJob slot _).job slot); rw [key]; exact ⟨rfl, rfl, rfl, rfl, rfl, rfl, rfl, rfl, rfl, rfl, rfl⟩⟩
  · exact ⟨rfl, by rw [State.raiseResults_eq, State.job_raise]; show SameRun _ ((s.setJob slot _).job slot); rw [key]; exact ⟨rfl, rfl, rfl, rfl, rfl, rfl, rfl, rfl, rfl, rfl, rfl⟩⟩

theorem handOn_run (s : State) (slot : Fin 32) (r : Record) (queue : Bool) :
    (s.handOn slot r queue).deadlines = s.deadlines
      ∧ SameRun (s.job slot) ((s.handOn slot r queue).job slot) := by
  have h1 : ∀ v, SameRun (s.job slot) ((s.moveAlert slot v).job slot) := by
    intro v; rw [moveAlert_job]; simp only [if_true]
    exact ⟨rfl, rfl, rfl, rfl, rfl, rfl, rfl, rfl, rfl, rfl, rfl⟩
  unfold State.handOn
  dsimp only
  split
  · obtain ⟨a, b⟩ := offerRecord_run (s.moveAlert slot (verdict (s.job slot).window r.status r.value))
      slot { r with limitOut := verdict (s.job slot).window r.status r.value == .outside }
    exact ⟨by rw [a, moveAlert_deadlines], (h1 _).trans b⟩
  · refine ⟨by rw [State.setJob_deadlines, moveAlert_deadlines], ?_⟩
    rw [State.job_setJob_self]
    exact (h1 _).trans ⟨rfl, rfl, rfl, rfl, rfl, rfl, rfl, rfl, rfl, rfl, rfl⟩

/-- Forming and handing on a record keeps what the boundary and the measurement depend on, and the
deadline list. -/
theorem produce_run (s : State) (slot : Fin 32) (d : Definition) (status : RecordStatus)
    (endTick : Tick) :
    (s.produce slot d status endTick).deadlines = s.deadlines
      ∧ SameRun (s.job slot) ((s.produce slot d status endTick).job slot) := by
  unfold State.produce
  dsimp only
  obtain ⟨a, b⟩ := handOn_run
    ((s.setJob slot { s.job slot with
      sequence := (s.formRecord slot d status endTick).sequence, pendingMissed := 0 }).raiseStatus
        slot status) slot (s.formRecord slot d status endTick) d.queueResults
  have e : ∀ u : State, (u.raiseStatus slot status).deadlines = u.deadlines
      ∧ (u.raiseStatus slot status).job slot = u.job slot := by
    intro u; cases status <;> exact ⟨rfl, rfl⟩
  refine ⟨a.trans ((e _).1.trans rfl), ?_⟩
  rw [(e _).2, State.job_setJob_self] at b
  refine SameRun.trans ?_ b
  exact ⟨rfl, rfl, rfl, rfl, rfl, rfl, rfl, rfl, rfl, rfl, rfl⟩

theorem runningJobs_of_acts {t : State} (h : JobActs slot s t)
    (r : (t.job slot).state.running = (s.job slot).state.running) :
    t.runningJobs = s.runningJobs := by
  have e : t.jobs = (s.setJob slot (t.job slot)).jobs := by
    refine get_ext fun k => ?_
    show t.job k = (s.setJob slot (t.job slot)).job k
    rw [State.job_setJob]
    split
    · rename_i q; rw [q]
    · rename_i q; exact h.job_ne q
  rw [runningJobs_of_jobs e, runningJobs_setJob_same s slot _ r]

theorem Runs.produce (h : Runs slot d s) (status : RecordStatus) (endTick : Tick) :
    Runs slot d (s.produce slot d status endTick) := by
  obtain ⟨a, b⟩ := produce_run s slot d status endTick
  refine ⟨by rw [b.state]; exact h.running, by rw [b.definition]; exact h.definition, ?_⟩
  unfold State.countLaw
  rw [a, runningJobs_of_acts (produce_acts slot s d status endTick) (by rw [b.state])]
  exact h.count

theorem Runs.countMissed (h : Runs slot d s) (n : Nat) : Runs slot d (s.countMissed slot n) := by
  unfold State.countMissed
  split
  · exact (h.setJob (j := { s.job slot with
      missedTotal := saturate (s.job slot).missedTotal n
      pendingMissed := saturate (s.job slot).pendingMissed n }) h.running h.definition).raise _ _
  · exact h

/-! ### Completing, taking a boundary, seeing an edge -/

/-- The slot's law and the count's law: what a whole act of the job must restore. -/
structure Lawful (slot : Fin 32) (s : State) : Prop where
  slot : s.slotLaw slot
  count : s.countLaw

theorem Runs.lawful (h : Runs slot d s) (l : s.slotLaw slot) : Lawful slot s := ⟨l, h.count⟩

theorem Runs.actRepeat (h : Runs slot d s) (status : RecordStatus) (endTick : Tick)
    (edge : Option Tick) : Lawful slot (s.actRepeat slot d status endTick edge).state := by
  have op : ∀ t, Lawful slot (s.openMeasurement slot d t) := fun t =>
    (h.openMeasurement t).1.lawful (h.openMeasurement t).2
  unfold State.actRepeat
  split
  · obtain ⟨a, b⟩ := h.leaveRunning (state := .done) (.inl rfl)
    exact ⟨b, a⟩
  · split
    · exact op _
    · split
      · obtain ⟨a, b⟩ := h.openMeasurement (d := d) ‹Tick›
        refine ⟨slotLaw_setJob b rfl rfl rfl rfl rfl, ?_⟩
        refine (a.setJob ?_ ?_).count
        · exact a.running
        · exact a.definition
      · exact op _
    · exact op _
  · rename_i p
    dsimp only
    split
    · have := (h.countMissed (gridSteps ((s.job slot).opened endTick) endTick d.period - 1)).openMeasurement
      exact (this _).1.lawful (this _).2
    · have := (h.countMissed (gridSteps ((s.job slot).opened endTick) endTick d.period - 1)).enterHold p
      exact (this _).1.lawful (this _).2

theorem Runs.complete (h : Runs slot d s) (status : RecordStatus) (endTick : Tick)
    (edge : Option Tick) : Lawful slot (s.complete slot d status endTick edge).state :=
  ((h.produce status endTick).dropEntry).actRepeat status endTick edge

theorem Runs.setAcc (h : Runs slot d s) (a : Accumulators) : Runs slot d (s.setAcc slot a) :=
  h.setJob (j := { s.job slot with acc := a }) h.running h.definition

theorem Lawful.setAcc (h : Lawful slot s) (a : Accumulators) : Lawful slot (s.setAcc slot a) := by
  refine ⟨slotLaw_setJob h.slot rfl rfl rfl rfl rfl, ?_⟩
  have := h.count
  unfold State.countLaw at *
  show s.deadlines.reservations = State.runningJobs (s.setJob slot _)
  rw [runningJobs_setJob_same s slot { s.job slot with acc := a } rfl]
  exact this

/-- A job ACTIVE with a kind that stalls may move its STALL boundary. -/
theorem Runs.progress (h : Runs slot d s) (act : (s.job slot).state = .active)
    (k : d.kind.stalls = true) (a : Accumulators) (t : Tick) :
    Lawful slot (s.progress slot d a t) := by
  refine ((h.setAcc a).setBoundary _).lawful ⟨?_, setBoundary_entries _ _ _⟩
  show ((State.setBoundary _ slot _).job slot).boundaryLaw
  rw [setBoundary_job]
  have hd := h.definition
  unfold Job.boundaryLaw Job.activeBoundary Job.nextIs
  simp only [if_true, State.job_setAcc_self, act, hd]
  cases e : d.kind <;> simp_all [Kind.stalls]

theorem Runs.progressOrComplete (h : Runs slot d s) (act : (s.job slot).state = .active)
    (k : d.kind.stalls = true) (a : Accumulators) (t : Tick) (c : Bool) :
    Lawful slot (s.progressOrComplete slot d a t c).state := by
  unfold State.progressOrComplete
  split
  · exact (h.setAcc a).complete _ _ _
  · exact h.progress act k a t

theorem Runs.kindStep (h : Runs slot d s) (act : (s.job slot).state = .active)
    (l : s.slotLaw slot) (e : AcceptedEdge) : Lawful slot (s.kindStep slot d e).state := by
  have self : Lawful slot s := h.lawful l
  unfold State.kindStep
  dsimp only
  split <;> rename_i k
  · exact self.setAcc _
  · split
    · exact h.progress act (by rw [k]; rfl) _ _
    · exact h.progressOrComplete act (by rw [k]; rfl) _ _ _
  · split
    · exact h.progress act (by rw [k]; rfl) _ _
    · exact h.progressOrComplete act (by rw [k]; rfl) _ _ _
  · split
    · exact self.setAcc _
    · split
      · exact self
      · exact h.progressOrComplete act (by rw [k]; rfl) _ _ _
  · split
    · exact self.setAcc _
    · split
      · exact self
      · exact h.progressOrComplete act (by rw [k]; rfl) _ _ _
  · unfold State.tallyEdge
    dsimp only
    split
    · exact (h.setAcc _).complete _ _ _
    · exact self.setAcc _

theorem Runs.processEdge (h : Runs slot d s) (act : (s.job slot).state = .active)
    (l : s.slotLaw slot) (e : AcceptedEdge) : Lawful slot (s.processEdge slot d e).state := by
  unfold State.processEdge
  dsimp only
  split
  · exact h.lawful l
  · split
    · exact h.complete _ _ _
    · exact h.kindStep act l e

theorem openMeasurement_state (s : State) (slot : Fin 32) (d : Definition) (t : Tick) :
    ((s.openMeasurement slot d t).job slot).state = .active := by
  unfold State.openMeasurement State.changeBoundary
  split
  · rw [setBoundary_job]; simp
  · rw [clearBoundary_job]; simp

theorem Lawful.actOnEdge (h : Lawful slot s) (df : (s.job slot).definition = some d)
    (e : AcceptedEdge) : Lawful slot (s.actOnEdge slot d e).state := by
  unfold State.actOnEdge
  dsimp only
  split <;> rename_i st
  · split
    · have r : Runs slot d s := ⟨by rw [st]; rfl, df, h.count⟩
      have r1 := r.setJob (j := { s.job slot with
        startBase := if d.repeating = .periodic then some e.timestamp else (s.job slot).startBase })
        r.running df
      obtain ⟨a, b⟩ := r1.openMeasurement e.timestamp
      exact a.processEdge (openMeasurement_state _ _ _ _) b e
    · exact h
  · split
    · exact (Runs.mk (by rw [st]; rfl) df h.count : Runs slot d s).processEdge st h.slot e
    · exact h
  all_goals exact h

/-- A job that has a next boundary runs, with a definition. -/
theorem runs_of_next (h : Lawful slot s) {b : Boundary} (n : (s.job slot).next = some b) :
    ∃ d, Runs slot d s := by
  have l := h.slot.1
  unfold Job.boundaryLaw at l
  have no : (s.job slot).next ≠ none := by rw [n]; exact Option.some_ne_none _
  have run : ∀ st d, (s.job slot).state = st → st.running = true →
      (s.job slot).definition = some d → ∃ d, Runs slot d s :=
    fun st d e r df => ⟨d, e ▸ r, df, h.count⟩
  split at l
  · exact absurd l no
  · exact absurd l no
  · exact absurd l no
  · exact run _ _ ‹_› rfl ‹_›
  · exact run _ _ ‹_› rfl ‹_›
  · exact run _ _ ‹_› rfl ‹_›
  all_goals exact l.elim

/-- A boundary that is taken is the job's own, and its action restores the law. -/
theorem Lawful.takeBoundary {t : State} (h : Lawful slot s) {b : Boundary}
    (n : (s.job slot).next = some b) (j : t.jobs = s.jobs)
    (r : t.deadlines.reservations = s.deadlines.reservations) :
    Lawful slot (t.takeBoundary slot b) := by
  obtain ⟨d, runs⟩ := runs_of_next h n
  have jt : t.job slot = s.job slot := by unfold State.job; rw [j]
  have rt : Runs slot d (t.dropEntry slot) := by
    refine ⟨?_, ?_, ?_⟩
    · show (t.job slot).state.running = true; rw [jt]; exact runs.running
    · show (t.job slot).definition = some d; rw [jt]; exact runs.definition
    · have := runs.count
      unfold State.countLaw at *
      show t.deadlines.reservations = State.runningJobs (t.dropEntry slot)
      rw [r, this, runningJobs_of_jobs (s := s) (t := t.dropEntry slot) j]
  have df : (t.job slot).definition = some d := by rw [jt]; exact runs.definition
  unfold State.takeBoundary
  rw [df]
  dsimp only
  split
  · exact (rt.openMeasurement _).1.lawful (rt.openMeasurement _).2
  · exact rt.complete _ _ _
  · exact rt.complete _ _ _
  · rename_i p
    have law := h.slot.1
    have nb : (s.job slot).next = some ⟨.report, b.tick⟩ := by rw [n]; cases b; simp_all
    have act : (s.job slot).state = .active ∧ d.kind = .tally ∧ d.report > 0 := by
      have dd := runs.definition
      unfold Job.boundaryLaw at law
      rw [dd] at law
      cases st : (s.job slot).state <;> rw [st] at law <;>
        simp only [Job.activeBoundary, Job.nextIs, nb] at law
      all_goals try simp at law
      cases k : d.kind <;> rw [k] at law <;> simp at law
      refine ⟨rfl, rfl, ?_⟩
      by_contra q
      have : d.report = 0 := by omega
      simp [this] at law
    have p1 := rt.produce .interim b.tick
    obtain ⟨_, same⟩ := produce_run (t.dropEntry slot) slot d .interim b.tick
    have st : (((t.dropEntry slot).produce slot d .interim b.tick).job slot).state = .active := by
      rw [same.state]; show (t.job slot).state = _; rw [jt]; exact act.1
    have p2 := p1.setJob (j := { ((t.dropEntry slot).produce slot d .interim b.tick).job slot with
      acc := { (((t.dropEntry slot).produce slot d .interim b.tick).job slot).acc with count := 0 } })
      p1.running p1.definition
    refine (p2.setBoundary ⟨.report, tickAfter b.tick d.report⟩).lawful ⟨?_, setBoundary_entries _ _ _⟩
    rw [setBoundary_job]
    unfold Job.boundaryLaw Job.activeBoundary Job.nextIs
    simp only [if_true, State.job_setJob_self, st, p1.definition, act.2.1, act.2.2]
    exact ⟨_, rfl⟩

/-- Seeing an edge, boundaries first (R49), restores the law. -/
theorem Lawful.seeEdge (fuel : Nat) (h : Lawful slot s) (e : AcceptedEdge) :
    Lawful slot (seeEdge fuel s slot e) := by
  induction fuel generalizing s with
  | zero => exact h
  | succ fuel ih =>
    unfold Machine.seeEdge
    dsimp only
    split
    · exact h
    · rename_i df
      split
      · rename_i n
        split
        · exact ih (h.takeBoundary n rfl rfl)
        · split
          · exact ih (h.actOnEdge df e)
          · exact h.actOnEdge df e
      · split
        · exact ih (h.actOnEdge df e)
        · exact h.actOnEdge df e

/-- EDGE_SEEN restores the law. -/
theorem Lawful.see (h : Lawful slot s) : Lawful slot (s.see slot) := by
  unfold State.see
  dsimp only
  split
  · exact h
  · refine Lawful.seeEdge _ ⟨slotLaw_setJob h.slot ?_ ?_ ?_ ?_ ?_, ?_⟩ _
    · rfl
    · rfl
    · rfl
    · rfl
    · rfl
    · have := h.count
      unfold State.countLaw at *
      rw [runningJobs_setJob_same s slot]
      · exact this
      · rfl

/-! ### The other slots, and the whole law -/

theorem insertEntry_filter_ne (now : Tick) (e : Entry) {k : Fin 32} (h : e.slot ≠ k) :
    ∀ l : List Entry, (insertEntry now e l).filter (fun x => x.slot == k)
      = l.filter (fun x => x.slot == k)
  | [] => by simp [insertEntry, h]
  | x :: rest => by
    have ih := insertEntry_filter_ne now e h rest
    unfold insertEntry
    split <;> simp [List.filter_cons, ih, h]

theorem removeEntry_filter_ne {slot k : Fin 32} (h : k ≠ slot) (l : List Entry) :
    (removeEntry slot l).filter (fun x => x.slot == k) = l.filter (fun x => x.slot == k) := by
  unfold removeEntry
  rw [List.filter_filter]
  congr 1
  funext x
  by_cases q : x.slot = k
  · simp [q, h]
  · simp [q]

/-- No act of a job touches the entry of another slot. -/
theorem JobActs.entries_ne {t : State} (h : JobActs slot s t) {k : Fin 32} (hk : k ≠ slot) :
    t.deadlines.entries.filter (fun x => x.slot == k)
      = s.deadlines.entries.filter (fun x => x.slot == k) := by
  induction h with
  | refl => rfl
  | tail _ act ih =>
    rw [← ih]
    cases act with
    | drop => exact removeEntry_filter_ne hk _
    | insert due purpose => exact insertEntry_filter_ne _ _ (Ne.symm hk) _
    | evaluate v => rw [moveAlert_deadlines]
    | _ => rfl

theorem JobActs.slotLaw_ne {t : State} (h : JobActs slot s t) {k : Fin 32} (hk : k ≠ slot)
    (l : s.slotLaw k) : t.slotLaw k := by
  unfold State.slotLaw at *
  rw [h.job_ne hk, h.entries_ne hk]
  exact l

/-- The acts of a job never add a reservation. -/
theorem JobActs.reservations_le {t : State} (h : JobActs slot s t) :
    t.deadlines.reservations ≤ s.deadlines.reservations := by
  induction h with
  | refl => exact Nat.le_refl _
  | tail _ act ih =>
    refine Nat.le_trans ?_ ih
    cases act with
    | release => simp
    | evaluate v => rw [moveAlert_deadlines]
    | _ => exact Nat.le_refl _

theorem deadlineLaw_iff :
    s.deadlineLaw ↔ s.countLaw ∧ s.deadlines.reservations ≤ 24 ∧ ∀ slot, s.slotLaw slot := Iff.rfl

theorem State.deadlineLaw.lawful (h : s.deadlineLaw) (slot : Fin 32) : Lawful slot s :=
  ⟨h.2.2 slot, h.1⟩

/-- The law of R94 and R95 needs only the slot that acted: the others keep theirs. -/
theorem JobActs.deadlineLaw {t : State} (h : JobActs slot s t) (l : s.deadlineLaw)
    (t_law : Lawful slot t) : t.deadlineLaw := by
  refine ⟨t_law.count, Nat.le_trans h.reservations_le l.2.1, fun k => ?_⟩
  by_cases hk : k = slot
  · subst hk; exact t_law.slot
  · exact h.slotLaw_ne hk (l.2.2 k)

end Sys2Proof.Machine
end

