-- ==== Sys2Proof/Laws/Requests.lean ====
section
/-! SUPPORT. What the dispatcher can do with a request: one lemma that says what it does with the request
it takes, and one that says all it can do. Reading a field of a payload that is laid out in pieces. -/

namespace Sys2Proof.Machine

variable {s t : State} {tag code : Byte} {payload : List Byte} {rest : List Request}

/-! ## The dispatcher -/

theorem State.asks.dueRequest (h : s.asks tag code payload rest) :
    s.dueRequest = some ⟨tag, code, payload⟩ := by
  obtain ⟨i, r, x, q⟩ := h
  unfold State.dueRequest
  simp [i, r, x, q]

theorem State.asks.intake (h : s.asks tag code payload rest) :
    s.link.intake = ⟨tag, code, payload⟩ :: rest := h.2.2.2

/-- The request it takes has been asked. -/
theorem asks_of_dueRequest {q : Request} (h : s.dueRequest = some q) :
    ∃ rest, s.asks q.tag q.code q.payload rest := by
  unfold State.dueRequest at h
  split at h
  · rename_i c
    simp only [Bool.and_eq_true, decide_eq_true_eq, Bool.not_eq_true'] at c
    cases i : s.link.intake with
    | nil => rw [i] at h; exact absurd h (by simp)
    | cons a l =>
      rw [i] at h
      obtain rfl : a = q := by simpa using h
      exact ⟨l, c.1.1, c.1.2, c.2, i⟩
  · exact absurd h (by simp)

/-- An answer that leaves the link alone joins the reply queue. -/
theorem finishRequest_eq {a : Answer} (h : a.state.link = s.link)
    (q : s.asks tag code payload rest) :
    finishRequest ⟨tag, code, payload⟩ a = a.state.answered tag rest a.code.toByte a.payload := by
  simp only [finishRequest, State.answered, h, q.intake, List.drop_one, List.tail_cons]

/-- A refusal changes nothing but the two queues of the link (R184). -/
theorem finishRequest_refuse (q : s.asks tag code payload rest) (c : ReplyCode) (detail : Nat) :
    finishRequest ⟨tag, code, payload⟩ (refuse s c detail)
      = s.answered tag rest c.toByte (leBytes 1 detail) :=
  finishRequest_eq (a := refuse s c detail) rfl q

/-- A request that passes the generic checks is handed to its owner (R185). -/
theorem serve_of_asks (q : s.asks tag code payload rest) {rc : RequestCode}
    {mine : List Byte → Bool} {handler : List Byte → State → Answer}
    (c : requestCodeOf code = some rc) (m : mine payload = true)
    (g : genericCheck rc payload = none) :
    s.serve rc mine handler = finishRequest ⟨tag, code, payload⟩ (handler payload s) := by
  simp [State.serve, q.dueRequest, c, m, g]

/-- A request that fails a generic check is refused (R185). -/
theorem serve_of_refused (q : s.asks tag code payload rest) {rc : RequestCode}
    {mine : List Byte → Bool} {handler : List Byte → State → Answer}
    (c : requestCodeOf code = some rc) (m : mine payload = true) {refusal : ReplyCode} {detail : Nat}
    (g : genericCheck rc payload = some (refusal, detail)) :
    s.serve rc mine handler = s.answered tag rest refusal.toByte (leBytes 1 detail) := by
  simp only [State.serve, q.dueRequest, c, m, g, Bool.and_self, decide_true, if_true]
  exact finishRequest_refuse q _ _

/-- All that a request's command can do: nothing, or its answer to the request it takes. -/
theorem serve_cases (rc : RequestCode) (mine : List Byte → Bool)
    (handler : List Byte → State → Answer) :
    s.serve rc mine handler = s
      ∨ ∃ tag code payload rest, s.asks tag code payload rest ∧ requestCodeOf code = some rc
          ∧ mine payload = true
          ∧ ((∃ c d, genericCheck rc payload = some (c, d)
                ∧ s.serve rc mine handler = s.answered tag rest c.toByte (leBytes 1 d))
            ∨ (genericCheck rc payload = none
                ∧ s.serve rc mine handler
                  = finishRequest ⟨tag, code, payload⟩ (handler payload s))) := by
  cases h : s.dueRequest with
  | none => exact .inl (by simp [State.serve, h])
  | some q =>
    obtain ⟨rest, a⟩ := asks_of_dueRequest h
    by_cases k : requestCodeOf q.code = some rc ∧ mine q.payload = true
    · refine .inr ⟨q.tag, q.code, q.payload, rest, a, k.1, k.2, ?_⟩
      cases g : genericCheck rc q.payload with
      | none => exact .inr ⟨rfl, serve_of_asks a k.1 k.2 g⟩
      | some r => exact .inl ⟨r.1, r.2, rfl, serve_of_refused a k.1 k.2 g⟩
    · left
      simp only [State.serve, h, Bool.and_eq_true, decide_eq_true_eq, k, if_false]

/-- A payload of the right length whose index fields are in range passes the generic checks. -/
theorem genericCheck_none {rc : RequestCode} (l : payload.length = rc.payloadLength)
    (i : rc.badIndex payload = none) : genericCheck rc payload = none := by
  simp [genericCheck, l, i]

/-! ## Fields -/

/-- The field that stands behind a prefix of a payload. -/
theorem field_append {a b c : List Byte} {offset size : Nat} (ha : a.length = offset)
    (hb : b.length = size) : field (a ++ (b ++ c)) offset size = leNat b := by
  subst ha hb
  simp [field]

theorem field_cons_succ (x : Byte) (l : List Byte) (offset size : Nat) :
    field (x :: l) (offset + 1) size = field l offset size := rfl

theorem field_zero (l : List Byte) (size : Nat) : field l 0 size = leNat (l.take size) := by
  simp [field]

@[simp] theorem leNat_singleton (b : Byte) : leNat [b] = b.toNat := by simp [leNat]

theorem leBytes_one (n : Nat) : leBytes 1 n = [BitVec.ofNat 8 n] := rfl

@[simp] theorem slotField_cons (slot : Fin 32) (l : List Byte) :
    slotField (leBytes 1 slot.val ++ l) = slot := by
  have := slot.isLt
  ext
  simp [slotField, field, leBytes, Nat.mod_eq_of_lt (show slot.val < 256 by omega)]

@[simp] theorem channelField_cons (ch : Fin 8) (l : List Byte) :
    channelField (leBytes 1 ch.val ++ l) = ch := by
  have := ch.isLt
  ext
  simp [channelField, field, leBytes, Nat.mod_eq_of_lt (show ch.val < 256 by omega)]

end Sys2Proof.Machine
end

