-- ==== Sys2Proof/Laws/Edges.lean ====
section
/-! SUPPORT. What EDGE_SEEN does with an edge before which no boundary stands, what a job's entry becomes
when its next boundary is set, and what the record path leaves of the job. -/

namespace Sys2Proof.Machine

variable {s t : State} {slot : Fin 32} {d : Definition} {settle : Nat} {e : AcceptedEdge}
  {rest : List AcceptedEdge}

/-! ## Seeing an edge (R45, R46) -/

/-- With no boundary that stands before the edge, the job acts on it at once. -/
theorem seeEdge_now (fuel : Nat) (hd : (s.job slot).definition = some d)
    (hn : ∀ b, (s.job slot).next = some b → notEarlier e.timestamp b.tick = false) :
    seeEdge (fuel + 1) s slot e =
      if (s.actOnEdge slot d e).again then seeEdge fuel (s.actOnEdge slot d e).state slot e
      else (s.actOnEdge slot d e).state := by
  cases k : (s.job slot).next with
  | none => simp only [seeEdge, hd, k]
  | some b => simp [seeEdge, hd, k, hn b k]

/-- A boundary not later than the edge is taken first (R49). -/
theorem seeEdge_boundary (fuel : Nat) (hd : (s.job slot).definition = some d) {b : Boundary}
    (hn : (s.job slot).next = some b) (h : notEarlier e.timestamp b.tick = true) :
    seeEdge (fuel + 1) s slot e = seeEdge fuel (s.takeBoundary slot b) slot e := by
  simp only [seeEdge, hd, hn, h, if_true]

/-- The state in which a job acts on the edge it sees: the edge has left its held edges. -/
def State.unheld (s : State) (slot : Fin 32) (rest : List AcceptedEdge) : State :=
  s.setJob slot { s.job slot with held := rest }

theorem State.sees.due (h : s.sees slot d settle e rest) :
    ((s.job slot).seenIsDue s.now && !referenceIsDue s) = true := by
  obtain ⟨r, df, se, hl, nw, rf, -⟩ := h
  simp [Job.seenIsDue, r, hl, nw, rf, Job.settleTicks, se]

/-- EDGE_SEEN of an edge before which no boundary stands: the job acts on it, and once more on one that a
completion hands on. -/
theorem State.sees.exec_again (h : s.sees slot d settle e rest) :
    completes (.edgeSeen slot) s
      (if ((s.unheld slot rest).actOnEdge slot d e).again then
        seeEdge 281474976710655 ((s.unheld slot rest).actOnEdge slot d e).state slot e
      else ((s.unheld slot rest).actOnEdge slot d e).state) := by
  have due := h.due
  obtain ⟨r, df, se, hl, nw, rf, nx⟩ := h
  simp only [completes, Machine.exec, execEdgeSeen, due, if_true, State.see, hl]
  exact congrArg _ (seeEdge_now (s := s.unheld slot rest) (slot := slot) (d := d) (e := e) 281474976710655
    (by simp [State.unheld, df]) (by simpa [State.unheld] using nx))

/-- EDGE_SEEN of an edge before which no boundary stands and which no completion hands on. -/
theorem State.sees.exec (h : s.sees slot d settle e rest)
    (k : ((s.unheld slot rest).actOnEdge slot d e).again = false) :
    completes (.edgeSeen slot) s ((s.unheld slot rest).actOnEdge slot d e).state := by
  have := h.exec_again
  rw [k] at this
  exact this

/-! ## Setting a boundary (R47, R97) -/

/-- Where an entry is inserted (R97). -/
theorem insertEntry_placed (now : Tick) (x : Entry) (l : List Entry) :
    Entry.placed now x l (insertEntry now x l) := by
  induction l with
  | nil => exact ⟨[], [], rfl, rfl, by simp, by simp⟩
  | cons y l ih =>
    unfold insertEntry
    split
    · rename_i h
      obtain ⟨a, b, h1, h2, h3, h4⟩ := ih
      exact ⟨y :: a, b, by simp [h1], by simp [h2], by simpa [h] using h3, h4⟩
    · rename_i h
      exact ⟨[], y :: l, rfl, rfl, by simp, by simpa using Nat.lt_of_not_le h⟩

/-- The entry of a slot, once its next boundary has been set. -/
theorem setBoundary_placed (s : State) (slot : Fin 32) (b : Boundary) :
    Entry.placed s.now ⟨tickAfter b.tick (s.job slot).settleTicks, slot, b.purpose⟩
      (s.otherEntries slot) (s.setBoundary slot b).deadlines.entries :=
  insertEntry_placed _ _ _

/-- Writing the job and setting its boundary is what `jobBecomes` says. -/
theorem jobBecomes_setBoundary {j : Job} {b : Boundary} (hs : j.settle = some settle) :
    s.jobBecomes slot { j with next := some b } settle s.deadlines.reservations
      ((s.setJob slot j).setBoundary slot b) := by
  refine ⟨rfl, ?_, ?_, rfl, ?_⟩
  · rw [setBoundary_job]; simp
  · intro k hk; rw [setBoundary_job]; simp [hk, State.job_setJob_ne]
  · have := setBoundary_placed (s.setJob slot j) slot b
    simpa [State.entryStands, Job.settleTicks, hs, State.otherEntries] using this

end Sys2Proof.Machine
end

