-- ==== Sys2Proof/Laws/Completion.lean ====
section
/-! SUPPORT. What forming a record and ending a measurement do, said once in the terms of Safety.lean: the
record path (R50, R86 to R90, R106 to R112) and the repeat modes (R51 to R55). -/

namespace Sys2Proof.Machine

variable {s t : State} {slot : Fin 32} {d : Definition}

/-! ## Flags that have been raised stay raised -/

theorem mergeNotice_self (source : Source) (flags : BitVec 8) (l : List QueuedNotice) :
    ∃ n ∈ mergeNotice source flags l, n.source = source ∧ n.flags &&& flags = flags := by
  induction l with
  | nil => exact ⟨⟨source, flags⟩, by simp [mergeNotice], rfl, by simp⟩
  | cons x l ih =>
    unfold mergeNotice
    split
    · exact ⟨_, List.mem_cons_self, rfl, by ext i; simp; exact .inr⟩
    · obtain ⟨n, hn, h⟩ := ih
      exact ⟨n, List.mem_cons_of_mem _ hn, h⟩

theorem mergeNotice_keeps (source : Source) (flags : BitVec 8) {l : List QueuedNotice} {n : QueuedNotice}
    (hn : n ∈ l) : ∃ m ∈ mergeNotice source flags l, m.source = n.source ∧ n.flags &&& m.flags = n.flags := by
  induction l with
  | nil => cases hn
  | cons x l ih =>
    unfold mergeNotice
    split
    · rename_i e
      rcases List.mem_cons.mp hn with rfl | hn
      · exact ⟨_, List.mem_cons_self, e.symm, by ext i; simp; tauto⟩
      · exact ⟨n, List.mem_cons_of_mem _ hn, rfl, by simp⟩
    · rcases List.mem_cons.mp hn with rfl | hn
      · exact ⟨n, List.mem_cons_self, rfl, by simp⟩
      · obtain ⟨m, hm, h⟩ := ih hn
        exact ⟨m, List.mem_cons_of_mem _ hm, h⟩

@[simp] theorem raised_raise_self (s : State) (source : Source) (flags : BitVec 8) :
    (s.raise source flags).raised source flags := mergeNotice_self _ _ _

theorem State.raised.raise {source : Source} {flags : BitVec 8} (h : s.raised source flags)
    (a : Source) (b : BitVec 8) : (s.raise a b).raised source flags := by
  obtain ⟨n, hn, hs, hf⟩ := h
  obtain ⟨m, hm, ms, mf⟩ := mergeNotice_keeps a b hn
  refine ⟨m, hm, ms.trans hs, ?_⟩
  rw [← hf, ← BitVec.and_assoc, BitVec.and_comm m.flags, mf]

/-- What an act of a job keeps raised. -/
theorem JobAct.raised {source : Source} {flags : BitVec 8} (h : JobAct slot s t)
    (hs : s.raised source flags) : t.raised source flags := by
  cases h with
  | flag a b => exact hs.raise a b
  | evaluate v =>
    unfold State.moveAlert
    dsimp only
    split
    · exact State.raised.raise (s := (s.setJob slot _).evaluateAlert) hs _ _
    · exact State.raised.raise (s := (s.setJob slot _).evaluateAlert) hs _ _
    · exact hs
    · exact hs
  | _ => exact hs

theorem JobActs.raised {source : Source} {flags : BitVec 8} (h : JobActs slot s t)
    (hs : s.raised source flags) : t.raised source flags :=
  h.keeps (P := fun s => s.raised source flags) (fun _ _ act hs => act.raised hs) hs

theorem JobActs.spares (h : JobActs slot s t) : s.sparesOthers slot t := by
  obtain ⟨a, b, c, d, e, f, g, i, j, -⟩ := h.frame
  exact ⟨a, b, c, d, e, f, g, i, j, fun k hk => h.job_ne hk⟩

/-! ## The record path -/

/-- The flags the limit unit raises (R128, R129). -/
theorem moveAlert_raised (s : State) (slot : Fin 32) (v : Verdict) :
    (v = .outside → (s.job slot).alert = .inside → (s.moveAlert slot v).raised (.job slot) 0x01#8)
      ∧ (v = .core → (s.job slot).alert = .outside → (s.moveAlert slot v).raised (.job slot) 0x02#8) := by
  constructor
  · rintro rfl h
    simp only [State.moveAlert, h, AlertState.after]
    exact raised_raise_self _ _ _
  · rintro rfl h
    simp only [State.moveAlert, h, AlertState.after]
    exact raised_raise_self _ _ _

/-- A record offered to the result queue (R106, R111, R112). -/
theorem offerRecord_spec (s : State) (slot : Fin 32) (r : Record) (h : r.lostBefore = 0) :
    ∃ r' : Record, r' = { r with lostBefore := r'.lostBefore }
      ∧ (s.offerRecord slot r).job slot = { s.job slot with
          latest := some r', lostPending := ((s.offerRecord slot r).job slot).lostPending,
          lostTotal := ((s.offerRecord slot r).job slot).lostTotal }
      ∧ (s.offerRecord slot r).deadlines = s.deadlines
      ∧ (s.results.records.length < 96 →
        (s.offerRecord slot r).results = { s.results with records := s.results.records ++ [r'] }
        ∧ r'.lostBefore = (s.job slot).lostPending
        ∧ ((s.offerRecord slot r).job slot).lostPending = 0
        ∧ ((s.offerRecord slot r).job slot).lostTotal = (s.job slot).lostTotal
        ∧ (s.results.records.length + 1 = s.results.watermark →
            (s.offerRecord slot r).raised .results 0x01#8))
      ∧ (96 ≤ s.results.records.length →
        (s.offerRecord slot r).results
            = { s.results with refused := min (s.results.refused + 1) 65535 }
        ∧ r'.lostBefore = 0
        ∧ ((s.offerRecord slot r).job slot).lostPending = min ((s.job slot).lostPending + 1) 65535
        ∧ ((s.offerRecord slot r).job slot).lostTotal = min ((s.job slot).lostTotal + 1) 65535
        ∧ (s.offerRecord slot r).raised .results 0x02#8) := by
  generalize hu : s.offerRecord slot r = u
  unfold State.offerRecord at hu
  by_cases room : s.results.records.length < 96
  · refine ⟨{ r with lostBefore := (s.job slot).lostPending }, rfl, ?_⟩
    simp only [show s.results.records.length < Config.resultPlaces from room, if_true,
      State.setJob_results, List.length_append, List.length_singleton] at hu
    have hj : u.job slot = { s.job slot with
        latest := some { r with lostBefore := (s.job slot).lostPending }, lostPending := 0 } := by
      split at hu <;> subst hu <;> exact State.job_setJob_self s slot _
    rw [hj]
    split at hu <;> rename_i n <;> subst hu
    · exact ⟨rfl, rfl, fun _ => ⟨rfl, rfl, rfl, rfl, fun _ => raised_raise_self _ _ _⟩, fun h => by omega⟩
    · exact ⟨rfl, rfl, fun _ => ⟨rfl, rfl, rfl, rfl, fun h => absurd h n⟩, fun h => by omega⟩
  · refine ⟨r, rfl, ?_⟩
    simp only [show ¬s.results.records.length < Config.resultPlaces from room, if_false] at hu
    have hj : u.job slot = { s.job slot with
        latest := some r, lostPending := saturate (s.job slot).lostPending 1,
        lostTotal := saturate (s.job slot).lostTotal 1 } := by
      subst hu; exact State.job_setJob_self s slot _
    rw [hj]
    subst hu
    exact ⟨rfl, rfl, fun h => absurd h room, fun _ => ⟨rfl, h, rfl, rfl, raised_raise_self _ _ _⟩⟩

/-- Where a verdict takes the alert state (R128, R129). -/
theorem verdict_alert (a : AlertState) (v : Verdict) :
    (v = .outside → a.after v = .outside) ∧ (v = .core → a.after v = .inside)
      ∧ (v = .margin ∨ v = .notEvaluated → a.after v = a) := by
  cases v <;> simp [AlertState.after]

theorem raiseStatus_job (s : State) (slot k : Fin 32) (status : RecordStatus) :
    (s.raiseStatus slot status).job k = s.job k := by cases status <;> rfl

theorem raiseStatus_deadlines (s : State) (slot : Fin 32) (status : RecordStatus) :
    (s.raiseStatus slot status).deadlines = s.deadlines := by cases status <;> rfl

theorem raiseStatus_results (s : State) (slot : Fin 32) (status : RecordStatus) :
    (s.raiseStatus slot status).results = s.results := by cases status <;> rfl

/-- The flag of a record's status (R88). -/
theorem raiseStatus_raised (s : State) (slot : Fin 32) (status : RecordStatus) :
    (status = .stalled → (s.raiseStatus slot status).raised (.job slot) 0x04#8)
      ∧ (status = .spanLimit → (s.raiseStatus slot status).raised (.job slot) 0x10#8)
      ∧ (status = .target → (s.raiseStatus slot status).raised (.job slot) 0x20#8) := by
  refine ⟨?_, ?_, ?_⟩ <;> rintro rfl <;> exact raised_raise_self _ _ _

/-- What a record tells does not depend on the fields that the record path fills in. -/
theorem formRecord_tells (s : State) (slot : Fin 32) (d : Definition) (status : RecordStatus)
    (endTick opened : Tick) (ho : (s.job slot).opened endTick = opened) (limitOut : Bool) (lost : Nat) :
    ({ s.formRecord slot d status endTick with limitOut := limitOut, lostBefore := lost } : Record).tells
      d (s.job slot) opened endTick := by
  have start : (s.job slot).recordStart d endTick =
      (match d.kind, (s.job slot).next with
        | .tally, some b => if 0 < d.report then tickBefore b.tick d.report else opened
        | _, _ => opened) := by
    unfold Job.recordStart Job.windowStart
    rw [ho]
    cases d.kind <;> cases (s.job slot).next <;> rfl
  have rate_eq : ∀ n span, rate n span = milliHertz n span := by
    intro n span
    simp only [rate, milliHertz, Bool.or_eq_true, decide_eq_true_eq]
  have span : (s.job slot).recordSpan d endTick =
      (match d.kind, (s.job slot).acc.firstEdge, (s.job slot).acc.lastProgress with
        | .freqSync, some first, some last | .period, some first, some last => distance first last
        | .freqSync, _, _ | .period, _, _ => 0
        | _, _, _ => distance ((s.job slot).recordStart d endTick) endTick) := by
    unfold Job.recordSpan
    cases d.kind <;> cases (s.job slot).acc.firstEdge <;> cases (s.job slot).acc.lastProgress <;> rfl
  have value : ∀ n, (s.job slot).recordValue d n =
      (match d.kind with
        | .freqFixed | .freqSync => milliHertz (s.job slot).acc.count n
        | .period => if (s.job slot).acc.count = 0 then 0 else n / (s.job slot).acc.count
        | .width | .phase =>
          if (s.job slot).acc.count = 0 then 0 else (s.job slot).acc.sum / (s.job slot).acc.count
        | .tally => milliHertz
            (if 0 < d.report then (s.job slot).acc.count else (s.job slot).acc.total) n) := by
    intro n
    unfold Job.recordValue Job.windowEdges mean
    cases d.kind <;> simp only [rate_eq, gt_iff_lt]
  refine ⟨start, rfl, rfl, span, value _, ?_, rfl, rfl⟩
  have ranges : ∀ m : Option Nat,
      (((d.kind = .period ∨ d.kind = .width ∨ d.kind = .phase) ∧ 1 ≤ (s.job slot).acc.count) →
        (if d.kind.hasMinMax && (s.job slot).acc.count ≥ 1 then m else none) = m)
      ∧ (¬((d.kind = .period ∨ d.kind = .width ∨ d.kind = .phase) ∧ 1 ≤ (s.job slot).acc.count) →
        (if d.kind.hasMinMax && (s.job slot).acc.count ≥ 1 then m else none) = none) := by
    intro m
    cases hk : d.kind <;> by_cases h : 1 ≤ (s.job slot).acc.count <;> simp [Kind.hasMinMax, h]
  exact ⟨fun h => ⟨(ranges _).1 h, (ranges _).1 h⟩, fun h => ⟨(ranges _).2 h, (ranges _).2 h⟩⟩

/-- A record handed on (R106): the latest result, the limit unit's verdict, the result queue. -/
theorem handOn_spec (s : State) (slot : Fin 32) (r : Record) (queue : Bool) (h : r.lostBefore = 0) :
    ∃ r' : Record, r' = { r with limitOut := r'.limitOut, lostBefore := r'.lostBefore }
      ∧ (s.handOn slot r queue).job slot = { s.job slot with
          latest := some r', alert := ((s.handOn slot r queue).job slot).alert,
          lostPending := ((s.handOn slot r queue).job slot).lostPending,
          lostTotal := ((s.handOn slot r queue).job slot).lostTotal }
      ∧ (s.handOn slot r queue).deadlines = s.deadlines
      ∧ (let found := verdict (s.job slot).window r.status r.value
        (r'.limitOut = true ↔ found = .outside)
          ∧ (found = .outside → ((s.handOn slot r queue).job slot).alert = .outside
              ∧ ((s.job slot).alert = .inside → (s.handOn slot r queue).raised (.job slot) 0x01#8))
          ∧ (found = .core → ((s.handOn slot r queue).job slot).alert = .inside
              ∧ ((s.job slot).alert = .outside → (s.handOn slot r queue).raised (.job slot) 0x02#8))
          ∧ (found = .margin ∨ found = .notEvaluated →
              ((s.handOn slot r queue).job slot).alert = (s.job slot).alert))
      ∧ (queue = false → (s.handOn slot r queue).results = s.results ∧ r'.lostBefore = 0
          ∧ ((s.handOn slot r queue).job slot).lostPending = (s.job slot).lostPending
          ∧ ((s.handOn slot r queue).job slot).lostTotal = (s.job slot).lostTotal)
      ∧ (queue = true → s.results.records.length < 96 →
          (s.handOn slot r queue).results = { s.results with records := s.results.records ++ [r'] }
          ∧ r'.lostBefore = (s.job slot).lostPending
          ∧ ((s.handOn slot r queue).job slot).lostPending = 0
          ∧ ((s.handOn slot r queue).job slot).lostTotal = (s.job slot).lostTotal
          ∧ (s.results.records.length + 1 = s.results.watermark →
              (s.handOn slot r queue).raised .results 0x01#8))
      ∧ (queue = true → 96 ≤ s.results.records.length →
          (s.handOn slot r queue).results
              = { s.results with refused := min (s.results.refused + 1) 65535 }
          ∧ r'.lostBefore = 0
          ∧ ((s.handOn slot r queue).job slot).lostPending = min ((s.job slot).lostPending + 1) 65535
          ∧ ((s.handOn slot r queue).job slot).lostTotal = min ((s.job slot).lostTotal + 1) 65535
          ∧ (s.handOn slot r queue).raised .results 0x02#8) := by
  generalize ht : s.handOn slot r queue = t
  unfold State.handOn at ht
  dsimp only at ht
  generalize verdict (s.job slot).window r.status r.value = v at ht ⊢
  have acts : JobActs slot (s.moveAlert slot v) t := by
    subst ht
    split
    · exact offerRecord_acts _ _ _
    · exact write_acts _ _ _ rfl rfl rfl id
  have m := moveAlert_raised s slot v
  have a := verdict_alert (s.job slot).alert v
  have j := moveAlert_job slot s v slot
  rw [if_pos rfl] at j
  have q := moveAlert_results s slot v
  have dl := moveAlert_deadlines s slot v
  generalize s.moveAlert slot v = u at *
  have limits : (t.job slot).alert = (s.job slot).alert.after v →
      ((v == .outside) = true ↔ v = .outside)
        ∧ (v = .outside → (t.job slot).alert = .outside
            ∧ ((s.job slot).alert = .inside → t.raised (.job slot) 0x01#8))
        ∧ (v = .core → (t.job slot).alert = .inside
            ∧ ((s.job slot).alert = .outside → t.raised (.job slot) 0x02#8))
        ∧ (v = .margin ∨ v = .notEvaluated → (t.job slot).alert = (s.job slot).alert) := by
    intro e
    rw [e]
    exact ⟨by simp, fun h => ⟨a.1 h, fun i => acts.raised (m.1 h i)⟩,
      fun h => ⟨a.2.1 h, fun i => acts.raised (m.2 h i)⟩, a.2.2⟩
  cases queue with
  | false =>
    simp only [Bool.false_eq_true, if_false] at ht
    have jt : t.job slot = { u.job slot with latest := some { r with limitOut := v == .outside } } := by
      subst ht; exact State.job_setJob_self u slot _
    rw [j] at jt
    refine ⟨{ r with limitOut := v == .outside }, rfl, by rw [jt], by rw [← dl, ← ht]; rfl,
      limits (by rw [jt]), ?_, nofun, nofun⟩
    intro _
    refine ⟨by rw [← q, ← ht]; rfl, h, by rw [jt], by rw [jt]⟩
  | true =>
    simp only [if_true] at ht
    obtain ⟨r', hr', jt, dt, room, full⟩ := offerRecord_spec u slot { r with limitOut := v == .outside } h
    rw [ht] at jt dt room full
    rw [q, j] at room full
    rw [j] at jt
    have lo : r'.limitOut = (v == .outside) := by rw [hr']
    refine ⟨r', by rw [lo]; exact hr', by rw [jt], dt.trans dl, ?_, nofun, fun _ => room, fun _ => full⟩
    rw [lo]
    exact limits (by rw [jt])

/-- A record that a job forms, and what becomes of it (R50, R86 to R90, R106 to R112). -/
theorem produce_spec (s : State) (slot : Fin 32) (d : Definition) (status : RecordStatus)
    (endTick opened : Tick) (ho : (s.job slot).opened endTick = opened) :
    ∃ r, s.takesRecord slot d status opened r (s.produce slot d status endTick)
      ∧ r.tells d (s.job slot) opened endTick
      ∧ (s.produce slot d status endTick).deadlines = s.deadlines
      ∧ (s.produce slot d status endTick).job slot = { s.job slot with
          sequence := r.sequence, pendingMissed := 0, latest := some r,
          lostPending := ((s.produce slot d status endTick).job slot).lostPending,
          lostTotal := ((s.produce slot d status endTick).job slot).lostTotal,
          alert := ((s.produce slot d status endTick).job slot).alert } := by
  have told := formRecord_tells s slot d status endTick opened ho
  generalize ht : s.produce slot d status endTick = t
  unfold State.produce at ht
  dsimp only at ht
  have h0 : (s.formRecord slot d status endTick).holdover = s.holdoverFlag opened := by
    rw [← ho]; rfl
  have hold : s.holdoverFlag opened = true ↔ s.timebase.state ≠ .normal
      ∨ (s.timebase.lastAbnormal ≠ none ∧ s.timebase.abnormalAge ≤ distance opened s.now) := by
    simp only [State.holdoverFlag, Timebase.abnormalSince, Bool.or_eq_true, Bool.and_eq_true,
      Option.isSome_iff_ne_none, decide_eq_true_eq, bne_iff_ne, ne_eq, State.now]
    tauto
  have e1 : (s.formRecord slot d status endTick).slot = slot := rfl
  have e2 : (s.formRecord slot d status endTick).kind = d.kind := rfl
  have e3 : (s.formRecord slot d status endTick).status = status := rfl
  have e4 : (s.formRecord slot d status endTick).sequence = (s.job slot).sequence + 1 := rfl
  have e5 : (s.formRecord slot d status endTick).missed = (s.job slot).pendingMissed := rfl
  have e6 : (s.formRecord slot d status endTick).lostBefore = 0 := rfl
  generalize s.formRecord slot d status endTick = r0 at *
  generalize h1 : s.setJob slot { s.job slot with sequence := r0.sequence, pendingMissed := 0 } = s1 at ht
  have j1 : s1.job slot = { s.job slot with sequence := r0.sequence, pendingMissed := 0 } := by
    subst h1; exact State.job_setJob_self s slot _
  have f2 := raiseStatus_raised s1 slot status
  have j2 := raiseStatus_job s1 slot slot status
  have d2 : (s1.raiseStatus slot status).deadlines = s.deadlines := by
    subst h1; exact raiseStatus_deadlines _ _ _
  have q2 : (s1.raiseStatus slot status).results = s.results := by
    subst h1; exact raiseStatus_results _ _ _
  generalize s1.raiseStatus slot status = s2 at *
  obtain ⟨r, hr, jt, dt, limit, none, room, full⟩ := handOn_spec s2 slot r0 d.queueResults e6
  have acts : JobActs slot s2 (s2.handOn slot r0 d.queueResults) := handOn_acts _ _ _ _
  rw [ht] at jt dt limit none room full acts
  rw [q2, j2, j1] at none room full
  rw [j2, j1, e3] at limit
  rw [j2, j1] at jt
  have g1 : r.slot = r0.slot := by rw [hr]
  have g2 : r.kind = r0.kind := by rw [hr]
  have g3 : r.status = r0.status := by rw [hr]
  have g4 : r.sequence = r0.sequence := by rw [hr]
  have g5 : r.missed = r0.missed := by rw [hr]
  have g6 : r.holdover = r0.holdover := by rw [hr]
  have g7 : r.value = r0.value := by rw [hr]
  have tr : r.tells d (s.job slot) opened endTick := by rw [hr]; exact told _ _
  have seq : (t.job slot).sequence = r.sequence := by rw [jt, g4]
  have latest : (t.job slot).latest = some r := by rw [jt]
  refine ⟨r, ⟨g1.trans e1, g2.trans e2, g3.trans e3, g4.trans e4, seq, g5.trans e5, latest, ?_, ?_,
    fun h => acts.raised (f2.1 h), fun h => acts.raised (f2.2.1 h), fun h => acts.raised (f2.2.2 h),
    none, room, full⟩, tr, dt.trans d2, ?_⟩
  · rw [g6, h0]; exact hold
  · rw [g7]; exact limit
  · rw [jt, g4]

/-- What follows a record keeps its terms, as long as it leaves the record's counts and the result queue. -/
theorem State.takesRecord.after {status : RecordStatus} {opened : Tick} {r : Record} {p : State}
    (h : s.takesRecord slot d status opened r p) (acts : JobActs slot p t) (q : t.results = p.results)
    (j : ∃ j' : Job, t.job slot = j' ∧ j'.sequence = (p.job slot).sequence
      ∧ j'.latest = (p.job slot).latest ∧ j'.alert = (p.job slot).alert
      ∧ j'.lostPending = (p.job slot).lostPending ∧ j'.lostTotal = (p.job slot).lostTotal) :
    s.takesRecord slot d status opened r t := by
  obtain ⟨_, rfl, j1, j2, j3, j4, j5⟩ := j
  obtain ⟨a1, a2, a3, a4, a5, a6, a7, a8, ⟨b1, b2, b3, b4⟩, c1, c2, c3, e1, e2, e3⟩ := h
  refine ⟨a1, a2, a3, a4, j1.trans a5, a6, j2.trans a7, a8, ⟨b1, ?_, ?_, ?_⟩,
    fun h => acts.raised (c1 h), fun h => acts.raised (c2 h), fun h => acts.raised (c3 h), ?_, ?_, ?_⟩
  · exact fun h => ⟨j3.trans (b2 h).1, fun i => acts.raised ((b2 h).2 i)⟩
  · exact fun h => ⟨j3.trans (b3 h).1, fun i => acts.raised ((b3 h).2 i)⟩
  · exact fun h => j3.trans (b4 h)
  · intro h; rw [q, j4, j5]; exact e1 h
  · intro h i; rw [q, j4, j5]
    obtain ⟨x1, x2, x3, x4, x5⟩ := e2 h i
    exact ⟨x1, x2, x3, x4, fun k => acts.raised (x5 k)⟩
  · intro h i; rw [q, j4, j5]
    obtain ⟨x1, x2, x3, x4, x5⟩ := e3 h i
    exact ⟨x1, x2, x3, x4, acts.raised x5⟩

/-! ## The repeat modes -/

/-- A measurement that opens (R62). -/
theorem openMeasurement_spec (s : State) (slot : Fin 32) (d : Definition) (t : Tick) (settle : Nat)
    (hs : (s.job slot).settle = some settle) :
    (s.openMeasurement slot d t).job slot = (s.job slot).opensAt d t none
      ∧ (s.openMeasurement slot d t).results = s.results
      ∧ (s.openMeasurement slot d t).deadlines.reservations = s.deadlines.reservations
      ∧ s.entryStands slot ((s.openMeasurement slot d t).job slot).next settle
          (s.openMeasurement slot d t) := by
  have first : d.firstBoundary t = ((s.job slot).opensAt d t none).next := rfl
  have whole : ∀ b, ((s.job slot).opensAt d t none).next = b →
      ({ s.job slot with
        state := .active, subMode := none, armingTick := none, openTick := some t,
        acc := .cleared, next := b } : Job) = (s.job slot).opensAt d t none := by
    rintro _ rfl
    rfl
  unfold State.openMeasurement
  rw [first]
  generalize hn : ((s.job slot).opensAt d t none).next = b
  cases b with
  | some b =>
    refine ⟨?_, rfl, rfl, ?_⟩
    · show (State.setBoundary _ slot b).job slot = _
      rw [setBoundary_job, if_pos rfl, State.job_setJob_self]
      exact whole _ hn
    · show s.entryStands slot ((State.setBoundary _ slot b).job slot).next settle (State.setBoundary _ slot b)
      rw [setBoundary_job, if_pos rfl]
      have := setBoundary_placed (s.setJob slot { s.job slot with
        state := .active, subMode := none, armingTick := none, openTick := some t,
        acc := .cleared }) slot b
      rw [State.job_setJob_self] at this
      simpa [State.entryStands, Job.settleTicks, hs, State.otherEntries] using this
  | none =>
    refine ⟨?_, rfl, rfl, ?_⟩
    · show (State.clearBoundary _ slot).job slot = _
      rw [clearBoundary_job, if_pos rfl, State.job_setJob_self]
      exact whole _ hn
    · show s.entryStands slot ((State.clearBoundary _ slot).job slot).next settle _
      rw [clearBoundary_job, if_pos rfl]
      rfl

/-- A CONTINUOUS hand-over that carries the closing edge (R52). -/
theorem openAtEdge_spec (s : State) (slot : Fin 32) (d : Definition) (t : Tick) (settle : Nat)
    (hs : (s.job slot).settle = some settle) :
    (s.openAtEdge slot d t).job slot = (s.job slot).opensAt d t (some t)
      ∧ (s.openAtEdge slot d t).results = s.results
      ∧ (s.openAtEdge slot d t).deadlines.reservations = s.deadlines.reservations
      ∧ s.entryStands slot ((s.openAtEdge slot d t).job slot).next settle (s.openAtEdge slot d t) := by
  obtain ⟨a, b, c, e⟩ := openMeasurement_spec s slot d t settle hs
  have j : (s.openAtEdge slot d t).job slot = (s.job slot).opensAt d t (some t) := by
    unfold State.openAtEdge
    dsimp only
    rw [State.job_setJob_self, a]
    rfl
  refine ⟨j, b, c, ?_⟩
  rw [j]
  rw [a] at e
  exact e

/-- A PERIODIC job waits in HOLD (R55). -/
theorem enterHold_spec (s : State) (slot : Fin 32) (t : Tick) (settle : Nat)
    (hs : (s.job slot).settle = some settle) :
    (s.enterHold slot t).job slot
        = { s.job slot with state := .hold, next := some ⟨.start, t⟩ }
      ∧ (s.enterHold slot t).results = s.results
      ∧ (s.enterHold slot t).deadlines.reservations = s.deadlines.reservations
      ∧ s.entryStands slot ((s.enterHold slot t).job slot).next settle (s.enterHold slot t) := by
  have j : (s.enterHold slot t).job slot
      = { s.job slot with state := .hold, next := some ⟨.start, t⟩ } := by
    unfold State.enterHold
    rw [setBoundary_job, if_pos rfl, State.job_setJob_self]
  refine ⟨j, rfl, rfl, ?_⟩
  rw [j]
  unfold State.enterHold
  have := setBoundary_placed (s.setJob slot { s.job slot with state := .hold }) slot ⟨.start, t⟩
  rw [State.job_setJob_self] at this
  simpa [State.entryStands, Job.settleTicks, hs, State.otherEntries] using this

theorem otherEntries_dropEntry (s : State) (slot : Fin 32) :
    (s.dropEntry slot).otherEntries slot = s.otherEntries slot := by
  simp [State.otherEntries, State.dropEntry, removeEntry, List.filter_filter]

/-- m of R54 is the least number of at least 1 whose grid point is not before the end. -/
theorem gridSteps_eq {opened endTick : Tick} {p m : Nat} (h1 : 1 ≤ m)
    (h2 : distance opened endTick ≤ m * p)
    (h3 : m = 1 ∨ (m - 1) * p < distance opened endTick) : gridSteps opened endTick p = m := by
  unfold gridSteps
  generalize distance opened endTick = x at *
  obtain rfl | hp := Nat.eq_zero_or_pos p
  · rcases h3 with rfl | h3
    · simp
    · simp at h2 h3; omega
  · rcases h3 with rfl | h3
    · have : (x + p - 1) / p ≤ 1 := by
        rw [Nat.div_le_iff_le_mul_add_pred hp]; omega
      omega
    · obtain ⟨k, rfl⟩ : ∃ k, m = k + 1 := ⟨m - 1, by omega⟩
      have e : (x + p - 1) / p = k + 1 := by
        apply Nat.div_eq_of_lt_le
        · simp only [Nat.add_sub_cancel] at h3
          rw [Nat.add_mul, Nat.one_mul]; omega
        · have : (k + 1 + 1) * p = (k + 1) * p + p := by rw [Nat.add_mul, Nat.one_mul]
          omega
      rw [e]; omega

/-- The entries of the other slots and the present tick are all that `entryStands` reads of its state. -/
theorem State.entryStands.of_eq {p : State} {next : Option Boundary} {settle : Nat}
    (h : p.entryStands slot next settle t) (o : p.otherEntries slot = s.otherEntries slot)
    (n : p.now = s.now) : s.entryStands slot next settle t := by
  unfold State.entryStands at h ⊢
  rw [← o, ← n]
  exact h

/-- Skipped starts (R54). -/
theorem countMissed_spec (s : State) (slot : Fin 32) (m : Nat) (h : 1 ≤ m)
    (p : (s.job slot).pendingMissed = 0) :
    (s.countMissed slot (m - 1)).job slot = { s.job slot with
        pendingMissed := min (m - 1) 65535,
        missedTotal := if m = 1 then (s.job slot).missedTotal
          else min ((s.job slot).missedTotal + (m - 1)) 65535 }
      ∧ (s.countMissed slot (m - 1)).results = s.results
      ∧ (s.countMissed slot (m - 1)).deadlines = s.deadlines
      ∧ (2 ≤ m → (s.countMissed slot (m - 1)).raised (.job slot) 0x08#8) := by
  unfold State.countMissed
  by_cases k : m = 1
  · subst k
    refine ⟨?_, rfl, rfl, fun h => by omega⟩
    show s.job slot = { s.job slot with pendingMissed := 0 }
    rw [← p]
  · rw [if_pos (show m - 1 ≥ 1 by omega)]
    refine ⟨?_, rfl, rfl, fun _ => raised_raise_self _ _ _⟩
    simp [p, saturate, k]

/-- What the end of a measurement does (R50 to R55): `State.ends`, with the first edge that the completion
itself carries over. An edge that is to be processed again is not yet. -/
theorem complete_spec (s : State) (slot : Fin 32) (d : Definition) (status : RecordStatus)
    (endTick opened reopen : Tick) (edge first : Option Tick) (settle : Nat)
    (hs : (s.job slot).settle = some settle) (ho : (s.job slot).opened endTick = opened)
    (hc : d.repeating = .continuous →
      match status, edge with
      | .spanLimit, some t => reopen = t ∧ first = none
      | .complete, some t =>
        reopen = t ∧ first = if d.kind = .freqSync ∨ d.kind = .period then some t else none
      | _, _ => reopen = endTick ∧ first = none)
    (hp : d.repeating = .periodic → first = none) :
    s.ends slot d settle opened (s.job slot).acc (s.job slot).held status endTick reopen first
      (s.complete slot d status endTick edge).state := by
  have all := complete_acts slot s d status endTick edge
  refine ⟨all.spares, ?_⟩
  obtain ⟨r, takes, tells, dl, jb⟩ := produce_spec s slot d status endTick opened ho
  have pacts := produce_acts slot s d status endTick
  have acts : JobActs slot ((s.produce slot d status endTick).dropEntry slot)
      (s.complete slot d status endTick edge).state := actRepeat_acts slot _ d status endTick edge
  refine ⟨r, ?_⟩
  generalize ht : (s.complete slot d status endTick edge).state = t at *
  unfold State.complete at ht
  have nw : (s.produce slot d status endTick).now = s.now := pacts.now
  generalize s.produce slot d status endTick = p at *
  have bacts : JobActs slot p t := .after acts (.single (.drop p))
  have oe : (p.dropEntry slot).otherEntries slot = s.otherEntries slot := by
    rw [otherEntries_dropEntry, State.otherEntries, dl]; rfl
  have rs : (p.dropEntry slot).deadlines.reservations = s.deadlines.reservations := by
    show p.deadlines.reservations = _
    rw [dl]
  have jq : (p.dropEntry slot).job slot = p.job slot := rfl
  have rq : (p.dropEntry slot).results = p.results := rfl
  have nq : (p.dropEntry slot).now = s.now := nw
  have sq : ((p.dropEntry slot).job slot).settle = some settle := by rw [jq, jb, ← hs]
  have oq : ((p.dropEntry slot).job slot).opened endTick = opened := by rw [jq, jb, ← ho]; rfl
  have hz : ((p.dropEntry slot).horizon slot) = tickBefore s.now settle := by
    simp only [State.horizon, nq, Job.settleTicks, sq, Option.getD_some]
  generalize p.dropEntry slot = q at *
  -- what remains, once the final job is known
  have done : ∀ j : Job, t.job slot = j → t.results = p.results →
      j.sequence = (p.job slot).sequence → j.latest = (p.job slot).latest →
      j.alert = (p.job slot).alert → j.lostPending = (p.job slot).lostPending →
      j.lostTotal = (p.job slot).lostTotal → s.takesRecord slot d status opened r t :=
    fun j e q a b c f g => takes.after bacts q ⟨j, e, a, b, c, f, g⟩
  unfold State.actRepeat at ht
  cases hr : d.repeating with
  | once =>
    rw [hr] at ht
    dsimp only at ht
    have jt : t.job slot = { q.job slot with
        state := .done, subMode := none, armingTick := none, settle := none, startBase := none,
        next := none, held := [] } := by
      subst ht
      rw [State.raiseJob_eq, State.job_raise]
      show (State.setJob _ slot _).job slot = _
      rw [State.job_setJob_self, clearBoundary_job, if_pos rfl]
    rw [jq] at jt
    refine ⟨done _ jt (by subst ht; exact rq) rfl rfl rfl rfl rfl, tells, ?_, nofun, nofun, nofun⟩
    intro _
    refine ⟨by rw [jt, jb], ?_, by subst ht; exact raised_raise_self _ _ _⟩
    subst ht
    show DeadlineList.mk (removeEntry slot q.deadlines.entries) (q.deadlines.reservations - 1) = _
    rw [rs, ← oe]
    rfl
  | continuous =>
    rw [hr] at ht
    dsimp only at ht
    have c := hc hr
    have key : t.job slot = (q.job slot).opensAt d reopen first ∧ t.results = q.results
        ∧ t.deadlines.reservations = q.deadlines.reservations
        ∧ q.entryStands slot (t.job slot).next settle t := by
      split at ht
      · dsimp only at c; obtain ⟨rfl, rfl⟩ := c; subst ht; exact openMeasurement_spec q slot d _ settle sq
      · dsimp only at c
        obtain ⟨rfl, f⟩ := c
        simp only [Bool.or_eq_true, decide_eq_true_eq] at ht
        split at ht <;> rename_i k <;> subst ht
        · rw [if_pos k] at f; subst f; exact openAtEdge_spec q slot d _ settle sq
        · rw [if_neg k] at f; subst f; exact openMeasurement_spec q slot d _ settle sq
      · rename_i n1 n2
        have c' : reopen = endTick ∧ first = none := by
          revert c
          split
          · exact (n1 _ rfl rfl).elim
          · exact (n2 _ rfl rfl).elim
          · exact id
        obtain ⟨rfl, rfl⟩ := c'
        subst ht
        exact openMeasurement_spec q slot d _ settle sq
    obtain ⟨k1, k2, k3, k4⟩ := key
    rw [jq] at k1
    refine ⟨done _ k1 (k2.trans rq) rfl rfl rfl rfl rfl, tells, nofun, fun _ => ⟨k3.trans rs, k4.of_eq oe nq⟩,
      fun _ => ?_, nofun⟩
    rw [k1, jb]
    rfl
  | periodic =>
    rw [hr] at ht
    dsimp only at ht
    obtain rfl := hp hr
    rw [hz] at ht
    have pm : (q.job slot).pendingMissed = 0 := by rw [jq, jb]
    rw [oq] at ht
    have m1 : 1 ≤ gridSteps opened endTick d.period := Nat.le_max_left _ _
    obtain ⟨cj, cr, cd, cm⟩ := countMissed_spec q slot _ m1 pm
    have ca := countMissed_acts slot q (gridSteps opened endTick d.period - 1)
    have cn : (q.countMissed slot (gridSteps opened endTick d.period - 1)).now = s.now := ca.now.trans nq
    have ce : (q.countMissed slot (gridSteps opened endTick d.period - 1)).otherEntries slot
        = s.otherEntries slot := by rw [← oe, State.otherEntries, cd]; rfl
    have cs : ((q.countMissed slot (gridSteps opened endTick d.period - 1)).job slot).settle
        = some settle := by rw [cj]; exact sq
    generalize hm : gridSteps opened endTick d.period = m at *
    have mu : ∀ n, 1 ≤ n → distance opened endTick ≤ n * d.period →
        (n = 1 ∨ (n - 1) * d.period < distance opened endTick) → n = m := by
      intro n a b c
      rw [← hm, gridSteps_eq a b c]
    generalize q.countMissed slot (m - 1) = u at *
    generalize hst : tickAfter opened (m * d.period) = start at *
    cases hne : notEarlier (tickBefore s.now settle) start with
    | true =>
      rw [hne] at ht
      have ht' : u.openMeasurement slot d start = t := ht
      obtain ⟨k1, k2, k3, k4⟩ := openMeasurement_spec u slot d start settle cs
      have fl := openMeasurement_acts slot u d start
      rw [ht'] at k1 k2 k3 k4 fl
      rw [cj, jq] at k1
      refine ⟨done _ k1 (k2.trans (cr.trans rq)) rfl rfl rfl rfl rfl, tells, nofun,
        fun _ => ⟨k3.trans (by rw [cd]; exact rs), k4.of_eq ce cn⟩, nofun, fun _ n a b c => ?_⟩
      obtain rfl := mu n a b c
      dsimp only
      rw [hst, hne]
      refine ⟨fun h => fl.raised (cm h), nofun, fun _ => ?_⟩
      rw [k1, jb]
      rfl
    | false =>
      rw [hne] at ht
      have ht' : u.enterHold slot start = t := ht
      obtain ⟨k1, k2, k3, k4⟩ := enterHold_spec u slot start settle cs
      have fl := enterHold_acts slot u start
      rw [ht'] at k1 k2 k3 k4 fl
      rw [cj, jq] at k1
      refine ⟨done _ k1 (k2.trans (cr.trans rq)) rfl rfl rfl rfl rfl, tells, nofun,
        fun _ => ⟨k3.trans (by rw [cd]; exact rs), k4.of_eq ce cn⟩, nofun, fun _ n a b c => ?_⟩
      obtain rfl := mu n a b c
      dsimp only
      rw [hst, hne]
      refine ⟨fun h => fl.raised (cm h), fun _ => ?_, nofun⟩
      rw [k1, jb]

/-! ## The end of a measurement, seen from the state before the job's own work -/

/-- An end is told of a state from one in which the job has only worked: its accumulators and held edges are
others, and its own entry may have gone. -/
theorem State.ends.of_worked {s1 : State} {settle : Nat} {opened : Tick} {a a' : Accumulators}
    {held h' : List AcceptedEdge} {status : RecordStatus} {endTick reopen : Tick} {first : Option Tick}
    (h : s1.ends slot d settle opened a held status endTick reopen first t)
    (e : s1 = { s with jobs := s1.jobs, deadlines := s1.deadlines })
    (j : s1.job slot = { s.job slot with acc := a', held := h' })
    (k : ∀ k, k ≠ slot → s1.job k = s.job k)
    (r : s1.deadlines.reservations = s.deadlines.reservations)
    (o : s1.otherEntries slot = s.otherEntries slot) :
    s.ends slot d settle opened a held status endTick reopen first t := by
  have nw : s1.now = s.now := by rw [e]; rfl
  have tb : s1.timebase = s.timebase := by rw [e]
  have rs : s1.results = s.results := by rw [e]
  obtain ⟨sp, rec, tk, te, en⟩ := h
  refine ⟨?_, rec, ?_, ?_, ?_⟩
  · obtain ⟨b1, b2, b3, b4, b5, b6, b7, b8, b9, b10⟩ := sp
    refine ⟨b1.trans ?_, b2.trans ?_, b3.trans ?_, b4.trans ?_, b5.trans ?_, b6.trans ?_, b7.trans ?_,
      b8.trans ?_, b9.trans ?_, fun i hi => (b10 i hi).trans (k i hi)⟩ <;> rw [e]
  · simp only [State.takesRecord, j, nw, tb, rs] at tk
    exact tk
  · rw [j] at te; exact te
  · rw [j] at en
    simp only [State.entryStands, nw, r, o] at en
    exact en

/-- A measurement ends once an edge has left the held edges and entered the accumulators. -/
theorem complete_worked (s : State) (slot : Fin 32) (d : Definition) (a : Accumulators)
    (rest : List AcceptedEdge) (status : RecordStatus)
    (endTick opened reopen : Tick) (edge first : Option Tick) (settle : Nat)
    (hs : (s.job slot).settle = some settle) (ho : (s.job slot).opened endTick = opened)
    (hc : d.repeating = .continuous →
      match status, edge with
      | .spanLimit, some t => reopen = t ∧ first = none
      | .complete, some t =>
        reopen = t ∧ first = if d.kind = .freqSync ∨ d.kind = .period then some t else none
      | _, _ => reopen = endTick ∧ first = none)
    (hp : d.repeating = .periodic → first = none) :
    s.ends slot d settle opened a rest status endTick reopen first
      ((s.setJob slot { s.job slot with held := rest, acc := a }).complete slot d status endTick edge).state := by
  have := complete_spec (s.setJob slot { s.job slot with held := rest, acc := a }) slot d status endTick
    opened reopen edge first settle (by simpa using hs) (by rw [State.job_setJob_self]; exact ho) hc hp
  rw [State.job_setJob_self] at this
  exact this.of_worked rfl (State.job_setJob_self s slot _) (fun k hk => s.job_setJob_ne hk _)
    rfl rfl

end Sys2Proof.Machine
end

