-- ==== Sys2Proof/Laws/Ends.lean ====
section
/-! SUPPORT. How a measurement ends at an edge: the edge that completes it (R50 to R55, R62), the edge that
meets its span limit (R64, R65, R85), and the grid of a PERIODIC job (R54). -/

namespace Sys2Proof.Machine

variable {s t : State} {slot : Fin 32} {d : Definition} {settle : Nat} {e : AcceptedEdge}
  {rest : List AcceptedEdge} {opened : Tick}

/-- The edge has left the held edges and entered the accumulators. -/
abbrev State.worked (s : State) (slot : Fin 32) (rest : List AcceptedEdge) (a : Accumulators) : State :=
  s.setJob slot { s.job slot with held := rest, acc := a }

/-- The next start of a PERIODIC measurement that opened and ended at the given ticks (R54). -/
abbrev Definition.nextStart (d : Definition) (opened endTick : Tick) : Tick :=
  tickAfter opened (gridSteps opened endTick d.period * d.period)

/-! ## What a job does with an edge it sees -/

theorem unheld_setAcc (s : State) (slot : Fin 32) (rest : List AcceptedEdge) (a : Accumulators) :
    (s.unheld slot rest).setAcc slot a = s.worked slot rest a := by
  simp [State.unheld, State.setAcc]

/-- An edge of the open measurement below the span limit takes the step of the kind (R63, R64). -/
theorem State.processes.act (h : s.processes slot d settle e rest) (a : d.actsOn e = true) :
    (s.unheld slot rest).actOnEdge slot d e = (s.unheld slot rest).kindStep slot d e := by
  obtain ⟨-, ac, o, op, ne, di⟩ := h
  have : ¬ 1099511627776 ≤ distance o e.timestamp := by omega
  simp [State.actOnEdge, State.unheld, ac, Job.opened, op, ne, State.processEdge, a, this]

/-- An edge at the span limit ends the measurement (R64). -/
theorem State.limits.act (h : s.limits slot d settle opened e rest) (a : d.actsOn e = true) :
    (s.unheld slot rest).actOnEdge slot d e = (s.unheld slot rest).complete slot d .spanLimit
      ((s.job slot).spanLimitEnd d e.timestamp) (some e.timestamp) := by
  obtain ⟨-, ac, op, ne, di⟩ := h
  have : 1099511627776 ≤ distance opened e.timestamp := by omega
  simp [State.actOnEdge, State.unheld, ac, Job.opened, op, ne, State.processEdge, a, this,
    Job.spanLimitEnd, Job.windowStart]

/-- An edge put back in front of the held edges is seen. -/
theorem seen_in_front (u : State) (se : (u.job slot).settle = some settle)
    (hr : (u.job slot).state.running = true) (hh : (u.job slot).held = rest)
    (nw : u.now = tickAfter e.timestamp settle) (rf : referenceIsDue u = false) :
    completes (.edgeSeen slot) (u.setJob slot { u.job slot with held := e :: rest })
      (seeEdge 281474976710656 u slot e) := by
  have self : u.setJob slot (u.job slot) = u :=
    congrArg (fun v => ({ u with jobs := v } : State)) (Vector.set_getElem_self _)
  have back : ∀ w : State, w = u.setJob slot { u.job slot with held := e :: rest } →
      w.setJob slot { w.job slot with held := rest } = u := by
    rintro w rfl
    subst hh
    rw [State.job_setJob_self, State.setJob_setJob]
    exact self
  have j : (u.setJob slot { u.job slot with held := e :: rest }).job slot
    = { u.job slot with held := e :: rest } := State.job_setJob_self u slot _
  have nw' : (u.setJob slot { u.job slot with held := e :: rest }).now = tickAfter e.timestamp settle := nw
  have rf' : referenceIsDue (u.setJob slot { u.job slot with held := e :: rest }) = false := rf
  have back := back _ rfl
  generalize u.setJob slot { u.job slot with held := e :: rest } = w at *
  have due : ((w.job slot).seenIsDue w.now && !referenceIsDue w) = true := by
    simp [Job.seenIsDue, j, hr, nw', rf', Job.settleTicks, se]
  have jh : (w.job slot).held = e :: rest := by rw [j]
  simp only [completes, exec, execEdgeSeen, due, if_true, State.see, jh, back]

/-! ## A measurement that has just opened -/

/-- It takes its first edge and hands none on. -/
theorem fresh_again (u : State) (al : d.allowed) (ac : (u.job slot).state = .active) {o : Tick}
    (op : (u.job slot).openTick = some o) (cl : (u.job slot).acc = .cleared)
    (ne : notEarlier e.timestamp o = true) (di : distance o e.timestamp < 2 ^ 32) :
    (u.actOnEdge slot d e).again = false := by
  have : ¬ 1099511627776 ≤ distance o e.timestamp := by omega
  simp only [State.actOnEdge, ac, Job.opened, op, Option.getD_some, ne, if_true, State.processEdge]
  split
  · rfl
  · have tp := al.2.2.2.2.2.2.2.2.1
    unfold State.kindStep
    cases hk : d.kind with
    | freqFixed => rfl
    | freqSync => simp only [cl, Accumulators.cleared]
    | period => simp only [cl, Accumulators.cleared]
    | width => simp only [cl, Accumulators.cleared]; split <;> rfl
    | phase => simp only [cl, Accumulators.cleared]; split <;> rfl
    | tally =>
      simp only [State.tallyEdge]
      split
      · have := tp hk
        simp only [State.complete, State.actRepeat]
        cases hr : d.repeating with
        | once => rfl
        | continuous => rfl
        | periodic => exact absurd hr this
      · rfl

/-- So seeing that edge is acting on it once. -/
theorem seeEdge_fresh (u : State) (hd : (u.job slot).definition = some d) (al : d.allowed)
    (ac : (u.job slot).state = .active) {o : Tick} (op : (u.job slot).openTick = some o)
    (cl : (u.job slot).acc = .cleared) (ne : notEarlier e.timestamp o = true)
    (di : distance o e.timestamp < 2 ^ 32)
    (nx : ∀ b, (u.job slot).next = some b → notEarlier e.timestamp b.tick = false) (f : Nat) :
    seeEdge (f + 1) u slot e = (u.actOnEdge slot d e).state := by
  rw [seeEdge_now f hd nx, fresh_again u al ac op cl ne di]; rfl

/-- Its first boundary lies behind an edge that comes sooner than that boundary (R42). -/
theorem firstBoundary_later (al : d.allowed) {o t : Tick}
    (di : match d.kind with
      | .freqFixed => distance o t < d.gate
      | .tally => d.report = 0 ∨ distance o t < d.report
      | _ => distance o t < d.stall) :
    ∀ b, d.firstBoundary o = some b → notEarlier t b.tick = false := by
  obtain ⟨-, -, -, g, -, r, -, st, -⟩ := al
  have key : ∀ n, n < 2 ^ 32 → distance o t < n → notEarlier t (tickAfter o n) = false := by
    intro n hn hd
    have e1 : t - (o + BitVec.ofNat 48 n) = (t - o) - BitVec.ofNat 48 n := by rw [sub_sub]
    rw [notEarlier, decide_eq_false_iff_not]
    unfold tickAfter distance at *
    rw [e1]
    show ¬ _ < 140737488355328
    clear e1
    generalize t - o = x at *
    have := x.isLt
    rw [BitVec.toNat_sub, BitVec.toNat_ofNat]
    omega
  intro b hb
  unfold Definition.firstBoundary at hb
  cases hk : d.kind <;> rw [hk] at hb di g r st <;> dsimp only at hb di g r st
  case freqFixed => cases hb; exact key _ g.2 di
  case tally =>
    split at hb
    · cases hb
      refine key _ ?_ ?_ <;> omega
    · cases hb
  all_goals cases hb; exact key _ st.2 di

/-- Its first boundary lies behind an edge at its open tick. -/
theorem firstBoundary_behind_open (al : d.allowed) (o : Tick) :
    ∀ b, d.firstBoundary o = some b → notEarlier o b.tick = false := by
  refine firstBoundary_later al ?_
  obtain ⟨-, -, -, g, -, r, -, st, -⟩ := al
  cases hk : d.kind <;> rw [hk] at g r st <;> dsimp only at g r st ⊢ <;> simp [distance] <;> omega

/-- An edge at the tick at which the measurement opened is acted on once. -/
theorem seeEdge_at_open (u : State) (hd : (u.job slot).definition = some d) (al : d.allowed) {j : Job}
    (hj : u.job slot = j.opensAt d e.timestamp none) (f : Nat) :
    seeEdge (f + 1) u slot e = (u.actOnEdge slot d e).state := by
  refine seeEdge_fresh (o := e.timestamp) u hd al (by rw [hj]; rfl) (by rw [hj]; rfl) (by rw [hj]; rfl)
    (by simp [notEarlier, distance]) (by simp [distance]) ?_ f
  rw [hj]
  exact firstBoundary_behind_open al _

/-! ## The grid of a PERIODIC job (R54) -/

theorem gridSteps_reaches {o e : Tick} {p : Nat} (hp : 0 < p) :
    distance o e ≤ gridSteps o e p * p := by
  unfold gridSteps
  generalize distance o e = x
  have h := Nat.div_add_mod (x + p - 1) p
  have h2 := Nat.mod_lt (x + p - 1) hp
  have h3 : (x + p - 1) / p ≤ max 1 ((x + p - 1) / p) := Nat.le_max_right _ _
  have h4 := Nat.mul_le_mul_right p h3
  have h5 : p * ((x + p - 1) / p) = (x + p - 1) / p * p := Nat.mul_comm _ _
  omega

theorem gridSteps_least {o e : Tick} {p : Nat} (hp : 0 < p) :
    gridSteps o e p = 1 ∨ (gridSteps o e p - 1) * p < distance o e := by
  unfold gridSteps
  generalize distance o e = x
  have h := Nat.div_add_mod (x + p - 1) p
  by_cases h1 : (x + p - 1) / p ≤ 1
  · left; omega
  · right
    rw [Nat.max_eq_right (by omega), Nat.sub_mul]
    have h6 := Nat.mul_le_mul_right p (show 2 ≤ (x + p - 1) / p by omega)
    have h5 : p * ((x + p - 1) / p) = (x + p - 1) / p * p := Nat.mul_comm _ _
    omega

theorem one_le_gridSteps (o e : Tick) (p : Nat) : 1 ≤ gridSteps o e p := Nat.le_max_left _ _

/-- A next start that is not later than a tick lies behind it by less than the tick lies behind the end. -/
theorem nextStart_within {o e t : Tick} {n : Nat} (hp : 0 < d.period) (p2 : d.period < 2 ^ 32)
    (hn : n < 2 ^ 32) (hlt : distance e t < n) (ne : notEarlier t (d.nextStart o e) = true) :
    distance (d.nextStart o e) t < n := by
  unfold Definition.nextStart at *
  generalize d.period = p at *
  have l1 := gridSteps_reaches (o := o) (e := e) hp
  have l2 := gridSteps_least (o := o) (e := e) hp
  have l3 : gridSteps o e p * p < distance o e + p ∨ gridSteps o e p * p = p := by
    rcases l2 with l | l
    · right; rw [l, Nat.one_mul]
    · left; rw [Nat.sub_mul] at l; omega
  generalize gridSteps o e p * p = g at *
  have ne' : distance (tickAfter o g) t < 140737488355328 := by simpa [notEarlier] using ne
  clear ne l2
  unfold tickAfter distance at *
  have e1 : t - (o + BitVec.ofNat 48 g) = ((t - e) + (e - o)) - BitVec.ofNat 48 g := by
    rw [sub_add_sub_cancel, sub_sub]
  rw [e1] at ne' ⊢
  generalize t - e = x at *
  generalize e - o = y at *
  have := x.isLt
  have := y.isLt
  rw [BitVec.toNat_sub, BitVec.toNat_ofNat, BitVec.toNat_add] at *
  omega

/-- A next start before the end of the measurement is none: one not later than the end is the end itself. -/
theorem nextStart_eq {o e : Tick} (hp : 0 < d.period) (p2 : d.period < 2 ^ 32)
    (ne : notEarlier e (d.nextStart o e) = true) : e = d.nextStart o e := by
  have h := nextStart_within (n := 1) hp p2 (by omega) (by simp [distance]) ne
  unfold distance at h
  have h0 : e - d.nextStart o e = 0#48 := by
    apply BitVec.eq_of_toNat_eq
    simp only [BitVec.toNat_ofNat]
    omega
  exact sub_eq_zero.mp h0

/-! ## What a completion hands on -/

/-- At the edge that is seen, whose timestamp is the horizon, a PERIODIC completion hands the edge on when
the next start is not later than it: after a span limit whenever it opens, else when the start is that tick. -/
theorem complete_again (s : State) (slot : Fin 32) (d : Definition) (status : RecordStatus)
    (endTick : Tick) (hs : (s.job slot).settle = some settle) (ho : (s.job slot).opened endTick = opened)
    (nw : s.now = tickAfter e.timestamp settle) :
    (s.complete slot d status endTick (some e.timestamp)).again
      = match d.repeating with
        | .once => false
        | .continuous => status == .spanLimit
        | .periodic => notEarlier e.timestamp (d.nextStart opened endTick)
            && (status == .spanLimit || e.timestamp == d.nextStart opened endTick) := by
  have hz : tickBefore s.now settle = e.timestamp := by rw [nw]; simp [tickBefore, tickAfter]
  obtain ⟨rec, -, -, -, jb⟩ := produce_spec s slot d status endTick opened ho
  have pn := (produce_acts slot s d status endTick).now
  unfold State.complete State.actRepeat
  generalize s.produce slot d status endTick = p at *
  have jq : (p.dropEntry slot).job slot = p.job slot := rfl
  have oq : ((p.dropEntry slot).job slot).opened endTick = opened := by
    rw [jq, jb, ← ho]; rfl
  have sq : ((p.dropEntry slot).job slot).settle = some settle := by
    rw [jq, jb]; simp [hs]
  have hq : (p.dropEntry slot).horizon slot = e.timestamp := by
    rw [← hz]
    simp only [State.horizon, Job.settleTicks, sq, Option.getD_some]
    rw [show (p.dropEntry slot).now = s.now from pn]
  cases d.repeating with
  | once => rfl
  | continuous =>
    dsimp only
    cases status
    case complete => dsimp only; split <;> rfl
    all_goals rfl
  | periodic =>
    dsimp only
    rw [oq, hq]
    split <;> rename_i h
    · rw [h]; rfl
    · rw [Bool.eq_false_of_not_eq_true h]; rfl

/-- The entries of the other slots are those that the slot's entry has been placed among. -/
theorem State.entryStands.others {next : Option Boundary} (h : s.entryStands slot next settle t) :
    t.otherEntries slot = s.otherEntries slot := by
  unfold State.entryStands at h
  cases next with
  | none =>
    have h : t.deadlines.entries = s.otherEntries slot := h
    unfold State.otherEntries at *
    rw [h, List.filter_filter]; simp
  | some b =>
    obtain ⟨a, b, h1, h2, -, -⟩ := h
    unfold State.otherEntries at *
    rw [h2, List.filter_append, List.filter_cons_of_neg (by simp), ← List.filter_append, ← h1]
    simp

theorem State.sparesOthers.trans {u : State} (h : s.sparesOthers slot t) (k : t.sparesOthers slot u) :
    s.sparesOthers slot u := by
  obtain ⟨b1, b2, b3, b4, b5, b6, b7, b8, b9, b10⟩ := h
  obtain ⟨c1, c2, c3, c4, c5, c6, c7, c8, c9, c10⟩ := k
  exact ⟨c1.trans b1, c2.trans b2, c3.trans b3, c4.trans b4, c5.trans b5, c6.trans b6, c7.trans b7,
    c8.trans b8, c9.trans b9, fun k hk => (c10 k hk).trans (b10 k hk)⟩

/-! ## The edge that meets the span limit (R64, R65, R85) -/

/-- A span limit ends the measurement without the edge, which is then seen in the state that results. Under
PERIODIC the kind is one that stalls, and the edge follows the end by less than the stall. -/
theorem limits_end (h : s.limits slot d settle opened e rest) (a : d.actsOn e = true) (al : d.allowed)
    {endTick : Tick} (en : (s.job slot).spanLimitEnd d e.timestamp = endTick)
    (pe : d.repeating = .periodic → distance endTick e.timestamp < d.stall
      ∧ (d.kind = .period ∨ d.kind = .width ∨ d.kind = .phase)) :
    s.limitEnds slot d settle opened e rest endTick := by
  obtain ⟨se, ac, op, ne, di⟩ := id h
  have ex := se.exec_again
  rw [h.act a, en] at ex
  obtain ⟨ru, df, st, hl, nw, rf, nx⟩ := id se
  have W := complete_worked s slot d (s.job slot).acc rest .spanLimit endTick opened e.timestamp
    (some e.timestamp) none settle st (by simp [Job.opened, op]) (fun _ => ⟨rfl, rfl⟩) (fun _ => rfl)
  change s.ends slot d settle opened (s.job slot).acc rest .spanLimit endTick e.timestamp none
    ((s.unheld slot rest).complete slot d .spanLimit endTick (some e.timestamp)).state at W
  have ag := complete_again (e := e) (opened := opened) (settle := settle) (s.unheld slot rest) slot d
    .spanLimit endTick (by simpa [State.unheld] using st) (by simp [State.unheld, Job.opened, op]) nw
  have F := complete_acts slot (s.unheld slot rest) d .spanLimit endTick (some e.timestamp)
  generalize (s.unheld slot rest).complete slot d .spanLimit endTick (some e.timestamp) = r at *
  obtain ⟨sp, rec, tk, te, en1⟩ := id W
  have rf' : referenceIsDue r.state = false := by
    rw [← rf]; unfold referenceIsDue lossIsDue regainIsDue; rw [F.timebase]; rfl
  have nw' : r.state.now = tickAfter e.timestamp settle := by rw [F.now]; exact nw
  have df' : (r.state.job slot).definition = some d := by rw [F.definition]; simp [State.unheld, df]
  have hz : tickBefore s.now settle = e.timestamp := by rw [nw]; simp [tickBefore, tickAfter]
  refine ⟨r.state, _, W, ex, fun ho => by rw [ag, ho]; rfl, fun ho => ?_⟩
  cases hrep : d.repeating with
  | once => exact absurd hrep ho
  | continuous =>
    have j := en1.2.2.1 hrep
    rw [ag, hrep, if_pos (by rfl)]
    have fr := seeEdge_at_open r.state df' al j
    rw [fr 281474976710654, ← fr 281474976710655]
    exact seen_in_front r.state (by rw [j]; exact st) (by rw [j]; rfl) (by rw [j]; rfl) nw' rf'
  | periodic =>
    obtain ⟨hlt, kd⟩ := pe hrep
    have pr := al.2.2.2.2.2.2.2.2.2
    rw [if_pos hrep] at pr
    have pp : 0 < d.period := by omega
    obtain ⟨-, c1, c2⟩ := en1.2.2.2 hrep _ (one_le_gridSteps opened endTick d.period)
      (gridSteps_reaches pp) (gridSteps_least pp)
    rw [hz] at c1 c2
    rw [ag, hrep]
    simp only [beq_self_eq_true, Bool.true_or, Bool.and_true]
    cases hne : notEarlier e.timestamp (d.nextStart opened endTick) with
    | false =>
      have j := c1 hne
      rw [if_neg (by simp)]
      have same : seeEdge 281474976710656 r.state slot e = r.state := by
        have act : r.state.actOnEdge slot d e = ⟨r.state, false⟩ := by
          unfold State.actOnEdge
          rw [j]
        rw [seeEdge_now _ df' (by rw [j]; rintro b ⟨⟩; exact hne), act]
        rfl
      have := seen_in_front (e := e) (rest := rest) r.state (by rw [j]; exact st) (by rw [j]; rfl)
        (by rw [j]) nw' rf'
      rw [same] at this
      exact this
    | true =>
      have j := c2 hne
      rw [if_pos rfl]
      have st2 := al.2.2.2.2.2.2.2.1
      have ds : d.stall < 2 ^ 32 := by rcases kd with k | k | k <;> simp only [k] at st2 <;> omega
      have dd := nextStart_within pp pr.2.1 ds hlt hne
      have fr := seeEdge_fresh (u := r.state) (e := e) (slot := slot) df' al (by rw [j]; rfl)
        (o := d.nextStart opened endTick) (by rw [j]; rfl) (by rw [j]; rfl) hne (by omega)
        (by
          rw [j]
          refine firstBoundary_later al ?_
          rcases kd with k | k | k <;> simp only [k] <;> exact dd)
      rw [fr 281474976710654, ← fr 281474976710655]
      exact seen_in_front r.state (by rw [j]; exact st) (by rw [j]; rfl) (by rw [j]; rfl) nw' rf'

/-! ## The edge that completes a measurement (R50 to R55, R62) -/

/-- A FREQ_SYNC or PERIOD measurement that a PERIODIC job opened at the closing edge takes that edge as its
t0: the end is one that carries the edge over. -/
theorem State.ends.takes_first {a : Accumulators} {r : State} (hrep : d.repeating = .periodic)
    (kind : d.kind = .freqSync ∨ d.kind = .period) (pp : 0 < d.period)
    (se : (s.job slot).settle = some settle) (hz : tickBefore s.now settle = e.timestamp)
    (start : e.timestamp = d.nextStart opened e.timestamp)
    (W : s.ends slot d settle opened a rest .complete e.timestamp e.timestamp none r) :
    s.ends slot d settle opened a rest .complete e.timestamp e.timestamp (some e.timestamp)
      (r.progress slot d { Accumulators.cleared with
        firstEdge := some e.timestamp, lastProgress := some e.timestamp } e.timestamp) := by
  unfold Definition.nextStart at start
  obtain ⟨sp, rec, tk, te, en⟩ := W
  have np : d.repeating ≠ .once := by rw [hrep]; nofun
  have least : ∀ n, 1 ≤ n → distance opened e.timestamp ≤ n * d.period →
      (n = 1 ∨ (n - 1) * d.period < distance opened e.timestamp) →
      n = gridSteps opened e.timestamp d.period := fun n a b c => (gridSteps_eq a b c).symm
  obtain ⟨c0, -, c2⟩ := en.2.2.2 hrep _ (one_le_gridSteps opened e.timestamp d.period)
    (gridSteps_reaches pp) (gridSteps_least pp)
  rw [hz, ← start] at c2
  have j := c2 (by simp [notEarlier, distance])
  have now : r.now = s.now := by unfold State.now; rw [sp.1]
  obtain ⟨reservations, stands⟩ := en.2.1 np
  generalize hb : ({ Accumulators.cleared with
    firstEdge := some e.timestamp, lastProgress := some e.timestamp } : Accumulators) = b
  have acts := progress_acts (s := r) slot d b e.timestamp fun _ => hb ▸ Nat.zero_le _
  have jt : (r.progress slot d b e.timestamp).job slot = { r.job slot with
      acc := b, next := some ⟨.stall, tickAfter e.timestamp d.stall⟩ } := by
    unfold State.progress State.setAcc
    rw [setBoundary_job, if_pos rfl, State.job_setJob_self]
  refine ⟨sp.trans acts.spares, rec, tk.after acts rfl ⟨_, jt, rfl, rfl, rfl, rfl, rfl⟩, te,
    fun h => absurd h np, fun _ => ⟨reservations, ?_⟩, fun h => absurd (hrep.symm.trans h) nofun,
    fun _ n x y z => ?_⟩
  · rw [jt]
    have := setBoundary_placed (r.setAcc slot b) slot ⟨.stall, tickAfter e.timestamp d.stall⟩
    rw [show ((r.setAcc slot b).job slot).settleTicks = settle by
        unfold State.setAcc; rw [State.job_setJob_self, j]; simp [Job.settleTicks, Job.opensAt, se],
      show (r.setAcc slot b).otherEntries slot = s.otherEntries slot from stands.others,
      show (r.setAcc slot b).now = s.now from now] at this
    exact this
  · obtain rfl := least n x y z
    dsimp only
    rw [hz, ← start]
    refine ⟨fun h => acts.raised (c0 h), fun h => by simp [notEarlier, distance] at h, fun _ => ?_⟩
    rw [jt, j, ← hb]
    unfold Job.opensAt
    rcases kind with k | k <;> simp only [k] <;> rfl

/-- The end of a measurement at an edge that its kind acts on. -/
theorem closes_end (h : s.processes slot d settle e rest) (acts : d.actsOn e = true) {a : Accumulators}
    (kind : d.kind ≠ .freqFixed ∧ d.kind ≠ .tally)
    (step : (s.unheld slot rest).kindStep slot d e
      = (s.worked slot rest a).complete slot d .complete e.timestamp (some e.timestamp))
    (al : d.repeating = .periodic → d.allowed) (op : (s.job slot).openTick = some opened)
    (stop : (d.kind = .width → d.selectA.admits e.polarity = false)
      ∧ (d.kind = .phase → e.channel ≠ d.channelA)) :
    ∃ t, completes (.edgeSeen slot) s t
      ∧ s.ends slot d settle opened a rest .complete e.timestamp e.timestamp
        (if d.kind = .freqSync ∨ d.kind = .period then some e.timestamp else none) t := by
  have ex := h.1.exec_again
  rw [h.act acts, step] at ex
  obtain ⟨ru, df, se, hl, nw, rf, nx⟩ := h.1
  have ag := complete_again (e := e) (opened := opened) (settle := settle) (s.worked slot rest a) slot d
    .complete e.timestamp (by simpa using se) (by simp [Job.opened, op]) nw
  have hz : tickBefore s.now settle = e.timestamp := by rw [nw]; simp [tickBefore, tickAfter]
  have F := complete_acts slot (s.worked slot rest a) d .complete e.timestamp (some e.timestamp)
  by_cases hrep : d.repeating = .periodic
  · have al := al hrep
    have W := complete_worked s slot d a rest .complete e.timestamp opened e.timestamp
      (some e.timestamp) none settle se (by simp [Job.opened, op]) (by rw [hrep]; nofun) (fun _ => rfl)
    change s.ends slot d settle opened a rest .complete e.timestamp e.timestamp none
      ((s.worked slot rest a).complete slot d .complete e.timestamp (some e.timestamp)).state at W
    generalize (s.worked slot rest a).complete slot d .complete e.timestamp (some e.timestamp) = r at *
    rw [hrep] at ag
    have pr := al.2.2.2.2.2.2.2.2.2
    rw [if_pos hrep] at pr
    have pp : 0 < d.period := by omega
    unfold Definition.nextStart at ag
    by_cases hq : e.timestamp = d.nextStart opened e.timestamp
    · -- the next measurement opens at the edge, which it takes
      have start := hq
      unfold Definition.nextStart at hq
      obtain ⟨sp, rec, tk, te, en⟩ := id W
      obtain ⟨-, -, c2⟩ := en.2.2.2 hrep _ (one_le_gridSteps opened e.timestamp d.period)
        (gridSteps_reaches pp) (gridSteps_least pp)
      rw [hz, ← hq] at c2
      have j := c2 (by simp [notEarlier, distance])
      rw [if_pos (by rw [ag, ← hq]; simp [notEarlier, distance])] at ex
      rw [seeEdge_at_open r.state (by rw [F.definition]; simp [df]) al j] at ex
      refine ⟨_, ex, ?_⟩
      have ac : (r.state.job slot).acc = .cleared := by rw [j]; rfl
      have act : r.state.actOnEdge slot d e = r.state.kindStep slot d e := by
        unfold State.actOnEdge State.processEdge
        have : (r.state.job slot).opened e.timestamp = e.timestamp := by rw [Job.opened, j]; rfl
        have st : (r.state.job slot).state = .active := by rw [j]; rfl
        dsimp only
        rw [this, st]
        simp [notEarlier, distance, acts]
      rw [act]
      by_cases fk : d.kind = .freqSync ∨ d.kind = .period
      · rw [if_pos fk]
        have := W.takes_first hrep fk pp se hz start
        unfold State.kindStep
        rcases fk with fk | fk <;> rw [fk] <;> simp only [ac] <;> exact this
      · rw [if_neg fk]
        have same : (r.state.kindStep slot d e).state = r.state := by
          unfold State.kindStep
          cases hk : d.kind <;> simp only [hk] at fk kind <;> simp at fk kind
          · simp only [stop.1 hk, ac, Accumulators.cleared]; simp
          · simp only [stop.2 hk, ac, Accumulators.cleared]; simp
        rw [same]
        exact W
    · -- the next start is a later one
      have ne : notEarlier e.timestamp (d.nextStart opened e.timestamp) = false := by
        rw [Bool.eq_false_iff]
        exact fun hn => hq (nextStart_eq pp pr.2.1 hn)
      unfold Definition.nextStart at ne
      rw [if_neg (by rw [ag, ne]; simp)] at ex
      obtain ⟨sp, rec, tk, te, en⟩ := W
      refine ⟨_, ex, sp, rec, tk, te, en.1, en.2.1, fun h => absurd (hrep.symm.trans h) nofun,
        fun _ n x y z => ?_⟩
      obtain ⟨c0, c1, -⟩ := en.2.2.2 hrep n x y z
      obtain rfl := (gridSteps_eq x y z).symm
      dsimp only
      rw [hz, ne]
      rw [hz] at c1
      exact ⟨c0, fun _ => c1 ne, nofun⟩
  · have : (match d.repeating with
        | .once => false
        | .continuous => RecordStatus.complete == .spanLimit
        | .periodic => notEarlier e.timestamp (d.nextStart opened e.timestamp)
            && (RecordStatus.complete == .spanLimit || e.timestamp == d.nextStart opened e.timestamp))
        = false := by
      cases hr : d.repeating
      · rfl
      · rfl
      · exact absurd hr hrep
    rw [ag, this, if_neg Bool.false_ne_true] at ex
    exact ⟨_, ex, complete_worked s slot d a rest .complete e.timestamp opened e.timestamp
      (some e.timestamp) _ settle se (by simp [Job.opened, op]) (fun _ => ⟨rfl, rfl⟩)
      (fun h => absurd h hrep)⟩

end Sys2Proof.Machine
end

