-- ==== Sys2Proof/Laws/Holding.lean ====
section
/-! SUPPORT. The work of a job does not look at its held edges: taking a boundary, forming a record, opening
and ending a measurement do the same whichever edges the job holds (R48 to R50). So a boundary taken before an
edge leaves the state in which the edge is seen. -/

namespace Sys2Proof.Machine

variable (s : State) (slot : Fin 32) (d : Definition) (h : List AcceptedEdge)

/-- The held edges of a job replaced. -/
def State.holding (s : State) (slot : Fin 32) (h : List AcceptedEdge) : State :=
  s.setJob slot { s.job slot with held := h }

@[simp] theorem holding_job : (s.holding slot h).job slot = { s.job slot with held := h } :=
  State.job_setJob_self _ _ _

@[simp] theorem holding_setJob (j : Job) : (s.holding slot h).setJob slot j = s.setJob slot j := by
  simp [State.holding]

theorem setJob_holding (j : Job) :
    (s.setJob slot j).holding slot h = s.setJob slot { j with held := h } := by
  simp [State.holding]

/-- The edges a job already holds. -/
theorem holding_self {u : State} {h : List AcceptedEdge} (hh : (u.job slot).held = h) :
    u.holding slot h = u := by
  subst hh
  exact congrArg (fun v => ({ u with jobs := v } : State)) (Vector.set_getElem_self _)

/-- The oldest held edge that is due is seen in the state without it (R45). -/
theorem seen_without {u : State} {e : AcceptedEdge} {rest : List AcceptedEdge} {settle : Nat}
    (running : (u.job slot).state.running = true) (held : (u.job slot).held = e :: rest)
    (hs : (u.job slot).settle = some settle) (now : u.now = tickAfter e.timestamp settle)
    (rf : referenceIsDue u = false) :
    completes (.edgeSeen slot) u (seeEdge 281474976710656 (u.holding slot rest) slot e) := by
  have due : ((u.job slot).seenIsDue u.now && !referenceIsDue u) = true := by
    simp [Job.seenIsDue, running, held, now, rf, Job.settleTicks, hs]
  simp only [completes, exec, execEdgeSeen, due, if_true, State.see, held]
  rfl

/-- An entry of the slot at the head goes with the slot's entry (R99). -/
theorem dropEntry_head {entry : Entry} {more : List Entry} (hh : s.deadlines.entries = entry :: more)
    (hx : entry.slot = slot) :
    State.dropEntry { s with deadlines := { s.deadlines with entries := more } } slot
      = s.dropEntry slot := by
  unfold State.dropEntry
  rw [hh]
  simp [removeEntry, hx]

/-! ## Boundaries and opening (R42, R47, R62) -/

theorem setBoundary_holding (b : Boundary) (j : Job) :
    ((s.setJob slot j).setBoundary slot b).holding slot h
      = (s.setJob slot { j with held := h }).setBoundary slot b := by
  unfold State.holding
  rw [setBoundary_job, if_pos rfl]
  unfold State.setBoundary
  dsimp only
  rw [State.job_setJob_self, State.job_setJob_self]
  simp only [State.setJob, State.dropEntry, Vector.set_set]
  rfl

theorem clearBoundary_holding (j : Job) :
    ((s.setJob slot j).clearBoundary slot).holding slot h
      = (s.setJob slot { j with held := h }).clearBoundary slot := by
  unfold State.holding
  rw [clearBoundary_job, if_pos rfl]
  unfold State.clearBoundary
  rw [State.job_setJob_self, State.job_setJob_self]
  simp only [State.setJob, State.dropEntry, Vector.set_set]

theorem holding_openMeasurement (t : Tick) :
    (s.holding slot h).openMeasurement slot d t = (s.openMeasurement slot d t).holding slot h := by
  unfold State.openMeasurement
  rw [holding_job, holding_setJob]
  let j : Job := { s.job slot with
    state := .active, subMode := none, armingTick := none, openTick := some t, acc := .cleared }
  cases d.firstBoundary t with
  | some b => exact (setBoundary_holding s slot h b j).symm
  | none => exact (clearBoundary_holding s slot h j).symm

theorem holding_openAtEdge (t : Tick) :
    (s.holding slot h).openAtEdge slot d t = (s.openAtEdge slot d t).holding slot h := by
  unfold State.openAtEdge
  rw [holding_openMeasurement]
  dsimp only
  rw [holding_job, holding_setJob, setJob_holding]

theorem holding_enterHold (t : Tick) :
    (s.holding slot h).enterHold slot t = (s.enterHold slot t).holding slot h := by
  unfold State.enterHold
  rw [holding_job, holding_setJob]
  exact (setBoundary_holding s slot h ⟨.start, t⟩ { s.job slot with state := .hold }).symm

/-- A job that leaves the running states holds no edge (R46). -/
theorem holding_leaveRunning (state : JobState) :
    (s.holding slot h).leaveRunning slot state = s.leaveRunning slot state := by
  unfold State.leaveRunning State.clearBoundary
  rw [holding_job, holding_setJob, ← setJob_holding s slot h { s.job slot with next := none }]
  generalize s.setJob slot _ = w
  show State.releaseReservation (State.setJob ((w.dropEntry slot).holding slot h) slot
    { ((w.dropEntry slot).holding slot h).job slot with
      state := state, subMode := none, armingTick := none, settle := none, startBase := none,
      held := [] }) = _
  rw [holding_setJob, holding_job]

/-! ## Records (R50, R106 to R112, R127 to R129) -/

theorem holding_evaluateAlert :
    (s.holding slot h).evaluateAlert = s.evaluateAlert.holding slot h := by
  have each : ∀ k, ((s.holding slot h).jobs.get k).drivesAlert = (s.jobs.get k).drivesAlert := by
    intro k
    show ((s.holding slot h).job k).drivesAlert = (s.job k).drivesAlert
    by_cases e : k = slot
    · subst e; rw [holding_job]; rfl
    · unfold State.holding; rw [State.job_setJob_ne _ e]
  have same : anyIn Job.drivesAlert (s.holding slot h).jobs = anyIn Job.drivesAlert s.jobs := by
    rw [Bool.eq_iff_iff, anyIn_eq_true, anyIn_eq_true]
    simp [each]
  unfold State.evaluateAlert
  rw [same]
  rfl

theorem holding_moveAlert (v : Verdict) :
    (s.holding slot h).moveAlert slot v = (s.moveAlert slot v).holding slot h := by
  have := holding_evaluateAlert
    (s.setJob slot { s.job slot with alert := (s.job slot).alert.after v }) slot h
  rw [setJob_holding] at this
  unfold State.moveAlert
  simp only [holding_job, holding_setJob]
  rw [this]
  cases (s.job slot).alert <;> cases v <;> rfl

theorem holding_offerRecord (r : Record) :
    (s.holding slot h).offerRecord slot r = (s.offerRecord slot r).holding slot h := by
  unfold State.offerRecord
  simp only [holding_job, holding_setJob]
  rw [show (s.holding slot h).results = s.results from rfl]
  split
  · rw [← setJob_holding s slot h { s.job slot with
      latest := some { r with lostBefore := (s.job slot).lostPending }, lostPending := 0 }]
    generalize s.setJob slot _ = w
    rw [show (w.holding slot h).results = w.results from rfl]
    split <;> rfl
  · rw [← setJob_holding s slot h { s.job slot with
      latest := some r, lostPending := saturate (s.job slot).lostPending 1,
      lostTotal := saturate (s.job slot).lostTotal 1 }]
    rfl

theorem holding_handOn (r : Record) (queue : Bool) :
    (s.holding slot h).handOn slot r queue = (s.handOn slot r queue).holding slot h := by
  unfold State.handOn
  dsimp only
  rw [holding_moveAlert,
    show ((s.holding slot h).job slot).window = (s.job slot).window by rw [holding_job]]
  cases queue
  · simp only [Bool.false_eq_true, if_false, holding_job, holding_setJob]
    rw [setJob_holding]
  · simp only [if_true]
    rw [holding_offerRecord]

theorem holding_produce (status : RecordStatus) (endTick : Tick) :
    (s.holding slot h).produce slot d status endTick
      = (s.produce slot d status endTick).holding slot h := by
  unfold State.produce
  rw [show (s.holding slot h).formRecord slot d status endTick = s.formRecord slot d status endTick by
    unfold State.formRecord; rw [holding_job]; rfl]
  dsimp only
  rw [holding_job, holding_setJob, ← setJob_holding s slot h { s.job slot with
    sequence := (s.formRecord slot d status endTick).sequence, pendingMissed := 0 }]
  generalize s.setJob slot _ = w
  rw [show (w.holding slot h).raiseStatus slot status = (w.raiseStatus slot status).holding slot h by
    cases status <;> rfl, holding_handOn]

theorem holding_interimReport (b : Tick) :
    (s.holding slot h).interimReport slot d b = (s.interimReport slot d b).holding slot h := by
  unfold State.interimReport
  rw [holding_produce]
  dsimp only
  rw [holding_job, holding_setJob]
  exact (setBoundary_holding (s.produce slot d .interim b) slot h ⟨.report, tickAfter b d.report⟩
    { (s.produce slot d .interim b).job slot with
      acc := { ((s.produce slot d .interim b).job slot).acc with count := 0 } }).symm

/-! ## The end of a measurement (R50 to R55) -/

theorem holding_countMissed (n : Nat) :
    (s.holding slot h).countMissed slot n = (s.countMissed slot n).holding slot h := by
  unfold State.countMissed
  split
  · dsimp only
    rw [holding_job, holding_setJob, ← setJob_holding s slot h { s.job slot with
      missedTotal := saturate (s.job slot).missedTotal n,
      pendingMissed := saturate (s.job slot).pendingMissed n }]
    rfl
  · rfl

/-- Under ONCE the held edges are discarded; else they are kept. -/
theorem holding_complete (status : RecordStatus) (endTick : Tick) (edge : Option Tick) :
    ((s.holding slot h).complete slot d status endTick edge).again
        = (s.complete slot d status endTick edge).again
      ∧ (d.repeating = .once → ((s.holding slot h).complete slot d status endTick edge).state
        = (s.complete slot d status endTick edge).state)
      ∧ (d.repeating ≠ .once → ((s.holding slot h).complete slot d status endTick edge).state
        = (s.complete slot d status endTick edge).state.holding slot h) := by
  unfold State.complete
  rw [holding_produce]
  generalize s.produce slot d status endTick = p
  rw [show (p.holding slot h).dropEntry slot = (p.dropEntry slot).holding slot h from rfl]
  generalize p.dropEntry slot = q
  unfold State.actRepeat
  cases hr : d.repeating with
  | once =>
    refine ⟨rfl, fun _ => ?_, fun x => absurd rfl x⟩
    dsimp only
    rw [holding_leaveRunning]
  | continuous =>
    dsimp only
    refine ⟨?_, nofun, fun _ => ?_⟩
    · split
      · rfl
      · split <;> rfl
      · rfl
    · split
      · exact holding_openMeasurement _ _ _ _ _
      · split
        · exact holding_openAtEdge _ _ _ _ _
        · exact holding_openMeasurement _ _ _ _ _
      · exact holding_openMeasurement _ _ _ _ _
  | periodic =>
    dsimp only
    rw [show ((q.holding slot h).job slot).opened endTick = (q.job slot).opened endTick by
        rw [holding_job]; rfl,
      show (q.holding slot h).horizon slot = q.horizon slot by
        unfold State.horizon; rw [holding_job]; rfl,
      holding_countMissed]
    refine ⟨?_, nofun, fun _ => ?_⟩
    · split <;> rfl
    · split
      · exact holding_openMeasurement _ _ _ _ _
      · exact holding_enterHold _ _ _ _

end Sys2Proof.Machine
end

