-- ==== Sys2Proof/WellFormed.lean ====
section
/-! DEFINITION. Which commands are well formed: an operand has a value that its row allows. A
channel is 0 to 7 and a slot 0 to 31 by their types. -/

namespace Sys2Proof

/-- SYNC, the first byte of every frame (R177). -/
abbrev syncByte : Byte := 0xC3#8

/-- A LEN byte that R179 stores in the partial frame. -/
def validLength (b : Byte) : Bool := 3 ≤ b.toNat && b.toNat ≤ 252

/-- The operand checks: a stray byte is not SYNC, a bad length is outside 3 to 252 (R179), and the
analog inputs accept 0 V to 3.3 V (00_scope.md, section 4), whose highest level lies above that of
code 1023. -/
def Instr.wellFormed : Instr → Bool
  | .strayByte b => b != syncByte
  | .badLength b => !validLength b
  | .comparatorOutput _ level => decide (level ≤ 2047)
  | .powerReset _ _ | .initEnd | .refclkEdge | .refLoss | .regain | .revert _ | .edgeAccepted _
  | .edgeArrival _ | .edgeSeen _ | .deadlineExpiry | .probeStep _ | .receiveFrame _ | .truncation
  | .breakDetected | .linkReset | .replyBegin | .replySent | .noticeBegin | .noticeSent
  | .unknownRequest | .describe | .status | .time | .grant | .softReset | .chanSet | .chanGet
  | .probeStart | .probeCancel | .captureSet | .captureRead | .captureFlush | .jobDefine
  | .jobStart | .jobStop | .jobClear | .jobGet | .resultFetch | .resultSetup | .resultFlush
  | .limitSet | .tick _ | .sync | .frameByte _ => true

end Sys2Proof
end

