-- ==== Sys2Proof/Tests/Slice0.lean ====
section
/-! SUPPORT. Tests of single steps on small states, with expected values from the spec's own examples and
tables, and for every statement that has hypotheses a state that meets them, clause by clause. -/

namespace Sys2Proof.Tests

open Sys2Proof.Machine

/-! ## Small states -/

/-- A NORMAL device at tick 1,000,000, its link initialised and its notices sent. -/
def live : State := { State.reset with
  timebase := { Timebase.reset with
    tick := 1000000, state := .normal, sinceEdge := 1, lastAbnormal := some 40119,
    abnormalAge := 959881 }
  notices := { NoticeQueue.reset with queued := [], credits := 0 }
  link := { State.reset.link with initialised := true } }

/-- One request in the intake queue, with TAG 7. -/
def asked (s : State) (code : Byte) (payload : List Byte) : State :=
  { s with link := { s.link with intake := [⟨7, code, payload⟩] } }

/-- The state after a command. -/
def after (c : Instr) (s : State) : State :=
  match exec c s with
  | .next t => t
  | .fault _ => s
  | .refused _ => s

/-- CODE and payload of the last reply of the queue. -/
def answer (s : State) : Option (Byte × List Byte) :=
  s.link.replies.getLast?.map (fun r => (r.code, r.payload))

def enabled : Channel := { Channel.reset 0 with state := .enabled, accepted := some .low }

def probing : Channel := { Channel.reset 0 with
  state := .probing, returnState := some .enabled,
  probe := some { trial := 512, step := 1, dwell := 40, stepStart := 999960, highSeen := true,
                  lowSeen := true, mixed := 0, adopt := true } }

/-- A definition of a kind on channel 0 with select RISE. -/
def define (kind : Kind) (repeating : Repeat) : Definition :=
  { kind := kind, channelA := 0, selectA := .rise, channelB := 0, selectB := .none, gate := 0,
    count := 0, report := 0, target := 0, stall := 0, repeating := repeating, period := 0,
    queueResults := true }

def gate (repeating : Repeat) : Definition := { define .freqFixed repeating with gate := 400 }
def sync : Definition := { define .freqSync .once with gate := 400, stall := 4000 }
def period : Definition := { define .period .once with count := 1, stall := 4000 }
def width : Definition := { define .width .once with count := 1, stall := 4000 }
def phase : Definition := { define .phase .once with
  channelB := 1, selectB := .rise, count := 1, stall := 4000 }
def tally : Definition := { define .tally .once with target := 1, report := 4000 }

/-- An ACTIVE job of settle 4, opened 400 ticks before tick 999,996. -/
def active (d : Definition) (next : Option Boundary) (held : List AcceptedEdge) : Job :=
  { Job.reset with
    state := .active, definition := some d, settle := some 4, openTick := some 999596, next := next,
    held := held }

/-- The job of slot 0, with its entry and its reservation. -/
def withJob (j : Job) : State :=
  { ((live.setChannel 0 enabled).setChannel 1 enabled).setJob 0 j with deadlines :=
    { entries := match j.next with
        | some b => [⟨tickAfter b.tick 4, 0, b.purpose⟩]
        | none => [],
      reservations := 1 } }

/-- The edge that a job of settle 4 sees at tick 1,000,000. -/
def edge (ch : Fin 8) (polarity : Polarity) : AcceptedEdge := ⟨ch, 999996, polarity⟩

def slotZero (s : State) : Job := s.job 0

theorem asked_asks (s : State) (code : Byte) (payload : List Byte) (i : s.link.initialised = true)
    (r : s.link.replies.length < 4) (x : s.link.executed = false) :
    (asked s code payload).asks 7 code payload [] := ⟨i, r, x, rfl⟩

theorem live_asks (code : Byte) (payload : List Byte) :
    (asked live code payload).asks 7 code payload [] := ⟨rfl, Nat.zero_lt_succ 3, rfl, rfl⟩

theorem job_asks (j : Job) (code : Byte) (payload : List Byte) :
    (asked (withJob j) code payload).asks 7 code payload [] := ⟨rfl, Nat.zero_lt_succ 3, rfl, rfl⟩

theorem channel_asks (c : Channel) (code : Byte) (payload : List Byte) :
    (asked (live.setChannel 0 c) code payload).asks 7 code payload [] := ⟨rfl, Nat.zero_lt_succ 3, rfl, rfl⟩

/-- No job runs in a state built on `live`. -/
theorem free_of_jobs (s : State) (ch : Fin 8) (h : s.jobs = live.jobs) : ¬s.claimed ch := by
  rintro ⟨slot, d, r, -, -⟩
  have e : s.job slot = live.job slot := by simp only [State.job, h]
  rw [e] at r
  clear e
  revert slot
  decide

/-! ## Well-formed commands: each check refuses its ill-formed command -/

theorem test_stray_sync_ill_formed : (Instr.strayByte 0xC3).wellFormed = false := by decide
theorem test_bad_length_in_range_ill_formed :
    (Instr.badLength 3).wellFormed = false ∧ (Instr.badLength 252).wellFormed = false := by decide
theorem test_input_above_supply_ill_formed :
    (Instr.comparatorOutput 0 2048).wellFormed = false := by decide
theorem test_well_formed : (Instr.strayByte 0x00).wellFormed = true
    ∧ (Instr.badLength 253).wellFormed = true ∧ (Instr.comparatorOutput 7 2047).wellFormed = true := by
  decide

/-- No row of the table gives bits, so no word spells a command. -/
theorem test_no_word_decodes : decodeTableWord 8 0x05 = none := by decide

/-! ## Codes and arithmetic of the spec's examples -/

set_option maxRecDepth 8000 in
/-- R178: the CRC of the bytes 0x31 to 0x39 is 0x29B1. -/
theorem test_crc_check_value :
    crc16 [0x31, 0x32, 0x33, 0x34, 0x35, 0x36, 0x37, 0x38, 0x39] = 0x29B1#16 := by decide

/-- Section 1.2: the table of R3. -/
theorem test_modular_comparison :
    notEarlier 1000 400 = true ∧ notEarlier 400 1000 = false
      ∧ notEarlier 5 (BitVec.ofNat 48 (2 ^ 48 - 3)) = true ∧ notEarlier 700 700 = true := by decide

/-- The table of R158. -/
theorem test_adopted_codes :
    (adoptedHigh 776 528 496, adoptedLow 776 528 496) = (404, 372)
      ∧ (adoptedHigh 1023 600 560, adoptedLow 1023 600 560) = (531, 491)
      ∧ (adoptedHigh 20 528 496, adoptedLow 20 528 496) = (26, 0)
      ∧ (adoptedHigh 500 700 700, adoptedLow 500 700 700) = (250, 250) := by decide

/-- R70: 10 edges in a gate of 40,000 ticks are 10,000,000 mHz; R68: nothing counted is 0. -/
theorem test_rate : rate 10 40000 = 10000000 ∧ rate 0 40000 = 0 ∧ rate 1 0 = 0 := by decide

/-- R177: at 1,000,000 bit/s a 7-byte frame takes 2,800 ticks, and a 256-byte frame 102,400. -/
theorem test_frame_times : byteEnd .r1000000 7 = 2800 ∧ byteEnd .r1000000 256 = 102400 := by decide

/-! ## One step of each command -/

theorem test_step_takes_front :
    (match step { live with pending := [.sync, .truncation] } with
      | .next t => t.pending | .fault _ => [] | .refused _ => []) = [.truncation] := by decide

theorem test_power_reset_rate :
    ((after (.powerReset true false) live).link.rate, (after (.powerReset true false) live).now)
      = (.r1000000, 0) := by decide

theorem test_first_tick_counts_tick_zero :
    ((after (.tick .high) State.reset).now, (after (.tick .high) State.reset).timebase.lastAbnormal)
      = (0, some 0) := by decide

theorem test_tick_wraps :
    (after (.tick .high) { live with timebase := { live.timebase with
      tick := BitVec.ofNat 48 (2 ^ 48 - 1) } }).now = 0 := by decide

theorem test_refclk_edge_begins_presence :
    (after .refclkEdge State.reset).timebase.regain = some 0 := by decide

theorem test_ref_loss_enters_holdover :
    (let t := (after .refLoss { live with timebase := { live.timebase with
        sinceEdge := 80, lossDue := true } }).timebase;
      (t.state, t.holdoverEntries, t.lastAbnormal)) = (.holdover, 1, some 1000000) := by decide

/-- R5: at a tick at which a loss has been declared there is no edge. -/
theorem test_no_edge_after_the_loss :
    (let t := after .refLoss { live with timebase := { live.timebase with
        sinceEdge := 80, lossDue := true } };
      after .refclkEdge t = t) := by decide

/-- Section 1.8: REF_GOOD at tick 40,120 leaves 40,119 as the last abnormal tick. -/
theorem test_regain_last_abnormal :
    (let t := (after .regain { State.reset with timebase := { Timebase.reset with
        tick := 40120, sinceEdge := 0, regain := some 40000, lastAbnormal := some 40120 } }).timebase;
      (t.state, t.lastAbnormal, t.abnormalAge)) = (.normal, some 40119, 1) := by decide

def pendingHigh (run : Nat) (sample : Option Level) : Channel := { enabled with
  filter := 1, pending := some ⟨.high, 999999, run⟩, sample := sample }

theorem test_revert_counts :
    ((after (.revert 0) (live.setChannel 0 (pendingHigh 1 (some .low)))).channel 0).glitches = 1 := by
  decide

theorem test_accept_back_dates :
    ((after (.edgeAccepted 0) (live.setChannel 0 (pendingHigh 2 (some .high)))).channel 0).inTransit
      = [⟨0, 999999, .rise⟩] := by decide

/-- R20: filter width 0, edges at three successive ticks: the third is accepted once the first has arrived,
so that two are in transit. -/
theorem test_at_most_two_in_transit :
    (let s := live.setChannel 0 { enabled with
        inTransit := [⟨0, 999998, .rise⟩, ⟨0, 999999, .fall⟩], pending := some ⟨.high, 1000000, 1⟩,
        sample := some .high };
      (after (.edgeAccepted 0) s = s,
        ((after (.edgeAccepted 0) (after (.edgeArrival 0) s)).channel 0).inTransit))
      = (True, [⟨0, 999999, .fall⟩, ⟨0, 1000000, .rise⟩]) := by
  refine Prod.ext (eq_true (by decide)) (by decide)

def transit : Channel := { enabled with filter := 2, inTransit := [edge 0 .rise] }

theorem test_arrival_is_logged :
    ((after (.edgeArrival 0) ((live.setChannel 0 transit).setCapture 0
      { CaptureQueue.reset with depth := 1, select := .rise })).capture 0).entries
      = [⟨999996, .rise, false⟩] := by decide

theorem test_displaced_head_is_marked :
    (let q := (after (.edgeArrival 0) ((live.setChannel 0 transit).setCapture 0
        { CaptureQueue.reset with
          depth := 2, select := .both, policy := .keepNew,
          entries := [⟨1, .rise, false⟩, ⟨2, .fall, false⟩] })).capture 0;
      (q.entries, q.loss)) = ([⟨2, .fall, true⟩, ⟨999996, .rise, false⟩], 1) := by decide

/-- R49: an edge at the close tick falls in the next gate. -/
theorem test_edge_at_close_tick :
    (let j := slotZero (after (.edgeSeen 0)
        (withJob (active (gate .continuous) (some ⟨.close, 999996⟩) [edge 0 .rise])));
      (j.acc.count, j.openTick, j.latest.map Record.count)) = (1, some 999996, some 0) := by decide

/-- R89: an edge due at a loss tick is seen after the loss, so its record has the HOLDOVER flag. -/
theorem test_edge_waits_for_the_loss :
    (let s : State := { withJob (active tally none [edge 0 .rise]) with timebase := { live.timebase with
        sinceEdge := 80, lossDue := true } };
      ((slotZero (after (.edgeSeen 0) s)).latest.isSome,
        (slotZero (after (.edgeSeen 0) (after .refLoss s))).latest.map Record.holdover))
      = (false, some true) := by decide

theorem test_edge_counts :
    (slotZero (after (.edgeSeen 0)
      (withJob (active (gate .once) (some ⟨.close, 999997⟩) [edge 0 .rise])))).acc.count = 1 := by
  decide

theorem test_close_expiry_once :
    (let t := after .deadlineExpiry (withJob (active (gate .once) (some ⟨.close, 999996⟩) []));
      ((slotZero t).state, t.deadlines, t.results.records.map Record.span))
      = (.done, ⟨[], 0⟩, [400]) := by decide

theorem test_stall_expiry_periodic_holds :
    (let j := slotZero (after .deadlineExpiry (withJob (active
        { define .period .periodic with count := 1, stall := 400, period := 4000 }
        (some ⟨.stall, 999996⟩) [])));
      (j.state, j.next)) = (.hold, some ⟨.start, 1003596⟩) := by decide

theorem test_probe_step :
    ((after (.probeStep 0) (live.setChannel 0 probing)).channel 0).probe.map
      (fun p => (p.trial, p.step, p.mixed)) = some (768, 2, 1) := by decide

theorem test_probe_starts :
    (let t := after .probeStart (asked live 0x12 [0, 0, 1, 0]);
      (answer t, (t.channel 0).state)) = (some (0x01, [0, 0xD0, 0x43, 0x0F, 0, 0, 0]), .probing) := by
  decide

theorem test_probe_cancel_in_step_one :
    ((after .probeCancel (asked (live.setChannel 0 probing) 0x12 [0, 1, 9, 9])).channel 0).lastProbe
      = some ⟨0, 0, .cancelled⟩ := by decide

/-- A byte has been completed on RXD at this tick. -/
def hearing (b : Byte) (s : State) : State := { s with link := { s.link with completed := some b } }
def inFrame (bytes : List Byte) (last : Tick) : State :=
  { live with link := { live.link with receiver := .inFrame bytes last } }

theorem test_stray_byte :
    (after (.strayByte 0x41) (hearing 0x41 live)).link.counters.stray = 1
      ∧ after (.strayByte 0x41) live = live := by decide
theorem test_sync :
    (after .sync (hearing 0xC3 live)).link.receiver = .inFrame [0xC3] 1000000 := by decide
theorem test_frame_byte :
    (after (.frameByte 3) (hearing 3 (inFrame [0xC3] 999990))).link.receiver
      = .inFrame [0xC3, 3] 1000000 := by decide
theorem test_bad_length :
    (let l := (after (.badLength 2) (hearing 2 (inFrame [0xC3] 999990))).link;
      (l.receiver, l.counters.badLength)) = (.hunting, 1) := by decide

/-- R175: a stop bit that is sampled high completes the byte 0x41, least significant bit first; a low one
completes none. -/
theorem test_character_completes :
    (let c : Character := ⟨0, .low :: [.high, .low, .low, .low, .low, .low, .high, .low]⟩;
      ((c.sample false .high).byte, (c.sample false .low).byte, (c.sample true .high).byte))
      = (some 0x41, none, none) := by decide

set_option maxRecDepth 8000 in
/-- A DESCRIBE request with TAG 7: SYNC, LEN 3, CLASS 1, TAG 7, CODE 1 and its CHECK. -/
theorem test_receive_frame :
    (let f := frameBytes 0x01 7 0x01 [];
      (after (.receiveFrame (f.getLastD 0))
        (hearing (f.getLastD 0) (inFrame f.dropLast 999990))).link.intake)
      = [⟨7, 0x01, []⟩] := by decide

set_option maxRecDepth 8000 in
theorem test_receive_corrupted :
    (let f := frameBytes 0x01 7 0x01 []
      let last := f.getLastD 0 + 1
      let t := after (.receiveFrame last) (hearing last (inFrame f.dropLast 999990))
      (t.link.counters.badCheck, t.notices.queued)) = (1, [⟨.device, 0x02#8⟩]) := by decide

theorem test_truncation :
    (after .truncation (inFrame [0xC3] 959999)).link.counters.truncated = 1 := by decide

def broken (b : BreakState) : State :=
  { live with link := { live.link with
    lineLow := 80000, breakState := b, resetDue := b == .inBreak } }

theorem test_break : (after .breakDetected (broken .none)).link.breakState = .inBreak := by decide

/-- R170: a notice cut off in flight returns to the head with its flags. -/
theorem test_link_reset_returns_notice :
    (let t := after .linkReset { broken .inBreak with notices := { live.notices with
        inFlight := some ⟨.results, 0x02#8, [], 3⟩, queued := [⟨.job 0, 0x01#8⟩, ⟨.results, 0x01#8⟩] } };
      (t.notices.queued, t.notices.credits, t.results.refused))
      = ([⟨.results, 0x03#8⟩, ⟨.job 0, 0x01#8⟩, ⟨.device, 0x08#8⟩], 1, 3) := by decide

def replying : State := { live with link := { live.link with replies := [⟨7, 0x00, []⟩] } }
def noticing : State := { live with notices := { live.notices with
  queued := [⟨.job 0, 0x40#8⟩], credits := 1 } }
def sending (notice : Bool) (start : Tick) : State := { live with
  notices := { live.notices with inFlight := if notice then some ⟨.device, 1, [], 0⟩ else none }
  link := { live.link with
    rate := .r1000000, transmitter := .sending (List.replicate 7 0) start notice } }

set_option maxRecDepth 8000 in
theorem test_reply_begin : (after .replyBegin replying).link.transmitter
    = .sending (frameBytes 0x02 7 0x00 []) 1000000 false := by decide
theorem test_reply_sent : (after .replySent (sending false 997200)).link.transmitter = .idle := by decide
theorem test_notice_begin : (after .noticeBegin noticing).notices.inFlight.map InFlight.payload
    = some [0, 0, 0x40, 0x42, 0x0F, 0, 0, 0, 0, 0x40, 0, 0, 0, 0, 0] := by decide
theorem test_notice_sent : (after .noticeSent (sending true 997200)).notices.sequence = 1 := by decide

/-- R175: bit 0 of the byte 0x01 stands on TXD in the second bit time of the frame, of 40 ticks at
1,000,000 bit/s. -/
theorem test_txd :
    (let s (start : Tick) : State := { live with link := { live.link with
        rate := .r1000000, transmitter := .sending [0x01] start false } };
      ((s 1000000).txd, (s 999960).txd, (s 999920).txd, (s 999640).txd, live.txd))
      = (.low, .high, .low, .high, .high) := by decide

theorem test_init_end :
    (after .initEnd { State.reset with timebase := { Timebase.reset with tick := 80000 } }).link.initialised
      = true := by decide

theorem test_unknown_request :
    answer (after .unknownRequest (asked live 0x30 [])) = some (0x10, [0]) := by decide
theorem test_describe : answer (after .describe (asked live 0x01 []))
    = some (0x00, [0x4A, 0x20, 0x08, 2, 8, 32, 24, 0, 2, 96, 42, 0x00, 0x5A, 0x62, 0x02]) := by decide
theorem test_status_length :
    (answer (after .status (asked live 0x02 [0]))).map (fun a => a.2.length) = some 30 := by decide
theorem test_time : answer (after .time (asked live 0x03 []))
    = some (0x00, [0x40, 0x42, 0x0F, 0, 0, 0, 1, 0, 0, 0xB7, 0x9C, 0, 0, 0, 0]) := by decide
theorem test_grant_stops_at_16 :
    answer (after .grant (asked { live with notices := { live.notices with credits := 10 } } 0x04 [16]))
      = some (0x00, [16]) := by decide
theorem test_grant_17_refused :
    answer (after .grant (asked live 0x04 [17])) = some (0x12, [1]) := by decide
theorem test_soft_reset_raises_restarted :
    (let t := after .softReset (asked noticing 0x05 []);
      (t.notices.queued, t.notices.cause, t.notices.credits)) = ([⟨.device, 1⟩], .soft, 1) := by decide
theorem test_chan_set_enables :
    answer (after .chanSet (asked (live.setChannel 0 (Channel.reset 1057)) 0x10 [0, 1, 0x10, 2, 0xF0, 1, 3]))
      = some (0x00, [1, 1]) := by decide
theorem test_chan_set_low_above_high :
    answer (after .chanSet (asked live 0x10 [0, 1, 0xF0, 1, 0x10, 2, 3])) = some (0x12, [4]) := by decide
theorem test_chan_get : answer (after .chanGet (asked live 0x11 [0, 0]))
    = some (0x00, [0, 0, 0, 0x10, 2, 0xF0, 1, 0, 2, 0, 0, 0]) := by decide
theorem test_capture_set :
    answer (after .captureSet (asked live 0x18 [3, 0, 2, 0, 3, 0, 2])) = some (0x00, [0, 0, 0, 0, 0, 0]) := by
  decide
theorem test_capture_read :
    answer (after .captureRead (asked (live.setCapture 0 { CaptureQueue.reset with
      depth := 2, entries := [⟨2, .fall, true⟩], loss := 5 }) 0x19 [0, 32]))
      = some (0x00, [0, 1, 0, 0, 5, 0, 2, 0, 0, 0, 0, 0, 3]) := by decide
theorem test_capture_flush :
    answer (after .captureFlush (asked (live.setCapture 0 { CaptureQueue.reset with
      depth := 2, entries := [⟨2, .fall, true⟩], loss := 5 }) 0x1A [0]))
      = some (0x00, [1, 0, 5, 0]) := by decide
theorem test_job_define : slotZero (after .jobDefine (asked live 0x20 (0 :: (gate .once).bytes)))
    = { Job.reset with state := .idle, definition := some (gate .once) } := by decide
theorem test_job_define_short_gate :
    answer (after .jobDefine (asked live 0x20 (0 :: { gate .once with gate := 399 }.bytes)))
      = some (0x12, [7]) := by decide

def idle (d : Definition) : State :=
  (live.setChannel 0 enabled).setJob 0 { Job.reset with state := .idle, definition := some d }

theorem test_job_start_now :
    answer (after .jobStart (asked (idle (gate .once)) 0x21 [0, 0, 0, 0, 0, 0, 0, 0]))
      = some (0x00, [3, 4, 0, 1, 0x40, 0x42, 0x0F, 0, 0, 0]) := by decide
theorem test_job_start_late :
    answer (after .jobStart (asked (idle (gate .once)) 0x21 [0, 1, 0x40, 0x42, 0x0F, 0, 0, 0]))
      = some (0x26, [3]) := by decide
theorem test_job_stop_keeps_partial :
    (let t := after .jobStop (asked (withJob (active (gate .once) (some ⟨.close, 1000001⟩) [])) 0x22 [0, 1]);
      (answer t, (slotZero t).state, t.results.records.map (fun r => (r.status, r.endTick))))
      = (some (0x00, [3]), .idle, [(.partialStop, 999996)]) := by decide
theorem test_job_clear : answer (after .jobClear (asked (idle (gate .once)) 0x23 [0])) = some (0x00, [1]) := by
  decide
theorem test_job_get_length :
    (answer (after .jobGet (asked live 0x24 [0]))).map (fun a => a.2.length) = some 37 := by decide

def sample : Record :=
  { slot := 1, sequence := 2, kind := .tally, status := .target, holdover := true, limitOut := false,
    lostBefore := 0, missed := 0, startTick := 3, endTick := 4, count := 5, span := 1, value := 6,
    min := none, max := none, total := some 7, skipped := none }

theorem test_result_fetch_tally_is_48_bytes :
    (answer (after .resultFetch (asked (live.setRecords [sample, sample]) 0x28 [1]))).map
      (fun a => (a.2.length, a.2.take 2, a.2.getD 9 0)) = some (50, [1, 1], 9) := by decide
theorem test_result_setup :
    answer (after .resultSetup (asked (live.setRecords [sample]) 0x29 [96])) = some (0x00, [96, 1]) := by
  decide
theorem test_result_flush :
    answer (after .resultFlush (asked (live.setRecords [sample]) 0x2A [])) = some (0x00, [1]) := by decide

theorem test_limit_set_band_too_wide :
    answer (after .limitSet (asked (idle (gate .once)) 0x2C
      ([0, 1] ++ leBytes 8 0 ++ leBytes 8 101 ++ leBytes 8 51 ++ [0, 0]))) = some (0x12, [5]) := by decide
theorem test_limit_set_greatest_band :
    answer (after .limitSet (asked (idle (gate .once)) 0x2C
      ([0, 1] ++ leBytes 8 0 ++ leBytes 8 101 ++ leBytes 8 50 ++ [0, 0]))) = some (0x00, [0, 0]) := by decide

theorem test_comparator_hysteresis :
    ((after (.comparatorOutput 0 1056) (live.setChannel 0 enabled)).channel 0).comparator = .low
      ∧ ((after (.comparatorOutput 0 1057) (live.setChannel 0 enabled)).channel 0).comparator = .high := by
  decide

/-! ## Witnesses: each statement's hypotheses are met, clause by clause, at the bounds of its ranges -/

/-- Some state asks for a request with TAG 7 and has a further property. -/
def meets (code : Byte) (payload : List Byte) (p : State → Prop) : Prop :=
  ∃ s : State, s.asks 7 code payload [] ∧ p s

theorem meets_live {code : Byte} {payload : List Byte} {p : State → Prop} (h : p (asked live code payload)) :
    meets code payload p := ⟨_, live_asks _ _, h⟩

theorem meets_job {code : Byte} {payload : List Byte} {p : State → Prop} (j : Job)
    (h : p (asked (withJob j) code payload)) : meets code payload p := ⟨_, job_asks _ _ _, h⟩

theorem meets_channel {code : Byte} {payload : List Byte} {p : State → Prop} (c : Channel)
    (h : p (asked (live.setChannel 0 c) code payload)) : meets code payload p :=
  ⟨_, channel_asks _ _ _, h⟩

/-- A lawful running job: ACTIVE on the enabled channel 0, its CLOSE at tick 1,000,001. -/
def running : Job := active (gate .once) (some ⟨.close, 1000001⟩) []

theorem running_claims (code : Byte) (payload : List Byte) :
    (asked (withJob running) code payload).claimed 0 := ⟨0, gate .once, rfl, rfl, rfl⟩

/-- The lawful state of that job. -/
def working : State := withJob running

theorem working_other (slot : Fin 32) (h : slot ≠ 0) : working.job slot = Job.reset := by
  revert slot; decide

theorem working_deadlineLaw : working.deadlineLaw := by
  refine ⟨by decide, by decide, fun slot => ?_⟩
  by_cases h : slot = 0
  · subst h; exact ⟨⟨1000001, rfl⟩, by decide⟩
  · refine ⟨by rw [working_other slot h]; rfl, ?_⟩
    rw [working_other slot h]
    revert slot; decide

theorem live_lawful : live.timebase.lawful := by
  refine ⟨by decide, by decide, by decide, fun n e => (nomatch e), fun e => (nomatch e),
    fun e => (nomatch e), fun e => (nomatch e), fun e => absurd rfl e, fun _ a e => ?_⟩
  obtain rfl := Option.some.inj e
  exact ⟨by decide, fun _ => by decide⟩

theorem witness_StepRunsFrontCommand :
    { live with pending := [.sync, .truncation] }.pending = .sync :: [.truncation]
      ∧ live.pending = [] := ⟨rfl, rfl⟩

theorem witness_SoftResetSparesTimebaseAndLink :
    (asked noticing 0x05 []).asks 7 0x05 [] [] := asked_asks _ _ _ rfl (Nat.zero_lt_succ 3) rfl

theorem witness_OnlyTickAndPowerResetMoveTheCounter :
    completes .sync live (after .sync live)
      ∧ (completes (.tick .high) live (after (.tick .high) live) ∧ workIsDue live = false
        ∧ live.timebase.lastAbnormal.isSome = true)
      ∧ completes (.powerReset true true) live (after (.powerReset true true) live) :=
  ⟨rfl, ⟨rfl, by decide, rfl⟩, rfl⟩

/-- A NORMAL timebase at whose tick the loss falls due, after the greatest count of entries. -/
def losing (entries : Nat) : State := { live with timebase := { live.timebase with
  sinceEdge := 80, lossDue := true, holdoverEntries := entries } }

theorem witness_HoldoverEntriesCountEntries :
    (completes .refLoss (losing 65535) (after .refLoss (losing 65535))
        ∧ (losing 65535).timebase.state = .normal
        ∧ (after .refLoss (losing 65535)).timebase.state = .holdover)
      ∧ completes (.powerReset false true) (losing 3) (after (.powerReset false true) (losing 3))
      ∧ completes .sync (losing 3) (after .sync (losing 3)) := ⟨⟨rfl, rfl, rfl⟩, rfl, rfl⟩

theorem witness_EveryStepKeepsTheTimebaseLaw :
    { live with pending := [.refclkEdge] }.timebase.lawful
      ∧ step { live with pending := [.refclkEdge] } = .next (after .refclkEdge live) :=
  ⟨live_lawful, rfl⟩

theorem witness_TickCountsTime :
    (workIsDue State.reset = false ∧ State.reset.timebase.lastAbnormal = none
        ∧ State.reset.timebase.state ≠ .normal)
      ∧ (workIsDue live = false ∧ live.timebase.state = .normal)
      ∧ ∃ s : State, workIsDue s = false ∧ s.timebase.sinceEdge = 79 ∧ s.link.breakState = .inBreak :=
  ⟨by decide, by decide, { live with
      timebase := { live.timebase with sinceEdge := 79 },
      link := { live.link with breakState := .inBreak } }, by decide, rfl, rfl⟩

theorem witness_PresenceAndRegain :
    live.timebase.lossTaken = false ∧ (after .refLoss (losing 0)).timebase.lossTaken = true
      ∧ ∃ s : State, s.timebase.state ≠ .normal ∧ s.timebase.regain = some 40000
      ∧ s.timebase.lossDue = false :=
  ⟨rfl, rfl, { State.reset with timebase := { Timebase.reset with regain := some 40000 } },
    by decide, rfl, rfl⟩

/-- A START timebase whose presence is lost at tick 90. -/
def abandoning : State := { State.reset with timebase := { Timebase.reset with
  tick := 90, regain := some 80, lastAbnormal := some 90, lossDue := true } }

theorem witness_LossDeclared :
    ((losing 65535).timebase.lossDue = true ∧ (losing 65535).timebase.state = .normal)
      ∧ (abandoning.timebase.lossDue = true ∧ abandoning.timebase.state ≠ .normal
        ∧ abandoning.timebase.sinceEdge = 80)
      ∧ workIsDue (after .refLoss abandoning) = false
      ∧ ∃ u v, completes (.tick .high) (after .refLoss abandoning) u ∧ completes .refclkEdge u v :=
  ⟨⟨rfl, rfl⟩, by decide, by decide, _, _, rfl, rfl⟩

theorem witness_TimeReportsTheTimebase :
    meets 0x03 [] (fun s => referenceIsDue s = false ∧ s.timebase.lastAbnormal = some 40119
        ∧ s.timebase.lawful ∧ s.timebase.state = .normal ∧ s.timebase.abnormalAge < 2 ^ 47)
      ∧ ∃ s : State, s.asks 7 0x03 [] [] ∧ referenceIsDue s = false
        ∧ s.timebase.lastAbnormal = some 90000 ∧ s.timebase.lawful ∧ s.timebase.state ≠ .normal :=
  ⟨meets_live ⟨rfl, rfl, live_lawful, rfl, by decide⟩,
    asked { live with timebase := { Timebase.reset with
      tick := 90000, lastAbnormal := some 90000 } } 0x03 [],
    asked_asks _ _ _ rfl (Nat.zero_lt_succ 3) rfl, rfl, rfl,
    by simp [Timebase.lawful, asked, Timebase.reset], by decide⟩

theorem witness_ComparatorFollowsTheInput :
    (live.channel 7).state = .disabled
      ∧ ((live.setChannel 0 enabled).channel 0).state = .enabled
      ∧ ((live.setChannel 0 probing).channel 0).state = .probing
      ∧ ((live.setChannel 0 probing).channel 0).probe.isSome = true := by decide

theorem witness_TickSamplesEveryChannel :
    (workIsDue (live.setChannel 0 enabled) = false
        ∧ ((live.setChannel 0 enabled).channel 7).state = .disabled
        ∧ ((live.setChannel 0 enabled).channel 0).state = .enabled
        ∧ ((live.setChannel 0 enabled).channel 0).accepted = some .low)
      ∧ ∃ s : State, ∃ p, workIsDue s = false ∧ (s.channel 0).state = .probing
        ∧ (s.channel 0).probe = some p ∧ s.now + 1 = tickAfter p.stepStart p.dwell :=
  ⟨by decide, live.setChannel 0 { probing with probe := probing.probe.map (fun p =>
    { p with stepStart := 999961 }) }, _, by decide, rfl, rfl, by decide⟩

theorem witness_PendingTransitionRevertsOrIsAccepted :
    (let c := (live.setChannel 0 (pendingHigh 1 (some .low))).channel 0;
      c.state = .enabled ∧ c.pending = some ⟨.high, 999999, 1⟩ ∧ c.accepted = some .low
        ∧ c.sample = some .low)
      ∧ let c := (live.setChannel 0 { pendingHigh 2 (some .high) with
            inTransit := [⟨0, 999998, .fall⟩] }).channel 0
        c.state = .enabled ∧ c.pending = some ⟨.high, 999999, 2⟩ ∧ 2 = c.filter + 1
          ∧ c.inTransit = ⟨0, 999998, .fall⟩ :: []
          ∧ live.now ≠ tickAfter 999998 (c.filter + 2) := by decide

theorem witness_EdgeArrivesAtPoolAndJobs :
    ∃ s : State, (s.channel 0).inTransit = edge 0 .rise :: []
      ∧ s.now = tickAfter (edge 0 .rise).timestamp ((s.channel 0).filter + 2)
      ∧ ((s.job 1).state.running = false)
      ∧ ((s.job 0).definition = some (gate .once) ∧ (s.job 0).state.running = true
        ∧ (gate .once).references 0 = true) :=
  ⟨working.setChannel 0 transit, rfl, by decide, by decide, by decide⟩

theorem witness_CaptureQueueLogsAnEdge :
    (live.capture 0).select = .none
      ∧ (∃ q : CaptureQueue, q.select = .rise ∧ q.entries.length < q.depth
        ∧ (live.setCapture 0 q).capture 0 = q ∧ q.entries.length + 1 = q.watermark)
      ∧ (∃ q : CaptureQueue, q.select = .both ∧ 0 < q.depth ∧ q.depth ≤ q.entries.length
        ∧ q.policy = .keepOld ∧ (live.setCapture 0 q).capture 0 = q)
      ∧ ∃ q : CaptureQueue, q.select = .both ∧ 0 < q.depth ∧ q.depth ≤ q.entries.length
        ∧ q.policy = .keepNew ∧ q.entries = ⟨1, .rise, false⟩ :: []
        ∧ (live.setCapture 0 q).capture 0 = q :=
  ⟨rfl,
    ⟨{ CaptureQueue.reset with depth := 512, select := .rise, watermark := 1 }, by decide⟩,
    ⟨{ CaptureQueue.reset with depth := 1, select := .both, entries := [⟨1, .rise, false⟩] }, by decide⟩,
    { CaptureQueue.reset with
      depth := 1, select := .both, policy := .keepNew, entries := [⟨1, .rise, false⟩] }, by decide⟩

def chanSet (enable : Byte) (high low : Nat) : List Byte :=
  leBytes 1 (0 : Fin 8).val ++ [enable] ++ leBytes 2 high ++ leBytes 2 low ++ [255]

theorem witness_ChanSetChecksThenApplies :
    meets 0x10 (chanSet 1 528 496) (fun s => (s.channel 0).state = .probing)
      ∧ meets 0x10 (chanSet 1 528 496) (fun s => (s.channel 0).state ≠ .probing ∧ s.claimed 0)
      ∧ meets 0x10 (chanSet 2 528 496) (fun s => (s.channel 0).state ≠ .probing ∧ ¬s.claimed 0)
      ∧ meets 0x10 (chanSet 1 1024 0) (fun s => (s.channel 0).state ≠ .probing ∧ ¬s.claimed 0)
      ∧ meets 0x10 (chanSet 1 1023 1024) (fun s => (s.channel 0).state ≠ .probing ∧ ¬s.claimed 0)
      ∧ meets 0x10 (chanSet 1 1023 1023) (fun s => (s.channel 0).state ≠ .probing ∧ ¬s.claimed 0)
      ∧ meets 0x10 (chanSet 0 0 0) (fun s => (s.channel 0).state ≠ .probing ∧ ¬s.claimed 0) :=
  ⟨meets_channel probing rfl, meets_job running ⟨by decide, running_claims _ _⟩,
    meets_live ⟨by decide, free_of_jobs _ _ rfl⟩, meets_live ⟨by decide, free_of_jobs _ _ rfl⟩,
    meets_live ⟨by decide, free_of_jobs _ _ rfl⟩, meets_live ⟨by decide, free_of_jobs _ _ rfl⟩,
    meets_live ⟨by decide, free_of_jobs _ _ rfl⟩⟩

theorem witness_ChanGetReportsTheChannel :
    meets 0x11 (leBytes 1 (0 : Fin 8).val ++ [2]) (fun _ => True)
      ∧ meets 0x11 (leBytes 1 (0 : Fin 8).val ++ [1]) (fun s => s.claimed 0)
      ∧ meets 0x11 (leBytes 1 (7 : Fin 8).val ++ [0]) (fun s => ¬s.claimed 7) :=
  ⟨meets_live trivial, meets_job running (running_claims _ _), meets_live (free_of_jobs _ _ rfl)⟩

/-- A channel with two edges in transit, one and two ticks from their arrival. -/
def crowded : Channel := { enabled with
  accepted := some .high, inTransit := [⟨0, 999999, .fall⟩, ⟨0, 1000000, .rise⟩] }

theorem crowded_channel (ch : Fin 8) :
    (live.setChannel 0 crowded).channel ch = if ch = 0 then crowded else Channel.reset 0 := by
  revert ch; decide

theorem witness_EveryStepKeepsTheChannelLaws :
    (working.deadlineLaw ∧ working.channelsInUseEnabled
        ∧ step { working with pending := [.sync] } = .next (after .sync working))
      ∧ ∃ s t : State, s.timebase.lawful ∧ s.channelShapes ∧ s.transitLaw
        ∧ (s.channel 0).inTransit.length = 2 ∧ step s = .next t := by
  refine ⟨⟨working_deadlineLaw, ?_, rfl⟩,
    { live.setChannel 0 crowded with pending := [.tick .high] }, _, live_lawful, ?_, ⟨nofun, ?_⟩, rfl, rfl⟩
  · intro slot d ch r e u
    by_cases h : slot = 0
    · subst h
      obtain rfl : gate .once = d := Option.some.inj e
      revert ch; decide
    · rw [working_other slot h] at r; cases r
  · intro ch
    change ((live.setChannel 0 crowded).channel ch).shape
    rw [crowded_channel]
    split
    · exact ⟨⟨.high, rfl, nofun⟩, rfl, rfl⟩
    · exact ⟨rfl, rfl, rfl, rfl, rfl⟩
  · intro ch
    change ((live.setChannel 0 crowded).channel ch).transitLaw 1000000
    rw [crowded_channel]
    split
    · exact ⟨by decide, by decide, by decide, nofun⟩
    · exact ⟨by decide, by decide, by decide, nofun⟩

def probeFields (action dwell adopt : Byte) : List Byte :=
  leBytes 1 (0 : Fin 8).val ++ [action, dwell, adopt]

theorem witness_ProbeStartChecksThenBegins :
    meets 0x12 (probeFields 2 1 0) (fun _ => True)
      ∧ meets 0x12 (probeFields 0 1 0) (fun s => (s.channel 0).state = .probing)
      ∧ meets 0x12 (probeFields 0 1 0) (fun s => (s.channel 0).state ≠ .probing ∧ s.claimed 0)
      ∧ meets 0x12 (probeFields 0 0 2) (fun s => (s.channel 0).state ≠ .probing ∧ ¬s.claimed 0)
      ∧ meets 0x12 (probeFields 0 255 2) (fun s => (s.channel 0).state ≠ .probing ∧ ¬s.claimed 0)
      ∧ meets 0x12 (probeFields 0 255 1) (fun s => (s.channel 0).state ≠ .probing ∧ ¬s.claimed 0) :=
  ⟨meets_live trivial, meets_channel probing rfl, meets_job running ⟨by decide, running_claims _ _⟩,
    meets_live ⟨by decide, free_of_jobs _ _ rfl⟩, meets_live ⟨by decide, free_of_jobs _ _ rfl⟩,
    meets_live ⟨by decide, free_of_jobs _ _ rfl⟩⟩

/-- A probe whose step ends at tick 1,000,000. -/
def probeAt (step trial : Nat) (back : ReturnState) : Channel := { probing with
  returnState := some back,
  probe := probing.probe.map (fun p => { p with step := step, trial := trial }) }

/-- The hypotheses about a probe at its step's end. -/
def stepEnds (s : State) (step : Nat) (back : ReturnState) : Prop :=
  ∃ p, (s.channel 0).state = .probing ∧ (s.channel 0).probe = some p
    ∧ s.now = tickAfter p.stepStart p.dwell ∧ p.step = step
    ∧ (s.channel 0).returnState = some back

theorem witness_ProbeStepsDecideTheCode :
    stepEnds (live.setChannel 0 (probeAt 1 512 .enabled)) 1 .enabled
      ∧ stepEnds (live.setChannel 0 (probeAt 9 2 .enabled)) 9 .enabled
      ∧ stepEnds (live.setChannel 0 (probeAt 10 1023 .enabled)) 10 .enabled
      ∧ stepEnds (live.setChannel 0 (probeAt 10 1 .disabled)) 10 .disabled :=
  ⟨⟨_, rfl, rfl, by decide, rfl, rfl⟩, ⟨_, rfl, rfl, by decide, rfl, rfl⟩,
    ⟨_, rfl, rfl, by decide, rfl, rfl⟩, ⟨_, rfl, rfl, by decide, rfl, rfl⟩⟩

theorem witness_ProbeCancelStoresTheResultSoFar :
    meets 0x12 (probeFields 1 0 9) (fun s => (s.channel 0).state = .disabled)
      ∧ meets 0x12 (probeFields 1 0 9) (fun s => (s.channel 0).state = .enabled)
      ∧ meets 0x12 (probeFields 1 0 9) (fun s => stepEnds s 1 .enabled)
      ∧ meets 0x12 (probeFields 1 0 9) (fun s => stepEnds s 10 .disabled) :=
  ⟨meets_live rfl, meets_channel enabled rfl,
    meets_channel (probeAt 1 512 .enabled) ⟨_, rfl, rfl, by decide, rfl, rfl⟩,
    meets_channel (probeAt 10 1 .disabled) ⟨_, rfl, rfl, by decide, rfl, rfl⟩⟩

def captureSet (depth : Nat) (policy select : Byte) (mark : Nat) : List Byte :=
  leBytes 1 (0 : Fin 8).val ++ leBytes 2 depth ++ [policy, select] ++ leBytes 2 mark

/-- The sum of the depths when channel 0 takes a depth. -/
def poolOf (s : State) (depth : Nat) : Nat :=
  sumIn CaptureQueue.depth (s.setCapture 0 { s.capture 0 with depth := depth }).captures

theorem witness_CaptureSetChecksThenApplies :
    meets 0x18 (captureSet 513 2 4 0) (fun _ => True)
      ∧ meets 0x18 (captureSet 512 2 4 0) (fun _ => True)
      ∧ meets 0x18 (captureSet 0 1 1 0) (fun _ => True)
      ∧ meets 0x18 (captureSet 512 0 3 513) (fun _ => True)
      ∧ (∃ s : State, s.asks 7 0x18 (captureSet 512 1 3 512) [] ∧ 512 < poolOf s 512)
      ∧ meets 0x18 (captureSet 512 1 3 512) (fun s => poolOf s 512 ≤ 512 ∧ 512 ≠ (s.capture 0).depth)
      ∧ meets 0x18 (captureSet 0 0 0 0) (fun s => poolOf s 0 ≤ 512 ∧ 0 = (s.capture 0).depth) :=
  ⟨meets_live trivial, meets_live trivial, meets_live trivial, meets_live trivial,
    ⟨asked (live.setCapture 1 { CaptureQueue.reset with depth := 1 }) _ _,
      asked_asks _ _ _ rfl (Nat.zero_lt_succ 3) rfl, by decide⟩,
    meets_live (by decide), meets_live (by decide)⟩

theorem witness_CaptureReadAndFlush :
    meets 0x19 (leBytes 1 (0 : Fin 8).val ++ [33]) (fun _ => True)
      ∧ meets 0x19 (leBytes 1 (0 : Fin 8).val ++ [32]) (fun _ => True)
      ∧ meets 0x1A (leBytes 1 (7 : Fin 8).val) (fun _ => True) :=
  ⟨meets_live trivial, meets_live trivial, meets_live trivial⟩

/-- 96 records, the credits at 16, a capture queue of the whole pool, full of one entry, and a counter of
every block at 65,535. -/
def laden : State := { ((live.setChannel 0 { transit with glitches := 65535 }).setCapture 0
    { CaptureQueue.reset with
      depth := 512, select := .both, watermark := 512, entries := [⟨1, .rise, false⟩],
      loss := 65535 }).setJob 31 { Job.reset with lostPending := 65535, lostTotal := 65535 } with
  results := ⟨List.replicate 96 sample, 96, 65535⟩
  notices := { live.notices with credits := 16 }, pending := [.edgeArrival 0] }

/-- A notice of each source. -/
def allSources : List QueuedNotice :=
  ((List.finRange 32).map Source.job ++ (List.finRange 8).map Source.channel
    ++ [Source.results, Source.device]).map (⟨·, 1⟩)

theorem witness_EveryStepKeepsTheCapacities :
    (laden.capacities ∧ laden.counters ∧ ∃ t, step laden = .next t)
      ∧ (∃ s : State, s.noticeSources ∧ s.notices.queued.length = 42)
      ∧ working.deadlineLaw := by
  refine ⟨⟨⟨by decide, by decide, by decide, by decide, by decide, by decide, fun ch => ?_, by decide⟩,
    ⟨by decide, fun ch => ?_, fun ch => ?_, fun slot => ?_, by decide, ?_, by decide⟩, _, rfl⟩,
    ⟨{ live with notices := { live.notices with queued := allSources } }, ?_, rfl⟩, working_deadlineLaw⟩
  · show _ ∧ _
    revert ch; decide
  · revert ch; decide
  · revert ch; decide
  · show _ ∧ _
    revert slot; decide
  · show _ ∧ _
    decide
  · unfold State.noticeSources; decide

theorem witness_DefinitionsReadBack :
    (gate .once).allowed ∧ { gate .periodic with period := 4000 }.allowed
      ∧ (0 :: (gate .once).bytes).length = 32
      ∧ readDefinition (0 :: (gate .once).bytes) = .ok (gate .once)
      ∧ ((0 : Byte) :: 6 :: List.replicate 30 0).length = 32 := by
  refine ⟨?_, ?_, by decide, by decide, by decide⟩ <;>
    simp [Definition.allowed, gate, define]

/-- Payloads of known kinds whose first failing field is each of 4, 5, 7, 13 and 14, at the bound of its
range (R34 to R36). -/
theorem test_definition_refusals :
    (let read (d : Definition) (offset : Nat) (b : Byte) : Option (ReplyCode × Nat) :=
        match readDefinition ((0 :: d.bytes).set offset b) with
        | .error e => some e
        | .ok _ => none
      [read width 3 3, read phase 4 8, read phase 4 0, read { gate .once with gate := 399 } 0 0,
        read { gate .periodic with gate := 4001, period := 4000 } 0 0, read (gate .once) 31 2,
        read { gate .periodic with gate := 4000, period := 4000 } 31 1])
      = [some (.badValue, 4), some (.badIndex, 5), some (.badValue, 5), some (.badValue, 7),
        some (.badValue, 13), some (.badValue, 14), none] := by decide

theorem witness_JobDefineReplacesTheDefinition :
    meets 0x20 (leBytes 1 (0 : Fin 32).val ++ (gate .once).bytes)
        (fun s => (s.job 0).state.running = true)
      ∧ meets 0x20 (leBytes 1 (31 : Fin 32).val ++ { gate .once with gate := 399 }.bytes)
        (fun s => (s.job 31).state.running = false
          ∧ readDefinition (leBytes 1 (31 : Fin 32).val ++ { gate .once with gate := 399 }.bytes)
            = .error (.badValue, 7))
      ∧ meets 0x20 (leBytes 1 (31 : Fin 32).val ++ (gate .once).bytes)
        (fun s => (s.job 31).state.running = false
          ∧ readDefinition (leBytes 1 (31 : Fin 32).val ++ (gate .once).bytes) = .ok (gate .once))
      ∧ (gate .once).bytes.length = 31 :=
  ⟨meets_job running (by decide), meets_live (by decide), meets_live (by decide), by decide⟩

def jobStart (mode : Byte) (start : Tick) : List Byte :=
  leBytes 1 (0 : Fin 32).val ++ [mode] ++ leBytes 6 start.toNat

/-- The job of slot 0 waits, its channels enabled, a number of reservations taken. -/
def startable (d : Definition) (state : ChannelState) (taken : Nat) : State :=
  { (((live.setChannel 0 { enabled with state := state }).setChannel 1 enabled).setJob 0 { Job.reset with
      state := .done, definition := some d }) with
    deadlines := { DeadlineList.reset with reservations := taken } }

theorem startable_asks (d : Definition) (state : ChannelState) (taken : Nat) (mode : Byte) (start : Tick) :
    (asked (startable d state taken) 0x21 (jobStart mode start)).asks 7 0x21 (jobStart mode start) [] :=
  asked_asks _ _ _ rfl (Nat.zero_lt_succ 3) rfl

/-- The hypotheses of the requests to start the job of slot 0. -/
def mayStart (d : Definition) (mode : Byte) (start : Tick) (p : State → Prop) : Prop :=
  ∃ s : State, s.asks 7 0x21 (jobStart mode start) [] ∧ (s.job 0).definition = some d
    ∧ ((s.job 0).state = .idle ∨ (s.job 0).state = .done) ∧ p s

theorem witness_JobStartTakesTheModesState :
    (mayStart (gate .once) 0 0 fun s =>
        (∀ ch, (gate .once).references ch = true → (s.channel ch).state = .enabled)
          ∧ s.deadlines.reservations < 24)
      ∧ (mayStart phase 1 1000001 fun s =>
        (∀ ch, phase.references ch = true → (s.channel ch).state = .enabled)
          ∧ s.deadlines.reservations < 24
          ∧ 1 ≤ distance s.now 1000001 ∧ distance s.now 1000001 < 2 ^ 32)
      ∧ mayStart tally 2 0 fun s =>
        (∀ ch, tally.references ch = true → (s.channel ch).state = .enabled)
          ∧ s.deadlines.reservations < 24 :=
  ⟨⟨_, startable_asks _ .enabled 23 _ _, rfl, .inr rfl, by decide⟩,
    ⟨_, startable_asks _ .enabled 23 _ _, rfl, .inr rfl, by decide⟩,
    _, startable_asks _ .enabled 23 _ _, rfl, .inr rfl, by decide⟩

theorem witness_JobStartChecksInOrder :
    meets 0x21 (jobStart 3 0) (fun _ => True)
      ∧ meets 0x21 (jobStart 2 0) (fun s => (s.job 0).state = .free)
      ∧ meets 0x21 (jobStart 2 0) (fun s => (s.job 0).state.running = true)
      ∧ (mayStart (gate .once) 1 0 fun s =>
        ∃ ch, (gate .once).references ch = true ∧ (s.channel ch).state = .disabled)
      ∧ (mayStart (gate .once) 1 0 fun s =>
        (∀ ch, (gate .once).references ch = true → (s.channel ch).state ≠ .disabled)
          ∧ ∃ ch, (gate .once).references ch = true ∧ (s.channel ch).state = .probing)
      ∧ (mayStart (gate .once) 1 1000000 fun s =>
        (∀ ch, (gate .once).references ch = true →
            (s.channel ch).state ≠ .disabled ∧ (s.channel ch).state ≠ .probing)
          ∧ distance s.now 1000000 = 0)
      ∧ (mayStart (gate .once) 1 (1000000 + 4294967296) fun s =>
        (∀ ch, (gate .once).references ch = true →
            (s.channel ch).state ≠ .disabled ∧ (s.channel ch).state ≠ .probing)
          ∧ 2 ^ 32 ≤ distance s.now (1000000 + 4294967296))
      ∧ mayStart (gate .once) 1 1000001 fun s =>
        (∀ ch, (gate .once).references ch = true →
            (s.channel ch).state ≠ .disabled ∧ (s.channel ch).state ≠ .probing)
          ∧ distance s.now 1000001 ≠ 0 ∧ distance s.now 1000001 < 2 ^ 32
          ∧ 24 ≤ s.deadlines.reservations :=
  ⟨meets_live trivial, meets_live (by decide), meets_job running (by decide),
    ⟨_, startable_asks _ .disabled 0 _ _, rfl, .inr rfl, by decide⟩,
    ⟨_, startable_asks _ .probing 0 _ _, rfl, .inr rfl, by decide⟩,
    ⟨_, startable_asks _ .enabled 0 _ _, rfl, .inr rfl, by decide⟩,
    ⟨_, startable_asks _ .enabled 0 _ _, rfl, .inr rfl, by decide⟩,
    _, startable_asks _ .enabled 24 _ _, rfl, .inr rfl, by decide⟩

def jobStop (slot : Fin 32) (keep : Byte) : List Byte := leBytes 1 slot.val ++ [keep]

/-- Without a limit window ALERT is not asserted. -/
theorem no_alert (s : State) (h : ∀ slot, (s.job slot).window = none) (a : s.alert = false) :
    s.alertLaw := by
  constructor
  · intro e; rw [a] at e; cases e
  · rintro ⟨slot, w, e, -⟩; rw [h slot] at e; cases e

theorem witness_JobStopLeavesTheRunningStates :
    meets 0x22 (jobStop 0 2) (fun _ => True)
      ∧ meets 0x22 (jobStop 31 1) (fun s => (s.job 31).state.running = false)
      ∧ meets 0x22 (jobStop 0 0) (fun s => (s.job 0).state.running = true)
      ∧ meets 0x22 (jobStop 0 1) (fun s => (s.job 0).state = .active
        ∧ (s.job 0).definition = some (gate .once) ∧ (s.job 0).settle = some 4
        ∧ (s.job 0).openTick = some 999596 ∧ referenceIsDue s = false ∧ s.alertLaw)
      ∧ meets 0x22 (jobStop 0 1) (fun s => (s.job 0).state = .active
        ∧ (s.job 0).openTick = some 999997 ∧ referenceIsDue s = false
        ∧ notEarlier (tickBefore s.now 4) 999997 = false) :=
  ⟨meets_live trivial, meets_live (by decide), meets_job running (by decide),
    meets_job running ⟨rfl, rfl, rfl, rfl, rfl, no_alert _ (by decide) rfl⟩,
    meets_job { running with openTick := some 999997 } (by decide)⟩

theorem witness_JobClearAndJobGet :
    meets 0x23 (leBytes 1 (0 : Fin 32).val) (fun s => (s.job 0).state.running = true)
      ∧ meets 0x23 (leBytes 1 (31 : Fin 32).val) (fun s => (s.job 31).state.running = false)
      ∧ meets 0x24 (leBytes 1 (31 : Fin 32).val) (fun s => (s.job 31).definition = none
        ∧ (s.job 31).window = none ∧ (s.job 31).latest = none)
      ∧ meets 0x24 (leBytes 1 (0 : Fin 32).val) (fun s => ∃ r, (s.job 0).latest = some r
        ∧ (r.total = none ∨ (r.min = none ∧ r.skipped = none))) :=
  ⟨meets_job running (by decide), meets_live (by decide), meets_live (by decide),
    meets_job { running with latest := some sample } ⟨sample, rfl, .inr ⟨rfl, rfl⟩⟩⟩

theorem witness_EveryStepKeepsTheDeadlineLaw :
    { working with pending := [.tick .high] }.deadlineLaw
      ∧ { working with pending := [.tick .high] }.definitionsAllowed
      ∧ ∃ t, step { working with pending := [.tick .high] } = .next t := by
  refine ⟨working_deadlineLaw, fun slot d e => ?_, _, rfl⟩
  by_cases h : slot = 0
  · subst h
    obtain rfl : gate .once = d := Option.some.inj e
    simp [Definition.allowed, gate, define]
  · change (working.job slot).definition = some d at e
    rw [working_other slot h] at e; cases e

theorem witness_EveryStepKeepsTheDeadlineOrder :
    ∃ s t : State, s.deadlineOrder ∧ s.deadlines.entries.length = 2 ∧ step s = .next t :=
  ⟨{ working with
      deadlines := { working.deadlines with
        entries := [⟨1000000, 1, .start⟩, ⟨1000005, 0, .close⟩] },
      pending := [.tick .high] }, _,
    by unfold State.deadlineOrder; decide, rfl, rfl⟩

/-- A job of slot 0 whose boundary falls due at tick 1,000,000, and its definition. -/
def dueJob (state : JobState) (d : Definition) (purpose : Purpose) : State :=
  withJob { active d (some ⟨purpose, 999996⟩) [edge 0 .rise] with
    state := state, acc := { Accumulators.cleared with count := 3 } }

theorem dueJob_expires (state : JobState) (d : Definition) (purpose : Purpose) :
    (dueJob state d purpose).expires 0 d 4 purpose 999996 := ⟨rfl, rfl, rfl, rfl, [], rfl⟩

theorem witness_StartExpiryOpensTheMeasurement :
    (dueJob .armed phase .start).expires 0 phase 4 .start 999996 := dueJob_expires _ _ _

theorem witness_CloseAndStallEndTheMeasurement :
    ((dueJob .active (gate .continuous) .close).expires 0 (gate .continuous) 4 .close 999996
        ∧ ((dueJob .active (gate .continuous) .close).job 0).openTick = some 999596
        ∧ (gate .continuous).kind = .freqFixed)
      ∧ (dueJob .active width .stall).expires 0 width 4 .stall 999996
        ∧ ((dueJob .active width .stall).job 0).openTick = some 999596
        ∧ width.kind ≠ .freqFixed ∧ width.kind ≠ .tally :=
  ⟨⟨dueJob_expires _ _ _, rfl, rfl⟩, dueJob_expires _ _ _, rfl, by decide⟩

theorem witness_ReportExpiryFormsAnInterimRecord :
    (dueJob .active tally .report).expires 0 tally 4 .report 999996 ∧ tally.kind = .tally
      ∧ 0 < tally.report ∧ tally.report < 2 ^ 32
      ∧ ((dueJob .active tally .report).job 0).next = some ⟨.report, 999996⟩
      ∧ ((dueJob .active tally .report).job 0).openTick = some 999596 :=
  ⟨dueJob_expires _ _ _, by decide⟩

/-- An ACTIVE job whose boundary is to come and which sees an edge at tick 1,000,000. -/
def seeing (d : Definition) (acc : Accumulators) (opened boundary : Tick) (e : AcceptedEdge) : State :=
  withJob { active d (some ⟨.stall, boundary⟩) [e] with acc := acc, openTick := some opened }

theorem seeing_sees (d : Definition) (acc : Accumulators) (opened boundary : Tick) (ch : Fin 8)
    (polarity : Polarity) (b : notEarlier 999996 boundary = false) :
    (seeing d acc opened boundary (edge ch polarity)).sees 0 d 4 (edge ch polarity) [] :=
  ⟨rfl, rfl, rfl, rfl, (by decide : tickAfter 999996 4 = (1000000 : Tick)).symm, rfl, fun _ e => by
    obtain rfl := Option.some.inj e; exact b⟩

/-- Some state processes an edge for a job with these accumulators and this open tick. -/
def processing (d : Definition) (acc : Accumulators) (e : AcceptedEdge) (opened : Tick := 999596) : Prop :=
  ∃ s : State, s.processes 0 d 4 e [] ∧ (s.job 0).acc = acc ∧ (s.job 0).openTick = some opened

theorem processing_all (d : Definition) (acc : Accumulators) (ch : Fin 8) (polarity : Polarity)
    (opened : Tick := 999596) (n : notEarlier 999996 opened = true := by decide)
    (l : distance opened 999996 < 2 ^ 40 := by decide) :
    processing d acc (edge ch polarity) opened :=
  ⟨_, ⟨seeing_sees d acc opened 999997 ch polarity (by decide), rfl, opened, rfl, n, l⟩, rfl, rfl⟩

/-- The open tick from which an edge at tick 999,996 lies exactly at the span limit. -/
def farOpen : Tick := tickBefore 999996 (2 ^ 40)

/-- Some state has an edge at the span limit of a job with these accumulators, a boundary to come. -/
def limiting (d : Definition) (acc : Accumulators) (e : AcceptedEdge) (boundary : Tick) : Prop :=
  ∃ s : State, s.limits 0 d 4 farOpen e [] ∧ (s.job 0).acc = acc
    ∧ (s.job 0).next = some ⟨.stall, boundary⟩

theorem limiting_all (d : Definition) (acc : Accumulators) (ch : Fin 8) (polarity : Polarity)
    (boundary : Tick) (b : notEarlier 999996 boundary = false) :
    limiting d acc (edge ch polarity) boundary :=
  ⟨_, ⟨seeing_sees d acc farOpen boundary ch polarity b, rfl, rfl,
    (by decide : notEarlier 999996 farOpen = true), (by decide : 2 ^ 40 ≤ distance farOpen 999996)⟩, rfl, rfl⟩

def counted (n : Nat) : Accumulators := { Accumulators.cleared with count := n, total := n }
def timed (n : Nat) : Accumulators := { Accumulators.cleared with
  count := n, firstEdge := some 999596, lastProgress := some 999596 }
def begun (n : Nat) : Accumulators := { Accumulators.cleared with
  count := n, lastProgress := some 999596, pendingStart := some 999596 }

theorem allowed_definitions :
    tally.allowed ∧ { tally with repeating := .continuous }.allowed ∧ period.allowed ∧ width.allowed
      ∧ phase.allowed ∧ { period with repeating := .periodic, period := 4000 }.allowed
      ∧ { width with repeating := .periodic, period := 4000 }.allowed
      ∧ { gate .periodic with period := 4000 }.allowed ∧ (gate .once).allowed
      ∧ (gate .continuous).allowed ∧ sync.allowed ∧ { tally with target := 2 }.allowed := by
  simp [Definition.allowed, tally, period, width, phase, gate, sync, define]

theorem witness_CountingKindsCountEdges :
    (processing (gate .once) (counted 0) (edge 0 .rise) ∧ (gate .once).selectA.admits .rise = true)
      ∧ (processing tally (counted 1) (edge 0 .rise) ∧ (counted 1).total + 1 ≠ tally.target)
      ∧ (processing tally (counted 0) (edge 0 .rise) ∧ (counted 0).total + 1 = tally.target
        ∧ tally.repeating ≠ .periodic)
      ∧ (limiting tally { counted 1 with lastProgress := some 995997 } (edge 0 .rise) 999997
        ∧ tickBefore 999997 tally.report = 995997 ∧ notEarlier 995997 995997 = true)
      ∧ limiting tally { counted 1 with lastProgress := some 995996 } (edge 0 .rise) 999997
        ∧ notEarlier 995996 995997 = false :=
  ⟨⟨processing_all _ _ _ _, rfl⟩, ⟨processing_all _ _ _ _, by decide⟩,
    ⟨processing_all _ _ _ _, by decide⟩, ⟨limiting_all _ _ _ _ _ (by decide), by decide⟩,
    limiting_all _ _ _ _ _ (by decide), by decide⟩

theorem witness_IntervalKindsMeasureBetweenEdges :
    (processing period .cleared (edge 0 .rise) ∧ Accumulators.cleared.firstEdge = none)
      ∧ (processing period (timed 1) (edge 0 .rise) ∧ (timed 1).count + 1 ≠ period.count)
      ∧ (processing period (timed 0) (edge 0 .rise) ∧ (timed 0).count + 1 = period.count)
      ∧ (processing { period with repeating := .periodic, period := 4000 } (timed 0) (edge 0 .rise) 995996
        ∧ tickAfter 995996 4000 = (edge 0 .rise).timestamp)
      ∧ (processing sync (timed 7) (edge 0 .rise)
        ∧ notEarlier (edge 0 .rise).timestamp (tickAfter 999596 sync.gate) = true)
      ∧ (processing { sync with gate := 401 } (timed 7) (edge 0 .rise)
        ∧ ¬notEarlier (edge 0 .rise).timestamp (tickAfter 999596 401) = true)
      ∧ limiting period (timed 0) (edge 0 .rise) 1003596
        ∧ tickAfter 999596 period.stall = 1003596 ∧ notEarlier 999996 999596 = true :=
  ⟨⟨processing_all _ _ _ _, rfl⟩, ⟨processing_all _ _ _ _, by decide⟩,
    ⟨processing_all _ _ _ _, rfl⟩, ⟨processing_all _ _ _ _ 995996, by decide⟩,
    ⟨processing_all _ _ _ _, by decide⟩, ⟨processing_all _ _ _ _, by decide⟩,
    limiting_all _ _ _ _ _ (by decide), by decide⟩

theorem witness_SampleKindsMeasureFromThePendingStart :
    (processing width (begun 0) (edge 0 .rise) ∧ width.selectA.admits .rise = true)
      ∧ (processing phase (begun 0) (edge 0 .rise) ∧ phase.selectA.admits .rise = true)
      ∧ (processing width .cleared (edge 0 .fall) ∧ width.selectA.admits .fall = false
        ∧ Accumulators.cleared.pendingStart = none)
      ∧ (processing width (begun 1) (edge 0 .fall) ∧ (begun 1).count + 1 ≠ width.count)
      ∧ (processing { width with repeating := .periodic, period := 4000 } (begun 0) (edge 0 .fall) 995996
        ∧ tickAfter 995996 4000 = (edge 0 .fall).timestamp)
      ∧ (processing phase (begun 0) (edge 1 .rise) ∧ (edge 1 .rise).channel = phase.channelB
        ∧ (edge 1 .rise).channel ≠ phase.channelA
        ∧ phase.selectB.admits .rise = true ∧ (begun 0).count + 1 = phase.count)
      ∧ (limiting width (begun 0) (edge 0 .fall) 1003596 ∧ limiting phase (begun 0) (edge 0 .rise) 1003596)
        ∧ tickAfter 999596 width.stall = 1003596 ∧ tickAfter 999596 phase.stall = 1003596 :=
  ⟨⟨processing_all _ _ _ _, rfl⟩, ⟨processing_all _ _ _ _, rfl⟩,
    ⟨processing_all _ _ _ _, rfl, rfl⟩, ⟨processing_all _ _ _ _, by decide⟩,
    ⟨processing_all _ _ _ _ 995996, by decide⟩, ⟨processing_all _ _ _ _, by decide⟩,
    ⟨limiting_all _ _ _ _ _ (by decide), limiting_all _ _ _ _ _ (by decide)⟩, by decide⟩

/-- The states of a job in which it sees an edge at tick 1,000,000, no boundary before it. -/
def seen (j : Job) (d : Definition) (e : AcceptedEdge) : Job :=
  { j with definition := some d, settle := some 4, held := [e] }

theorem seen_sees (j : Job) (d : Definition) (ch : Fin 8) (polarity : Polarity)
    (r : j.state.running = true) (n : ∀ b, j.next = some b → notEarlier 999996 b.tick = false) :
    (withJob (seen j d (edge ch polarity))).sees 0 d 4 (edge ch polarity) [] :=
  ⟨r, rfl, rfl, rfl, (by decide : tickAfter 999996 4 = (1000000 : Tick)).symm, rfl, n⟩

def armedAt : Job := { Job.reset with
  state := .armed, subMode := some .at, next := some ⟨.start, 999997⟩ }
def onHold : Job := { Job.reset with state := .hold, next := some ⟨.start, 999997⟩ }
def onEdge (arming : Tick) : Job := { Job.reset with
  state := .armed, subMode := some .onEdge, armingTick := some arming }
def opened (at' : Tick) : Job := { Job.reset with
  state := .active, openTick := some at', next := some ⟨.close, 1000397⟩ }

theorem next_later (j : Job) (b : Boundary) (e : j.next = some b) (h : notEarlier 999996 b.tick = false) :
    ∀ c, j.next = some c → notEarlier 999996 c.tick = false := by
  intro c ec; rw [e] at ec; obtain rfl := Option.some.inj ec; exact h

theorem no_next (j : Job) (e : j.next = none) :
    ∀ c, j.next = some c → notEarlier 999996 c.tick = false := by
  intro c ec; rw [e] at ec; cases ec

/-- Some state shows an edge to the job of slot 0. -/
def shown (j : Job) (d : Definition) (e : AcceptedEdge) : Prop :=
  ∃ s : State, s.sees 0 d 4 e [] ∧ (s.job 0).state = j.state ∧ (s.job 0).subMode = j.subMode
    ∧ (s.job 0).armingTick = j.armingTick ∧ (s.job 0).openTick = j.openTick

/-- Some state opens a measurement at an edge that the job of slot 0 has waited for since its very tick. -/
def opens (d : Definition) : Prop :=
  shown (onEdge 999996) d (edge 0 .rise) ∧ d.selectA.admits .rise = true ∧ d.allowed

theorem opens_all (d : Definition) (a : d.selectA.admits .rise = true) (h : d.allowed) : opens d :=
  ⟨⟨_, seen_sees (onEdge _) _ _ _ rfl (no_next _ rfl), rfl, rfl, rfl, rfl⟩, a, h⟩

theorem witness_IgnoredAndOpeningEdges :
    shown armedAt (gate .once) (edge 0 .rise)
      ∧ shown onHold (gate .periodic) (edge 0 .rise)
      ∧ (shown (onEdge 999996) phase (edge 1 .rise) ∧ (edge 1 .rise).channel ≠ phase.channelA)
      ∧ (shown (onEdge 999996) (gate .once) (edge 0 .fall)
        ∧ (gate .once).selectA.admits .fall = false)
      ∧ (shown (onEdge 999997) (gate .once) (edge 0 .rise) ∧ notEarlier 999996 999997 = false)
      ∧ (shown (opened 999997) (gate .once) (edge 0 .rise) ∧ notEarlier 999996 999997 = false)
      ∧ (shown (opened 999996) (gate .once) (edge 0 .fall) ∧ (gate .once).channelA = 0
        ∧ (gate .once).selectA.admits .fall = false)
      ∧ (shown (opened 999996) phase (edge 1 .fall) ∧ (edge 1 .fall).channel = phase.channelB
        ∧ phase.selectB.admits .fall = false)
      ∧ opens (gate .once) ∧ opens sync ∧ opens period ∧ opens width ∧ opens phase ∧ opens tally
      ∧ (opens { tally with target := 2 } ∧ 2 ≠ 1 ∧ notEarlier 999996 999996 = true) := by
  obtain ⟨a1, -, a2, a3, a4, -, -, -, a5, -, a6, a7⟩ := allowed_definitions
  exact ⟨⟨_, seen_sees armedAt _ _ _ rfl (next_later _ _ rfl (by decide)), rfl, rfl, rfl, rfl⟩,
    ⟨_, seen_sees onHold _ _ _ rfl (next_later _ _ rfl (by decide)), rfl, rfl, rfl, rfl⟩,
    ⟨⟨_, seen_sees (onEdge _) _ _ _ rfl (no_next _ rfl), rfl, rfl, rfl, rfl⟩, by decide⟩,
    ⟨⟨_, seen_sees (onEdge _) _ _ _ rfl (no_next _ rfl), rfl, rfl, rfl, rfl⟩, rfl⟩,
    ⟨⟨_, seen_sees (onEdge _) _ _ _ rfl (no_next _ rfl), rfl, rfl, rfl, rfl⟩, by decide⟩,
    ⟨⟨_, seen_sees (opened _) _ _ _ rfl (next_later _ _ rfl (by decide)), rfl, rfl, rfl, rfl⟩,
      by decide⟩,
    ⟨⟨_, seen_sees (opened _) _ _ _ rfl (next_later _ _ rfl (by decide)), rfl, rfl, rfl, rfl⟩, rfl, rfl⟩,
    ⟨⟨_, seen_sees (opened _) _ _ _ rfl (next_later _ _ rfl (by decide)), rfl, rfl, rfl, rfl⟩, rfl, rfl⟩,
    opens_all _ rfl a5, opens_all _ rfl a6, opens_all _ rfl a2, opens_all _ rfl a3, opens_all _ rfl a4,
    opens_all _ rfl a1, opens_all _ rfl a7, by decide, by decide⟩

/-- A job has a boundary at the tick of the edge it holds, and its entry is the head. -/
def meetsEdge (d : Definition) (state : JobState) (purpose : Purpose) : Prop :=
  ∃ s : State, (s.job 0).state = state ∧ (s.job 0).state.running = true
    ∧ (s.job 0).definition = some d ∧ (s.job 0).settle = some 4 ∧ (s.job 0).held = edge 0 .rise :: []
    ∧ s.now = tickAfter (edge 0 .rise).timestamp 4 ∧ referenceIsDue s = false
    ∧ (s.job 0).next = some ⟨purpose, (edge 0 .rise).timestamp⟩ ∧ (s.job 0).boundaryLaw ∧ d.allowed
    ∧ s.deadlines.entries = ⟨s.now, 0, purpose⟩ :: [] ∧ (s.job 0).openTick = some 999596

theorem witness_BoundaryIsTakenBeforeTheEdge :
    meetsEdge { gate .periodic with period := 4000 } .hold .start
      ∧ (meetsEdge (gate .continuous) .active .close ∧ (gate .continuous).selectA.admits .rise = true)
      ∧ meetsEdge period .active .stall ∧ meetsEdge tally .active .report := by
  obtain ⟨a1, -, a2, -, -, -, -, a3, -, a4, -, -⟩ := allowed_definitions
  exact ⟨⟨dueJob .hold _ .start, rfl, rfl, rfl, rfl, rfl, by decide, rfl, rfl, ⟨rfl, 999996, rfl⟩, a3, rfl, rfl⟩,
    ⟨⟨dueJob .active _ .close, rfl, rfl, rfl, rfl, rfl, by decide, rfl, rfl, ⟨999996, rfl⟩, a4, rfl, rfl⟩, rfl⟩,
    ⟨dueJob .active _ .stall, rfl, rfl, rfl, rfl, rfl, by decide, rfl, rfl, ⟨999996, rfl⟩, a2, rfl, rfl⟩,
    ⟨dueJob .active _ .report, rfl, rfl, rfl, rfl, rfl, by decide, rfl, rfl, ⟨999996, rfl⟩, a1, rfl, rfl⟩⟩

def every4000 : Definition := { period with repeating := .periodic, period := 4000 }

/-- The periodic job of channel 0 ends a measurement at the boundary of tick 999,996. -/
def periodicJob (d : Definition) (purpose : Purpose) (openTick : Tick) : State :=
  withJob { active d (some ⟨purpose, 999996⟩) [] with openTick := some openTick }

theorem periodicJob_expires (d : Definition) (purpose : Purpose) (openTick : Tick) :
    (periodicJob d purpose openTick).expires 0 d 4 purpose 999996 := ⟨rfl, rfl, rfl, rfl, [], rfl⟩

/-- A gate of a number of ticks every 4,000 ticks. -/
def gated (ticks : Nat) : Definition := { gate .periodic with gate := ticks, period := 4000 }

theorem witness_PeriodicJobFindsTheNextStart :
    ((periodicJob every4000 .stall 999596).expires 0 every4000 4 .stall 999996
        ∧ distance 999596 999996 ≤ 1 * every4000.period
        ∧ notEarlier 999996 (tickAfter 999596 (1 * every4000.period)) = false)
      ∧ ((periodicJob every4000 .stall 991996).expires 0 every4000 4 .stall 999996
        ∧ distance 991996 999996 ≤ 2 * every4000.period
        ∧ (2 - 1) * every4000.period < distance 991996 999996
        ∧ tickAfter 991996 (2 * every4000.period) = 999996
        ∧ every4000.repeating = .periodic ∧ 4000 ≤ every4000.period)
      ∧ ((periodicJob (gated 4000) .close 995996).expires 0 (gated 4000) 4 .close 999996
        ∧ 999996 = tickAfter 995996 (gated 4000).gate ∧ (gated 4000).period = (gated 4000).gate
        ∧ distance 995996 999996 ≤ 1 * (gated 4000).period)
      ∧ (periodicJob (gated 3999) .close 995997).expires 0 (gated 3999) 4 .close 999996
        ∧ 999996 = tickAfter 995997 (gated 3999).gate ∧ (gated 3999).gate < (gated 3999).period
        ∧ distance 995997 999996 ≤ 1 * (gated 3999).period :=
  ⟨⟨periodicJob_expires _ _ _, by decide⟩, ⟨periodicJob_expires _ _ _, by decide⟩,
    ⟨periodicJob_expires _ _ _, by decide⟩, periodicJob_expires _ _ _, by decide⟩

theorem witness_QueueAppendsOrRefusesARecord :
    (live.setRecords (List.replicate 95 sample)).results.records.length < 96
      ∧ 96 ≤ (live.setRecords (List.replicate 96 sample)).results.records.length := by decide

theorem witness_ResultRequestsFetchSetUpAndFlush :
    (meets 0x28 [0] (fun _ => True) ∧ meets 0x28 [5] (fun _ => True)
        ∧ meets 0x28 [4] (fun _ => True))
      ∧ (meets 0x29 [97] (fun _ => True) ∧ meets 0x29 [96] (fun _ => True))
      ∧ meets 0x2A [] (fun _ => True) :=
  ⟨⟨meets_live trivial, meets_live trivial, meets_live trivial⟩,
    ⟨meets_live trivial, meets_live trivial⟩, meets_live trivial⟩

theorem witness_ResultQueueIsFifo :
    completes .resultFetch (asked (live.setRecords [sample]) 0x28 [1])
        (after .resultFetch (asked (live.setRecords [sample]) 0x28 [1]))
      ∧ completes .softReset (asked (live.setRecords [sample]) 0x05 [])
        (after .softReset (asked (live.setRecords [sample]) 0x05 []))
      ∧ completes .deadlineExpiry (dueJob .active (gate .once) .close)
        (after .deadlineExpiry (dueJob .active (gate .once) .close)) := ⟨rfl, rfl, rfl⟩

theorem witness_LimitUnitMovesTheAlertState :
    let w : Window := { low := 10, high := 20, band := 5, stallOut := true, drive := true }
    let s := live.setJob 0 { Job.reset with state := .active, window := some w }
    verdict (s.job 0).window .complete 9 = .outside ∧ (s.job 0).alert = .inside
      ∧ verdict (s.job 0).window .target 15 = .core
      ∧ verdict (s.job 0).window .interim 20 = .margin
      ∧ verdict (s.job 0).window .spanLimit 9 = .notEvaluated
      ∧ (s.setRecords (List.replicate 95 sample)).results.records.length < 96
      ∧ 96 ≤ (s.setRecords (List.replicate 96 sample)).results.records.length := by decide

def limitSet (present : Byte) (low high band : Nat) (stall drive : Byte) : List Byte :=
  leBytes 1 (0 : Fin 32).val ++ [present] ++ leBytes 8 low ++ leBytes 8 high ++ leBytes 8 band
    ++ [stall, drive]

theorem limit_meets (payload : List Byte) :
    meets 0x2C payload (fun s => (s.job 0).state ≠ .free) :=
  ⟨asked (idle (gate .once)) 0x2C payload, asked_asks _ _ _ rfl (Nat.zero_lt_succ 3) rfl,
    (by decide : JobState.idle ≠ .free)⟩

theorem witness_LimitSetChecksThenApplies :
    meets 0x2C (limitSet 1 0 0 0 0 0) (fun s => (s.job 0).state = .free)
      ∧ meets 0x2C (limitSet 2 0 0 0 0 0) (fun s => (s.job 0).state ≠ .free)
      ∧ meets 0x2C (limitSet 0 1 1 1 1 1) (fun s => (s.job 0).state ≠ .free)
      ∧ meets 0x2C (limitSet 0 0 0 0 0 1) (fun s => (s.job 0).state ≠ .free)
      ∧ meets 0x2C (limitSet 0 0 0 0 0 0) (fun s => (s.job 0).state ≠ .free)
      ∧ meets 0x2C (limitSet 1 1 0 0 0 0) (fun s => (s.job 0).state ≠ .free)
      ∧ meets 0x2C (limitSet 1 0 101 51 0 0) (fun s => (s.job 0).state ≠ .free)
      ∧ meets 0x2C (limitSet 1 0 101 50 2 2) (fun s => (s.job 0).state ≠ .free)
      ∧ meets 0x2C (limitSet 1 0 101 50 1 2) (fun s => (s.job 0).state ≠ .free)
      ∧ meets 0x2C (limitSet 1 (2 ^ 64 - 1) (2 ^ 64 - 1) 0 1 1) (fun s => (s.job 0).state ≠ .free) :=
  ⟨meets_live (by decide), limit_meets _, limit_meets _, limit_meets _, limit_meets _, limit_meets _,
    limit_meets _, limit_meets _, limit_meets _, limit_meets _⟩

theorem witness_EveryStepKeepsTheAlertLaw :
    ∃ s t : State, s.alertLaw ∧ s.alert = true ∧ step s = .next t :=
  ⟨{ working.setJob 0 { running with
        window := some { low := 1, high := 2, band := 0, stallOut := false, drive := true },
        alert := .outside } with
      alert := true, pending := [.deadlineExpiry] }, _,
    ⟨fun _ => ⟨0, _, rfl, rfl, rfl⟩, fun _ => rfl⟩, rfl, rfl⟩

theorem witness_RaisingAFlagMergesOrAppends :
    (∀ n ∈ noticing.notices.queued, n.source ≠ .results)
      ∧ noticing.notices.queued = [] ++ ⟨.job 0, 0x40#8⟩ :: [] := by decide

theorem witness_EveryStepKeepsTheNoticeLaws :
    ∃ s t : State, s.noticeSources ∧ s.transmissionLaw ∧ s.notices.inFlight.isSome = true
      ∧ step s = .next t :=
  ⟨{ sending true 997200 with pending := [.noticeSent] }, _, List.nodup_nil,
    ⟨by decide, fun e => nomatch e⟩, rfl, rfl⟩

theorem witness_NoticeIsSentWithItsSnapshot :
    (noticing.link.initialised = true ∧ noticing.link.transmitter = .idle
        ∧ noticing.link.resetDue = false ∧ noticing.link.replies = []
        ∧ noticing.notices.queued = ⟨.job 0, 0x40#8⟩ :: [] ∧ 1 ≤ noticing.notices.credits)
      ∧ (sending true 997200).link.transmitter = .sending (List.replicate 7 0) 997200 true
        ∧ byteEnd (sending true 997200).link.rate 7 ≤ distance 997200 (sending true 997200).now := by
  decide

theorem witness_GrantAddsCredits :
    meets 0x04 [17] (fun _ => 16 < (17 : Byte).toNat) ∧ meets 0x04 [16] (fun _ => (16 : Byte).toNat ≤ 16) :=
  ⟨meets_live (by decide), meets_live (by decide)⟩

/-- A character that has some bits and whose next one is sampled at the tick after 1,000,000. -/
def sampling (bits : List Level) : State := { live with link := { live.link with
  character := some ⟨tickBefore 1000001 (sampleOffset live.link.rate bits.length), bits⟩ } }

theorem sampling_due (bits : List Level) (h : bits.length ≤ 9) :
    ∃ c, (sampling bits).link.character = some c ∧ c.bits = bits
      ∧ distance c.start ((sampling bits).now + 1) = sampleOffset (sampling bits).link.rate c.bits.length := by
  refine ⟨_, rfl, rfl, ?_⟩
  have small : sampleOffset .r115200 bits.length < 2 ^ 48 := by
    unfold sampleOffset
    simp only [LineRate.bitsPerSecond]
    have := Nat.mod_lt (Config.samplePoint 115200 bits.length) (show 40000000 / 115200 > 0 by decide)
    omega
  change ((1000001 : Tick) - tickBefore 1000001 (sampleOffset .r115200 bits.length)).toNat
    = sampleOffset .r115200 bits.length
  unfold tickBefore
  rw [sub_sub_cancel, BitVec.toNat_ofNat, Nat.mod_eq_of_lt small]

theorem witness_ReceiverCollectsAFrame :
    (live.link.initialised = true ∧ live.link.breakState = .none
        ∧ (hearing 0xC3 live).link.completed = some 0xC3 ∧ live.link.receiver = .hunting)
      ∧ ((inFrame [0xC3] 960000).link.receiver = .inFrame [0xC3] 960000
        ∧ (inFrame [0xC3] 960000).now ≠ tickAfter 960000 40001)
      ∧ ((inFrame [0xC3, 252] 960000).link.receiver = .inFrame [0xC3, 252] 960000
        ∧ 2 ≤ [0xC3, (252 : Byte)].length
        ∧ [0xC3, (252 : Byte)].length + 1 < ([0xC3, (252 : Byte)].getD 1 0).toNat + 4)
      ∧ (inFrame [0xC3] 959999).now = tickAfter 959999 40001
      ∧ live.link.completed ≠ some 0xC3
      ∧ (workIsDue State.reset = false ∧ State.reset.link.initialised = false)
      ∧ (workIsDue live = false ∧ live.link.character = none ∧ live.link.rxd = .high) := by decide

theorem witness_ReceiverCollectsAFrame_samples :
    (∃ c, (sampling []).link.character = some c ∧ c.bits = []
        ∧ distance c.start ((sampling []).now + 1) = sampleOffset (sampling []).link.rate c.bits.length)
      ∧ (∃ c, (sampling (List.replicate 9 .low)).link.character = some c ∧ c.bits = List.replicate 9 .low
        ∧ distance c.start ((sampling (List.replicate 9 .low)).now + 1)
          = sampleOffset (sampling (List.replicate 9 .low)).link.rate c.bits.length)
      ∧ workIsDue (sampling (List.replicate 9 .low)) = false :=
  ⟨sampling_due _ (by decide), sampling_due _ (by decide), by decide⟩

/-- A frame of a CLASS with TAG 7, CODE 1 and no payload, but for its last byte. -/
def almost (cls check1 : Byte) : List Byte :=
  [0xC3, BitVec.ofNat 8 (0 + 3), cls, 7, 0x01] ++ [] ++ [check1]

/-- The low and the high byte of its CHECK. -/
def check (cls : Byte) : Nat := (crc16 ([BitVec.ofNat 8 (0 + 3), cls, 7, 0x01] ++ [])).toNat

def full (s : State) : State := { s with link := { s.link with
  intake := List.replicate 4 ⟨7, 0x01, []⟩ } }

set_option maxRecDepth 8000 in
theorem witness_ReceivedFrameReadsBack :
    (∃ check1 check2 : Byte, (inFrame (almost 1 check1) 999990).link.receiver
          = .inFrame (almost 1 check1) 999990
        ∧ check 1 ≠ check1.toNat + 256 * check2.toNat)
      ∧ (∃ check1 check2 : Byte, check 2 = check1.toNat + 256 * check2.toNat)
      ∧ (∃ check1 check2 : Byte, check 1 = check1.toNat + 256 * check2.toNat)
      ∧ 4 ≤ (full (inFrame (almost 1 0) 999990)).link.intake.length
      ∧ (inFrame (almost 1 0) 999990).link.intake.length < 4
      ∧ (inFrame (almost 1 0) 999990).now ≠ tickAfter 999990 40001
      ∧ (hearing 0 (inFrame (almost 1 0) 999990)).link.completed = some 0 :=
  ⟨⟨0, 0, rfl, by decide⟩, ⟨BitVec.ofNat 8 (check 2), BitVec.ofNat 8 (check 2 / 256), by decide⟩,
    ⟨BitVec.ofNat 8 (check 1), BitVec.ofNat 8 (check 1 / 256), by decide⟩, by decide⟩

def cutOff : State := { sending true 997200 with
  notices := { live.notices with
    inFlight := some ⟨.results, 0x02#8, [], 3⟩, queued := [⟨.job 0, 0x01#8⟩, ⟨.results, 0x01#8⟩] }
  link := { (sending true 997200).link with resetDue := true, breakState := .inBreak } }

theorem witness_BreakAndLinkReset :
    ((broken .none).link.initialised = true ∧ (broken .none).link.breakState = .none
        ∧ (broken .none).link.lineLow = 80000)
      ∧ ((broken .inBreak).link.resetDue = true ∧ (broken .inBreak).link.transmitter = .idle
        ∧ (broken .inBreak).notices.inFlight = none)
      ∧ cutOff.link.resetDue = true
        ∧ cutOff.link.transmitter = .sending (List.replicate 7 0) 997200 true
        ∧ byteEnd cutOff.link.rate 7 = distance 997200 cutOff.now
        ∧ cutOff.notices.inFlight = some ⟨.results, 0x02#8, [], 3⟩
        ∧ cutOff.notices.queued = [⟨.job 0, 0x01#8⟩] ++ ⟨.results, 0x01#8⟩ :: []
        ∧ ∀ n ∈ [(⟨.job 0, 0x01#8⟩ : QueuedNotice)] ++ [], n.source ≠ .results := by decide

theorem witness_RepliesAndTheEndOfInitialisation :
    (replying.link.initialised = true ∧ replying.link.transmitter = .idle
        ∧ replying.link.resetDue = false ∧ replying.link.replies = ⟨7, 0x00, []⟩ :: [])
      ∧ ((sending false 997200).link.transmitter = .sending (List.replicate 7 0) 997200 false
        ∧ byteEnd (sending false 997200).link.rate 7 ≤ distance 997200 (sending false 997200).now
        ∧ 10 * (List.replicate 7 (0 : Byte)).length * 40000000
          ≤ distance 997200 (sending false 997200).now * LineRate.r1000000.bitsPerSecond)
      ∧ ((sending false 997201).link.transmitter = .sending (List.replicate 7 0) 997201 false
        ∧ (List.replicate 7 (0 : Byte))[6]? = some 0
        ∧ (10 * 6 + 9) * 40000000
          ≤ distance 997201 (sending false 997201).now * LineRate.r1000000.bitsPerSecond
        ∧ ¬(10 * 6 + 9 + 1) * 40000000
          ≤ distance 997201 (sending false 997201).now * LineRate.r1000000.bitsPerSecond)
      ∧ ∀ rxd : Level, ∃ s : State, s.link.initialised = false ∧ s.now = 80000 ∧ s.link.rxd = rxd :=
  ⟨by decide, by decide, by decide, fun rxd =>
    ⟨{ State.reset with
      timebase := { Timebase.reset with tick := 80000 }, link := { State.reset.link with rxd := rxd } },
      rfl, rfl, rfl⟩⟩

theorem witness_DispatcherChecksCodeLengthIndex :
    meets 0x06 [] (fun _ => True) ∧ meets 0x04 [1, 2] (fun _ => True)
      ∧ meets 0x23 [32] (fun _ => True) ∧ meets 0x1A [8] (fun _ => True)
      ∧ (meets 0x03 [0] (fun s => referenceIsDue s = false)
        ∧ meets 0x22 [32, 0] (fun s => referenceIsDue s = false))
      ∧ meets 0x20 (31 :: 0 :: 8 :: List.replicate 29 0) (fun _ => True)
      ∧ (31 :: 0 :: 8 :: List.replicate 29 (0 : Byte)).length = 32 :=
  ⟨meets_live trivial, meets_live trivial, meets_live trivial, meets_live trivial,
    ⟨meets_live (by decide), meets_live (by decide)⟩, meets_live trivial, rfl⟩

theorem witness_RefusedRequestChangesNothing :
    meets 0x04 [17] (fun s => ∃ t r, completes .grant s t
      ∧ t.link.replies = s.link.replies ++ [r] ∧ r.code ≠ 0x00 ∧ r.code ≠ 0x01) :=
  meets_live ⟨_, ⟨7, 0x12, [1]⟩, rfl, rfl, by decide, by decide⟩

theorem witness_DescribeAndStatusReportTheDevice :
    meets 0x01 [] (fun _ => True) ∧ meets 0x02 [2] (fun _ => 1 < (2 : Byte).toNat)
      ∧ meets 0x02 [1] (fun _ => (1 : Byte).toNat ≤ 1) ∧ working.deadlineLaw :=
  ⟨meets_live trivial, meets_live (by decide), meets_live (by decide), working_deadlineLaw⟩

end Sys2Proof.Tests
end

section
/-! PROOF. What every command does to the timebase: five commands can move it, all others leave it alone.
From that, the account of the holdover entry count (R10). -/

namespace Sys2Proof.Machine

variable {s t u : State}

/-! ## Which commands leave the timebase alone -/

/-- The commands that move the timebase: power reset, a tick, an edge of REFCLK and the two transitions (R1,
R5 to R8, R13). -/
def movesTimebase : Instr → Bool
  | .powerReset _ _ | .tick _ | .refclkEdge | .refLoss | .regain => true
  | _ => false

/-- An event command acts or waits; where neither moves the timebase, the command does not. -/
theorem timebase_of_ite {due : Prop} [Decidable due] (acts : t.timebase = s.timebase)
    (waits : u.timebase = s.timebase) : (if due then t else u).timebase = s.timebase := by
  split
  · exact acts
  · exact waits

/-! ### Events -/

theorem logEdge_timebase (s : State) (e : AcceptedEdge) : (s.logEdge e).timebase = s.timebase := by
  unfold State.logEdge
  dsimp only
  split
  · rfl
  · split
    · split <;> rfl
    · split <;> rfl

theorem arrive_timebase (s : State) (ch : Fin 8) : (s.arrive ch).timebase = s.timebase := by
  unfold State.arrive
  dsimp only
  split
  · rfl
  · rw [State.holdEdge_timebase, logEdge_timebase, State.setChannel_timebase]

theorem decideStep_timebase (s : State) (ch : Fin 8) : (s.decideStep ch).timebase = s.timebase := by
  unfold State.decideStep
  dsimp only
  split
  · rfl
  · split <;> rfl

/-- An expiry removes the head entry, and the rest is an act of its job (R100). -/
theorem expire_timebase (s : State) : s.expire.timebase = s.timebase := by
  unfold State.expire
  split
  · rfl
  · exact (takeBoundary_acts _ _ _).timebase

theorem takeFrame_timebase (s : State) (frame : List Byte) :
    (s.takeFrame frame).timebase = s.timebase := by
  unfold State.takeFrame
  dsimp only
  split
  · rfl
  · split
    · rfl
    · split <;> rfl

theorem beginReply_timebase (s : State) : s.beginReply.timebase = s.timebase := by
  unfold State.beginReply
  split <;> rfl

theorem beginNotice_timebase (s : State) : s.beginNotice.timebase = s.timebase := by
  unfold State.beginNotice
  split <;> rfl

theorem resetNotices_timebase (s : State) : s.resetNotices.timebase = s.timebase := by
  have cut : s.cutOffNotice.timebase = s.timebase := by
    unfold State.cutOffNotice
    split <;> rfl
  exact cut

/-- A byte examined by the receiver in a frame: whatever it does with the frame's bytes, the timebase stays
when the act on them leaves it. -/
theorem timebase_of_collecting {act : List Byte → State} (b : Byte)
    (h : ∀ bytes, (act bytes).timebase = s.timebase) :
    (match s.collecting b with | some bytes => act bytes | none => s).timebase = s.timebase := by
  cases s.collecting b with
  | some bytes => exact h bytes
  | none => rfl

/-! ### Requests -/

/-- Every answer of a request leaves the timebase as it found it. -/
def SparesTimebase (handler : List Byte → State → Answer) : Prop :=
  ∀ payload s, (handler payload s).state.timebase = s.timebase

/-- A request whose answers spare the timebase spares it, whether the dispatcher takes it or not. -/
theorem serve_timebase {rc : RequestCode} {mine : List Byte → Bool}
    {handler : List Byte → State → Answer} (h : SparesTimebase handler) :
    (s.serve rc mine handler).timebase = s.timebase := by
  obtain idle | ⟨tag, code, payload, rest, -, -, -, ⟨c, d, -, refused⟩ | ⟨-, handled⟩⟩ :=
    serve_cases (s := s) rc mine handler
  · rw [idle]
  · rw [refused, State.answered_timebase]
  · rw [handled]; exact h payload s

theorem chanSet_spares : SparesTimebase chanSet := by
  intro payload s
  unfold chanSet
  dsimp only
  split
  · rfl
  · split
    · rfl
    · split <;> rfl

theorem chanGet_spares : SparesTimebase chanGet := by
  intro payload s
  unfold chanGet
  dsimp only
  split
  · rfl
  · exact timebase_of_ite rfl rfl

theorem status_spares : SparesTimebase status := by
  intro payload s
  unfold status
  dsimp only
  split
  · rfl
  · exact timebase_of_ite rfl rfl

theorem probeStart_spares : SparesTimebase probeStart := by
  intro payload s
  unfold probeStart
  split <;> rfl

theorem probeCancel_spares : SparesTimebase probeCancel := by
  intro payload s
  unfold probeCancel
  dsimp only
  split
  · split <;> rfl
  · rfl

theorem captureSet_spares : SparesTimebase captureSet := by
  intro payload s
  unfold captureSet
  split
  · rfl
  · dsimp only
    split <;> rfl

theorem captureRead_spares : SparesTimebase captureRead := by
  intro payload s
  unfold captureRead
  dsimp only
  split <;> rfl

theorem grant_spares : SparesTimebase grant := by
  intro payload s
  unfold grant
  dsimp only
  split <;> rfl

theorem resultFetch_spares : SparesTimebase resultFetch := by
  intro payload s
  unfold resultFetch
  dsimp only
  split <;> rfl

theorem resultSetup_spares : SparesTimebase resultSetup := by
  intro payload s
  unfold resultSetup
  dsimp only
  split <;> rfl

theorem limitSet_spares : SparesTimebase limitSet := by
  intro payload s
  unfold limitSet
  dsimp only
  split
  · rfl
  · split <;> rfl

theorem jobDefine_spares : SparesTimebase jobDefine := by
  intro payload s
  unfold jobDefine
  dsimp only
  split
  · rfl
  · split <;> rfl

theorem jobClear_spares : SparesTimebase jobClear := by
  intro payload s
  unfold jobClear
  dsimp only
  split <;> rfl

/-- Start mode NOW opens the measurement, an act of the job; AT and ON_EDGE write the slot and its entry
(R42 to R44). -/
theorem jobStart_spares : SparesTimebase jobStart := by
  intro payload s
  unfold jobStart
  split
  · rfl
  · dsimp only
    split
    · exact (openMeasurement_acts _ _ _ _).timebase
    · rfl
    · rfl

/-- A stop forms at most a PARTIAL record and takes the job out of the running states, both acts of the job
(R56). -/
theorem jobStop_spares : SparesTimebase jobStop := by
  intro payload s
  have kept : (if field payload 1 1 = 1 then s.keepPartial (slotField payload) else s).timebase
      = s.timebase := timebase_of_ite (keepPartial_acts _ _).timebase rfl
  unfold jobStop
  dsimp only
  split
  · rfl
  · exact (timebase_of_ite (leaveRunning_acts _ _ _).timebase rfl).trans kept

theorem unknownRequest_timebase (h : completes .unknownRequest s t) : t.timebase = s.timebase := by
  cases h
  split
  · exact timebase_of_ite rfl rfl
  · rfl

/-! ### Every command -/

/-- The state that a completed command leaves is the one its meaning gives. -/
theorem timebase_of_next (h : (.next u : Out) = .next t) (k : u.timebase = s.timebase) :
    t.timebase = s.timebase := by
  cases h
  exact k

/-- Only the commands of the timebase move it. -/
theorem exec_timebase {c : Instr} (other : movesTimebase c = false) (h : completes c s t) :
    t.timebase = s.timebase := by
  cases c with
  | powerReset | tick | refclkEdge | refLoss | regain => cases other
  | initEnd | revert | edgeAccepted | strayByte | sync | truncation | breakDetected | replySent
  | noticeSent => exact timebase_of_next h (timebase_of_ite rfl rfl)
  | edgeArrival ch => exact timebase_of_next h (timebase_of_ite (arrive_timebase s ch) rfl)
  | edgeSeen slot => exact timebase_of_next h (timebase_of_ite (see_acts slot s).timebase rfl)
  | deadlineExpiry => exact timebase_of_next h (timebase_of_ite (expire_timebase s) rfl)
  | probeStep ch => exact timebase_of_next h (timebase_of_ite (decideStep_timebase s ch) rfl)
  | comparatorOutput ch level => exact timebase_of_next h rfl
  | frameByte b => exact timebase_of_next h (timebase_of_collecting b fun _ => timebase_of_ite rfl rfl)
  | badLength b => exact timebase_of_next h (timebase_of_collecting b fun _ => timebase_of_ite rfl rfl)
  | receiveFrame b =>
    exact timebase_of_next h (timebase_of_collecting b fun _ =>
      timebase_of_ite (takeFrame_timebase s.examined _) rfl)
  | linkReset =>
    exact timebase_of_next h (timebase_of_ite (resetNotices_timebase { s with link := s.link.cut }) rfl)
  | replyBegin => exact timebase_of_next h (timebase_of_ite (beginReply_timebase s) rfl)
  | noticeBegin => exact timebase_of_next h (timebase_of_ite (beginNotice_timebase s) rfl)
  | unknownRequest => exact unknownRequest_timebase h
  | describe | softReset | captureFlush | jobGet | resultFlush =>
    exact timebase_of_next h (serve_timebase fun _ _ => rfl)
  | status => exact timebase_of_next h (serve_timebase status_spares)
  | time => exact timebase_of_next h (timebase_of_ite rfl (serve_timebase fun _ _ => rfl))
  | grant => exact timebase_of_next h (serve_timebase grant_spares)
  | chanSet => exact timebase_of_next h (serve_timebase chanSet_spares)
  | chanGet => exact timebase_of_next h (serve_timebase chanGet_spares)
  | probeStart => exact timebase_of_next h (serve_timebase probeStart_spares)
  | probeCancel => exact timebase_of_next h (serve_timebase probeCancel_spares)
  | captureSet => exact timebase_of_next h (serve_timebase captureSet_spares)
  | captureRead => exact timebase_of_next h (serve_timebase captureRead_spares)
  | jobDefine => exact timebase_of_next h (serve_timebase jobDefine_spares)
  | jobStart => exact timebase_of_next h (serve_timebase jobStart_spares)
  | jobStop => exact timebase_of_next h (timebase_of_ite rfl (serve_timebase jobStop_spares))
  | jobClear => exact timebase_of_next h (serve_timebase jobClear_spares)
  | resultFetch => exact timebase_of_next h (serve_timebase resultFetch_spares)
  | resultSetup => exact timebase_of_next h (serve_timebase resultSetup_spares)
  | limitSet => exact timebase_of_next h (serve_timebase limitSet_spares)

/-! ## The holdover entry count (R10) -/

/-- From `before` to `after`, an entry into HOLDOVER from NORMAL counts one, up to 65,535, and nothing else
counts. -/
def CountsEntry (before after : Timebase) : Prop :=
  after.holdoverEntries =
    if before.state = .normal ∧ after.state = .holdover then min (before.holdoverEntries + 1) 65535
    else before.holdoverEntries

/-- Where the state and the count stay there is no entry. -/
theorem countsEntry_of_same {before after : Timebase} (state : after.state = before.state)
    (entries : after.holdoverEntries = before.holdoverEntries) : CountsEntry before after := by
  have noEntry : ¬ (before.state = .normal ∧ after.state = .holdover) := by
    rintro ⟨normal, holdover⟩
    rw [state, normal] at holdover
    cases holdover
  rw [CountsEntry, if_neg noEntry, entries]

theorem countsEntry_of_ite {before : Timebase} {due : Prop} [Decidable due]
    (acts : CountsEntry before t.timebase) (waits : CountsEntry before u.timebase) :
    CountsEntry before (if due then t else u).timebase := by
  split
  · exact acts
  · exact waits

/-- A loss in NORMAL is the entry (R6); one in START or HOLDOVER changes neither state nor count (R7). -/
theorem declareLoss_countsEntry (s : State) : CountsEntry s.timebase s.declareLoss.timebase := by
  cases state : s.timebase.state with
  | normal => simp [CountsEntry, State.declareLoss, state, saturate, Config.counterMax]
  | start | holdover =>
    refine countsEntry_of_same ?_ ?_ <;> simp [State.declareLoss, state]

/-- A regain leads to NORMAL, so it is no entry (R8). -/
theorem becomeNormal_countsEntry (s : State) : CountsEntry s.timebase s.becomeNormal.timebase := by
  simp [CountsEntry, State.becomeNormal]

/-- Every command but power reset counts the entry it makes, and no other. -/
theorem exec_countsEntry {c : Instr} (noReset : ∀ rate1 rate0, c ≠ .powerReset rate1 rate0)
    (h : completes c s t) : CountsEntry s.timebase t.timebase := by
  have idle : CountsEntry s.timebase s.timebase := countsEntry_of_same rfl rfl
  cases c with
  | powerReset rate1 rate0 => exact absurd rfl (noReset rate1 rate0)
  | tick rxd => cases h; exact countsEntry_of_ite idle (countsEntry_of_same rfl rfl)
  | refclkEdge => cases h; exact countsEntry_of_ite idle (countsEntry_of_same rfl rfl)
  | refLoss => cases h; exact countsEntry_of_ite (declareLoss_countsEntry s) idle
  | regain => cases h; exact countsEntry_of_ite (becomeNormal_countsEntry s) idle
  | _ => rw [exec_timebase rfl h]; exact idle

/-- Settles O7: the reset sets the count to 0, and every other command counts the entry it makes. -/
theorem holdoverEntriesCountEntries : Obligations.HoldoverEntriesCountEntries := by
  intro c s t h
  cases c with
  | powerReset rate1 rate0 => cases h; rfl
  | _ => exact exec_countsEntry (by simp) h

end Sys2Proof.Machine
end

section
/-! PROOF. What CHAN_GET reports of a channel, and what it clears (R27 to R29). -/

namespace Sys2Proof.Machine

variable {s : State} {tag clear : Byte} {ch : Fin 8} {rest : List Request}

/-! ## Channels in use, and requests that name a channel -/

/-- The model's test for a channel in use finds exactly the running jobs that reference it (R24). -/
theorem inUse_iff_claimed : s.inUse ch = true ↔ s.claimed ch := by
  have member (slot : Fin 32) : ((s.job slot).state.running && (s.job slot).references ch) = true
      ↔ ∃ d, (s.job slot).state.running = true ∧ (s.job slot).definition = some d
          ∧ d.references ch = true := by
    cases defined : (s.job slot).definition <;> simp [Job.references, defined]
  exact (anyIn_eq_true _ _).trans (exists_congr member)

/-- The first field of a payload that begins with a channel's number is in range. -/
theorem field_channel_le (ch : Fin 8) (tail : List Byte) :
    field (leBytes 1 ch.val ++ tail) 0 1 ≤ 7 := by
  have := ch.isLt
  simp [field, leBytes]
  omega

/-! ## CHAN_GET -/

/-- The dispatcher hands a CHAN_GET that names a channel to its owner (R185). -/
theorem chanGet_of_asks (q : s.asks tag 0x11 (leBytes 1 ch.val ++ [clear]) rest) :
    completes .chanGet s (finishRequest ⟨tag, 0x11, leBytes 1 ch.val ++ [clear]⟩
      (chanGet (leBytes 1 ch.val ++ [clear]) s)) := by
  have inRange : RequestCode.badIndex .chanGet (leBytes 1 ch.val ++ [clear]) = none :=
    if_neg (Nat.not_lt.mpr (field_channel_le ch _))
  exact congrArg Host.Outcome.next (serve_of_asks q rfl rfl (genericCheck_none rfl inRange))

/-- The check of CHAN_GET on its clear field, and its two answers (R27, R28). -/
theorem chanGet_eq (s : State) (ch : Fin 8) (clear : Byte) :
    chanGet (leBytes 1 ch.val ++ [clear]) s
      = if 1 < clear.toNat then refuse s .badValue 2
        else okay (if clear = 1 then s.setChannel ch { s.channel ch with glitches := 0 } else s)
          (s.chanGetBytes ch) := by
  have clearField : field (leBytes 1 ch.val ++ [clear]) 1 1 = clear.toNat := by
    simp [leBytes_one, field_cons_succ, field_zero]
  have asksToClear : clear.toNat = 1 ↔ clear = 1 := BitVec.toNat_inj (y := 1)
  simp only [chanGet, clearField, channelField_cons, asksToClear, gt_iff_lt]

theorem chanGet_refuses (q : s.asks tag 0x11 (leBytes 1 ch.val ++ [clear]) rest)
    (above : 1 < clear.toNat) : completes .chanGet s (s.answered tag rest 0x12 [2]) := by
  have served := chanGet_of_asks q
  rwa [chanGet_eq, if_pos above, finishRequest_refuse q] at served

/-- The reply is the report of the channel as CHAN_GET found it, before the glitch counter is zeroed (R28). -/
theorem chanGet_reports (q : s.asks tag 0x11 (leBytes 1 ch.val ++ [clear]) rest)
    (valid : ¬1 < clear.toNat) :
    completes .chanGet s
      ((if clear = 1 then s.setChannel ch { s.channel ch with glitches := 0 } else s).answered tag rest
        0x00 (s.chanGetBytes ch)) := by
  have link : (if clear = 1 then s.setChannel ch { s.channel ch with glitches := 0 } else s).link
      = s.link := by
    split
    · exact State.setChannel_link _ _ _
    · rfl
  have served := chanGet_of_asks q
  rwa [chanGet_eq, if_neg valid, finishRequest_eq link q] at served

/-! ## The bytes of the report (R27) -/

theorem leBytes_channelState (state : ChannelState) :
    leBytes 1 state.toCode = [match state with | .disabled => 0 | .enabled => 1 | .probing => 2] := by
  cases state <;> rfl

theorem leBytes_levelCode : ∀ accepted : Option Level,
    leBytes 1 (levelCode accepted)
      = [match accepted with | some .low => 0 | some .high => 1 | none => 2]
  | some .low | some .high | none => rfl

/-- The last probe result stands behind its presence byte, and is left out when there is none. -/
theorem lastProbe_bytes (last : Option ProbeResult) :
    leBytes 1 (bit last.isSome) ++ optBytes ProbeResult.bytes last
      = match last with
        | none => [0]
        | some r => (1 : Byte) :: leBytes 2 r.code ++ leBytes 1 r.mixed
            ++ [match r.status with | .done => 0 | .cancelled => 1] := by
  cases last with
  | none => rfl
  | some r =>
    have status : leBytes 1 r.status.toCode
        = [match r.status with | .done => 0 | .cancelled => 1] := by
      cases r.status <;> rfl
    exact congrArg ((1 : Byte) :: leBytes 2 r.code ++ leBytes 1 r.mixed ++ ·) status

/-- The byte that reports a channel in use. -/
theorem inUse_byte (s : State) (ch : Fin 8) :
    (s.claimed ch ∧ BitVec.ofNat 8 (bit (s.inUse ch)) = 1)
      ∨ (¬s.claimed ch ∧ BitVec.ofNat 8 (bit (s.inUse ch)) = 0) := by
  rw [← inUse_iff_claimed]
  cases s.inUse ch with
  | true => exact .inl ⟨rfl, rfl⟩
  | false => exact .inr ⟨nofun, rfl⟩

/-- Settles O19: the check on the clear field decides between the refusal and the report. -/
theorem chanGetReportsTheChannel : Obligations.ChanGetReportsTheChannel := by
  intro s tag rest ch clear q
  refine ⟨chanGet_refuses q, fun valid => ⟨_, inUse_byte s ch, ?_⟩⟩
  have reported := chanGet_reports q (Nat.not_lt.mpr valid)
  rw [State.chanGetBytes, List.append_assoc, lastProbe_bytes, leBytes_channelState,
    leBytes_levelCode] at reported
  exact reported

end Sys2Proof.Machine
end

section
/-! PROOF. What JOB_DEFINE answers: the check on the slot, the refusal of the first failing field, and the
definition that replaces the slot's (R34, R37). -/

namespace Sys2Proof.Machine

variable {s : State} {tag : Byte} {rest : List Request} {slot : Fin 32} {fields payload : List Byte}
  {d : Definition}

/-! ## Fields of one byte, and requests that name a slot -/

/-- A field of one byte is the byte at its offset; behind the payload's end both are 0. -/
theorem field_byte : ∀ (payload : List Byte) (offset : Nat),
    field payload offset 1 = (payload.getD offset 0).toNat
  | [], offset => by simp [field, leNat]
  | b :: _, 0 => by simp [field_zero]
  | b :: l, offset + 1 => by rw [field_cons_succ, field_byte l offset, List.getD_cons_succ]

/-- The first field of a payload that begins with a slot's number is in range. -/
theorem field_slot_le (slot : Fin 32) (tail : List Byte) :
    field (leBytes 1 slot.val ++ tail) 0 1 ≤ 31 := by
  have first : ((leBytes 1 slot.val ++ tail).getD 0 0).toNat = slot.val % 2 ^ 8 := rfl
  have := slot.isLt
  rw [field_byte, first]
  omega

/-! ## JOB_DEFINE -/

/-- The dispatcher hands a JOB_DEFINE of 31 bytes behind a slot's number, whose channel A is in range, to its
owner (R185). -/
theorem jobDefine_of_asks (length : fields.length = 31) (channelA : (fields.getD 1 0).toNat ≤ 7)
    (q : s.asks tag 0x20 (leBytes 1 slot.val ++ fields) rest) :
    completes .jobDefine s (finishRequest ⟨tag, 0x20, leBytes 1 slot.val ++ fields⟩
      (jobDefine (leBytes 1 slot.val ++ fields) s)) := by
  have lengthOk : (leBytes 1 slot.val ++ fields).length = RequestCode.payloadLength .jobDefine := by
    rw [List.length_append, length_leBytes, length]; rfl
  have channelOk : field (leBytes 1 slot.val ++ fields) 2 1 ≤ 7 := by
    rw [leBytes_one, List.singleton_append, field_cons_succ, field_byte]
    exact channelA
  have inRange : RequestCode.badIndex .jobDefine (leBytes 1 slot.val ++ fields) = none :=
    (if_neg (Nat.not_lt.mpr (field_slot_le slot _))).trans (if_neg (Nat.not_lt.mpr channelOk))
  exact congrArg Host.Outcome.next (serve_of_asks q rfl rfl (genericCheck_none lengthOk inRange))

/-- A running job keeps its definition, whatever the payload says (R34, check 2). -/
theorem jobDefine_of_running (running : (s.job (slotField payload)).state.running = true) :
    jobDefine payload s = refuse s .jobRunning 0 := if_pos running

/-- The first failing field of the payload gives the refusal and its detail (R34, check 3). -/
theorem jobDefine_of_error {code : ReplyCode} {i : Nat}
    (stopped : (s.job (slotField payload)).state.running = false)
    (read : readDefinition payload = .error (code, i)) :
    jobDefine payload s = refuse s code i := by
  simp [jobDefine, stopped, read]

/-- The new definition replaces the slot's, and ALERT is read off the table anew (R37). -/
theorem jobDefine_of_ok (stopped : (s.job (slotField payload)).state.running = false)
    (read : readDefinition payload = .ok d) :
    jobDefine payload s
      = okay (s.setJob (slotField payload) ((s.job (slotField payload)).define d)).evaluateAlert [] := by
  simp [jobDefine, stopped, read]

/-- Settles O28: each of the three answers of JOB_DEFINE leaves the link to the dispatcher, so the reply joins
the state that the answer gives. -/
theorem jobDefineReplacesTheDefinition : Obligations.JobDefineReplacesTheDefinition := by
  intro s tag rest slot fields length channelA q
  have served := jobDefine_of_asks length channelA q
  have named : slotField (leBytes 1 slot.val ++ fields) = slot := slotField_cons slot fields
  refine ⟨fun running => ?_, fun stopped => ⟨fun code i read => ?_, fun d read => ?_⟩⟩
  · rwa [jobDefine_of_running (named.symm ▸ running), finishRequest_refuse q] at served
  · rwa [jobDefine_of_error (named.symm ▸ stopped) read, finishRequest_refuse q] at served
  · have link : (s.setJob slot ((s.job slot).define d)).evaluateAlert.link = s.link := by
      rw [State.evaluateAlert_link, State.setJob_link]
    rwa [jobDefine_of_ok (named.symm ▸ stopped) read, named, finishRequest_eq link q] at served

end Sys2Proof.Machine
end

section
/-! PROOF. What every command keeps of the deadline list: the law of reservations, entries and next boundaries
(R94, R95), and the values of the definitions (R35, R36). Ten commands can move the job table or the list; all
others leave both alone. -/

namespace Sys2Proof.Machine

variable {s t u : State} {slot : Fin 32} {d : Definition} {payload : List Byte}

/-! ## Commands that leave the jobs and the deadlines alone -/

/-- From `s` to `t` neither the job table nor the deadline list has moved. -/
structure SameJobs (s t : State) : Prop where
  jobs : t.jobs = s.jobs
  deadlines : t.deadlines = s.deadlines

theorem SameJobs.ite {due : Prop} [Decidable due] (acts : SameJobs s t) (waits : SameJobs s u) :
    SameJobs s (if due then t else u) := by
  split
  · exact acts
  · exact waits

/-- The commands that can move the job table or the deadline list: the two resets, an edge that arrives or is
seen, an expiry, and the requests on a job slot but JOB_GET. -/
def movesJobs : Instr → Bool
  | .powerReset _ _ | .softReset | .edgeArrival _ | .edgeSeen _ | .deadlineExpiry | .jobDefine | .jobStart
  | .jobStop | .jobClear | .limitSet => true
  | _ => false

/-! ### Events -/

theorem declareLoss_sameJobs (s : State) : SameJobs s s.declareLoss := by
  unfold State.declareLoss
  dsimp only
  split <;> exact ⟨rfl, rfl⟩

theorem decideStep_sameJobs (s : State) (ch : Fin 8) : SameJobs s (s.decideStep ch) := by
  unfold State.decideStep
  dsimp only
  split
  · exact ⟨rfl, rfl⟩
  · split <;> exact ⟨rfl, rfl⟩

/-- The capture pool takes no part in the job table (R137). -/
theorem logEdge_sameJobs (s : State) (e : AcceptedEdge) : SameJobs s (s.logEdge e) := by
  unfold State.logEdge
  dsimp only
  split
  · exact ⟨rfl, rfl⟩
  · split
    · split <;> exact ⟨rfl, rfl⟩
    · split <;> exact ⟨rfl, rfl⟩

theorem takeFrame_sameJobs (s : State) (frame : List Byte) : SameJobs s (s.takeFrame frame) := by
  unfold State.takeFrame
  dsimp only
  split
  · exact ⟨rfl, rfl⟩
  · split
    · exact ⟨rfl, rfl⟩
    · split <;> exact ⟨rfl, rfl⟩

theorem beginReply_sameJobs (s : State) : SameJobs s s.beginReply := by
  unfold State.beginReply
  split <;> exact ⟨rfl, rfl⟩

theorem beginNotice_sameJobs (s : State) : SameJobs s s.beginNotice := by
  unfold State.beginNotice
  split <;> exact ⟨rfl, rfl⟩

theorem resetNotices_sameJobs (s : State) : SameJobs s s.resetNotices := by
  have cut : SameJobs s s.cutOffNotice := by
    unfold State.cutOffNotice
    split <;> exact ⟨rfl, rfl⟩
  exact ⟨cut.jobs, cut.deadlines⟩

/-- A byte examined by the receiver in a frame, whatever it does with the frame's bytes. -/
theorem sameJobs_of_collecting {act : List Byte → State} (b : Byte) (h : ∀ bytes, SameJobs s (act bytes)) :
    SameJobs s (match s.collecting b with | some bytes => act bytes | none => s) := by
  cases s.collecting b with
  | some bytes => exact h bytes
  | none => exact ⟨rfl, rfl⟩

/-! ### Requests -/

/-- Every answer of a request leaves the job table and the deadline list as it found them. -/
def SparesJobs (handler : List Byte → State → Answer) : Prop :=
  ∀ payload s, SameJobs s (handler payload s).state

theorem serve_sameJobs {rc : RequestCode} {mine : List Byte → Bool}
    {handler : List Byte → State → Answer} (h : SparesJobs handler) :
    SameJobs s (s.serve rc mine handler) := by
  obtain idle | ⟨tag, code, payload, rest, -, -, -, ⟨c, d, -, refused⟩ | ⟨-, handled⟩⟩ :=
    serve_cases (s := s) rc mine handler
  · rw [idle]; exact ⟨rfl, rfl⟩
  · rw [refused]; exact ⟨rfl, rfl⟩
  · rw [handled]; exact ⟨(h payload s).jobs, (h payload s).deadlines⟩

theorem chanSet_sparesJobs : SparesJobs chanSet := by
  intro payload s
  unfold chanSet
  dsimp only
  split
  · exact ⟨rfl, rfl⟩
  · split
    · exact ⟨rfl, rfl⟩
    · split <;> exact ⟨rfl, rfl⟩

theorem chanGet_sparesJobs : SparesJobs chanGet := by
  intro payload s
  unfold chanGet
  dsimp only
  split
  · exact ⟨rfl, rfl⟩
  · exact SameJobs.ite ⟨rfl, rfl⟩ ⟨rfl, rfl⟩

theorem status_sparesJobs : SparesJobs status := by
  intro payload s
  unfold status
  dsimp only
  split
  · exact ⟨rfl, rfl⟩
  · exact SameJobs.ite ⟨rfl, rfl⟩ ⟨rfl, rfl⟩

theorem probeStart_sparesJobs : SparesJobs probeStart := by
  intro payload s
  unfold probeStart
  split <;> exact ⟨rfl, rfl⟩

theorem probeCancel_sparesJobs : SparesJobs probeCancel := by
  intro payload s
  unfold probeCancel
  dsimp only
  split
  · split <;> exact ⟨rfl, rfl⟩
  · exact ⟨rfl, rfl⟩

theorem captureSet_sparesJobs : SparesJobs captureSet := by
  intro payload s
  unfold captureSet
  split
  · exact ⟨rfl, rfl⟩
  · dsimp only
    split <;> exact ⟨rfl, rfl⟩

theorem captureRead_sparesJobs : SparesJobs captureRead := by
  intro payload s
  unfold captureRead
  dsimp only
  split <;> exact ⟨rfl, rfl⟩

theorem grant_sparesJobs : SparesJobs grant := by
  intro payload s
  unfold grant
  dsimp only
  split <;> exact ⟨rfl, rfl⟩

theorem resultFetch_sparesJobs : SparesJobs resultFetch := by
  intro payload s
  unfold resultFetch
  dsimp only
  split <;> exact ⟨rfl, rfl⟩

theorem resultSetup_sparesJobs : SparesJobs resultSetup := by
  intro payload s
  unfold resultSetup
  dsimp only
  split <;> exact ⟨rfl, rfl⟩

theorem unknownRequest_sameJobs (h : completes .unknownRequest s t) : SameJobs s t := by
  cases h
  split
  · exact SameJobs.ite ⟨rfl, rfl⟩ ⟨rfl, rfl⟩
  · exact ⟨rfl, rfl⟩

/-! ### Every other command -/

/-- The state that a completed command leaves is the one its meaning gives. -/
theorem SameJobs.of_next (h : (.next u : Out) = .next t) (k : SameJobs s u) : SameJobs s t := by
  cases h
  exact k

/-- Only the commands of the job table move it or the deadline list. -/
theorem exec_sameJobs {c : Instr} (other : movesJobs c = false) (h : completes c s t) : SameJobs s t := by
  have wait : SameJobs s s := ⟨rfl, rfl⟩
  cases c with
  | powerReset | softReset | edgeArrival | edgeSeen | deadlineExpiry | jobDefine | jobStart | jobStop
  | jobClear | limitSet => cases other
  | comparatorOutput ch level => exact .of_next h ⟨rfl, rfl⟩
  | initEnd | revert | edgeAccepted | strayByte | sync | truncation | breakDetected | replySent
  | noticeSent | regain => exact .of_next h (.ite ⟨rfl, rfl⟩ wait)
  | tick | refclkEdge => exact .of_next h (.ite wait ⟨rfl, rfl⟩)
  | refLoss => exact .of_next h (.ite (declareLoss_sameJobs s) wait)
  | probeStep ch => exact .of_next h (.ite (decideStep_sameJobs s ch) wait)
  | frameByte b => exact .of_next h (sameJobs_of_collecting b fun _ => .ite ⟨rfl, rfl⟩ wait)
  | badLength b => exact .of_next h (sameJobs_of_collecting b fun _ => .ite ⟨rfl, rfl⟩ wait)
  | receiveFrame b =>
    refine .of_next h (sameJobs_of_collecting b fun bytes => .ite ?_ wait)
    have taken := takeFrame_sameJobs s.examined (bytes ++ [b])
    exact ⟨taken.jobs, taken.deadlines⟩
  | linkReset =>
    have reset := resetNotices_sameJobs { s with link := s.link.cut }
    exact .of_next h (.ite ⟨reset.jobs, reset.deadlines⟩ wait)
  | replyBegin => exact .of_next h (.ite (beginReply_sameJobs s) wait)
  | noticeBegin => exact .of_next h (.ite (beginNotice_sameJobs s) wait)
  | unknownRequest => exact unknownRequest_sameJobs h
  | describe | captureFlush | jobGet | resultFlush =>
    exact .of_next h (serve_sameJobs fun _ _ => ⟨rfl, rfl⟩)
  | time => exact .of_next h (.ite wait (serve_sameJobs fun _ _ => ⟨rfl, rfl⟩))
  | status => exact .of_next h (serve_sameJobs status_sparesJobs)
  | grant => exact .of_next h (serve_sameJobs grant_sparesJobs)
  | chanSet => exact .of_next h (serve_sameJobs chanSet_sparesJobs)
  | chanGet => exact .of_next h (serve_sameJobs chanGet_sparesJobs)
  | probeStart => exact .of_next h (serve_sameJobs probeStart_sparesJobs)
  | probeCancel => exact .of_next h (serve_sameJobs probeCancel_sparesJobs)
  | captureSet => exact .of_next h (serve_sameJobs captureSet_sparesJobs)
  | captureRead => exact .of_next h (serve_sameJobs captureRead_sparesJobs)
  | resultFetch => exact .of_next h (serve_sameJobs resultFetch_sparesJobs)
  | resultSetup => exact .of_next h (serve_sameJobs resultSetup_sparesJobs)

/-! ## The two laws from one state to the next -/

/-- From `s` to `t` the law of the deadline list is kept (R94, R95), and the definitions keep allowed values
(R35, R36). -/
structure KeepsDeadlines (s t : State) : Prop where
  deadlines : s.deadlineLaw → t.deadlineLaw
  definitions : s.definitionsAllowed → t.definitionsAllowed

theorem KeepsDeadlines.refl (s : State) : KeepsDeadlines s s := ⟨id, id⟩

theorem KeepsDeadlines.trans (h : KeepsDeadlines s t) (k : KeepsDeadlines t u) : KeepsDeadlines s u :=
  ⟨k.deadlines ∘ h.deadlines, k.definitions ∘ h.definitions⟩

theorem KeepsDeadlines.ite {due : Prop} [Decidable due] (acts : KeepsDeadlines s t)
    (waits : KeepsDeadlines s u) : KeepsDeadlines s (if due then t else u) := by
  split
  · exact acts
  · exact waits

/-- Both laws speak of the job table and the deadline list alone. -/
theorem SameJobs.keeps (h : SameJobs s t) : KeepsDeadlines s t := by
  obtain ⟨jobs, deadlines⟩ := h
  constructor
  · unfold State.deadlineLaw State.runningJobs State.job
    rw [jobs, deadlines]
    exact id
  · unfold State.definitionsAllowed State.job
    rw [jobs]
    exact id

/-- Acts of a job keep both laws when they restore the law of its own slot. -/
theorem JobActs.keepsDeadlines (acts : JobActs slot s t) (restores : Lawful slot s → Lawful slot t) :
    KeepsDeadlines s t where
  deadlines law := acts.deadlineLaw law (restores (law.lawful slot))
  definitions allowed k d defined := allowed k d (acts.definition k ▸ defined)

/-! ## Writing a job slot -/

/-- Outside ARMED, ACTIVE and HOLD the law asks for no next boundary, and for nothing else. -/
theorem boundaryLaw_of_stopped {j : Job} (stopped : j.state.running = false) :
    j.boundaryLaw ↔ j.next = none := by
  unfold Job.boundaryLaw
  cases state : j.state with
  | free | idle | done => exact Iff.rfl
  | armed | active | hold => rw [state] at stopped; cases stopped

/-- A job in one of these states holds no entry. -/
theorem State.slotLaw.entries_of_stopped (law : s.slotLaw slot)
    (stopped : (s.job slot).state.running = false) :
    s.deadlines.entries.filter (fun e => e.slot == slot) = [] := by
  obtain ⟨boundary, entries⟩ := law
  rw [entries, Job.expectedEntries, (boundaryLaw_of_stopped stopped).mp boundary]

/-- A slot that is written with a lawful job, running if the one before it ran, keeps the whole law. -/
theorem setJob_deadlineLaw {j : Job} (law : s.deadlineLaw)
    (running : j.state.running = (s.job slot).state.running) (own : (s.setJob slot j).slotLaw slot) :
    (s.setJob slot j).deadlineLaw := by
  obtain ⟨count, most, slots⟩ := law
  refine ⟨?_, most, fun k => ?_⟩
  · rw [runningJobs_setJob_same s slot j running]
    exact count
  · by_cases same : k = slot
    · exact same ▸ own
    · rw [State.job_setJob_ne s same]
      exact slots k

/-- A stopped job may become any other that is stopped and has no next boundary. -/
theorem setJob_deadlineLaw_of_stopped {j : Job} (law : s.deadlineLaw)
    (before : (s.job slot).state.running = false) (after : j.state.running = false)
    (next : j.next = none) : (s.setJob slot j).deadlineLaw := by
  have own : s.slotLaw slot := law.2.2 slot
  refine setJob_deadlineLaw law (after.trans before.symm) ⟨?_, ?_⟩
  · rw [State.job_setJob_self]
    exact (boundaryLaw_of_stopped after).mpr next
  · rw [State.job_setJob_self, Job.expectedEntries, next]
    exact own.entries_of_stopped before

theorem setJob_definitionsAllowed {j : Job} (allowed : s.definitionsAllowed)
    (own : ∀ d, j.definition = some d → d.allowed) : (s.setJob slot j).definitionsAllowed := by
  intro k d
  rw [State.job_setJob]
  split
  · exact own d
  · exact allowed k d

/-! ## Edges and expiries -/

/-- An edge that arrives at a job joins its held edges or passes it by (R45). -/
theorem hold_eq (e : AcceptedEdge) (j : Job) : ∃ held, j.hold e = { j with held := held } := by
  unfold Job.hold
  split
  · split
    · exact ⟨_, rfl⟩
    · exact ⟨j.held, rfl⟩
  · exact ⟨j.held, rfl⟩

theorem holdEdge_keeps (s : State) (e : AcceptedEdge) : KeepsDeadlines s (s.holdEdge e) where
  deadlines := by
    rintro ⟨count, most, slots⟩
    refine ⟨?_, most, fun k => ?_⟩
    · have running (j : Job) : (j.hold e).state.running = j.state.running := by
        obtain ⟨held, eq⟩ := hold_eq e j
        rw [eq]
      exact count.trans (countIn_mapBank _ _ running s.jobs).symm
    · rw [State.holdEdge_job]
      obtain ⟨held, eq⟩ := hold_eq e (s.job k)
      rw [eq]
      exact slots k
  definitions := by
    intro allowed k d
    rw [State.holdEdge_job]
    obtain ⟨held, eq⟩ := hold_eq e (s.job k)
    rw [eq]
    exact allowed k d

theorem arrive_keeps (s : State) (ch : Fin 8) : KeepsDeadlines s (s.arrive ch) := by
  unfold State.arrive
  dsimp only
  split
  · exact .refl s
  · have moved (c : Channel) : SameJobs s (s.setChannel ch c) := ⟨rfl, rfl⟩
    exact ((moved _).keeps.trans (logEdge_sameJobs _ _).keeps).trans (holdEdge_keeps _ _)

/-- The tick `n` ticks before the one `n` ticks after. -/
theorem tickBefore_tickAfter (t : Tick) (n : Nat) : tickBefore (tickAfter t n) n = t := by
  simp [tickBefore, tickAfter]

/-- Under R95 the head entry stands for its job's own next boundary, so its expiry is the taking of that
boundary (R100). -/
theorem expire_eq_takeBoundary (law : s.deadlineLaw) {e : Entry} {rest : List Entry}
    (head : s.deadlines.entries = e :: rest) :
    ∃ b, (s.job e.slot).next = some b ∧ s.expire = s.takeBoundary e.slot b := by
  have member : e ∈ (s.job e.slot).expectedEntries e.slot := by
    rw [← (law.2.2 e.slot).2, head]
    simp
  unfold Job.expectedEntries at member
  split at member
  · rename_i b next
    have entry : e = ⟨tickAfter b.tick (s.job e.slot).settleTicks, e.slot, b.purpose⟩ := by
      simpa using member
    have boundary : (⟨e.purpose, tickBefore e.due (s.job e.slot).settleTicks⟩ : Boundary) = b := by
      rw [congrArg Entry.purpose entry, congrArg Entry.due entry, tickBefore_tickAfter]
    obtain ⟨d, runs⟩ := runs_of_next (law.lawful e.slot) next
    refine ⟨b, next, ?_⟩
    unfold State.expire
    rw [head]
    dsimp only
    rw [boundary]
    unfold State.takeBoundary
    rw [show State.job { s with deadlines := { s.deadlines with entries := rest } } e.slot
      = s.job e.slot from rfl, runs.definition, dropEntry_head s e.slot head rfl]
  · cases member

theorem expire_keeps (s : State) : KeepsDeadlines s s.expire where
  deadlines law := by
    cases head : s.deadlines.entries with
    | nil => unfold State.expire; rw [head]; exact law
    | cons e rest =>
      obtain ⟨b, next, eq⟩ := expire_eq_takeBoundary law head
      rw [eq]
      exact (takeBoundary_acts e.slot s b).deadlineLaw law
        ((law.lawful e.slot).takeBoundary next rfl rfl)
  definitions allowed := by
    cases head : s.deadlines.entries with
    | nil => unfold State.expire; rw [head]; exact allowed
    | cons e rest =>
      unfold State.expire
      rw [head]
      intro k d defined
      have kept := (takeBoundary_acts e.slot
        { s with deadlines := { s.deadlines with entries := rest } }
        ⟨e.purpose, tickBefore e.due (s.job e.slot).settleTicks⟩).definition k
      exact allowed k d (kept.symm.trans defined)

/-! ## Resets -/

/-- A bank of free slots beside an empty list keeps the law, and holds no definition (R60, R104). -/
theorem reset_keeps (jobs : t.jobs = Vector.replicate 32 .reset) (deadlines : t.deadlines = .reset) :
    KeepsDeadlines s t := by
  have free (k : Fin 32) : t.job k = Job.reset := by rw [State.job, jobs, get_replicate]
  refine ⟨fun _ => ⟨?_, ?_, fun k => ?_⟩, fun _ k d defined => ?_⟩
  · rw [deadlines, State.runningJobs, jobs, countIn_replicate _ _ _ rfl]
    rfl
  · rw [deadlines]
    exact Nat.zero_le 24
  · rw [free, deadlines]
    exact ⟨rfl, rfl⟩
  · rw [free] at defined
    cases defined

/-! ## Requests on a job slot -/

/-- Every answer of a request whose payload has passed the generic checks keeps both laws. -/
def AnswersKeep (rc : RequestCode) (handler : List Byte → State → Answer) : Prop :=
  ∀ payload s, genericCheck rc payload = none → KeepsDeadlines s (handler payload s).state

theorem serve_keeps {rc : RequestCode} {mine : List Byte → Bool} {handler : List Byte → State → Answer}
    (h : AnswersKeep rc handler) : KeepsDeadlines s (s.serve rc mine handler) := by
  obtain idle | ⟨tag, code, payload, rest, -, -, -, ⟨c, d, -, refused⟩ | ⟨passed, handled⟩⟩ :=
    serve_cases (s := s) rc mine handler
  · rw [idle]
    exact .refl s
  · rw [refused]
    exact SameJobs.keeps ⟨rfl, rfl⟩
  · rw [handled]
    have filed : SameJobs (handler payload s).state
        (finishRequest ⟨tag, code, payload⟩ (handler payload s)) := ⟨rfl, rfl⟩
    exact (h payload s passed).trans filed.keeps

/-! ### JOB_DEFINE (R34 to R37) -/

theorem field_lt (payload : List Byte) (offset size : Nat) : field payload offset size < 256 ^ size :=
  (leNat_lt _).trans_le (Nat.pow_le_pow_right (by decide) (List.length_take_le _ _))

theorem firstFailure_eq_none : ∀ {checks : List Check},
    firstFailure checks = none ↔ ∀ c ∈ checks, c = none
  | [] => by simp [firstFailure]
  | none :: rest => by simp [firstFailure, firstFailure_eq_none (checks := rest)]
  | some r :: rest => by simp [firstFailure]

theorem require_eq_none {ok : Bool} {i : Nat} : require ok i = none ↔ ok = true := by
  cases ok <;> simp [require]

/-- The codes 1 to 3 are the selects other than NONE (R193). -/
theorem selectOf_ne_none : ∀ {v : Nat}, 1 ≤ v → v ≤ 3 → (selectOf v).getD .none ≠ .none
  | 1, _, _ | 2, _, _ | 3, _, _ => by decide

/-- Of the codes 0 to 2, the code 2 alone is PERIODIC (R193). -/
theorem repeatOf_eq_periodic : ∀ {v : Nat}, (repeatOf v).getD .once = .periodic ↔ v = 2
  | 0 | 1 | 2 | _ + 3 => by simp [repeatOf]

/-- Raw fields that pass their checks give a definition whose values R35 and R36 allow, for the sizes that the
fields have in the payload (R194). -/
theorem build_allowed {r : RawDefinition} {k : Kind} (checks : checkFields k r = none)
    (channelA : r.channelA ≤ 7) (gate : r.gate < 2 ^ 32) (count : r.count < 2 ^ 16)
    (report : r.report < 2 ^ 32) (target : r.target < 2 ^ 48) (stall : r.stall < 2 ^ 32)
    (period : r.period < 2 ^ 32) : (r.build k).allowed := by
  simp only [checkFields, firstFailure_eq_none, List.forall_mem_cons, require_eq_none, checkSelectA,
    checkChannelB, checkSelectB, checkRepeat, checkPeriod] at checks
  simp only [Nat.reducePow] at gate report target stall period
  obtain ⟨selectA, channelB, selectB, gateOk, countOk, reportOk, targetOk, stallOk, repeatOk, periodOk, -⟩ :=
    checks
  unfold Definition.allowed RawDefinition.build
  refine ⟨?selectA, ?channelB, ?selectB, ?gate, ?count, ?report, ?target, ?stall, ?tally, ?period⟩
  case selectA =>
    cases k with
    | width =>
      obtain one | two : r.selectA = 1 ∨ r.selectA = 2 := by simpa using selectA
      · exact .inl (by rw [one]; rfl)
      · exact .inr (by rw [two]; rfl)
    | _ =>
      simp only [Bool.and_eq_true, decide_eq_true_eq] at selectA
      exact selectOf_ne_none selectA.1 selectA.2
  case channelB =>
    split at channelB
    · rename_i phase
      have apart : r.channelB ≤ 7 ∧ r.channelB ≠ r.channelA := by
        split at channelB
        · cases channelB
        · exact ⟨by omega, by simpa [require_eq_none] using channelB⟩
      have differ : Fin.ofNat 8 r.channelB ≠ Fin.ofNat 8 r.channelA := by
        rw [ne_eq, Fin.ext_iff, Fin.val_ofNat, Fin.val_ofNat]
        omega
      exact (if_pos phase).mpr differ
    · rename_i other
      have zero : r.channelB = 0 := by simpa [require_eq_none] using channelB
      simp [other, zero]
  case selectB =>
    dsimp only
    split at selectB
    · rename_i phase
      simp only [Bool.and_eq_true, decide_eq_true_eq] at selectB
      rw [if_pos phase]
      exact selectOf_ne_none selectB.1 selectB.2
    · rename_i other
      rw [if_neg other, eq_of_beq selectB]
      rfl
  case gate => cases k <;> simpa [Kind.gated, gate] using gateOk
  case count =>
    have most : r.count ≤ 65535 := by omega
    cases k <;> simpa [Kind.countsToN, most] using countOk
  case report => simpa [report] using reportOk
  case target => simpa [target] using targetOk
  case stall => cases k <;> simpa [Kind.stalls, stall] using stallOk
  case tally =>
    intro tally
    have few : r.repeating ≤ 1 := by simpa [show k = .tally from tally] using repeatOk
    rw [ne_eq, repeatOf_eq_periodic]
    omega
  case period =>
    by_cases periodic : r.repeating = 2
    · have other : k ≠ .tally := by
        rintro rfl
        exact absurd repeatOk (by simp [periodic])
      rw [if_neg other, if_pos periodic, Bool.and_eq_true, decide_eq_true_eq] at periodOk
      rw [if_pos (repeatOf_eq_periodic.mpr periodic)]
      exact ⟨periodOk.1, period, by simpa [or_iff_not_imp_left] using periodOk.2⟩
    · rw [if_neg (mt repeatOf_eq_periodic.mp periodic)]
      simpa [periodic] using periodOk

/-- A payload that passes the generic checks names no slot or channel out of range (R185). -/
theorem badIndex_of_genericCheck {rc : RequestCode} (passed : genericCheck rc payload = none) :
    rc.badIndex payload = none := by
  unfold genericCheck at passed
  split at passed
  · cases passed
  · split at passed
    · cases passed
    · assumption

/-- What JOB_DEFINE reads off a payload that has passed the generic checks is allowed (R34, R185). -/
theorem readDefinition_allowed (passed : genericCheck .jobDefine payload = none)
    (read : readDefinition payload = .ok d) : d.allowed := by
  have channelA : field payload 2 1 ≤ 7 := by
    have inRange := badIndex_of_genericCheck passed
    unfold RequestCode.badIndex at inRange
    dsimp only at inRange
    split at inRange
    · cases inRange
    · by_contra above
      rw [if_pos (Nat.lt_of_not_le above)] at inRange
      cases inRange
  unfold readDefinition at read
  dsimp only at read
  split at read
  · cases read
  · split at read
    · cases read
    · rename_i checks
      cases read
      exact build_allowed checks channelA (field_lt payload 6 4) (field_lt payload 10 2)
        (field_lt payload 12 4) (field_lt payload 16 6) (field_lt payload 22 4) (field_lt payload 27 4)

theorem jobDefine_keeps : AnswersKeep .jobDefine jobDefine := by
  intro payload s passed
  cases running : (s.job (slotField payload)).state.running with
  | true =>
    rw [jobDefine_of_running running]
    exact .refl s
  | false =>
    cases read : readDefinition payload with
    | error refusal =>
      rw [jobDefine_of_error running read]
      exact .refl s
    | ok d =>
      rw [jobDefine_of_ok running read]
      have written : KeepsDeadlines s
          (s.setJob (slotField payload) ((s.job (slotField payload)).define d)) :=
        ⟨fun law => setJob_deadlineLaw_of_stopped law running rfl rfl, fun allowed =>
          setJob_definitionsAllowed allowed fun _ same =>
            Option.some.inj same ▸ readDefinition_allowed passed read⟩
      exact written.trans (SameJobs.keeps ⟨rfl, rfl⟩)

/-! ### JOB_CLEAR and LIMIT_SET (R58, R126) -/

theorem jobClear_keeps : AnswersKeep .jobClear jobClear := by
  intro payload s _
  unfold jobClear
  dsimp only
  split
  · exact .refl s
  · rename_i stopped
    have written : KeepsDeadlines s
        (s.setJob (slotField payload) (s.job (slotField payload)).clear) :=
      ⟨fun law => setJob_deadlineLaw_of_stopped law (Bool.eq_false_iff.mpr stopped) rfl rfl,
        fun allowed => setJob_definitionsAllowed allowed nofun⟩
    exact written.trans (SameJobs.keeps ⟨rfl, rfl⟩)

/-- A limit window is no part of either law. -/
theorem limitSet_keeps : AnswersKeep .limitSet limitSet := by
  intro payload s _
  unfold limitSet
  dsimp only
  split
  · exact .refl s
  · split
    · exact .refl s
    · have written : KeepsDeadlines s (s.setJob (slotField payload)
          { s.job (slotField payload) with window := limitWindow payload, alert := .inside }) :=
        ⟨fun law => setJob_deadlineLaw law rfl (slotLaw_setJob (law.2.2 _) rfl rfl rfl rfl rfl),
          fun allowed => setJob_definitionsAllowed allowed (allowed (slotField payload))⟩
      exact written.trans (SameJobs.keeps ⟨rfl, rfl⟩)

/-! ### JOB_STOP (R56) -/

/-- In ARMED, ACTIVE and HOLD a lawful job has a definition. -/
theorem Lawful.runs (law : Lawful slot s) (running : (s.job slot).state.running = true) :
    ∃ d, Runs slot d s := by
  cases defined : (s.job slot).definition with
  | some d => exact ⟨d, running, defined, law.count⟩
  | none =>
    have boundary := law.slot.1
    unfold Job.boundaryLaw at boundary
    rw [defined] at boundary
    cases state : (s.job slot).state with
    | armed | active | hold => rw [state] at boundary; exact boundary.elim
    | free | idle | done => rw [state] at running; cases running

theorem Runs.keepPartial (h : Runs slot d s) : Runs slot d (s.keepPartial slot) := by
  unfold State.keepPartial
  dsimp only
  split
  · rename_i defined
    obtain rfl := Option.some.inj (h.definition.symm.trans defined)
    exact h.produce _ _
  · exact h

/-- Only an ACTIVE job forms a PARTIAL record. -/
theorem keepPartial_of_stopped (stopped : (s.job slot).state.running = false) :
    s.keepPartial slot = s := by
  unfold State.keepPartial
  dsimp only
  split
  · rename_i active _
    rw [active] at stopped
    cases stopped
  · rfl

theorem jobStop_keeps : AnswersKeep .jobStop jobStop := by
  intro payload s _
  unfold jobStop
  dsimp only
  split
  · exact .refl s
  · cases running : (s.job (slotField payload)).state.running with
    | false =>
      rw [keepPartial_of_stopped running, ite_self]
      exact .refl s
    | true =>
      have kept : JobActs (slotField payload) s
          (if field payload 1 1 = 1 then s.keepPartial (slotField payload) else s) := by
        split
        · exact keepPartial_acts _ s
        · exact .refl
      refine JobActs.keepsDeadlines (.after (leaveRunning_acts _ _ .idle) kept) fun law => ?_
      obtain ⟨d, runs⟩ := law.runs running
      have runsOn : Runs (slotField payload) d
          (if field payload 1 1 = 1 then s.keepPartial (slotField payload) else s) := by
        split
        · exact runs.keepPartial
        · exact runs
      obtain ⟨count, own⟩ := runsOn.leaveRunning (state := .idle) (.inr rfl)
      exact ⟨own, count⟩

/-! ### JOB_START (R40 to R44) -/

/-- A check that refuses lets an answer through only where its condition fails. -/
theorem ite_error_eq_ok {ε α : Type} {refuses : Prop} [Decidable refuses] {e : ε} {x : Except ε α} {a : α} :
    (if refuses then .error e else x) = .ok a ↔ ¬refuses ∧ x = .ok a := by
  split <;> simp [*]

/-- A start that passes its checks finds a stopped job with the definition it starts, and a free reservation
(R40). -/
theorem jobStartCheck_ok (check : jobStartCheck payload s = .ok d) :
    (s.job (slotField payload)).state.running = false
      ∧ (s.job (slotField payload)).definition = some d ∧ s.deadlines.reservations < 24 := by
  simp only [jobStartCheck, ite_error_eq_ok] at check
  obtain ⟨-, -, stopped, check⟩ := check
  split at check
  · cases check
  · rename_i defined
    simp only [ite_error_eq_ok] at check
    obtain ⟨-, -, -, free, same⟩ := check
    cases same
    exact ⟨Bool.eq_false_iff.mpr stopped, defined, Nat.lt_of_not_le free⟩

/-- The job in `slot` has been enrolled for a start with definition `d`: it does not run yet and has no
entry, and the reservation count is one ahead of the running jobs (R41, R92). -/
structure Enrolled (slot : Fin 32) (d : Definition) (s : State) : Prop where
  stopped : (s.job slot).state.running = false
  definition : (s.job slot).definition = some d
  entries : s.deadlines.entries.filter (fun e => e.slot == slot) = []
  count : s.deadlines.reservations = s.runningJobs + 1

theorem enrol_job (s : State) (slot k : Fin 32) (d : Definition) :
    (s.enrol slot d).job k = if k = slot then { s.job slot with
      settle := some (s.settleOf d), acc := .cleared, held := [], pendingMissed := 0 } else s.job k := by
  unfold State.enrol
  rw [State.job_takeReservation, State.job_setJob]

/-- An enrolled job does not run yet. -/
theorem enrol_runningJobs (s : State) (slot : Fin 32) (d : Definition) :
    (s.enrol slot d).runningJobs = s.runningJobs :=
  runningJobs_setJob_same s slot { s.job slot with
    settle := some (s.settleOf d), acc := .cleared, held := [], pendingMissed := 0 } rfl

theorem Lawful.enrol (law : Lawful slot s) (stopped : (s.job slot).state.running = false)
    (defined : (s.job slot).definition = some d) : Enrolled slot d (s.enrol slot d) where
  stopped := by rw [enrol_job, if_pos rfl]; exact stopped
  definition := by rw [enrol_job, if_pos rfl]; exact defined
  entries := law.slot.entries_of_stopped stopped
  count := congrArg (· + 1) (law.count.trans (enrol_runningJobs s slot d).symm)

/-- Once the enrolled job runs, the reservation count is right again (R94). -/
theorem Enrolled.runs (h : Enrolled slot d s) {j : Job} (running : j.state.running = true)
    (defined : j.definition = some d) : Runs slot d (s.setJob slot j) where
  running := by rwa [State.job_setJob_self]
  definition := by rwa [State.job_setJob_self]
  count := by
    have counted := runningJobs_setJob s slot j
    rw [running, h.stopped] at counted
    exact h.count.trans counted.symm

/-- Opening a measurement sets the state, whatever it was. -/
theorem openMeasurement_setJob_active (s : State) (slot : Fin 32) (d : Definition) (t : Tick) (j : Job) :
    (s.setJob slot { j with state := .active }).openMeasurement slot d t
      = (s.setJob slot j).openMeasurement slot d t := by
  simp only [State.openMeasurement, State.job_setJob_self, State.setJob_setJob]

theorem Enrolled.startNow (h : Enrolled slot d s) : Lawful slot (s.startNow slot d) := by
  unfold State.startNow
  rw [← openMeasurement_setJob_active]
  have runs : Runs slot d (s.setJob slot
      { s.job slot with startBase := d.base s.now, state := .active }) := h.runs rfl h.definition
  obtain ⟨opened, own⟩ := runs.openMeasurement s.now
  exact opened.lawful own

theorem Enrolled.startAt (h : Enrolled slot d s) (t : Tick) : Lawful slot (s.startAt slot d t) := by
  have runs : Runs slot d (s.setJob slot
      { s.job slot with state := .armed, subMode := some .at, startBase := d.base t }) :=
    h.runs rfl h.definition
  refine (runs.setBoundary ⟨.start, t⟩).lawful ⟨?_, setBoundary_entries _ _ _⟩
  rw [setBoundary_job, if_pos rfl, State.job_setJob_self]
  unfold Job.boundaryLaw
  rw [h.definition]
  exact .inl ⟨rfl, t, rfl⟩

theorem Enrolled.startOnEdge (h : Enrolled slot d s) : Lawful slot (s.startOnEdge slot) := by
  have runs : Runs slot d (s.setJob slot { s.job slot with
      state := .armed, subMode := some .onEdge, armingTick := some s.now, next := none }) :=
    h.runs rfl h.definition
  refine runs.lawful ⟨?_, ?_⟩
  · rw [State.job_setJob_self]
    unfold Job.boundaryLaw
    rw [h.definition]
    exact .inr ⟨rfl, rfl⟩
  · rw [State.job_setJob_self]
    exact h.entries

/-- A start keeps both laws when its mode restores the law of the enrolled slot. -/
theorem start_keeps (check : jobStartCheck payload s = .ok d)
    (acts : JobActs (slotField payload) (s.enrol (slotField payload) d) t)
    (restores : Enrolled (slotField payload) d (s.enrol (slotField payload) d) →
      Lawful (slotField payload) t) : KeepsDeadlines s t := by
  obtain ⟨stopped, defined, free⟩ := jobStartCheck_ok check
  constructor
  · intro law
    have started := restores ((law.lawful _).enrol stopped defined)
    refine ⟨started.count, acts.reservations_le.trans free, fun k => ?_⟩
    by_cases own : k = slotField payload
    · exact own ▸ started.slot
    · have other : (s.enrol (slotField payload) d).slotLaw k := by
        unfold State.slotLaw
        rw [enrol_job, if_neg own]
        exact law.2.2 k
      exact acts.slotLaw_ne own other
  · intro allowed k e
    rw [acts.definition k, enrol_job]
    split
    · exact allowed _ e
    · exact allowed k e

theorem jobStart_keeps : AnswersKeep .jobStart jobStart := by
  intro payload s _
  unfold jobStart
  split
  · exact .refl s
  · rename_i d check
    dsimp only
    split
    · exact start_keeps check (.after (openMeasurement_acts _ _ _ _) (write_acts _ _ _ rfl rfl rfl id))
        Enrolled.startNow
    · exact start_keeps check (.after (setBoundary_acts _ _ _) (write_acts _ _ _ rfl rfl rfl id))
        fun enrolled => enrolled.startAt _
    · exact start_keeps check (write_acts _ _ _ rfl rfl rfl id) Enrolled.startOnEdge

/-! ## Every command -/

theorem KeepsDeadlines.of_next (h : (.next u : Out) = .next t) (k : KeepsDeadlines s u) :
    KeepsDeadlines s t := by
  cases h
  exact k

theorem exec_keepsDeadlines {c : Instr} (h : completes c s t) : KeepsDeadlines s t := by
  cases c with
  | powerReset rate1 rate0 => exact .of_next h (reset_keeps rfl rfl)
  | softReset => exact .of_next h (serve_keeps fun _ _ _ => reset_keeps rfl rfl)
  | edgeArrival ch => exact .of_next h (.ite (arrive_keeps s ch) (.refl s))
  | edgeSeen slot => exact .of_next h (.ite ((see_acts slot s).keepsDeadlines Lawful.see) (.refl s))
  | deadlineExpiry => exact .of_next h (.ite (expire_keeps s) (.refl s))
  | jobDefine => exact .of_next h (serve_keeps jobDefine_keeps)
  | jobStart => exact .of_next h (serve_keeps jobStart_keeps)
  | jobStop => exact .of_next h (.ite (.refl s) (serve_keeps jobStop_keeps))
  | jobClear => exact .of_next h (serve_keeps jobClear_keeps)
  | limitSet => exact .of_next h (serve_keeps limitSet_keeps)
  | _ => exact (exec_sameJobs rfl h).keeps

/-- Settles O33: a step is its front command, run on the state with the queue's rest, and every command keeps
both laws. -/
theorem everyStepKeepsTheDeadlineLaw : Obligations.EveryStepKeepsTheDeadlineLaw := by
  intro s t h
  unfold step at h
  split at h
  · cases h
    exact ⟨id, id⟩
  · rename_i c rest _
    have kept := exec_keepsDeadlines (s := { s with pending := rest }) h
    exact ⟨kept.deadlines, kept.definitions⟩

end Sys2Proof.Machine
end

section
/-! PROOF. What the result queue does with a record offered to it: it takes the record while it has room (R111)
and refuses it at 96 (R112). Either way the record is the slot's latest result (R106, R107). -/

namespace Sys2Proof.Machine

variable {s : State} {slot : Fin 32} {r : Record}

/-- The state in which the queue has taken the record, before WAITING is raised (R111). -/
def State.recordTaken (s : State) (slot : Fin 32) (r : Record) : State :=
  let queued : Record := { r with lostBefore := (s.job slot).lostPending }
  { s.setJob slot { s.job slot with latest := some queued, lostPending := 0 } with
    results := { s.results with records := s.results.records ++ [queued] } }

/-- The state in which the queue has refused the record, before FULL is raised (R112). -/
def State.recordRefused (s : State) (slot : Fin 32) (r : Record) : State :=
  { s.setJob slot { s.job slot with
      latest := some r,
      lostPending := min ((s.job slot).lostPending + 1) 65535,
      lostTotal := min ((s.job slot).lostTotal + 1) 65535 } with
    results := { s.results with refused := min (s.results.refused + 1) 65535 } }

/-- Taking a record makes the queue one longer. -/
@[simp] theorem State.length_recordTaken :
    (s.recordTaken slot r).results.records.length = s.results.records.length + 1 :=
  List.length_append

@[simp] theorem State.recordTaken_watermark :
    (s.recordTaken slot r).results.watermark = s.results.watermark := rfl

/-- With room, the queue takes the record and raises WAITING when it then stands at its watermark. -/
theorem offerRecord_of_room (room : s.results.records.length < Config.resultPlaces) :
    s.offerRecord slot r =
      if (s.recordTaken slot r).results.records.length = (s.recordTaken slot r).results.watermark
      then (s.recordTaken slot r).raiseResults .waiting else s.recordTaken slot r :=
  if_pos room

/-- Without room, the queue refuses the record and raises FULL. -/
theorem offerRecord_of_full (full : ¬ s.results.records.length < Config.resultPlaces) :
    s.offerRecord slot r = (s.recordRefused slot r).raiseResults .full :=
  if_neg full

/-- Settles O44: the queue's 96 places decide between the two; WAITING compares the length that taking the
record leaves. -/
theorem queueAppendsOrRefusesARecord : Obligations.QueueAppendsOrRefusesARecord := by
  intro s slot r
  refine ⟨fun room => ?_, fun full => offerRecord_of_full (Nat.not_lt.mpr full)⟩
  have taken := offerRecord_of_room (slot := slot) (r := r) room
  rwa [State.length_recordTaken, State.recordTaken_watermark] at taken

end Sys2Proof.Machine
end

section
/-! PROOF. What every command keeps of the ALERT pin (R130). The commands that leave the job table alone leave
the pin alone; the others act as a job does, evaluate the pin anew, or reset both. -/

namespace Sys2Proof.Machine

variable {s t u : State} {payload : List Byte}

/-! ## Commands that leave the pin alone -/

/-- From `s` to `t` the ALERT pin has not moved. -/
abbrev SamePin (s t : State) : Prop := t.alert = s.alert

theorem SamePin.ite {due : Prop} [Decidable due] (acts : SamePin s t) (waits : SamePin s u) :
    SamePin s (if due then t else u) := by
  split
  · exact acts
  · exact waits

/-! ### Events -/

theorem declareLoss_samePin (s : State) : SamePin s s.declareLoss := by
  unfold State.declareLoss
  dsimp only
  split <;> rfl

theorem decideStep_samePin (s : State) (ch : Fin 8) : SamePin s (s.decideStep ch) := by
  unfold State.decideStep
  dsimp only
  split
  · rfl
  · split <;> rfl

theorem logEdge_samePin (s : State) (e : AcceptedEdge) : SamePin s (s.logEdge e) := by
  unfold State.logEdge
  dsimp only
  split
  · rfl
  · split
    · split <;> rfl
    · split <;> rfl

theorem takeFrame_samePin (s : State) (frame : List Byte) : SamePin s (s.takeFrame frame) := by
  unfold State.takeFrame
  dsimp only
  split
  · rfl
  · split
    · rfl
    · split <;> rfl

theorem beginReply_samePin (s : State) : SamePin s s.beginReply := by
  unfold State.beginReply
  split <;> rfl

theorem beginNotice_samePin (s : State) : SamePin s s.beginNotice := by
  unfold State.beginNotice
  split <;> rfl

theorem resetNotices_samePin (s : State) : SamePin s s.resetNotices := by
  have cut : SamePin s s.cutOffNotice := by
    unfold State.cutOffNotice
    split <;> rfl
  exact cut

/-- A byte examined by the receiver in a frame, whatever it does with the frame's bytes. -/
theorem samePin_of_collecting {act : List Byte → State} (b : Byte) (h : ∀ bytes, SamePin s (act bytes)) :
    SamePin s (match s.collecting b with | some bytes => act bytes | none => s) := by
  cases s.collecting b with
  | some bytes => exact h bytes
  | none => rfl

/-! ### Requests -/

/-- Every answer of a request leaves the pin as it found it. -/
def SparesPin (handler : List Byte → State → Answer) : Prop :=
  ∀ payload s, SamePin s (handler payload s).state

theorem serve_samePin {rc : RequestCode} {mine : List Byte → Bool}
    {handler : List Byte → State → Answer} (h : SparesPin handler) :
    SamePin s (s.serve rc mine handler) := by
  obtain idle | ⟨tag, code, payload, rest, -, -, -, ⟨c, d, -, refused⟩ | ⟨-, handled⟩⟩ :=
    serve_cases (s := s) rc mine handler
  · rw [idle]
  · rw [refused]; rfl
  · rw [handled]; exact h payload s

theorem chanSet_sparesPin : SparesPin chanSet := by
  intro payload s
  unfold chanSet
  dsimp only
  split
  · rfl
  · split
    · rfl
    · split <;> rfl

theorem chanGet_sparesPin : SparesPin chanGet := by
  intro payload s
  unfold chanGet
  dsimp only
  split
  · rfl
  · exact SamePin.ite rfl rfl

theorem status_sparesPin : SparesPin status := by
  intro payload s
  unfold status
  dsimp only
  split
  · rfl
  · exact SamePin.ite rfl rfl

theorem probeStart_sparesPin : SparesPin probeStart := by
  intro payload s
  unfold probeStart
  split <;> rfl

theorem probeCancel_sparesPin : SparesPin probeCancel := by
  intro payload s
  unfold probeCancel
  dsimp only
  split
  · split <;> rfl
  · rfl

theorem captureSet_sparesPin : SparesPin captureSet := by
  intro payload s
  unfold captureSet
  split
  · rfl
  · dsimp only
    split <;> rfl

theorem captureRead_sparesPin : SparesPin captureRead := by
  intro payload s
  unfold captureRead
  dsimp only
  split <;> rfl

theorem grant_sparesPin : SparesPin grant := by
  intro payload s
  unfold grant
  dsimp only
  split <;> rfl

theorem resultFetch_sparesPin : SparesPin resultFetch := by
  intro payload s
  unfold resultFetch
  dsimp only
  split <;> rfl

theorem resultSetup_sparesPin : SparesPin resultSetup := by
  intro payload s
  unfold resultSetup
  dsimp only
  split <;> rfl

theorem unknownRequest_samePin (h : completes .unknownRequest s t) : SamePin s t := by
  cases h
  split
  · exact SamePin.ite rfl rfl
  · rfl

/-! ### Every other command -/

/-- The state that a completed command leaves is the one its meaning gives. -/
theorem SamePin.of_next (h : (.next u : Out) = .next t) (k : SamePin s u) : SamePin s t := by
  cases h
  exact k

/-- Only the commands of the job table move the pin. -/
theorem exec_samePin {c : Instr} (other : movesJobs c = false) (h : completes c s t) : SamePin s t := by
  cases c with
  | powerReset | softReset | edgeArrival | edgeSeen | deadlineExpiry | jobDefine | jobStart | jobStop
  | jobClear | limitSet => cases other
  | comparatorOutput => exact .of_next h rfl
  | initEnd | revert | edgeAccepted | strayByte | sync | truncation | breakDetected | replySent
  | noticeSent | regain | tick | refclkEdge => exact .of_next h (.ite rfl rfl)
  | refLoss => exact .of_next h (.ite (declareLoss_samePin s) rfl)
  | probeStep ch => exact .of_next h (.ite (decideStep_samePin s ch) rfl)
  | frameByte b | badLength b => exact .of_next h (samePin_of_collecting b fun _ => .ite rfl rfl)
  | receiveFrame b =>
    exact .of_next h (samePin_of_collecting b fun _ => .ite (takeFrame_samePin s.examined _) rfl)
  | linkReset => exact .of_next h (.ite (resetNotices_samePin { s with link := s.link.cut }) rfl)
  | replyBegin => exact .of_next h (.ite (beginReply_samePin s) rfl)
  | noticeBegin => exact .of_next h (.ite (beginNotice_samePin s) rfl)
  | unknownRequest => exact unknownRequest_samePin h
  | describe | captureFlush | jobGet | resultFlush => exact .of_next h (serve_samePin fun _ _ => rfl)
  | time => exact .of_next h (.ite rfl (serve_samePin fun _ _ => rfl))
  | status => exact .of_next h (serve_samePin status_sparesPin)
  | grant => exact .of_next h (serve_samePin grant_sparesPin)
  | chanSet => exact .of_next h (serve_samePin chanSet_sparesPin)
  | chanGet => exact .of_next h (serve_samePin chanGet_sparesPin)
  | probeStart => exact .of_next h (serve_samePin probeStart_sparesPin)
  | probeCancel => exact .of_next h (serve_samePin probeCancel_sparesPin)
  | captureSet => exact .of_next h (serve_samePin captureSet_sparesPin)
  | captureRead => exact .of_next h (serve_samePin captureRead_sparesPin)
  | resultFetch => exact .of_next h (serve_samePin resultFetch_sparesPin)
  | resultSetup => exact .of_next h (serve_samePin resultSetup_sparesPin)

/-! ## The law of ALERT from one state to the next -/

/-- From `s` to `t` the law of ALERT is kept (R130). -/
def KeepsAlert (s t : State) : Prop := s.alertLaw → t.alertLaw

theorem KeepsAlert.refl (s : State) : KeepsAlert s s := id

theorem KeepsAlert.trans (h : KeepsAlert s t) (k : KeepsAlert t u) : KeepsAlert s u := k ∘ h

theorem KeepsAlert.ite {due : Prop} [Decidable due] (acts : KeepsAlert s t) (waits : KeepsAlert s u) :
    KeepsAlert s (if due then t else u) := by
  split
  · exact acts
  · exact waits

theorem KeepsAlert.of_next (h : (.next u : Out) = .next t) (k : KeepsAlert s u) : KeepsAlert s t := by
  cases h
  exact k

/-- The law speaks of the job table and the pin alone. -/
theorem KeepsAlert.of_same (jobs : t.jobs = s.jobs) (pin : SamePin s t) : KeepsAlert s t := by
  unfold KeepsAlert
  rw [alertLaw_iff, alertLaw_iff, jobs, pin]
  exact id

/-! ### Resets, edges and expiries -/

/-- A bank of free slots has no window, and the pin is released (R60, R191). -/
theorem alertLaw_of_reset (jobs : t.jobs = Vector.replicate 32 .reset) (pin : t.alert = false) :
    t.alertLaw := by
  rw [alertLaw_iff, pin, jobs, eq_comm, Bool.eq_false_iff, ne_eq, anyIn_eq_true]
  rintro ⟨k, drives⟩
  rw [get_replicate] at drives
  cases drives

/-- An edge that a job holds is no part of its limits (R45). -/
theorem holdEdge_keepsAlert (s : State) (e : AcceptedEdge) : KeepsAlert s (s.holdEdge e) := by
  unfold KeepsAlert
  rw [alertLaw_iff, alertLaw_iff, State.holdEdge_alert]
  intro law
  refine law.trans (anyIn_drives_congr fun k => ?_)
  obtain ⟨held, eq⟩ := hold_eq e (s.job k)
  have kept : (s.holdEdge e).jobs.get k = { s.job k with held := held } :=
    (State.holdEdge_job s e k).trans eq
  rw [kept]
  exact drivesAlert_congr rfl rfl

theorem arrive_keepsAlert (s : State) (ch : Fin 8) : KeepsAlert s (s.arrive ch) := by
  unfold State.arrive
  dsimp only
  split
  · exact .refl s
  · have logged (u : State) (e : AcceptedEdge) : KeepsAlert u (u.logEdge e) :=
      .of_same (logEdge_sameJobs u e).jobs (logEdge_samePin u e)
    have moved (c : Channel) : KeepsAlert s (s.setChannel ch c) := .of_same rfl rfl
    exact ((moved _).trans (logged _ _)).trans (holdEdge_keepsAlert _ _)

/-- The head entry leaves the list, and the rest is an act of its job (R100). -/
theorem expire_keepsAlert (s : State) : KeepsAlert s s.expire := by
  unfold State.expire
  split
  · exact .refl s
  · rename_i e rest _
    have removed : KeepsAlert s { s with deadlines := { s.deadlines with entries := rest } } :=
      .of_same rfl rfl
    exact removed.trans (takeBoundary_acts _ _ _).alertLaw

/-! ### Requests on a job slot -/

theorem serve_keepsAlert {rc : RequestCode} {mine : List Byte → Bool}
    {handler : List Byte → State → Answer} (h : ∀ payload, KeepsAlert s (handler payload s).state) :
    KeepsAlert s (s.serve rc mine handler) := by
  obtain idle | ⟨tag, code, payload, rest, -, -, -, ⟨c, d, -, refused⟩ | ⟨-, handled⟩⟩ :=
    serve_cases (s := s) rc mine handler
  · rw [idle]; exact .refl s
  · rw [refused]; exact .of_same rfl rfl
  · rw [handled]; exact (h payload).trans (.of_same rfl rfl)

/-- The slot is new and the pin is read off the table anew (R37). -/
theorem jobDefine_keepsAlert (payload : List Byte) (s : State) :
    KeepsAlert s (jobDefine payload s).state := by
  unfold jobDefine
  dsimp only
  split
  · exact .refl s
  · split
    · exact .refl s
    · exact fun _ => evaluateAlert_alertLaw _

/-- The slot is freed and the pin is read off the table anew (R58). -/
theorem jobClear_keepsAlert (payload : List Byte) (s : State) :
    KeepsAlert s (jobClear payload s).state := by
  unfold jobClear
  dsimp only
  split
  · exact .refl s
  · exact fun _ => evaluateAlert_alertLaw _

/-- The window is replaced and the pin is read off the table anew (R126). -/
theorem limitSet_keepsAlert (payload : List Byte) (s : State) :
    KeepsAlert s (limitSet payload s).state := by
  unfold limitSet
  dsimp only
  split
  · exact .refl s
  · split
    · exact .refl s
    · exact fun _ => evaluateAlert_alertLaw _

/-- Enrolling a job for a start leaves its limits as they are (R41). -/
theorem enrol_keepsAlert (s : State) (slot : Fin 32) (d : Definition) : KeepsAlert s (s.enrol slot d) := by
  have written : KeepsAlert s (s.setJob slot { s.job slot with
      settle := some (s.settleOf d), acc := .cleared, held := [], pendingMissed := 0 }) :=
    setJob_alertLaw rfl rfl
  exact written.trans (.of_same rfl rfl)

/-- Each start mode is a sequence of acts of the enrolled job (R42 to R44). -/
theorem jobStart_keepsAlert (payload : List Byte) (s : State) :
    KeepsAlert s (jobStart payload s).state := by
  unfold jobStart
  split
  · exact .refl s
  · rename_i d _
    refine (enrol_keepsAlert s (slotField payload) d).trans ?_
    dsimp only
    split
    · exact JobActs.alertLaw (.after (openMeasurement_acts _ _ _ _) (write_acts _ _ _ rfl rfl rfl id))
    · exact JobActs.alertLaw (.after (setBoundary_acts _ _ _) (write_acts _ _ _ rfl rfl rfl id))
    · exact JobActs.alertLaw (write_acts _ _ _ rfl rfl rfl id)

/-- A PARTIAL record may move the alert state of the stopped job, and the pin with it (R56, R127). -/
theorem jobStop_keepsAlert (payload : List Byte) (s : State) :
    KeepsAlert s (jobStop payload s).state := by
  have kept : KeepsAlert s (if field payload 1 1 = 1 then s.keepPartial (slotField payload) else s) :=
    .ite (keepPartial_acts _ s).alertLaw (.refl s)
  unfold jobStop
  dsimp only
  split
  · exact .refl s
  · exact kept.trans (.ite (leaveRunning_acts _ _ .idle).alertLaw (.refl _))

/-! ## Every command -/

theorem exec_keepsAlert {c : Instr} (h : completes c s t) : KeepsAlert s t := by
  cases c with
  | powerReset => exact .of_next h fun _ => alertLaw_of_reset rfl rfl
  | softReset => exact .of_next h (serve_keepsAlert fun _ _ => alertLaw_of_reset rfl rfl)
  | edgeArrival ch => exact .of_next h (.ite (arrive_keepsAlert s ch) (.refl s))
  | edgeSeen slot => exact .of_next h (.ite (see_acts slot s).alertLaw (.refl s))
  | deadlineExpiry => exact .of_next h (.ite (expire_keepsAlert s) (.refl s))
  | jobDefine => exact .of_next h (serve_keepsAlert (jobDefine_keepsAlert · s))
  | jobStart => exact .of_next h (serve_keepsAlert (jobStart_keepsAlert · s))
  | jobStop => exact .of_next h (.ite (.refl s) (serve_keepsAlert (jobStop_keepsAlert · s)))
  | jobClear => exact .of_next h (serve_keepsAlert (jobClear_keepsAlert · s))
  | limitSet => exact .of_next h (serve_keepsAlert (limitSet_keepsAlert · s))
  | _ => exact .of_same (exec_sameJobs rfl h).jobs (exec_samePin rfl h)

/-- Settles O49: a step is its front command, run on the state with the queue's rest, and every command keeps
the law. -/
theorem everyStepKeepsTheAlertLaw : Obligations.EveryStepKeepsTheAlertLaw := by
  intro s t law h
  unfold step at h
  split at h
  · cases h
    exact law
  · rename_i c rest _
    exact exec_keepsAlert (s := { s with pending := rest }) h law

end Sys2Proof.Machine
end

section
/-! PROOF. What LIMIT_SET answers: the check on the slot, the first field that fails, and the window that
replaces the slot's (R125, R126). -/

namespace Sys2Proof.Machine

variable {s : State} {tag present stall drive : Byte} {rest : List Request} {slot : Fin 32}
  {low high band index : Nat} {payload : List Byte}

/-! ## The payload (section 7.2) -/

/-- The 28 bytes of a LIMIT_SET with these fields. -/
def limitPayload (slot : Fin 32) (present : Byte) (low high band : Nat) (stall drive : Byte) : List Byte :=
  leBytes 1 slot.val ++ [present] ++ leBytes 8 low ++ leBytes 8 high ++ leBytes 8 band ++ [stall, drive]

/-- The slot's number stands in front. -/
theorem limitPayload_eq (slot : Fin 32) (present : Byte) (low high band : Nat) (stall drive : Byte) :
    limitPayload slot present low high band stall drive
      = leBytes 1 slot.val
        ++ ([present] ++ (leBytes 8 low ++ (leBytes 8 high ++ (leBytes 8 band ++ [stall, drive])))) := by
  simp only [limitPayload, List.append_assoc]

/-- What the fields behind the slot's number read. -/
structure LimitFields (payload : List Byte) (present : Byte) (low high band : Nat) (stall drive : Byte) :
    Prop where
  present : field payload 1 1 = present.toNat
  low : field payload 2 8 = low
  high : field payload 10 8 = high
  band : field payload 18 8 = band
  stall : field payload 26 1 = stall.toNat
  drive : field payload 27 1 = drive.toNat

/-- Eight bytes behind a prefix read as the number below 2^64 that they spell. -/
theorem field_leBytes_eight {a c : List Byte} {n offset : Nat} (before : a.length = offset)
    (fits : n < 2 ^ 64) : field (a ++ (leBytes 8 n ++ c)) offset 8 = n :=
  (field_append before (length_leBytes 8 n)).trans (leNat_leBytes_of_lt fits)

theorem limitPayload_fields (lowFits : low < 2 ^ 64) (highFits : high < 2 ^ 64) (bandFits : band < 2 ^ 64) :
    LimitFields (limitPayload slot present low high band stall drive) present low high band stall drive where
  present := by rw [field_byte]; rfl
  low := by
    rw [limitPayload_eq, ← List.append_assoc]
    exact field_leBytes_eight rfl lowFits
  high := by
    rw [limitPayload_eq, ← List.append_assoc, ← List.append_assoc]
    exact field_leBytes_eight rfl highFits
  band := by
    rw [limitPayload, List.append_assoc]
    exact field_leBytes_eight rfl bandFits
  stall := by rw [field_byte]; rfl
  drive := by rw [field_byte]; rfl

/-! ## The checks on the fields (R125) -/

/-- A field that must meet a condition is the first to fail, or leaves the failure to those behind it. -/
theorem firstFailure_require (ok : Bool) (index : Nat) (checks : List Check) :
    firstFailure (require ok index :: checks)
      = if ok then firstFailure checks else some (.badValue, index) := by
  cases ok <;> rfl

theorem limitSetCheck_of_above (f : LimitFields payload present low high band stall drive)
    (above : 1 < present.toNat) : limitSetCheck payload = some (.badValue, 2) := by
  rw [limitSetCheck, f.present]
  exact if_pos above

/-- Without a window every field must be 0. -/
theorem limitSetCheck_of_absent (f : LimitFields payload 0 low high band stall drive) :
    limitSetCheck payload =
      if low = 0 then
        if high = 0 then
          if band = 0 then
            if stall = 0 then if drive = 0 then none else some (.badValue, 7) else some (.badValue, 6)
          else some (.badValue, 5)
        else some (.badValue, 4)
      else some (.badValue, 3) := by
  have zero (b : Byte) : b.toNat = 0 ↔ b = 0 := BitVec.toNat_inj (y := 0)
  simp [limitSetCheck, f.present, f.low, f.high, f.band, f.stall, f.drive, firstFailure_require, zero,
    firstFailure]

/-- With a window its bounds are in order, its band fits between them, and both options are 0 or 1. -/
theorem limitSetCheck_of_present (f : LimitFields payload 1 low high band stall drive) :
    limitSetCheck payload =
      if low ≤ high then
        if 2 * band ≤ high - low then
          if stall.toNat ≤ 1 then if drive.toNat ≤ 1 then none else some (.badValue, 7)
          else some (.badValue, 6)
        else some (.badValue, 5)
      else some (.badValue, 4) := by
  simp [limitSetCheck, f.present, f.low, f.high, f.band, f.stall, f.drive, firstFailure_require,
    firstFailure]

/-! ## The new window (R126, step 1) -/

theorem limitWindow_of_absent (f : LimitFields payload 0 low high band stall drive) :
    limitWindow payload = none := by
  rw [limitWindow, f.present]
  rfl

theorem limitWindow_of_present (f : LimitFields payload 1 low high band stall drive) :
    limitWindow payload = some { low := low, high := high, band := band, stallOut := stall == 1,
                                 drive := drive == 1 } := by
  have option (b : Byte) : (b.toNat == 1) = (b == 1) := by
    rw [Bool.eq_iff_iff, beq_iff_eq, beq_iff_eq]
    exact BitVec.toNat_inj (y := 1)
  rw [limitWindow, f.present, f.low, f.high, f.band, f.stall, f.drive, option, option]
  rfl

/-! ## The answers -/

/-- The slot with its new window, and the pin read off the table anew (R126). -/
def State.limited (s : State) (slot : Fin 32) (w : Option Window) : State :=
  (s.setJob slot { s.job slot with window := w, alert := .inside }).evaluateAlert

/-- A FREE slot is refused before any field is looked at (R125, check 1). -/
theorem limitSet_of_free (free : (s.job (slotField payload)).state = .free) :
    limitSet payload s = refuse s .jobFree 0 := if_pos free

/-- The first failing field gives the refusal and its detail (R125, check 2). -/
theorem limitSet_of_failure (defined : (s.job (slotField payload)).state ≠ .free) {code : ReplyCode}
    (check : limitSetCheck payload = some (code, index)) : limitSet payload s = refuse s code index := by
  simp only [limitSet, if_neg defined, check]

/-- The reply gives the alert state found, and the pin after the window has been replaced (R126). -/
theorem limitSet_of_pass (defined : (s.job (slotField payload)).state ≠ .free)
    (check : limitSetCheck payload = none) :
    limitSet payload s = okay (s.limited (slotField payload) (limitWindow payload))
      (leBytes 1 (s.job (slotField payload)).alert.toCode
        ++ leBytes 1 (bit (s.limited (slotField payload) (limitWindow payload)).alert)) := by
  simp only [limitSet, if_neg defined, check, State.limited]

theorem slotField_limitPayload :
    slotField (limitPayload slot present low high band stall drive) = slot := by
  rw [limitPayload_eq, slotField_cons]

section
variable (q : s.asks tag 0x2C (limitPayload slot present low high band stall drive) rest)
include q

/-- The dispatcher hands a LIMIT_SET that names a slot to its owner (R185). -/
theorem limitSet_of_asks :
    completes .limitSet s
      (finishRequest ⟨tag, 0x2C, limitPayload slot present low high band stall drive⟩
        (limitSet (limitPayload slot present low high band stall drive) s)) := by
  have inRange : RequestCode.badIndex .limitSet (limitPayload slot present low high band stall drive)
      = none := by
    rw [limitPayload_eq]
    exact if_neg (Nat.not_lt.mpr (field_slot_le slot _))
  exact congrArg Host.Outcome.next (serve_of_asks q rfl rfl (genericCheck_none rfl inRange))

theorem limitSet_refuses_free (free : (s.job slot).state = .free) :
    completes .limitSet s (s.answered tag rest 0x21 [0]) := by
  have served := limitSet_of_asks q
  rwa [limitSet_of_free (slotField_limitPayload.symm ▸ free), finishRequest_refuse q] at served

theorem limitSet_refuses_field (defined : (s.job slot).state ≠ .free)
    (check : limitSetCheck (limitPayload slot present low high band stall drive)
      = some (.badValue, index)) :
    completes .limitSet s (s.answered tag rest 0x12 (leBytes 1 index)) := by
  have served := limitSet_of_asks q
  rwa [limitSet_of_failure (slotField_limitPayload.symm ▸ defined) check, finishRequest_refuse q] at served

theorem limitSet_applies (defined : (s.job slot).state ≠ .free)
    (check : limitSetCheck (limitPayload slot present low high band stall drive) = none)
    {w : Option Window}
    (window : limitWindow (limitPayload slot present low high band stall drive) = w) :
    completes .limitSet s ((s.limited slot w).answered tag rest 0x00
      [match (s.job slot).alert with | .inside => 0 | .outside => 1,
        if (s.limited slot w).alert = true then 1 else 0]) := by
  have served := limitSet_of_asks q
  have link : (s.limited slot w).link = s.link := rfl
  have reply : leBytes 1 (s.job slot).alert.toCode ++ leBytes 1 (bit (s.limited slot w).alert)
      = [match (s.job slot).alert with | .inside => 0 | .outside => 1,
          if (s.limited slot w).alert = true then 1 else 0] := by
    cases (s.job slot).alert <;> cases (s.limited slot w).alert <;> rfl
  rwa [limitSet_of_pass (slotField_limitPayload.symm ▸ defined) check, slotField_limitPayload, window,
    reply, finishRequest_eq link q] at served

end

/-- Settles O48: the slot's state, the presence, and then each field in index order decide the answer. -/
theorem limitSetChecksThenApplies : Obligations.LimitSetChecksThenApplies := by
  intro s tag present stall drive rest slot low high band lowFits highFits bandFits q
  have fields := limitPayload_fields (slot := slot) (present := present) (stall := stall) (drive := drive)
    lowFits highFits bandFits
  have refuses (index : Nat) := limitSet_refuses_field (index := index) q
  refine ⟨limitSet_refuses_free q, fun defined =>
    ⟨fun above => refuses 2 defined (limitSetCheck_of_above fields above), ?absent, ?present⟩⟩
  case absent =>
    rintro rfl
    have check := limitSetCheck_of_absent fields
    refine ⟨fun l => refuses 3 defined ?_, fun l h => refuses 4 defined ?_,
      fun l h b => refuses 5 defined ?_, fun l h b so => refuses 6 defined ?_,
      fun l h b so dr => refuses 7 defined ?_, fun l h b so dr => ⟨_, rfl, evaluateAlert_alertLaw _,
        limitSet_applies q defined ?_ (limitWindow_of_absent fields)⟩⟩
    · rw [check, if_neg l]
    · rw [check, if_pos l, if_neg h]
    · rw [check, if_pos l, if_pos h, if_neg b]
    · rw [check, if_pos l, if_pos h, if_pos b, if_neg so]
    · rw [check, if_pos l, if_pos h, if_pos b, if_pos so, if_neg dr]
    · rw [check, if_pos l, if_pos h, if_pos b, if_pos so, if_pos dr]
  case present =>
    rintro rfl
    have check := limitSetCheck_of_present fields
    refine ⟨fun h => refuses 4 defined ?_, fun h b => refuses 5 defined ?_,
      fun h b so => refuses 6 defined ?_, fun h b so dr => refuses 7 defined ?_,
      fun h b so dr => ⟨_, rfl, evaluateAlert_alertLaw _,
        limitSet_applies q defined ?_ (limitWindow_of_present fields)⟩⟩
    · rw [check, if_neg (Nat.not_le.mpr h)]
    · rw [check, if_pos h, if_neg (Nat.not_le.mpr b)]
    · rw [check, if_pos h, if_pos b, if_neg (Nat.not_le.mpr so)]
    · rw [check, if_pos h, if_pos b, if_pos so, if_neg (Nat.not_le.mpr dr)]
    · rw [check, if_pos h, if_pos b, if_pos so, if_pos dr]

end Sys2Proof.Machine
end

section
/-! PROOF. What an arriving edge does to its channel's capture queue: it is passed over, appended, dropped, or
displaces the oldest entry (R137 to R142). -/

namespace Sys2Proof.Machine

variable {s : State} {e : AcceptedEdge} {q : CaptureQueue}

/-! ## The log select (R137) -/

theorem Select.admits_eq_true {select : Select} {polarity : Polarity} :
    select.admits polarity = true ↔
      select = .both ∨ (select = .rise ∧ polarity = .rise) ∨ (select = .fall ∧ polarity = .fall) := by
  cases select <;> cases polarity <;> simp [Select.admits]

theorem Select.admits_eq_false {select : Select} {polarity : Polarity} :
    select.admits polarity = false ↔
      select = .none ∨ (select = .rise ∧ polarity = .fall) ∨ (select = .fall ∧ polarity = .rise) := by
  cases select <;> cases polarity <;> simp [Select.admits]

/-! ## The queue with one edge more -/

/-- The entry behind the displaced head becomes the head and bears the gap; in a queue of one entry that is the
new entry itself (R140). -/
theorem CaptureQueue.displace_of_cons {oldest : CaptureEntry} {left : List CaptureEntry} :
    q.entries = oldest :: left → q.displace e = { q with
      entries :=
        (match left with
          | [] => [⟨e.timestamp, e.polarity, true⟩]
          | next :: more =>
            { next with gapBefore := true } :: (more ++ [⟨e.timestamp, e.polarity, q.gapPending⟩])),
      loss := min (q.loss + 1) 65535, gapPending := false } := by
  intro entries
  cases left <;> simp [CaptureQueue.displace, entries, markHead, saturate]

/-! ## The four outcomes -/

theorem logEdge_of_passed (read : s.capture e.channel = q) (passed : q.select.admits e.polarity = false) :
    s.logEdge e = s := by
  simp [State.logEdge, read, passed]

/-- With room, the edge is appended, and WATERMARK is raised when the queue then stands at its watermark. -/
theorem logEdge_of_room (read : s.capture e.channel = q) (taken : q.select.admits e.polarity = true)
    (room : q.entries.length < q.depth) :
    s.logEdge e =
      if 0 < q.watermark ∧ q.entries.length + 1 = q.watermark then
        (s.setCapture e.channel (q.append e)).raiseChannel e.channel .watermark
      else s.setCapture e.channel (q.append e) := by
  have deep : q.depth ≠ 0 := Nat.ne_zero_of_lt room
  have longer : (q.append e).entries.length = q.entries.length + 1 := List.length_append
  simp [State.logEdge, read, taken, deep, room, longer]

/-- Without room, LOSS is raised, whichever entry the policy gives up. -/
theorem logEdge_of_full (read : s.capture e.channel = q) (taken : q.select.admits e.polarity = true)
    (deep : 0 < q.depth) (full : q.depth ≤ q.entries.length) :
    s.logEdge e =
      (s.setCapture e.channel
        (match q.policy with
          | .keepOld => q.drop
          | .keepNew => q.displace e)).raiseChannel e.channel .loss := by
  have noRoom : ¬q.entries.length < q.depth := Nat.not_lt.mpr full
  cases policy : q.policy <;> simp [State.logEdge, read, taken, deep.ne', noRoom, policy]

/-- Settles O17: the log select, the room and the overflow policy decide between the outcomes. -/
theorem captureQueueLogsAnEdge : Obligations.CaptureQueueLogsAnEdge := by
  intro s e q read
  refine ⟨fun passed => logEdge_of_passed read (Select.admits_eq_false.mpr passed), fun selected => ?_⟩
  have taken := Select.admits_eq_true.mpr selected
  refine ⟨logEdge_of_room read taken, fun deep full policy => ?_,
    fun oldest left deep full policy entries => ?_⟩
  · have dropped := logEdge_of_full read taken deep full
    rwa [policy] at dropped
  · have displaced := logEdge_of_full read taken deep full
    rwa [policy, CaptureQueue.displace_of_cons entries] at displaced

end Sys2Proof.Machine
end

section
/-! PROOF. What CAPTURE_READ and CAPTURE_FLUSH remove from a capture queue and report of it (R147, R149). -/

namespace Sys2Proof.Machine

variable {s : State} {tag code most : Byte} {ch : Fin 8} {rest : List Request}

/-! ## Requests that name a channel -/

/-- The dispatcher hands a request of the right length, whose one index field names a channel, to its owner
(R185). -/
theorem serve_of_channel {tail : List Byte} (q : s.asks tag code (leBytes 1 ch.val ++ tail) rest)
    {rc : RequestCode} (owner : requestCodeOf code = some rc)
    (length : (leBytes 1 ch.val ++ tail).length = rc.payloadLength)
    (indexed : ∀ payload, rc.badIndex payload = if field payload 0 1 > 7 then some 1 else none)
    (handler : List Byte → State → Answer) :
    s.serve rc anyPayload handler
      = finishRequest ⟨tag, code, leBytes 1 ch.val ++ tail⟩ (handler (leBytes 1 ch.val ++ tail) s) := by
  have inRange : rc.badIndex (leBytes 1 ch.val ++ tail) = none :=
    (indexed _).trans (if_neg (Nat.not_lt.mpr (field_channel_le ch tail)))
  exact serve_of_asks q owner rfl (genericCheck_none length inRange)

/-! ## CAPTURE_READ (R147) -/

/-- The state in which the oldest `n` entries have been read. -/
def State.captureTaken (s : State) (ch : Fin 8) (n : Nat) : State :=
  s.setCapture ch { s.capture ch with entries := (s.capture ch).entries.drop n, loss := 0 }

/-- What CAPTURE_READ reports of a queue whose oldest `n` entries it takes. -/
def State.captureReport (s : State) (ch : Fin 8) (n : Nat) : List Byte :=
  leBytes 1 ch.val ++ leBytes 1 ((s.capture ch).entries.take n).length
    ++ leBytes 2 ((s.capture ch).entries.drop n).length ++ leBytes 2 (s.capture ch).loss
    ++ ((s.capture ch).entries.take n).flatMap CaptureEntry.bytes

/-- The check of CAPTURE_READ on its max field, and its two answers. -/
theorem captureRead_eq (s : State) (ch : Fin 8) (most : Byte) :
    captureRead (leBytes 1 ch.val ++ [most]) s
      = if most = 0 ∨ 32 < most.toNat then refuse s .badValue 2
        else okay (s.captureTaken ch most.toNat) (s.captureReport ch most.toNat) := by
  have maxField : field (leBytes 1 ch.val ++ [most]) 1 1 = most.toNat := field_byte _ 1
  have zero : most.toNat = 0 ↔ most = 0 := BitVec.toNat_inj (y := 0)
  simp only [captureRead, maxField, channelField_cons, zero, Bool.or_eq_true, decide_eq_true_eq, gt_iff_lt,
    State.captureTaken, State.captureReport]

theorem captureRead_of_asks (q : s.asks tag 0x19 (leBytes 1 ch.val ++ [most]) rest) :
    completes .captureRead s (finishRequest ⟨tag, 0x19, leBytes 1 ch.val ++ [most]⟩
      (captureRead (leBytes 1 ch.val ++ [most]) s)) :=
  congrArg Host.Outcome.next (serve_of_channel q rfl rfl (fun _ => rfl) captureRead)

theorem captureRead_refuses (q : s.asks tag 0x19 (leBytes 1 ch.val ++ [most]) rest)
    (outside : most = 0 ∨ 32 < most.toNat) : completes .captureRead s (s.answered tag rest 0x12 [2]) := by
  have served := captureRead_of_asks q
  rwa [captureRead_eq, if_pos outside, finishRequest_refuse q] at served

theorem captureRead_reports (q : s.asks tag 0x19 (leBytes 1 ch.val ++ [most]) rest)
    (inside : ¬(most = 0 ∨ 32 < most.toNat)) :
    completes .captureRead s
      ((s.captureTaken ch most.toNat).answered tag rest 0x00 (s.captureReport ch most.toNat)) := by
  have served := captureRead_of_asks q
  have link : (s.captureTaken ch most.toNat).link = s.link := State.setCapture_link _ _ _
  rwa [captureRead_eq, if_neg inside, finishRequest_eq link q] at served

/-- The last byte of an entry's seven tells its polarity in bit 0 and its gap mark in bit 1 (R196). -/
theorem captureEntry_bytes (e : CaptureEntry) :
    e.bytes = leBytes 6 e.timestamp.toNat
      ++ ([match e.polarity, e.gapBefore with
          | .rise, false => 0 | .fall, false => 1
          | .rise, true => 2 | .fall, true => 3] : List Byte) := by
  obtain ⟨timestamp, polarity, gapBefore⟩ := e
  cases polarity <;> cases gapBefore <;> rfl

/-! ## CAPTURE_FLUSH (R149) -/

theorem captureFlush_reports (q : s.asks tag 0x1A (leBytes 1 ch.val) rest) :
    completes .captureFlush s ((s.setCapture ch { s.capture ch with
      entries := [], loss := 0, gapPending := false }).answered tag rest 0x00
        (leBytes 2 (s.capture ch).entries.length ++ leBytes 2 (s.capture ch).loss)) := by
  have named : channelField (leBytes 1 ch.val) = ch := channelField_cons ch []
  have served : s.serve .captureFlush anyPayload captureFlush
      = finishRequest ⟨tag, 0x1A, leBytes 1 ch.val⟩ (captureFlush (leBytes 1 ch.val) s) :=
    serve_of_channel (tail := []) q rfl rfl (fun _ => rfl) captureFlush
  have link : (s.setCapture ch { s.capture ch with
      entries := [], loss := 0, gapPending := false }).link = s.link := State.setCapture_link _ _ _
  rw [captureFlush, named] at served
  exact congrArg Host.Outcome.next (served.trans (finishRequest_eq link q))

/-- Settles O25: a read takes the first `max` entries and leaves those behind them; a flush takes all. -/
theorem captureReadAndFlush : Obligations.CaptureReadAndFlush := by
  refine ⟨fun s tag rest ch most q => ⟨captureRead_refuses q, fun positive atMost => ?_⟩,
    fun s tag rest ch q => captureFlush_reports q⟩
  refine ⟨_, _, (List.take_append_drop most.toNat _).symm, List.length_take, ?_⟩
  have reported := captureRead_reports q (not_or.mpr ⟨positive, Nat.not_lt.mpr atMost⟩)
  rwa [State.captureReport, funext captureEntry_bytes] at reported

end Sys2Proof.Machine
end

section
/-! PROOF. What CAPTURE_SET answers: the first field that fails, the pool that lacks the cells, and the settings
that the queue takes (R144, R145). -/

namespace Sys2Proof.Machine

variable {s : State} {tag policy select : Byte} {rest : List Request} {ch : Fin 8} {depth mark index : Nat}
  {payload : List Byte} {found : CaptureQueue}

/-! ## The payload (section 8.3) -/

/-- The seven bytes of a CAPTURE_SET with these fields. -/
def capturePayload (ch : Fin 8) (depth : Nat) (policy select : Byte) (mark : Nat) : List Byte :=
  leBytes 1 ch.val ++ leBytes 2 depth ++ [policy, select] ++ leBytes 2 mark

/-- The channel's number stands in front. -/
theorem capturePayload_eq (ch : Fin 8) (depth : Nat) (policy select : Byte) (mark : Nat) :
    capturePayload ch depth policy select mark
      = leBytes 1 ch.val ++ (leBytes 2 depth ++ ([policy, select] ++ leBytes 2 mark)) := by
  simp only [capturePayload, List.append_assoc]

theorem channelField_capturePayload :
    channelField (capturePayload ch depth policy select mark) = ch := by
  rw [capturePayload_eq, channelField_cons]

/-- What the fields behind the channel's number read. -/
structure CaptureFields (payload : List Byte) (depth : Nat) (policy select : Byte) (mark : Nat) : Prop where
  depth : field payload 1 2 = depth
  policy : field payload 3 1 = policy.toNat
  select : field payload 4 1 = select.toNat
  mark : field payload 5 2 = mark

/-- Two bytes behind others read as the number below 2^16 that they spell. -/
theorem field_leBytes_two {a c : List Byte} {n offset : Nat} (before : a.length = offset)
    (fits : n < 65536) : field (a ++ (leBytes 2 n ++ c)) offset 2 = n :=
  (field_append before (length_leBytes 2 n)).trans (leNat_leBytes_of_lt fits)

theorem capturePayload_fields (depthFits : depth < 65536) (markFits : mark < 65536) :
    CaptureFields (capturePayload ch depth policy select mark) depth policy select mark where
  depth := by
    rw [capturePayload_eq]
    exact field_leBytes_two rfl depthFits
  policy := field_byte _ 3
  select := field_byte _ 4
  mark := by
    rw [capturePayload, ← List.append_nil (leBytes 2 mark)]
    exact field_leBytes_two rfl markFits

/-! ## The checks on the fields (R144, check 1) -/

theorem captureSetCheck_eq (f : CaptureFields payload depth policy select mark) :
    captureSetCheck payload =
      if depth ≤ 512 then
        if policy.toNat ≤ 1 then
          if select.toNat ≤ 3 ∧ (select = 0 ∨ depth ≠ 0) then
            if mark ≤ depth then none else some (.badValue, 5)
          else some (.badValue, 4)
        else some (.badValue, 3)
      else some (.badValue, 2) := by
  have zero : select.toNat = 0 ↔ select = 0 := BitVec.toNat_inj (y := 0)
  simp [captureSetCheck, f.depth, f.policy, f.select, f.mark, firstFailure_require, zero, firstFailure]

/-! ## The pool (R135) -/

/-- The sum of the depths when a channel's queue has the given depth. -/
def State.poolWith (s : State) (ch : Fin 8) (depth : Nat) : Nat :=
  sumIn CaptureQueue.depth (s.setCapture ch { s.capture ch with depth := depth }).captures

/-- The sum of the depths after one queue has been replaced, as the request computes it beforehand. -/
theorem depths_setCapture (s : State) (ch : Fin 8) (q : CaptureQueue) :
    sumIn CaptureQueue.depth (s.setCapture ch q).captures
      = sumIn CaptureQueue.depth s.captures - (s.capture ch).depth + q.depth := by
  have replaced : sumIn CaptureQueue.depth (s.setCapture ch q).captures + (s.capture ch).depth
      = sumIn CaptureQueue.depth s.captures + q.depth := sumIn_set CaptureQueue.depth s.captures ch q
  have member : sumIn CaptureQueue.depth (s.captures.set ch .reset) + (s.capture ch).depth
      = sumIn CaptureQueue.depth s.captures := sumIn_set CaptureQueue.depth s.captures ch .reset
  omega

/-! ## The settings (R144, R145) -/

/-- The policy that a valid byte names (R193). -/
def policySetting (policy : Byte) : OverflowPolicy := if policy = 1 then .keepNew else .keepOld

/-- The log select that a valid byte names (R193). -/
def selectSetting (select : Byte) : Select :=
  if select = 0 then .none else if select = 1 then .rise else if select = 2 then .fall else .both

theorem policySetting_eq (policy : Byte) :
    (if policy.toNat = 1 then OverflowPolicy.keepNew else .keepOld) = policySetting policy := by
  have one : policy.toNat = 1 ↔ policy = 1 := BitVec.toNat_inj (y := 1)
  simp only [policySetting, one]

theorem selectSetting_eq (valid : select.toNat ≤ 3) :
    (selectOf select.toNat).getD .none = selectSetting select := by
  obtain rfl | rfl | rfl | rfl : select = 0 ∨ select = 1 ∨ select = 2 ∨ select = 3 := by
    bv_omega
  all_goals rfl

/-- The depth is the payload's, whether or not the queue had it. -/
theorem apply_depth (f : CaptureFields payload depth policy select mark) :
    (found.apply payload).depth = depth := by
  simp only [CaptureQueue.apply, f.depth]
  split
  case isTrue same => exact same.symm
  case isFalse => rfl

/-- Another depth empties the queue (R144). -/
theorem apply_of_other_depth (f : CaptureFields payload depth policy select mark)
    (valid : select.toNat ≤ 3) (other : depth ≠ found.depth) :
    found.apply payload =
      { depth := depth, entries := [], policy := policySetting policy, select := selectSetting select,
        watermark := mark, loss := 0, gapPending := false } := by
  simp only [CaptureQueue.apply, f.depth, f.policy, f.select, f.mark, if_neg other, policySetting_eq,
    selectSetting_eq valid]

/-- The same depth leaves the entries, the loss counter and gap pending (R145). -/
theorem apply_of_same_depth (f : CaptureFields payload depth policy select mark)
    (valid : select.toNat ≤ 3) (same : depth = found.depth) :
    found.apply payload =
      { found with policy := policySetting policy, select := selectSetting select, watermark := mark } := by
  simp only [CaptureQueue.apply, f.depth, f.policy, f.select, f.mark, if_pos same, policySetting_eq,
    selectSetting_eq valid]

/-! ## The answers -/

/-- The first failing field gives the refusal and its detail (R144, check 1). -/
theorem captureSet_of_failure {code : ReplyCode} (check : captureSetCheck payload = some (code, index)) :
    captureSet payload s = refuse s code index := by
  simp only [captureSet, check]

/-- Valid fields are answered by the pool: it lacks the cells, or the queue takes the settings (R144, check 2). -/
theorem captureSet_of_pass (f : CaptureFields payload depth policy select mark)
    (check : captureSetCheck payload = none) (named : channelField payload = ch) :
    captureSet payload s =
      if 512 < s.poolWith ch depth then
        refuse s .poolExhausted 2
      else
        okay (s.setCapture ch ((s.capture ch).apply payload))
          (leBytes 2 ((s.capture ch).entries.length - ((s.capture ch).apply payload).entries.length)
            ++ leBytes 2 ((s.capture ch).apply payload).entries.length
            ++ leBytes 2 (512 - s.poolWith ch depth)) := by
  simp only [captureSet, check, named, f.depth, State.freeCells, State.poolWith, depths_setCapture, apply_depth f, gt_iff_lt,
    Config.captureCells]

section
variable (q : s.asks tag 0x18 (capturePayload ch depth policy select mark) rest)
include q

/-- The dispatcher hands a CAPTURE_SET that names a channel to its owner (R185). -/
theorem captureSet_of_asks :
    completes .captureSet s (finishRequest ⟨tag, 0x18, capturePayload ch depth policy select mark⟩
      (captureSet (capturePayload ch depth policy select mark) s)) := by
  rw [capturePayload_eq] at q ⊢
  exact congrArg Host.Outcome.next (serve_of_channel q rfl rfl (fun _ => rfl) captureSet)

theorem captureSet_refuses_field
    (check : captureSetCheck (capturePayload ch depth policy select mark) = some (.badValue, index)) :
    completes .captureSet s (s.answered tag rest 0x12 (leBytes 1 index)) := by
  have served := captureSet_of_asks q
  rwa [captureSet_of_failure check, finishRequest_refuse q] at served

variable (depthFits : depth < 65536) (markFits : mark < 65536)
  (check : captureSetCheck (capturePayload ch depth policy select mark) = none)
include depthFits markFits check

theorem captureSet_refuses_pool
    (lacks : 512 < s.poolWith ch depth) :
    completes .captureSet s (s.answered tag rest 0x30 [2]) := by
  have served := captureSet_of_asks q
  rwa [captureSet_of_pass (capturePayload_fields depthFits markFits) check channelField_capturePayload, if_pos lacks,
    finishRequest_refuse q] at served

theorem captureSet_applies
    (fits : s.poolWith ch depth ≤ 512) {settled : CaptureQueue}
    (settles : (s.capture ch).apply (capturePayload ch depth policy select mark) = settled) :
    completes .captureSet s ((s.setCapture ch settled).answered tag rest 0x00
      (leBytes 2 ((s.capture ch).entries.length - settled.entries.length)
        ++ leBytes 2 settled.entries.length
        ++ leBytes 2 (512 - s.poolWith ch depth))) := by
  have served := captureSet_of_asks q
  have link : (s.setCapture ch settled).link = s.link := State.setCapture_link _ _ _
  rwa [captureSet_of_pass (capturePayload_fields depthFits markFits) check channelField_capturePayload,
    if_neg (Nat.not_lt.mpr fits), settles, finishRequest_eq link q] at served

end

/-- Settles O24: each field in index order, then the pool, and then the depth found decide the answer. -/
theorem captureSetChecksThenApplies : Obligations.CaptureSetChecksThenApplies := by
  intro s tag rest ch policy select depth mark depthFits markFits q
  have fields := capturePayload_fields (ch := ch) (policy := policy) (select := select) depthFits markFits
  have check := captureSetCheck_eq fields
  have refuses (index : Nat) := captureSet_refuses_field (index := index) q
  refine ⟨fun deep => refuses 2 ?_, fun d => ⟨fun above => refuses 3 ?_, fun p =>
    ⟨fun bad => refuses 4 ?_, fun l nonzero => ?_⟩⟩⟩
  · rw [check, if_neg (Nat.not_le.mpr deep)]
  · rw [check, if_pos d, if_neg (Nat.not_le.mpr above)]
  · have fails : ¬(select.toNat ≤ 3 ∧ (select = 0 ∨ depth ≠ 0)) := by
      rintro ⟨l, nonzero⟩
      obtain high | ⟨logs, empty⟩ := bad
      · exact Nat.not_lt.mpr l high
      · exact nonzero.elim logs (· empty)
    rw [check, if_pos d, if_pos p, if_neg fails]
  · rw [if_pos d, if_pos p, if_pos ⟨l, nonzero⟩] at check
    refine ⟨fun high => refuses 5 (by rw [check, if_neg (Nat.not_le.mpr high)]), fun m lacks => ?_,
      fun m fits => ?_⟩
    · exact captureSet_refuses_pool q depthFits markFits (check.trans (if_pos m)) lacks
    · have applies {settled : CaptureQueue} :=
        captureSet_applies (settled := settled) q depthFits markFits (check.trans (if_pos m)) fits
      refine ⟨fun other => ?_, fun same => ?_⟩
      · have emptied := applies (apply_of_other_depth fields l other)
        rwa [List.length_nil, Nat.sub_zero] at emptied
      · have kept := applies (apply_of_same_depth fields l same)
        rwa [Nat.sub_self] at kept

end Sys2Proof.Machine
end

section
/-! PROOF. Where a raised flag goes in the notice queue (R163), and what GRANT answers (R165). -/

namespace Sys2Proof.Machine

variable {s : State} {tag n : Byte} {rest : List Request} {source : Source} {flags : BitVec 8}

/-! ## Raised flags (R163) -/

/-- The notices of other sources that stand in front keep their places and their flags. -/
theorem mergeNotice_append {before : List QueuedNotice} (behind : List QueuedNotice)
    (others : ∀ n ∈ before, n.source ≠ source) :
    mergeNotice source flags (before ++ behind) = before ++ mergeNotice source flags behind := by
  induction before with
  | nil => rfl
  | cons n before ih =>
    obtain ⟨other, others⟩ := List.forall_mem_cons.mp others
    rw [List.cons_append, mergeNotice, if_neg other, ih others, List.cons_append]

/-- A queue without a notice of the source gets a new one at its tail. -/
theorem mergeNotice_of_absent {queued : List QueuedNotice} (absent : ∀ n ∈ queued, n.source ≠ source) :
    mergeNotice source flags queued = queued ++ [⟨source, flags⟩] := by
  have merged := mergeNotice_append (flags := flags) [] absent
  rwa [List.append_nil] at merged

/-- At the source's own notice the flags are added to those it has. -/
theorem mergeNotice_of_head (old : BitVec 8) (behind : List QueuedNotice) :
    mergeNotice source flags (⟨source, old⟩ :: behind) = ⟨source, old ||| flags⟩ :: behind :=
  if_pos rfl

/-- Settles O50: the merge passes over the notices of other sources, to the source's own or to the tail. -/
theorem raisingAFlagMergesOrAppends : Obligations.RaisingAFlagMergesOrAppends := by
  refine fun s source flags => ⟨rfl, mergeNotice_of_absent, fun before behind old queue others => ?_⟩
  rw [State.raise_queued, queue, mergeNotice_append _ others, mergeNotice_of_head]

/-! ## GRANT (R165) -/

/-- The state in which `n` credits have been granted. -/
def State.granted (s : State) (n : Nat) : State :=
  { s with notices := { s.notices with credits := min 16 (s.notices.credits + n) } }

/-- The check of GRANT on its field, and its two answers. -/
theorem grant_eq (s : State) (n : Byte) :
    grant [n] s
      = if 16 < n.toNat then refuse s .badValue 1
        else okay (s.granted n.toNat) (leBytes 1 (min 16 (s.notices.credits + n.toNat))) := by
  have asked : field [n] 0 1 = n.toNat := field_byte _ 0
  simp only [grant, asked, gt_iff_lt, State.granted]

/-- The dispatcher hands a GRANT to its owner (R185). -/
theorem grant_of_asks (q : s.asks tag 0x04 [n] rest) :
    completes .grant s (finishRequest ⟨tag, 0x04, [n]⟩ (grant [n] s)) :=
  congrArg Host.Outcome.next (serve_of_asks q rfl rfl (genericCheck_none rfl rfl))

theorem grant_refuses (q : s.asks tag 0x04 [n] rest) (above : 16 < n.toNat) :
    completes .grant s (s.answered tag rest 0x12 [1]) := by
  have served := grant_of_asks q
  rwa [grant_eq, if_pos above, finishRequest_refuse q] at served

theorem grant_adds (q : s.asks tag 0x04 [n] rest) (valid : n.toNat ≤ 16) :
    completes .grant s ((s.granted n.toNat).answered tag rest 0x00
      (leBytes 1 (min 16 (s.notices.credits + n.toNat)))) := by
  have served := grant_of_asks q
  have link : (s.granted n.toNat).link = s.link := rfl
  rwa [grant_eq, if_neg (Nat.not_lt.mpr valid), finishRequest_eq link q] at served

/-- Settles O53: the check on the field decides between the refusal and the credits. -/
theorem grantAddsCredits : Obligations.GrantAddsCredits :=
  fun _ _ _ _ q => ⟨grant_refuses q, grant_adds q⟩

end Sys2Proof.Machine
end

section
/-! PROOF. What DESCRIBE and STATUS answer (R189, R190), and how the job counts of STATUS add up (R94). -/

namespace Sys2Proof.Machine

variable {s : State} {tag code clear : Byte} {payload : List Byte} {rest : List Request}

/-! ## DESCRIBE (R189) -/

/-- The dispatcher hands a DESCRIBE to its owner, whose answer leaves the device alone. -/
theorem describe_reports (q : s.asks tag 0x01 [] rest) :
    completes .describe s (s.answered tag rest 0x00 describeBytes) := by
  have served : s.serve .describe anyPayload describe = finishRequest ⟨tag, 0x01, []⟩ (describe [] s) :=
    serve_of_asks q rfl rfl (genericCheck_none rfl rfl)
  exact congrArg Host.Outcome.next (served.trans (finishRequest_eq rfl q))

/-! ## STATUS (R190) -/

/-- An answer that leaves the two queues of the link alone joins the reply queue, whatever else of the link it
moves. -/
theorem finishRequest_of_intake {a : Answer} (intake : a.state.link.intake = s.link.intake)
    (q : s.asks tag code payload rest) :
    finishRequest ⟨tag, code, payload⟩ a = a.state.answered tag rest a.code.toByte a.payload := by
  simp only [finishRequest, State.answered, intake, q.intake, List.drop_one, List.tail_cons]

/-- The state after a STATUS with this clear field: with 1 the link counters are zeroed. -/
def State.cleared (s : State) (clear : Byte) : State :=
  if clear = 1 then s.setCounters .zero else s

theorem State.cleared_intake (s : State) (clear : Byte) :
    (s.cleared clear).link.intake = s.link.intake := by
  unfold State.cleared
  split <;> rfl

/-- The check of STATUS on its clear field, and its two answers. -/
theorem status_eq (s : State) (clear : Byte) :
    status [clear] s
      = if 1 < clear.toNat then refuse s .badValue 1 else okay (s.cleared clear) s.statusBytes := by
  have clearField : field [clear] 0 1 = clear.toNat := field_byte _ 0
  have asksToClear : clear.toNat = 1 ↔ clear = 1 := BitVec.toNat_inj (y := 1)
  simp only [status, clearField, asksToClear, gt_iff_lt, State.cleared, State.setCounters]

/-- The dispatcher hands a STATUS to its owner (R185). -/
theorem status_of_asks (q : s.asks tag 0x02 [clear] rest) :
    completes .status s (finishRequest ⟨tag, 0x02, [clear]⟩ (status [clear] s)) :=
  congrArg Host.Outcome.next (serve_of_asks q rfl rfl (genericCheck_none rfl rfl))

theorem status_refuses (q : s.asks tag 0x02 [clear] rest) (above : 1 < clear.toNat) :
    completes .status s (s.answered tag rest 0x12 [1]) := by
  have served := status_of_asks q
  rwa [status_eq, if_pos above, finishRequest_refuse q] at served

/-- The reply is the report of the device as STATUS found it, before the counters are zeroed. -/
theorem status_reports (q : s.asks tag 0x02 [clear] rest) (valid : clear.toNat ≤ 1) :
    completes .status s ((s.cleared clear).answered tag rest 0x00 s.statusBytes) := by
  have served := status_of_asks q
  rwa [status_eq, if_neg (Nat.not_lt.mpr valid), finishRequest_of_intake (s.cleared_intake clear) q] at served

/-! ## The bytes of the report -/

theorem leBytes_timebaseState (state : TimebaseState) :
    leBytes 1 state.toCode = [match state with | .start => 0 | .normal => 1 | .holdover => 2] := by
  cases state <;> rfl

theorem leBytes_bit (b : Bool) : leBytes 1 (bit b) = [if b = true then 1 else 0] := by
  cases b <;> rfl

/-! ## The job counts -/

/-- A count over a bank is the number of places whose member satisfies the predicate. -/
theorem countIn_eq_length_filter {α : Type} {n : Nat} (p : α → Bool) (bank : Vector α n) :
    countIn p bank = ((List.finRange n).filter (fun i => p (bank.get i))).length := by
  have members : bank.toList = (List.finRange n).map bank.get := by
    apply List.ext_getElem
    · simp
    · intro i _ _
      simp [Vector.get]
  rw [countIn, members, List.countP_map, List.countP_eq_length_filter]
  rfl

/-- The number of slots in a state, as the report counts them. -/
theorem jobsIn_eq_length_filter (s : State) (state : JobState) :
    s.jobsIn state
      = ((List.finRange 32).filter (fun slot => (s.job slot).state == state)).length :=
  countIn_eq_length_filter _ s.jobs

/-- Every job is in one of the six states. -/
theorem countP_states_add (jobs : List Job) :
    jobs.countP (·.state == .free) + jobs.countP (·.state == .idle) + jobs.countP (·.state == .armed)
      + jobs.countP (·.state == .active) + jobs.countP (·.state == .hold) + jobs.countP (·.state == .done)
      = jobs.length := by
  induction jobs with
  | nil => rfl
  | cons j jobs ih =>
    simp only [List.countP_cons, List.length_cons, ← ih]
    cases j.state <;> simp <;> omega

/-- A running job is in one of the three running states. -/
theorem countP_running (jobs : List Job) :
    jobs.countP (·.state == .armed) + jobs.countP (·.state == .active) + jobs.countP (·.state == .hold)
      = jobs.countP (·.state.running) := by
  induction jobs with
  | nil => rfl
  | cons j jobs ih =>
    simp only [List.countP_cons, ← ih]
    cases j.state <;> simp [JobState.running] <;> omega

theorem jobsIn_states_add (s : State) :
    s.jobsIn .free + s.jobsIn .idle + s.jobsIn .armed + s.jobsIn .active + s.jobsIn .hold
      + s.jobsIn .done = 32 :=
  (countP_states_add s.jobs.toList).trans Vector.length_toList

theorem jobsIn_running (s : State) :
    s.jobsIn .armed + s.jobsIn .active + s.jobsIn .hold = s.runningJobs :=
  countP_running s.jobs.toList

/-- Settles O60: the two answers of STATUS by its clear field, its counts through the six states of a job, and
R94's equation for the running ones. -/
theorem describeAndStatusReportTheDevice : Obligations.DescribeAndStatusReportTheDevice := by
  refine ⟨fun s tag rest q => describe_reports q, fun s tag clear rest q => ?_⟩
  simp only [← jobsIn_eq_length_filter]
  refine ⟨status_refuses q, fun valid => ?_, jobsIn_states_add s,
    fun law => (jobsIn_running s).trans law.1.symm⟩
  have reported := status_reports q valid
  simp only [State.statusBytes, leBytes_timebaseState, leBytes_bit, LinkCounters.bytes,
    ← List.append_assoc] at reported
  exact reported

end Sys2Proof.Machine
end

section
/-! PROOF. The CRC of a frame, bit by bit, and what RECEIVE_FRAME does with the last byte of a frame (R177, R178,
R180). -/

namespace Sys2Proof.Machine

variable {s : State} {cls tag code check1 check2 : Byte} {payload check : List Byte}

/-! ## The CRC (R178) -/

theorem crcShift_eq (crc : BitVec 16) (data : Bool) :
    crcShift crc data = if crc.msb ≠ data then (crc <<< 1) ^^^ 0x1021#16 else crc <<< 1 := by
  simp only [crcShift, bne_iff_ne, ← Bool.bne_eq_xor]

/-- One byte more takes the CRC of the bytes before it through eight shifts. -/
theorem crc16_snoc (bytes : List Byte) (b : Byte) :
    crc16 (bytes ++ [b]) =
      [7, 6, 5, 4, 3, 2, 1, 0].foldl
        (fun (c : BitVec 16) i => if c.msb ≠ b.getLsbD i then (c <<< 1) ^^^ 0x1021#16 else c <<< 1)
        (crc16 bytes) := by
  have oneMore : crc16 (bytes ++ [b]) = crcByte (crc16 bytes) b := List.foldl_append
  simp only [oneMore, crcByte, crcShift_eq]

/-- The check value of R178, over the nine characters 123456789. -/
theorem crc16_nineDigits :
    crc16 [0x31, 0x32, 0x33, 0x34, 0x35, 0x36, 0x37, 0x38, 0x39] = 0x29B1#16 := by
  simp [crc16, crcByte, crcShift, BitVec.msb_eq_getLsbD_last]

/-! ## The parts of a frame (R177) -/

/-- The bytes of a frame that its CRC covers: LEN, CLASS, TAG, CODE and the payload (R178). -/
def coveredBytes (cls tag code : Byte) (payload : List Byte) : List Byte :=
  BitVec.ofNat 8 (payload.length + 3) :: cls :: tag :: code :: payload

theorem length_coveredBytes : (coveredBytes cls tag code payload).length = payload.length + 4 := rfl

section Parts

variable (fits : payload.length ≤ 249)
include fits

/-- LEN counts what stands between it and CHECK (R177). -/
theorem lengthOf_frame : lengthOf (frameSync :: (coveredBytes cls tag code payload ++ check))
    = payload.length + 3 :=
  (BitVec.toNat_ofNat _ _).trans (Nat.mod_eq_of_lt (show payload.length + 3 < 256 by omega))

theorem frameBody_frame : frameBody (frameSync :: (coveredBytes cls tag code payload ++ check))
    = coveredBytes cls tag code payload := by
  rw [frameBody, lengthOf_frame fits, List.drop_one, List.tail_cons, List.take_left' length_coveredBytes]

theorem frameCheck_frame : frameCheck (frameSync :: (coveredBytes cls tag code payload ++ check))
    = leNat check := by
  rw [frameCheck, lengthOf_frame fits, List.drop_succ_cons, List.drop_left' length_coveredBytes]

theorem frameRequest_frame : frameRequest (frameSync :: (coveredBytes cls tag code payload ++ check))
    = ⟨tag, code, payload⟩ := by
  rw [frameRequest, frameBody_frame fits]
  rfl

/-- Behind the first byte of CHECK only the last byte of the frame is missing. -/
theorem lastIsNext_frame :
    lastIsNext (frameSync :: (coveredBytes cls tag code payload ++ [check1])) = true := by
  have length : (frameSync :: (coveredBytes cls tag code payload ++ [check1])).length
      = payload.length + 6 := by
    simp [length_coveredBytes]
  simp [lastIsNext, lengthOf_frame fits, length]

/-! ## A complete frame (R180) -/

/-- The cases of R180 in their order: CHECK, CLASS, and room in the intake queue. -/
theorem takeFrame_frame :
    s.takeFrame (frameSync :: (coveredBytes cls tag code payload ++ check)) =
      if (crc16 (coveredBytes cls tag code payload)).toNat ≠ leNat check then
        ((s.setReceiver .hunting).setCounters { s.link.counters with
          badCheck := min (s.link.counters.badCheck + 1) 65535 }).raise .device 0x02#8
      else if cls ≠ 0x01 then
        ((s.setReceiver .hunting).setCounters { s.link.counters with
          wrongClass := min (s.link.counters.wrongClass + 1) 65535 }).raise .device 0x02#8
      else if 4 ≤ s.link.intake.length then
        ((s.setReceiver .hunting).setCounters { s.link.counters with
          overrun := min (s.link.counters.overrun + 1) 65535 }).raise .device 0x04#8
      else { s.setReceiver .hunting with link := { (s.setReceiver .hunting).link with
        intake := s.link.intake ++ [⟨tag, code, payload⟩] } } := by
  rw [State.takeFrame, frameBody_frame fits, frameCheck_frame fits, frameRequest_frame fits]
  rfl

end Parts

/-- A frame whose CHECK is its CRC is the frame that a sender forms (R177). -/
theorem frameBytes_of_check
    (matching : (crc16 (coveredBytes cls tag code payload)).toNat = leNat [check1, check2]) :
    frameBytes cls tag code payload
      = frameSync :: (coveredBytes cls tag code payload ++ [check1, check2]) := by
  have checkBytes : leBytes 2 (crc16 (coveredBytes cls tag code payload)).toNat = [check1, check2] :=
    matching ▸ leBytes_leNat [check1, check2]
  exact congrArg (frameSync :: coveredBytes cls tag code payload ++ ·) checkBytes

/-! ## RECEIVE_FRAME -/

/-- The byte completed at this tick joins the frame in collection, unless a truncation is due (R179, R181). -/
theorem collecting_of_inFrame {b : Byte} {bytes : List Byte} {last : Tick}
    (initialised : s.link.initialised = true) (unbroken : s.link.breakState = .none)
    (completed : s.link.completed = some b) (receiver : s.link.receiver = .inFrame bytes last)
    (inTime : s.now ≠ tickAfter last 40001) : s.collecting b = some bytes := by
  simp [State.collecting, receiver, State.takes, Link.listens, initialised, unbroken, completed,
    truncationIsDue, inTime]

theorem receiveFrame_of_collecting {bytes : List Byte} (collecting : s.collecting check2 = some bytes)
    (last : lastIsNext bytes = true) :
    completes (.receiveFrame check2) s (s.examined.takeFrame (bytes ++ [check2])) := by
  show execReceiveFrame check2 s = _
  rw [execReceiveFrame, collecting]
  exact congrArg Host.Outcome.next (if_pos last)

/-- Settles O55: RECEIVE_FRAME hands the whole frame to the cases of R180, and the CRC is its own recurrence. -/
theorem receivedFrameReadsBack : Obligations.ReceivedFrameReadsBack := by
  refine ⟨?_, rfl, crc16_snoc, crc16_nineDigits⟩
  intro s cls tag code check1 check2 payload last fits initialised unbroken completed receiver inTime crc t c
  have taken : completes (.receiveFrame check2) s
      (s.examined.takeFrame (frameSync :: (coveredBytes cls tag code payload ++ [check1, check2]))) := by
    have received := receiveFrame_of_collecting
      (collecting_of_inFrame initialised unbroken completed receiver inTime) (lastIsNext_frame fits)
    rwa [List.append_assoc] at received
  have intake : s.examined.link.intake = s.link.intake := rfl
  rw [takeFrame_frame fits, intake] at taken
  have checkNumber : leNat [check1, check2] = check1.toNat + 256 * check2.toNat := by simp [leNat]
  have covered : crc = crc16 (coveredBytes cls tag code payload) := rfl
  rw [covered, ← checkNumber]
  refine ⟨fun differs => ?_, fun same => ⟨fun other => ?_, fun request full => ?_, fun request room => ?_⟩⟩
  · rwa [if_pos differs] at taken
  · rwa [if_neg (not_not.mpr same), if_pos other] at taken
  · rwa [if_neg (not_not.mpr same), if_neg (not_not.mpr request), if_pos full] at taken
  · rw [if_neg (not_not.mpr same), if_neg (not_not.mpr request), if_neg (Nat.not_le.mpr room)] at taken
    subst request
    exact ⟨taken, frameBytes_of_check same⟩

end Sys2Proof.Machine
end

section
/-! PROOF. All that a command can do to the device, said once: it waits, or it has the effect of its row under
the condition of its row. Every law that every command keeps is a case split over these effects. -/

namespace Sys2Proof.Machine

/-! ## Requests -/

/-- What the owner of a request can make of the device, with the checks that have passed (R184, R185): nothing,
or the effect of the request's row. -/
inductive Change (payload : List Byte) (s : State) : Instr → State → Prop
  | nothing (c : Instr) : Change payload s c s
  | zeroCounters : Change payload s .status { s with link := { s.link with counters := .zero } }
  | grant (n : Nat) : Change payload s .grant
      { s with notices := { s.notices with credits := min Config.maxCredits (s.notices.credits + n) } }
  | softReset : Change payload s .softReset (softReset payload s).state
  | chanSet (ch : Fin 8) (free : s.inUse ch = false) (steady : (s.channel ch).state ≠ .probing) :
      Change payload s .chanSet (s.setChannel ch ((s.channel ch).apply payload))
  | zeroGlitches (ch : Fin 8) :
      Change payload s .chanGet (s.setChannel ch { s.channel ch with glitches := 0 })
  | probeStart (ch : Fin 8) (dwell : Nat) (adopt : Bool) (free : s.inUse ch = false) :
      Change payload s .probeStart (s.setChannel ch ((s.channel ch).startProbe s.now dwell adopt))
  | probeCancel (ch : Fin 8) (p : ProbeRecord) (probing : (s.channel ch).state = .probing)
      (record : (s.channel ch).probe = some p) :
      Change payload s .probeCancel
        ((s.setChannel ch ((s.channel ch).cancelProbe p)).raiseChannel ch .probeDone)
  | captureSet (ch : Fin 8) (valid : captureSetCheck payload = none)
      (pool : sumIn CaptureQueue.depth s.captures - (s.capture ch).depth + field payload 1 2
        ≤ Config.captureCells) :
      Change payload s .captureSet (s.setCapture ch ((s.capture ch).apply payload))
  | captureRead (ch : Fin 8) (most : Nat) :
      Change payload s .captureRead
        (s.setCapture ch { s.capture ch with entries := (s.capture ch).entries.drop most, loss := 0 })
  | captureFlush (ch : Fin 8) :
      Change payload s .captureFlush
        (s.setCapture ch { s.capture ch with entries := [], loss := 0, gapPending := false })
  | jobDefine (slot : Fin 32) (d : Definition) (stopped : (s.job slot).state.running = false) :
      Change payload s .jobDefine (s.setJob slot ((s.job slot).define d)).evaluateAlert
  | jobStart {d : Definition} {u : State} (check : jobStartCheck payload s = .ok d)
      (acts : JobActs (slotField payload) (s.enrol (slotField payload) d) u) :
      Change payload s .jobStart u
  | jobStop {u : State} (slot : Fin 32) (acts : JobActs slot s u) (running : (u.job slot).state.running = true →
      (s.job slot).state.running = true) : Change payload s .jobStop u
  | jobClear (slot : Fin 32) (stopped : (s.job slot).state.running = false) :
      Change payload s .jobClear (s.setJob slot (s.job slot).clear).evaluateAlert
  | limitSet (slot : Fin 32) (w : Option Window) :
      Change payload s .limitSet
        (s.setJob slot { s.job slot with window := w, alert := .inside }).evaluateAlert
  | resultFetch (most : Nat) :
      Change payload s .resultFetch (s.setRecords (s.results.records.drop most))
  | resultSetup (mark : Nat) (positive : 1 ≤ mark) (most : mark ≤ Config.resultPlaces) :
      Change payload s .resultSetup { s with results := { s.results with watermark := mark } }
  | resultFlush : Change payload s .resultFlush (s.setRecords [])

variable {s t u : State} {c : Instr} {payload : List Byte}

/-- An answer makes the change of its request, and none where it refuses (R184). -/
structure Answers (payload : List Byte) (s : State) (c : Instr) (a : Answer) : Prop where
  change : Change payload s c a.state
  refusal : a.code ≠ .ok → a.code ≠ .accepted → a.state = s ∧ a.payload.length = 1

theorem answers_refuse (c : Instr) (code : ReplyCode) (detail : Nat) :
    Answers payload s c (refuse s code detail) :=
  ⟨.nothing c, fun _ _ => ⟨rfl, rfl⟩⟩

theorem answers_okay (change : Change payload s c t) (bytes : List Byte) :
    Answers payload s c (okay t bytes) :=
  ⟨change, fun notOk => absurd rfl notOk⟩

/-- A check comes first: where it fails the answer is a refusal. -/
theorem Answers.check {fails : Prop} [Decidable fails] {code : ReplyCode} {detail : Nat} {a : Answer}
    (passes : ¬fails → Answers payload s c a) :
    Answers payload s c (if fails then refuse s code detail else a) := by
  split
  · exact answers_refuse ..
  · exact passes ‹_›

theorem status_answers : Answers payload s .status (status payload s) := by
  refine .check fun _ => ?_
  split
  · exact answers_okay .zeroCounters _
  · exact answers_okay (.nothing _) _

theorem grant_answers : Answers payload s .grant (grant payload s) :=
  .check fun _ => answers_okay (.grant _) _

theorem chanSet_answers : Answers payload s .chanSet (chanSet payload s) := by
  refine .check fun steady => .check fun free => ?_
  split
  · exact answers_refuse ..
  · exact answers_okay (.chanSet _ (Bool.eq_false_iff.mpr free) steady) _

theorem chanGet_answers : Answers payload s .chanGet (chanGet payload s) := by
  refine .check fun _ => ?_
  split
  · exact answers_okay (.zeroGlitches _) _
  · exact answers_okay (.nothing _) _

/-- A PROBE START that passes its checks finds a channel that no running job references (R153). -/
theorem probeStartCheck_free (check : probeStartCheck payload s = none) :
    s.inUse (channelField payload) = false := by
  unfold probeStartCheck at check
  simp only at check
  split at check
  · cases check
  · split at check
    · cases check
    · split at check
      · cases check
      · exact Bool.eq_false_iff.mpr ‹_›

theorem probeStart_answers : Answers payload s .probeStart (probeStart payload s) := by
  unfold probeStart
  split
  · exact answers_refuse ..
  · exact ⟨.probeStart _ _ _ (probeStartCheck_free ‹_›), fun _ notAccepted => absurd rfl notAccepted⟩

theorem probeCancel_answers : Answers payload s .probeCancel (probeCancel payload s) := by
  unfold probeCancel
  simp only
  split
  · split
    · exact answers_okay (.probeCancel _ _ ‹_› ‹_›) _
    · exact answers_okay (.nothing _) _
  · exact answers_okay (.nothing _) _

theorem captureSet_answers : Answers payload s .captureSet (captureSet payload s) := by
  unfold captureSet
  split
  · exact answers_refuse ..
  · exact .check fun pool => answers_okay (.captureSet _ ‹_› (Nat.not_lt.mp pool)) _

theorem captureRead_answers : Answers payload s .captureRead (captureRead payload s) :=
  .check fun _ => answers_okay (.captureRead _ _) _

theorem jobDefine_answers : Answers payload s .jobDefine (jobDefine payload s) := by
  refine .check fun stopped => ?_
  split
  · exact answers_refuse ..
  · exact answers_okay (.jobDefine _ _ (Bool.eq_false_iff.mpr stopped)) _

/-! ### Start modes (R42 to R44): acts of the enrolled job -/

theorem startNow_acts (s : State) (slot : Fin 32) (d : Definition) :
    JobActs slot s (s.startNow slot d) :=
  .after (openMeasurement_acts ..) (write_acts _ _ _ rfl rfl rfl id)

theorem startAt_acts (s : State) (slot : Fin 32) (d : Definition) (t : Tick) :
    JobActs slot s (s.startAt slot d t) :=
  .after (setBoundary_acts ..) (write_acts _ _ _ rfl rfl rfl id)

theorem startOnEdge_acts (s : State) (slot : Fin 32) : JobActs slot s (s.startOnEdge slot) :=
  write_acts _ _ _ rfl rfl rfl id

theorem jobStart_answers : Answers payload s .jobStart (jobStart payload s) := by
  unfold jobStart
  split
  · exact answers_refuse ..
  · rename_i check
    dsimp only
    split
    · exact answers_okay (.jobStart check (startNow_acts ..)) _
    · exact answers_okay (.jobStart check (startAt_acts ..)) _
    · exact answers_okay (.jobStart check (startOnEdge_acts ..)) _

/-- A stop leaves a job that runs no more, or one that did not run as it was (R56). -/
theorem jobStop_answers : Answers payload s .jobStop (jobStop payload s) := by
  refine .check fun _ => answers_okay ?_ _
  have kept : JobActs (slotField payload) s
      (if field payload 1 1 = 1 then s.keepPartial (slotField payload) else s) := by
    split
    · exact keepPartial_acts ..
    · exact .refl
  split
  · exact .jobStop _ (.after (leaveRunning_acts ..) kept) fun _ => ‹_›
  · have stopped : (s.job (slotField payload)).state.running = false := Bool.eq_false_iff.mpr ‹_›
    rw [keepPartial_of_stopped stopped, ite_self]
    exact .nothing _

theorem jobClear_answers : Answers payload s .jobClear (jobClear payload s) :=
  .check fun stopped => answers_okay (.jobClear _ (Bool.eq_false_iff.mpr stopped)) _

theorem limitSet_answers : Answers payload s .limitSet (limitSet payload s) := by
  refine .check fun _ => ?_
  split
  · exact answers_refuse ..
  · exact answers_okay (.limitSet _ _) _

theorem resultFetch_answers : Answers payload s .resultFetch (resultFetch payload s) :=
  .check fun _ => answers_okay (.resultFetch _) _

theorem resultSetup_answers : Answers payload s .resultSetup (resultSetup payload s) := by
  refine .check fun valid => answers_okay (.resultSetup _ ?_ ?_) _ <;>
    simp only [Bool.or_eq_true, decide_eq_true_eq, not_or] at valid <;> omega

/-! ## Every command -/

/-- What a command can do to the device: wait, or the effect of its row under the row's condition. -/
inductive Effect (s : State) : Instr → State → Prop
  | wait (c : Instr) : Effect s c s
  | powerReset (rate1 rate0 : Bool) : Effect s (.powerReset rate1 rate0)
      { State.reset with
        channels := mapBank (fun (c : Channel) => Channel.reset c.input) s.channels
        link := .reset (strapRate rate1 rate0) s.link.rxd
        pending := s.pending }
  | initEnd (due : initEndIsDue s = true) :
      Effect s .initEnd { s with link := s.link.endInit s.now }
  | refclkEdge (seen : s.timebase.lossTaken = false) :
      Effect s .refclkEdge { s with timebase := s.timebase.onEdge }
  | refLoss (due : s.timebase.lossDue = true) : Effect s .refLoss s.declareLoss
  | regain (due : regainIsDue s = true) : Effect s .regain s.becomeNormal
  | revert (ch : Fin 8) (due : (s.channel ch).revertIsDue = true) :
      Effect s (.revert ch) (s.setChannel ch { s.channel ch with
        pending := none, glitches := saturate (s.channel ch).glitches 1 })
  | edgeAccepted (ch : Fin 8) (due : (s.channel ch).acceptIsDue s.now = true) :
      Effect s (.edgeAccepted ch) (s.setChannel ch ((s.channel ch).accept ch))
  | edgeArrival (ch : Fin 8) (due : (s.channel ch).arrivalIsDue s.now = true) :
      Effect s (.edgeArrival ch) (s.arrive ch)
  | edgeSeen (slot : Fin 32) (due : (s.job slot).seenIsDue s.now = true) :
      Effect s (.edgeSeen slot) (s.see slot)
  | deadlineExpiry : Effect s .deadlineExpiry s.expire
  | probeStep (ch : Fin 8) (due : (s.channel ch).probeStepIsDue s.now = true) :
      Effect s (.probeStep ch) (s.decideStep ch)
  | strayByte (b : Byte) : Effect s (.strayByte b) (s.examined.setCounters { s.link.counters with
      stray := saturate s.link.counters.stray 1 })
  | sync : Effect s .sync (s.examined.setReceiver (.inFrame [frameSync] s.now))
  | frameByte (b : Byte) (bytes : List Byte) :
      Effect s (.frameByte b) (s.examined.setReceiver (.inFrame (bytes ++ [b]) s.now))
  | badLength (b : Byte) : Effect s (.badLength b)
      ((s.examined.setReceiver .hunting).setCounters { s.link.counters with
        badLength := saturate s.link.counters.badLength 1 })
  | receiveFrame (b : Byte) (bytes : List Byte) (listens : s.link.listens = true) :
      Effect s (.receiveFrame b) (s.examined.takeFrame (bytes ++ [b]))
  | truncation : Effect s .truncation ((s.setReceiver .hunting).setCounters { s.link.counters with
      truncated := saturate s.link.counters.truncated 1 })
  | breakDetected : Effect s .breakDetected { s with link := { s.link with breakState := .inBreak } }
  | linkReset : Effect s .linkReset ({ s with link := s.link.cut }).resetNotices
  | replyBegin (free : transmitterFree s = true) : Effect s .replyBegin s.beginReply
  | replySent (reply : s.link.transmitter.sendsReply = true) :
      Effect s .replySent { s with link := { s.link with transmitter := .idle } }
  | noticeBegin (free : transmitterFree s = true) : Effect s .noticeBegin s.beginNotice
  | noticeSent : Effect s .noticeSent { s with
      notices := { s.notices with inFlight := none, sequence := s.notices.sequence + 1 }
      link := { s.link with transmitter := .idle } }
  | tick (rxd : Level) (rest : workIsDue s = false) : Effect s (.tick rxd) (s.onTick rxd)
  | comparatorOutput (ch : Fin 8) (level : Nat) : Effect s (.comparatorOutput ch level)
      (s.setChannel ch ((s.channel ch).moveInput level))
  | answer (c : Instr) {tag code : Byte} {rest : List Request} {payload : List Byte} {a : Answer}
      (asks : s.asks tag code payload rest) (answers : Answers payload s c a) :
      Effect s c (finishRequest ⟨tag, code, payload⟩ a)

/-- An event command has its effect or waits. -/
theorem Effect.ite {due : Prop} [Decidable due] (acts : due → Effect s c t) :
    Effect s c (if due then t else s) := by
  split
  · exact acts ‹_›
  · exact .wait c

/-- A request that the dispatcher takes is answered, by the generic checks or by its owner (R185). -/
theorem Effect.serve {rc : RequestCode} {mine : List Byte → Bool} {handler : List Byte → State → Answer}
    (answers : ∀ payload, Answers payload s c (handler payload s)) :
    Effect s c (s.serve rc mine handler) := by
  obtain idle | ⟨tag, code, payload, rest, asks, -, -, ⟨r, d, -, refused⟩ | ⟨-, handled⟩⟩ :=
    serve_cases (s := s) rc mine handler
  · rw [idle]; exact .wait c
  · rw [refused, ← finishRequest_refuse asks]; exact .answer c asks (answers_refuse ..)
  · rw [handled]; exact .answer c asks (answers payload)

/-- A byte examined in a frame has its effect or waits (R179). -/
theorem Effect.collecting {act : List Byte → State} (b : Byte)
    (acts : ∀ bytes, s.link.listens = true → Effect s c (act bytes)) :
    Effect s c (match s.collecting b with | some bytes => act bytes | none => s) := by
  cases collecting : s.collecting b with
  | none => exact .wait c
  | some bytes =>
    refine acts bytes ?_
    unfold State.collecting at collecting
    split at collecting
    · split at collecting
      · simp_all [State.takes]
      · cases collecting
    · cases collecting

theorem unknownRequest_effect (h : completes .unknownRequest s t) : Effect s .unknownRequest t := by
  cases h
  split
  · rename_i q due
    obtain ⟨rest, asks⟩ := asks_of_dueRequest due
    exact .ite fun _ => .answer _ asks (answers_refuse ..)
  · exact .wait _

theorem Effect.of_next (h : (.next u : Out) = .next t) (effect : Effect s c u) : Effect s c t := by
  cases h
  exact effect

/-- Every command waits or has the effect of its row. -/
theorem effect_of_completes (h : completes c s t) : Effect s c t := by
  cases c with
  | powerReset rate1 rate0 => exact .of_next h (.powerReset ..)
  | initEnd => exact .of_next h (.ite .initEnd)
  | refclkEdge =>
    cases h
    split
    · exact .wait _
    · exact .refclkEdge (Bool.eq_false_iff.mpr ‹_›)
  | refLoss => exact .of_next h (.ite .refLoss)
  | regain => exact .of_next h (.ite .regain)
  | revert ch => exact .of_next h (.ite (.revert ch))
  | edgeAccepted ch => exact .of_next h (.ite (.edgeAccepted ch))
  | edgeArrival ch => exact .of_next h (.ite (.edgeArrival ch))
  | edgeSeen slot => exact .of_next h (.ite fun due => .edgeSeen slot (Bool.and_eq_true _ _ ▸ due).1)
  | deadlineExpiry => exact .of_next h (.ite fun _ => .deadlineExpiry)
  | probeStep ch => exact .of_next h (.ite (.probeStep ch))
  | strayByte b => exact .of_next h (.ite fun _ => .strayByte b)
  | sync => exact .of_next h (.ite fun _ => .sync)
  | frameByte b => exact .of_next h (.collecting b fun _ _ => .ite fun _ => .frameByte b _)
  | badLength b => exact .of_next h (.collecting b fun _ _ => .ite fun _ => .badLength b)
  | receiveFrame b =>
    exact .of_next h (.collecting b fun _ listens => .ite fun _ => .receiveFrame b _ listens)
  | truncation => exact .of_next h (.ite fun _ => .truncation)
  | breakDetected => exact .of_next h (.ite fun _ => .breakDetected)
  | linkReset => exact .of_next h (.ite fun _ => .linkReset)
  | replyBegin =>
    exact .of_next h (.ite fun due => .replyBegin (Bool.and_eq_true _ _ ▸ due).1)
  | replySent => exact .of_next h (.ite fun due => .replySent (Bool.and_eq_true _ _ ▸ due).2)
  | noticeBegin =>
    refine .of_next h (.ite fun due => .noticeBegin ?_)
    simp only [noticeBeginIsDue, Bool.and_eq_true] at due
    exact due.1.1.1
  | noticeSent => exact .of_next h (.ite fun _ => .noticeSent)
  | tick rxd =>
    cases h
    split
    · exact .wait _
    · exact .tick rxd (Bool.eq_false_iff.mpr ‹_›)
  | comparatorOutput ch level => exact .of_next h (.comparatorOutput ch level)
  | unknownRequest => exact unknownRequest_effect h
  | describe | jobGet => exact .of_next h (.serve fun _ => answers_okay (.nothing _) _)
  | time =>
    cases h
    split
    · exact .wait _
    · exact .serve fun _ => answers_okay (.nothing _) _
  | status => exact .of_next h (.serve fun _ => status_answers)
  | grant => exact .of_next h (.serve fun _ => grant_answers)
  | softReset => exact .of_next h (.serve fun _ => answers_okay .softReset _)
  | chanSet => exact .of_next h (.serve fun _ => chanSet_answers)
  | chanGet => exact .of_next h (.serve fun _ => chanGet_answers)
  | probeStart => exact .of_next h (.serve fun _ => probeStart_answers)
  | probeCancel => exact .of_next h (.serve fun _ => probeCancel_answers)
  | captureSet => exact .of_next h (.serve fun _ => captureSet_answers)
  | captureRead => exact .of_next h (.serve fun _ => captureRead_answers)
  | captureFlush => exact .of_next h (.serve fun _ => answers_okay (.captureFlush _) _)
  | jobDefine => exact .of_next h (.serve fun _ => jobDefine_answers)
  | jobStart => exact .of_next h (.serve fun _ => jobStart_answers)
  | jobStop =>
    cases h
    split
    · exact .wait _
    · exact .serve fun _ => jobStop_answers
  | jobClear => exact .of_next h (.serve fun _ => jobClear_answers)
  | limitSet => exact .of_next h (.serve fun _ => limitSet_answers)
  | resultFetch => exact .of_next h (.serve fun _ => resultFetch_answers)
  | resultSetup => exact .of_next h (.serve fun _ => resultSetup_answers)
  | resultFlush => exact .of_next h (.serve fun _ => answers_okay .resultFlush _)

end Sys2Proof.Machine
end

section
/-! PROOF. The frames of the effects: what an act on several blocks leaves alone. From them, which commands move
the queue of commands (none) and the tick counter (R1). -/

namespace Sys2Proof.Machine

variable {s t u : State} {c : Instr} {payload : List Byte}

/-! ## Acts on several blocks -/

/-- The capture pool changes its queues and raises flags (R137 to R142). -/
theorem logEdge_frame (s : State) (e : AcceptedEdge) :
    s.logEdge e = { s with
      captures := (s.logEdge e).captures
      notices := { s.notices with queued := (s.logEdge e).notices.queued } } := by
  unfold State.logEdge
  dsimp only
  split
  · rfl
  · split
    · split <;> rfl
    · split <;> rfl

/-- An arrival changes the channel, the capture pool, the held edges and the flags (R20). -/
theorem arrive_frame (s : State) (ch : Fin 8) :
    s.arrive ch = { s with
      channels := (s.arrive ch).channels
      captures := (s.arrive ch).captures
      jobs := (s.arrive ch).jobs
      notices := { s.notices with queued := (s.arrive ch).notices.queued } } := by
  unfold State.arrive
  dsimp only
  split
  · rfl
  · rename_i e rest _
    have logged := logEdge_frame (s.setChannel ch { s.channel ch with inTransit := rest }) e
    rw [State.holdEdge, logged]
    rfl

/-- A decided probe step changes the channel, and the tenth raises a flag (R156, R157). -/
theorem decideStep_frame (s : State) (ch : Fin 8) :
    s.decideStep ch = { s with
      channels := (s.decideStep ch).channels
      notices := { s.notices with queued := (s.decideStep ch).notices.queued } } := by
  unfold State.decideStep
  dsimp only
  split
  · rfl
  · split <;> rfl

/-- A complete frame changes the receiver, the link counters, the intake queue and the flags (R180). -/
theorem takeFrame_spares (s : State) (frame : List Byte) :
    s.takeFrame frame = { s with
      link := { s.link with
        receiver := .hunting
        counters := (s.takeFrame frame).link.counters
        intake := (s.takeFrame frame).link.intake }
      notices := { s.notices with queued := (s.takeFrame frame).notices.queued } } := by
  unfold State.takeFrame
  dsimp only
  split
  · rfl
  · split
    · rfl
    · split <;> rfl

theorem beginReply_frame (s : State) :
    s.beginReply = { s with link := { s.link with
      replies := s.beginReply.link.replies
      transmitter := s.beginReply.link.transmitter } } := by
  unfold State.beginReply
  split <;> rfl

/-- A notice that begins leaves every block but the notice queue, the refused count and the transmitter (R166,
R115). -/
theorem beginNotice_frame (s : State) :
    s.beginNotice = { s with
      notices := s.beginNotice.notices
      results := { s.results with refused := s.beginNotice.results.refused }
      link := { s.link with transmitter := s.beginNotice.link.transmitter } } := by
  unfold State.beginNotice
  split <;> rfl

/-- A link reset leaves every block but the notice queue and the refused count, and of the link all that R188
leaves (R170, R171). -/
theorem resetNotices_frame (s : State) :
    s.resetNotices = { s with
      notices := s.resetNotices.notices
      results := { s.results with refused := s.resetNotices.results.refused } } := by
  unfold State.resetNotices State.cutOffNotice
  dsimp only
  split <;> rfl

/-- A declared loss changes the timebase and the flags (R6, R7). -/
theorem declareLoss_frame (s : State) :
    s.declareLoss = { s with
      timebase := s.declareLoss.timebase
      notices := { s.notices with queued := s.declareLoss.notices.queued } } := by
  unfold State.declareLoss
  dsimp only
  split <;> rfl

/-- The expiry of the head entry is an act of its job on the list without the entry (R100). -/
theorem expire_cases (s : State) :
    s.expire = s ∨ ∃ e rest, s.deadlines.entries = e :: rest
      ∧ JobActs e.slot { s with deadlines := { s.deadlines with entries := rest } } s.expire := by
  unfold State.expire
  split
  · exact .inl rfl
  · exact .inr ⟨_, _, ‹_›, takeBoundary_acts ..⟩

/-- What an act of a job on the list without its head entry keeps, the expiry keeps. -/
theorem expire_keeps_frame {α : Type} (f : State → α)
    (acts : ∀ {slot : Fin 32} {s t : State}, JobActs slot s t → f t = f s)
    (list : ∀ (s : State) (l : DeadlineList), f { s with deadlines := l } = f s) :
    f s.expire = f s := by
  obtain same | ⟨e, rest, -, act⟩ := expire_cases s
  · rw [same]
  · rw [acts act, list]

/-! ### What a start takes (R41) -/

@[simp] theorem enrol_timebase (s : State) (slot : Fin 32) (d : Definition) :
    (s.enrol slot d).timebase = s.timebase := rfl
@[simp] theorem enrol_channels (s : State) (slot : Fin 32) (d : Definition) :
    (s.enrol slot d).channels = s.channels := rfl
@[simp] theorem enrol_captures (s : State) (slot : Fin 32) (d : Definition) :
    (s.enrol slot d).captures = s.captures := rfl
@[simp] theorem enrol_results (s : State) (slot : Fin 32) (d : Definition) :
    (s.enrol slot d).results = s.results := rfl
@[simp] theorem enrol_notices (s : State) (slot : Fin 32) (d : Definition) :
    (s.enrol slot d).notices = s.notices := rfl
@[simp] theorem enrol_link (s : State) (slot : Fin 32) (d : Definition) :
    (s.enrol slot d).link = s.link := rfl
@[simp] theorem enrol_pending (s : State) (slot : Fin 32) (d : Definition) :
    (s.enrol slot d).pending = s.pending := rfl

/-! ## The queue of commands -/

theorem Change.pending (h : Change payload s c t) : t.pending = s.pending := by
  cases h with
  | jobStart _ acts => rw [acts.pending, enrol_pending]
  | jobStop slot acts => exact acts.pending
  | _ => rfl

/-- No command touches the queue of commands. -/
theorem Effect.pending (h : Effect s c t) : t.pending = s.pending := by
  cases h with
  | refLoss => rw [declareLoss_frame]
  | edgeArrival => rw [arrive_frame]
  | edgeSeen => exact (see_acts ..).pending
  | deadlineExpiry => exact expire_keeps_frame State.pending JobActs.pending fun _ _ => rfl
  | probeStep => rw [decideStep_frame]
  | receiveFrame => rw [takeFrame_spares]; rfl
  | linkReset => rw [resetNotices_frame]
  | replyBegin => rw [beginReply_frame]
  | noticeBegin => rw [beginNotice_frame]
  | answer _ _ answers => exact answers.change.pending
  | _ => rfl

/-- Settles O2: each meaning answers a next state, and its effect leaves the queue of commands. -/
theorem everyCommandCompletes : Obligations.EveryCommandCompletes := by
  intro c s
  have next : ∃ t, completes c s t := by cases c <;> exact ⟨_, rfl⟩
  obtain ⟨t, h⟩ := next
  exact ⟨t, h, (effect_of_completes h).pending⟩

/-- Settles O1: both cases are the step's own. -/
theorem stepRunsFrontCommand : Obligations.StepRunsFrontCommand := by
  intro s
  constructor
  · intro c rest waiting
    simp only [step, waiting]
  · intro idle
    simp only [step, idle]

/-- A step waits on an empty queue, or has an effect of the command at the front on the state with the queue's
rest. -/
theorem step_cases (h : step s = .next t) :
    t = s ∨ ∃ c rest, Effect { s with pending := rest } c t := by
  unfold step at h
  split at h
  · cases h
    exact .inl rfl
  · exact .inr ⟨_, _, effect_of_completes h⟩

/-! ## The tick counter (R1) -/

theorem declareLoss_tick (s : State) : s.declareLoss.timebase.tick = s.timebase.tick := by
  unfold State.declareLoss
  dsimp only
  split <;> rfl

/-- Settles O6: of the five commands that move the timebase, a tick and the reset move the counter. -/
theorem onlyTickAndPowerResetMoveTheCounter : Obligations.OnlyTickAndPowerResetMoveTheCounter := by
  intro c s t h
  have effect := effect_of_completes h
  cases c with
  | powerReset rate1 rate0 => cases h; exact .inr (.inr ⟨rate1, rate0, rfl, rfl⟩)
  | tick rxd =>
    cases effect with
    | wait => exact .inl rfl
    | answer _ _ answers => cases answers.change; exact .inl rfl
    | tick _ rest =>
      cases counted : s.timebase.lastAbnormal with
      | none => left; simp [State.now, State.onTick, Timebase.onTick, Timebase.nextTick, counted]
      | some last =>
        refine .inr (.inl ⟨rxd, rfl, rest, rfl, ?_⟩)
        simp [State.now, State.onTick, Timebase.onTick, Timebase.nextTick, counted]
  | refclkEdge => cases h; left; split <;> rfl
  | refLoss => cases h; left; split; exacts [declareLoss_tick s, rfl]
  | regain => cases h; left; split <;> rfl
  | _ => exact .inl (congrArg Timebase.tick (exec_timebase rfl h))

end Sys2Proof.Machine
end

section
/-! PROOF. The law of the timebase (R5, R8, R9, R10): of the five commands that move the timebase each keeps it. -/

namespace Sys2Proof.Machine

variable {s t : State} {c : Instr} {tb : Timebase}

/-! ## Distances between neighbouring ticks -/

theorem distance_self (t : Tick) : distance t t = 0 := by simp [distance]

/-- From a tick to the one after a later tick is one more, as long as the counter does not come round (R3). -/
theorem distance_succ {a b : Tick} (far : distance a b + 1 < 2 ^ 48) :
    distance a (b + 1) = distance a b + 1 := by
  have shift : b + 1 - a = b - a + 1 := by bv_omega
  unfold distance at far ⊢
  rw [shift, BitVec.toNat_add]
  exact Nat.mod_eq_of_lt far

theorem distance_tickBefore_one (t : Tick) : distance (tickBefore t 1) t = 1 := by
  have back : t - (t - 1#48) = 1#48 := by bv_omega
  unfold distance tickBefore
  rw [back]
  rfl

/-! ## The commands of the timebase -/

theorem reset_lawful : Timebase.reset.lawful := by
  simp [Timebase.lawful, Timebase.reset]

/-- The tick that a lawful timebase counts in NORMAL is the next one. -/
theorem nextTick_of_some {a : Tick} (last : tb.lastAbnormal = some a) : tb.nextTick = tb.tick + 1 := by
  simp [Timebase.nextTick, last]

/-- A tick in START or HOLDOVER is abnormal, and one in NORMAL makes the last abnormal tick one tick older (R9). -/
theorem onTick_lawful (law : tb.lawful) : tb.onTick.lawful := by
  obtain ⟨-, age, entries, regain, -, -, unticked, -, normal⟩ := law
  cases state : tb.state with
  | start | holdover =>
    refine ⟨Nat.min_le_right _ _, ?_, entries, ?_, ?_, ?_, ?_, ?_, ?_⟩ <;>
      simp [Timebase.onTick, state]
    omega
  | normal =>
    have counted : tb.lastAbnormal ≠ none := fun none => by simp [state] at unticked; exact unticked none
    refine ⟨Nat.min_le_right _ _, ?_, entries, ?_, ?_, ?_, ?_, ?_, ?_⟩ <;>
      simp [Timebase.onTick, state]
    · intro n present
      exact absurd state (regain n present).2
    · omega
    · exact counted
    · intro a last
      obtain ⟨positive, back⟩ := normal state a last
      intro young
      have young : tb.abnormalAge + 1 < 2 ^ 47 := by omega
      have older := back (by omega)
      rw [nextTick_of_some last, distance_succ (by omega), older]
      omega

theorem onEdge_lawful (law : tb.lawful) (seen : tb.lossTaken = false) : tb.onEdge.lawful := by
  obtain ⟨-, age, entries, regain, -, -, unticked, abnormal, normal⟩ := law
  refine ⟨Nat.zero_le _, age, entries, ?_, by simp [Timebase.onEdge], by simp [Timebase.onEdge, seen], unticked,
    abnormal, normal⟩
  intro n present
  simp only [Timebase.onEdge] at present ⊢
  split at present
  · rename_i begins
    cases present
    exact ⟨Nat.zero_le _, by simp_all⟩
  · exact regain n present

theorem declareLoss_lawful (law : s.timebase.lawful) (due : s.timebase.lossDue = true) :
    s.declareLoss.timebase.lawful := by
  obtain ⟨since, age, entries, -, reached, -, unticked, abnormal, normal⟩ := law
  have reached := reached due
  cases state : s.timebase.state with
  | normal =>
    simp [State.declareLoss, state, Timebase.lawful, reached, saturate_le]
  | start | holdover =>
    simp only [state] at unticked abnormal
    simp [State.declareLoss, state, Timebase.lawful, reached, entries]
    simp_all

/-- At the regain the tick before is the last abnormal one (R8). -/
theorem becomeNormal_lawful (law : s.timebase.lawful) : s.becomeNormal.timebase.lawful := by
  obtain ⟨since, -, entries, -, reached, taken, -, -, -⟩ := law
  refine ⟨since, by simp [State.becomeNormal], entries, by simp [State.becomeNormal], reached, ?_,
    by simp [State.becomeNormal], by simp [State.becomeNormal], ?_⟩
  · intro lossTaken
    obtain ⟨full, notDue, -⟩ := taken lossTaken
    exact ⟨full, notDue, rfl⟩
  · intro _ a last
    cases last
    exact ⟨le_refl _, fun _ => distance_tickBefore_one _⟩

/-- Every command keeps the law of the timebase. -/
theorem exec_lawful (h : completes c s t) (law : s.timebase.lawful) : t.timebase.lawful := by
  cases c with
  | powerReset => cases h; exact reset_lawful
  | tick rxd => cases h; split; exacts [law, onTick_lawful law]
  | refclkEdge => cases h; split; exacts [law, onEdge_lawful law (Bool.eq_false_iff.mpr ‹_›)]
  | refLoss => cases h; split; exacts [declareLoss_lawful law ‹_›, law]
  | regain => cases h; split; exacts [becomeNormal_lawful law, law]
  | _ => rw [exec_timebase rfl h]; exact law

/-- Settles O8: a step is its front command, run on the state with the queue's rest, and every command keeps the
law. -/
theorem everyStepKeepsTheTimebaseLaw : Obligations.EveryStepKeepsTheTimebaseLaw := by
  intro s t law h
  unfold step at h
  split at h
  · cases h
    exact law
  · exact exec_lawful (s := { s with pending := _ }) h law

end Sys2Proof.Machine
end

section
/-! PROOF. The two laws of the notices: one queued notice per source (R163), and a notice in flight exactly while
its frame is sent (R166, R168, R170, R176). -/

namespace Sys2Proof.Machine

variable {s t : State} {c : Instr} {payload : List Byte}

/-! ## One notice per source (R163) -/

/-- A returned notice takes the place of its source's queued one (R170). -/
theorem returnNotice_nodup {source : Source} {flags : BitVec 8} {queued : List QueuedNotice}
    (h : (queued.map QueuedNotice.source).Nodup) :
    ((returnNotice source flags queued).map QueuedNotice.source).Nodup := by
  refine List.nodup_cons.mpr ⟨?_, h.sublist (List.filter_sublist.map _)⟩
  simp only [List.mem_map, List.mem_filter, not_exists, not_and]
  rintro n ⟨-, other⟩ rfl
  simp at other

theorem cutOffNotice_noticeSources (h : s.noticeSources) : s.cutOffNotice.noticeSources := by
  unfold State.cutOffNotice
  split
  · exact h
  · exact returnNotice_nodup h

theorem logEdge_noticeSources (e : AcceptedEdge) (h : s.noticeSources) :
    (s.logEdge e).noticeSources := by
  unfold State.logEdge
  dsimp only
  split
  · exact h
  · split
    · split
      · exact raise_noticeSources _ _ h
      · exact h
    · split <;> exact raise_noticeSources _ _ h

theorem arrive_noticeSources (ch : Fin 8) (h : s.noticeSources) : (s.arrive ch).noticeSources := by
  unfold State.arrive
  dsimp only
  split
  · exact h
  · exact logEdge_noticeSources (s := s.setChannel ch _) _ h

theorem takeFrame_noticeSources (frame : List Byte) (h : s.noticeSources) :
    (s.takeFrame frame).noticeSources := by
  unfold State.takeFrame
  dsimp only
  split
  · exact raise_noticeSources _ _ h
  · split
    · exact raise_noticeSources _ _ h
    · split
      · exact raise_noticeSources _ _ h
      · exact h

theorem declareLoss_noticeSources (h : s.noticeSources) : s.declareLoss.noticeSources := by
  unfold State.declareLoss
  dsimp only
  split
  · exact raise_noticeSources _ _ h
  · exact h
  · exact h

theorem decideStep_noticeSources (ch : Fin 8) (h : s.noticeSources) :
    (s.decideStep ch).noticeSources := by
  unfold State.decideStep
  dsimp only
  split
  · exact h
  · split
    · exact raise_noticeSources _ _ h
    · exact h

theorem expire_noticeSources (h : s.noticeSources) : s.expire.noticeSources := by
  obtain same | ⟨e, rest, -, acts⟩ := expire_cases s
  · rwa [same]
  · exact acts.noticeSources h

theorem beginNotice_noticeSources (h : s.noticeSources) : s.beginNotice.noticeSources := by
  unfold State.beginNotice
  split
  · exact h
  · rename_i n rest queued
    rw [State.noticeSources, queued] at h
    exact (List.nodup_cons.mp h).2

theorem Change.noticeSources (h : Change payload s c t) (law : s.noticeSources) : t.noticeSources := by
  cases h with
  | softReset => exact raise_noticeSources _ _ List.nodup_nil
  | probeCancel => exact raise_noticeSources _ _ law
  | jobStart _ acts => exact acts.noticeSources law
  | jobStop slot acts => exact acts.noticeSources law
  | _ => exact law

theorem Effect.noticeSources (h : Effect s c t) (law : s.noticeSources) : t.noticeSources := by
  cases h with
  | powerReset => exact List.nodup_singleton _
  | refLoss => exact declareLoss_noticeSources law
  | regain => exact raise_noticeSources _ _ law
  | edgeArrival ch => exact arrive_noticeSources ch law
  | edgeSeen slot => exact (see_acts ..).noticeSources law
  | deadlineExpiry => exact expire_noticeSources law
  | probeStep ch => exact decideStep_noticeSources ch law
  | receiveFrame => exact takeFrame_noticeSources (s := s.examined) _ law
  | linkReset =>
    exact raise_noticeSources _ _ (cutOffNotice_noticeSources (s := { s with link := s.link.cut }) law)
  | replyBegin => rw [beginReply_frame]; exact law
  | noticeBegin => exact beginNotice_noticeSources law
  | answer _ _ answers => exact answers.change.noticeSources law
  | _ => exact law

/-! ## A notice in flight and its frame (R166, R168, R170, R176) -/

/-- What a request does leaves the notice in flight, the transmitter and the two queues of the link. -/
theorem Change.transmission (h : Change payload s c t) :
    t.notices.inFlight = s.notices.inFlight ∧ t.link = { s.link with counters := t.link.counters } := by
  cases h with
  | jobStart _ acts => exact ⟨acts.inFlight, by rw [acts.link, enrol_link]⟩
  | jobStop slot acts => exact ⟨acts.inFlight, by rw [acts.link]⟩
  | _ => exact ⟨rfl, rfl⟩

/-- The law speaks of the notice in flight and the link alone. -/
theorem State.transmissionLaw.of_same (law : s.transmissionLaw)
    (inFlight : t.notices.inFlight = s.notices.inFlight) (link : t.link = s.link) : t.transmissionLaw := by
  rwa [State.transmissionLaw, inFlight, link]

/-- Initialised, the law is the equivalence alone. -/
theorem transmissionLaw_of_initialised (initialised : s.link.initialised = true)
    (sent : s.notices.inFlight.isSome = true ↔ s.link.transmitter.sendsNotice = true) : s.transmissionLaw :=
  ⟨sent, fun running => by rw [initialised] at running; cases running⟩

theorem transmitterFree_iff :
    transmitterFree s = true
      ↔ s.link.initialised = true ∧ s.link.transmitter = .idle ∧ s.link.resetDue = false := by
  simp [transmitterFree, and_assoc]

/-- Where the transmitter sends no notice, none is in flight. -/
theorem State.transmissionLaw.inFlight_none (law : s.transmissionLaw)
    (silent : s.link.transmitter.sendsNotice = false) : s.notices.inFlight.isSome = false := by
  rw [Bool.eq_false_iff, ne_eq, law.1, silent]
  simp

theorem resetNotices_inFlight (s : State) : s.resetNotices.notices.inFlight = none := by
  have cut : s.cutOffNotice.notices.inFlight = none := by
    unfold State.cutOffNotice
    split <;> simp_all
  exact cut

theorem beginReply_transmissionLaw (free : transmitterFree s = true) (law : s.transmissionLaw) :
    s.beginReply.transmissionLaw := by
  obtain ⟨initialised, idle, -⟩ := transmitterFree_iff.mp free
  unfold State.beginReply
  split
  · exact law
  · exact transmissionLaw_of_initialised initialised
      (by simp [Transmitter.sendsNotice, law.inFlight_none (by rw [idle]; rfl)])

theorem beginNotice_transmissionLaw (free : transmitterFree s = true) (law : s.transmissionLaw) :
    s.beginNotice.transmissionLaw := by
  unfold State.beginNotice
  split
  · exact law
  · exact transmissionLaw_of_initialised (transmitterFree_iff.mp free).1 (by simp [Transmitter.sendsNotice])

theorem Effect.transmissionLaw (h : Effect s c t) (law : s.transmissionLaw) : t.transmissionLaw := by
  cases h with
  | powerReset => exact ⟨by simp [State.reset, NoticeQueue.reset, Link.reset, Transmitter.sendsNotice],
      fun _ => ⟨rfl, rfl, rfl⟩⟩
  | initEnd due =>
    have running : s.link.initialised = false := by simp [initEndIsDue] at due; exact due.1
    have none := law.inFlight_none (by rw [(law.2 running).1]; rfl)
    exact transmissionLaw_of_initialised rfl
      (by simp [Link.endInit, Link.reset, Transmitter.sendsNotice, none])
  | refLoss => exact law.of_same (by rw [declareLoss_frame]) (by rw [declareLoss_frame])
  | edgeArrival => exact law.of_same (by rw [arrive_frame]) (by rw [arrive_frame])
  | edgeSeen => exact law.of_same (see_acts ..).inFlight (see_acts ..).link
  | deadlineExpiry =>
    exact law.of_same
      (expire_keeps_frame (fun s => s.notices.inFlight) JobActs.inFlight fun _ _ => rfl)
      (expire_keeps_frame State.link JobActs.link fun _ _ => rfl)
  | probeStep => exact law.of_same (by rw [decideStep_frame]) (by rw [decideStep_frame])
  | receiveFrame b bytes listens =>
    have initialised : s.link.initialised = true := by simp [Link.listens] at listens; exact listens.1
    rw [takeFrame_spares]
    exact transmissionLaw_of_initialised initialised law.1
  | linkReset =>
    have link : ({ s with link := s.link.cut }).resetNotices.link = s.link.cut := by
      rw [resetNotices_frame]
    rw [State.transmissionLaw, link, resetNotices_inFlight]
    exact ⟨by simp [Link.cut, Transmitter.sendsNotice], fun _ => ⟨rfl, rfl, rfl⟩⟩
  | replyBegin free => exact beginReply_transmissionLaw free law
  | replySent reply =>
    have silent : s.link.transmitter.sendsNotice = false := by
      cases sending : s.link.transmitter <;> simp_all [Transmitter.sendsReply, Transmitter.sendsNotice]
    refine ⟨by simp [Transmitter.sendsNotice, law.inFlight_none silent], fun running => ?_⟩
    exact ⟨rfl, (law.2 running).2⟩
  | noticeBegin free => exact beginNotice_transmissionLaw free law
  | noticeSent =>
    exact ⟨by simp [Transmitter.sendsNotice], fun running => ⟨rfl, (law.2 running).2⟩⟩
  | answer _ asks answers =>
    obtain ⟨inFlight, link⟩ := answers.change.transmission
    refine transmissionLaw_of_initialised ?_ ?_
    · exact (congrArg Link.initialised link).trans asks.1
    · have transmitter := congrArg Link.transmitter link
      simp only [finishRequest, inFlight, transmitter]
      exact law.1
  | _ => exact law

/-- Settles O51: the effect of the front command keeps both laws. -/
theorem everyStepKeepsTheNoticeLaws : Obligations.EveryStepKeepsTheNoticeLaws := by
  intro s t h
  obtain rfl | ⟨c, rest, effect⟩ := step_cases h
  · exact ⟨id, id⟩
  · exact ⟨effect.noticeSources, effect.transmissionLaw⟩

end Sys2Proof.Machine
end

section
/-! PROOF. The order of the deadline entries (R96): a tick brings every entry one nearer, for the head entry has
not fallen due; and the acts of a job place an entry by its distance ahead. -/

namespace Sys2Proof.Machine

variable {s t : State} {c : Instr} {payload : List Byte}

/-- The law speaks of the tick counter and the list alone. -/
theorem State.deadlineOrder.of_same (order : s.deadlineOrder) (deadlines : t.deadlines = s.deadlines)
    (now : t.now = s.now) : t.deadlineOrder := by
  rwa [State.deadlineOrder, deadlines, now]

theorem deadlineOrder_of_empty (empty : t.deadlines = .reset) : t.deadlineOrder := by
  rw [State.deadlineOrder, empty]
  exact .nil

/-! ## A tick (R96, R102) -/

/-- A tick that is not reached yet is one nearer after the next tick, across the wrap of the counter too. -/
theorem distance_next {now due : Tick} (ahead : now ≠ due) :
    distance (now + 1) due + 1 = distance now due := by
  unfold distance
  have : due - now ≠ 0#48 := by bv_omega
  bv_omega

/-- While no expiry is due, the head entry is ahead, and with it every entry behind it. -/
theorem deadlines_ahead (order : s.deadlineOrder) (notDue : expiryIsDue s = false) :
    ∀ e ∈ s.deadlines.entries, s.now ≠ e.due := by
  unfold expiryIsDue at notDue
  rw [State.deadlineOrder] at order
  split at notDue
  · rename_i head rest entries
    rw [entries] at order ⊢
    have ahead : s.now ≠ head.due := by simpa using notDue
    have positive : 0 < distance s.now head.due := by
      have := distance_next ahead
      omega
    intro e member reached
    obtain rfl | behind := List.mem_cons.mp member
    · exact ahead reached
    · have nearer := (List.pairwise_cons.mp order).1 e behind
      rw [← reached, distance_self] at nearer
      omega
  · rename_i entries
    simp [entries]

/-- Every waiting tick stays a tick ahead of the entries: none of them has been passed. -/
theorem onTick_deadlineOrder (rxd : Level) (rest : workIsDue s = false) (order : s.deadlineOrder) :
    (s.onTick rxd).deadlineOrder := by
  have notDue : expiryIsDue s = false := by
    simp only [workIsDue, Bool.or_eq_false_iff] at rest
    exact rest.1.1.1.1.1.1.1.1.1.2
  have ahead := deadlines_ahead order notDue
  have ticked : (s.onTick rxd).now = s.now ∨ (s.onTick rxd).now = s.now + 1 := by
    simp only [State.onTick, State.now, Timebase.onTick, Timebase.nextTick]
    split
    · exact .inl rfl
    · exact .inr rfl
  obtain same | next := ticked
  · exact order.of_same rfl same
  · rw [State.deadlineOrder, next]
    refine List.Pairwise.imp_of_mem ?_ order
    intro a b ma mb nearer
    have stepA := distance_next (ahead a ma)
    have stepB := distance_next (ahead b mb)
    omega

/-! ## Every command -/

theorem expire_deadlineOrder (order : s.deadlineOrder) : s.expire.deadlineOrder := by
  obtain same | ⟨e, rest, entries, acts⟩ := expire_cases s
  · rwa [same]
  · rw [State.deadlineOrder, entries] at order
    exact acts.deadlineOrder (List.pairwise_cons.mp order).2

theorem Change.deadlineOrder (h : Change payload s c t) (order : s.deadlineOrder) : t.deadlineOrder := by
  cases h with
  | softReset => exact deadlineOrder_of_empty rfl
  | jobStart _ acts => exact acts.deadlineOrder order
  | jobStop slot acts => exact acts.deadlineOrder order
  | _ => exact order

theorem Effect.deadlineOrder (h : Effect s c t) (order : s.deadlineOrder) : t.deadlineOrder := by
  cases h with
  | powerReset => exact deadlineOrder_of_empty rfl
  | refLoss => exact order.of_same (by rw [declareLoss_frame]) (declareLoss_tick s)
  | edgeArrival => exact order.of_same (by rw [arrive_frame]) (by rw [arrive_frame]; rfl)
  | edgeSeen => exact (see_acts ..).deadlineOrder order
  | deadlineExpiry => exact expire_deadlineOrder order
  | probeStep => exact order.of_same (by rw [decideStep_frame]) (by rw [decideStep_frame]; rfl)
  | receiveFrame => rw [takeFrame_spares]; exact order
  | linkReset => rw [resetNotices_frame]; exact order
  | replyBegin => rw [beginReply_frame]; exact order
  | noticeBegin => rw [beginNotice_frame]; exact order
  | tick rxd rest => exact onTick_deadlineOrder rxd rest order
  | answer _ _ answers => exact answers.change.deadlineOrder order
  | _ => exact order

/-- Settles O34: the effect of the front command keeps the order. -/
theorem everyStepKeepsTheDeadlineOrder : Obligations.EveryStepKeepsTheDeadlineOrder := by
  intro s t order h
  obtain rfl | ⟨c, rest, effect⟩ := step_cases h
  · exact order
  · exact effect.deadlineOrder order

end Sys2Proof.Machine
end

section
/-! PROOF. The order of the result queue (R109): from its head alone records leave, and at its tail they join. -/

namespace Sys2Proof.Machine

variable {s t : State} {c : Instr} {payload : List Byte} {slot : Fin 32}

/-! ## The result queue -/

theorem prefix_of_same (h : t.results.records = s.results.records) : s.results.records <+: t.results.records := by
  rw [h]

theorem expire_records (s : State) : s.results.records <+: s.expire.results.records := by
  obtain same | ⟨e, rest, -, acts⟩ := expire_cases s
  · exact prefix_of_same (by rw [same])
  · exact acts.records

/-- How the records stand after a command: as RESULT_FETCH and RESULT_FLUSH leave them, none after the two resets,
and else as they were, with any new ones behind them. -/
def FirstInFirstOut (c : Instr) (before after : List Record) : Prop :=
  match c with
  | .resultFetch | .resultFlush => after <:+ before
  | .powerReset _ _ => after = []
  | .softReset => after = [] ∨ after = before
  | _ => before <+: after

theorem firstInFirstOut_refl (noReset : ∀ rate1 rate0, c ≠ .powerReset rate1 rate0) (l : List Record) :
    FirstInFirstOut c l l := by
  cases c with
  | powerReset rate1 rate0 => exact absurd rfl (noReset rate1 rate0)
  | resultFetch | resultFlush => exact List.suffix_rfl
  | softReset => exact .inr rfl
  | _ => exact List.prefix_rfl

theorem Change.records (h : Change payload s c t) (noReset : ∀ rate1 rate0, c ≠ .powerReset rate1 rate0) :
    FirstInFirstOut c s.results.records t.results.records := by
  cases h with
  | nothing => exact firstInFirstOut_refl noReset _
  | softReset => exact .inl rfl
  | resultFetch => exact List.drop_suffix ..
  | resultFlush => exact List.nil_suffix
  | jobStart _ acts => exact acts.records
  | jobStop slot acts => exact acts.records
  | _ => exact prefix_of_same rfl

theorem Effect.records (h : Effect s c t) (noReset : ∀ rate1 rate0, c ≠ .powerReset rate1 rate0) :
    FirstInFirstOut c s.results.records t.results.records := by
  cases h with
  | wait => exact firstInFirstOut_refl noReset _
  | powerReset => rfl
  | refLoss => exact prefix_of_same (by rw [declareLoss_frame])
  | edgeArrival => exact prefix_of_same (by rw [arrive_frame])
  | edgeSeen => exact (see_acts ..).records
  | deadlineExpiry => exact expire_records s
  | probeStep => exact prefix_of_same (by rw [decideStep_frame])
  | receiveFrame => exact prefix_of_same (by rw [takeFrame_spares]; rfl)
  | linkReset => exact prefix_of_same (by rw [resetNotices_frame])
  | replyBegin => exact prefix_of_same (by rw [beginReply_frame])
  | noticeBegin => exact prefix_of_same (by rw [beginNotice_frame])
  | answer _ _ answers => exact answers.change.records noReset
  | _ => exact prefix_of_same rfl

/-- Settles O46: power reset empties the queue, and the effect of every other command keeps its order. -/
theorem resultQueueIsFifo : Obligations.ResultQueueIsFifo := by
  intro c s t h
  have fifo : FirstInFirstOut c s.results.records t.results.records := by
    cases c with
    | powerReset => cases h; rfl
    | _ => exact (effect_of_completes h).records (by simp)
  cases c <;> exact fifo

end Sys2Proof.Machine
end

section
/-! PROOF. The capacities of queues, pool and credits (R109, R114, R135, R136, R144, R164, R183), block by block. -/

namespace Sys2Proof.Machine

variable {s t : State} {c : Instr} {payload : List Byte} {ch : Fin 8} {q : CaptureQueue}

/-! ## The result queue (R109, R114) -/

/-- The result queue is within its places, and its watermark among them. -/
def State.resultsFit (s : State) : Prop :=
  s.results.records.length ≤ 96 ∧ 1 ≤ s.results.watermark ∧ s.results.watermark ≤ 96

theorem resultsFit_of_reset (reset : t.results = .reset) : t.resultsFit := by
  rw [State.resultsFit, reset]
  decide

theorem JobActs.resultsFit {slot : Fin 32} (acts : JobActs slot s t) (fits : s.resultsFit) : t.resultsFit :=
  ⟨acts.records_length fits.1, acts.watermark ▸ fits.2⟩

theorem expire_resultsFit (fits : s.resultsFit) : s.expire.resultsFit := by
  obtain same | ⟨e, rest, -, acts⟩ := expire_cases s
  · rwa [same]
  · exact acts.resultsFit fits

theorem Change.resultsFit (h : Change payload s c t) (fits : s.resultsFit) : t.resultsFit := by
  cases h with
  | softReset => exact resultsFit_of_reset rfl
  | jobStart _ acts => exact acts.resultsFit fits
  | jobStop slot acts => exact acts.resultsFit fits
  | resultFetch most => exact ⟨(List.drop_sublist ..).length_le.trans fits.1, fits.2⟩
  | resultSetup mark positive most => exact ⟨fits.1, positive, most⟩
  | resultFlush => exact ⟨Nat.zero_le _, fits.2⟩
  | _ => exact fits

theorem Effect.resultsFit (h : Effect s c t) (fits : s.resultsFit) : t.resultsFit := by
  cases h with
  | powerReset => exact resultsFit_of_reset rfl
  | refLoss => rw [declareLoss_frame]; exact fits
  | edgeArrival => rw [arrive_frame]; exact fits
  | edgeSeen => exact (see_acts ..).resultsFit fits
  | deadlineExpiry => exact expire_resultsFit fits
  | probeStep => rw [decideStep_frame]; exact fits
  | receiveFrame => rw [takeFrame_spares]; exact fits
  | linkReset => rw [resetNotices_frame]; exact fits
  | replyBegin => rw [beginReply_frame]; exact fits
  | noticeBegin => rw [beginNotice_frame]; exact fits
  | answer _ _ answers => exact answers.change.resultsFit fits
  | _ => exact fits

/-! ## The queues of the link (R183) -/

/-- At most four requests wait, and at most four replies. -/
def State.linkFits (s : State) : Prop := s.link.intake.length ≤ 4 ∧ s.link.replies.length ≤ 4

theorem State.linkFits.of_same (fits : s.linkFits) (link : t.link = s.link) : t.linkFits := by
  rwa [State.linkFits, link]

/-- A frame joins a queue that has room (R180). -/
theorem takeFrame_linkFits (frame : List Byte) (fits : s.linkFits) : (s.takeFrame frame).linkFits := by
  unfold State.takeFrame
  dsimp only
  split
  · exact fits
  · split
    · exact fits
    · split
      · exact fits
      · rename_i room
        refine ⟨?_, fits.2⟩
        rw [List.length_append]
        exact Nat.not_le.mp room

theorem beginReply_linkFits (fits : s.linkFits) : s.beginReply.linkFits := by
  unfold State.beginReply
  split
  · exact fits
  · rename_i r rest replies
    have most := fits.2
    rw [replies, List.length_cons] at most
    exact ⟨fits.1, Nat.le_of_succ_le most⟩

theorem Effect.linkFits (h : Effect s c t) (fits : s.linkFits) : t.linkFits := by
  cases h with
  | powerReset => exact ⟨Nat.zero_le _, Nat.zero_le _⟩
  | initEnd => exact ⟨Nat.zero_le _, Nat.zero_le _⟩
  | refLoss => rw [declareLoss_frame]; exact fits
  | edgeArrival => rw [arrive_frame]; exact fits
  | edgeSeen => exact fits.of_same (see_acts ..).link
  | deadlineExpiry => exact fits.of_same (expire_keeps_frame State.link JobActs.link fun _ _ => rfl)
  | probeStep => rw [decideStep_frame]; exact fits
  | receiveFrame => exact takeFrame_linkFits (s := s.examined) _ fits
  | linkReset => rw [resetNotices_frame]; exact ⟨Nat.zero_le _, Nat.zero_le _⟩
  | replyBegin => exact beginReply_linkFits fits
  | noticeBegin => rw [beginNotice_frame]; exact fits
  | answer _ asks answers =>
    have link := answers.change.transmission.2
    have intake := congrArg Link.intake link
    have replies := congrArg Link.replies link
    obtain ⟨-, room, -, -⟩ := asks
    refine ⟨?_, ?_⟩
    · simp only [finishRequest, intake]
      exact (List.drop_sublist ..).length_le.trans fits.1
    · simp only [finishRequest, replies, List.length_append]
      exact room
  | _ => exact fits

/-! ## The credits (R164) -/

theorem cutOffNotice_credits (s : State) (most : s.notices.credits ≤ 16) :
    s.cutOffNotice.notices.credits ≤ 16 := by
  unfold State.cutOffNotice
  split
  · exact most
  · exact Nat.min_le_right _ _

theorem beginNotice_credits (s : State) : s.beginNotice.notices.credits ≤ s.notices.credits := by
  unfold State.beginNotice
  split
  · exact Nat.le_refl _
  · exact Nat.sub_le _ _

theorem Change.credits (h : Change payload s c t) (most : s.notices.credits ≤ 16) :
    t.notices.credits ≤ 16 := by
  cases h with
  | grant => exact Nat.min_le_left _ _
  | jobStart _ acts => rwa [acts.credits, enrol_notices]
  | jobStop slot acts => rwa [acts.credits]
  | _ => exact most

theorem Effect.credits (h : Effect s c t) (most : s.notices.credits ≤ 16) : t.notices.credits ≤ 16 := by
  cases h with
  | powerReset => exact Nat.le_add_left 1 15
  | refLoss => rw [declareLoss_frame]; exact most
  | edgeArrival => rw [arrive_frame]; exact most
  | edgeSeen => rwa [(see_acts ..).credits]
  | deadlineExpiry =>
    rwa [expire_keeps_frame (fun s => s.notices.credits) JobActs.credits fun _ _ => rfl]
  | probeStep => rw [decideStep_frame]; exact most
  | receiveFrame => rw [takeFrame_spares]; exact most
  | linkReset => exact Nat.le_add_left 1 15
  | replyBegin => rw [beginReply_frame]; exact most
  | noticeBegin => exact (beginNotice_credits s).trans most
  | answer _ _ answers => exact answers.change.credits most
  | _ => exact most

/-! ## The capture pool (R135, R136, R144) -/

/-- Every capture queue is within its depth, and the depths are within the pool. -/
def State.poolFits (s : State) : Prop :=
  (∀ ch, (s.capture ch).bounded) ∧ sumIn CaptureQueue.depth s.captures ≤ 512

theorem State.poolFits.of_same (fits : s.poolFits) (captures : t.captures = s.captures) : t.poolFits := by
  unfold State.poolFits State.capture
  rw [captures]
  exact fits

theorem poolFits_of_reset (reset : t.captures = Vector.replicate 8 .reset) : t.poolFits := by
  unfold State.poolFits State.capture
  rw [reset]
  refine ⟨fun ch => ?_, by decide⟩
  rw [get_replicate]
  exact ⟨Nat.le_refl _, Nat.le_refl _⟩

/-- A queue that is within its depth, in a pool that has the cells for it. -/
theorem setCapture_poolFits (fits : s.poolFits) (bounded : q.bounded)
    (pool : sumIn CaptureQueue.depth s.captures - (s.capture ch).depth + q.depth ≤ 512) :
    (s.setCapture ch q).poolFits := by
  refine ⟨fun k => ?_, ?_⟩
  · rw [State.capture_setCapture]
    split
    · exact bounded
    · exact fits.1 k
  · rwa [depths_setCapture]

/-- With the depth as it was, the pool needs no cells. -/
theorem setCapture_poolFits_of_depth (fits : s.poolFits) (bounded : q.bounded)
    (depth : q.depth = (s.capture ch).depth) : (s.setCapture ch q).poolFits := by
  refine setCapture_poolFits fits bounded ?_
  have sum := sumIn_set CaptureQueue.depth s.captures ch q
  have kept : sumIn CaptureQueue.depth (s.setCapture ch q).captures = sumIn CaptureQueue.depth s.captures := by
    have found : (s.captures.get ch).depth = q.depth := depth.symm
    simp only [State.setCapture]
    omega
  rw [← depths_setCapture, kept]
  exact fits.2

theorem length_markHead : ∀ l : List CaptureEntry, (markHead l).length = l.length
  | [] | _ :: _ => rfl

theorem append_bounded (bounded : q.bounded) (room : q.entries.length < q.depth) (e : AcceptedEdge) :
    (q.append e).bounded :=
  ⟨by rw [CaptureQueue.append, List.length_append]; exact room, bounded.2⟩

theorem displace_bounded (bounded : q.bounded) (deep : q.depth ≠ 0) (full : ¬q.entries.length < q.depth)
    (e : AcceptedEdge) : (q.displace e).bounded := by
  obtain ⟨entries, watermark⟩ := bounded
  refine ⟨?_, watermark⟩
  simp only [CaptureQueue.displace, length_markHead, List.length_append, List.length_drop,
    List.length_singleton]
  omega

theorem logEdge_poolFits (e : AcceptedEdge) (fits : s.poolFits) : (s.logEdge e).poolFits := by
  have bounded := fits.1 e.channel
  unfold State.logEdge
  dsimp only
  split
  · exact fits
  · rename_i logs
    have deep : (s.capture e.channel).depth ≠ 0 := by simp at logs; exact logs.2
    split
    · rename_i room
      have appended := setCapture_poolFits_of_depth (ch := e.channel) fits (append_bounded bounded room e) rfl
      split <;> exact appended
    · rename_i full
      split
      · exact setCapture_poolFits_of_depth (q := (s.capture e.channel).drop) fits bounded rfl
      · exact setCapture_poolFits_of_depth fits (displace_bounded bounded deep full e) rfl

theorem arrive_poolFits (fits : s.poolFits) : (s.arrive ch).poolFits := by
  unfold State.arrive
  dsimp only
  split
  · exact fits
  · exact logEdge_poolFits (s := s.setChannel ch _) _ fits

/-- A queue that takes valid settings is within its new depth (R144, R145). -/
theorem apply_bounded (bounded : q.bounded) (valid : captureSetCheck payload = none) :
    (q.apply payload).bounded ∧ (q.apply payload).depth = field payload 1 2 := by
  have mark : field payload 5 2 ≤ field payload 1 2 := by
    have checks := firstFailure_eq_none.mp valid
    simpa [require_eq_none] using checks (require (field payload 5 2 ≤ field payload 1 2) 5) (by simp)
  unfold CaptureQueue.apply
  dsimp only
  split
  · rename_i same
    exact ⟨⟨bounded.1, mark.trans_eq same⟩, same.symm⟩
  · exact ⟨⟨Nat.zero_le _, mark⟩, rfl⟩

theorem Change.poolFits (h : Change payload s c t) (fits : s.poolFits) : t.poolFits := by
  cases h with
  | softReset => exact poolFits_of_reset rfl
  | captureSet ch valid pool =>
    obtain ⟨bounded, depth⟩ := apply_bounded (fits.1 ch) valid
    exact setCapture_poolFits fits bounded (by rw [depth]; exact pool)
  | captureRead ch most =>
    exact setCapture_poolFits_of_depth fits
      ⟨(List.drop_sublist ..).length_le.trans (fits.1 ch).1, (fits.1 ch).2⟩ rfl
  | captureFlush ch => exact setCapture_poolFits_of_depth fits ⟨Nat.zero_le _, (fits.1 ch).2⟩ rfl
  | jobStart _ acts => exact fits.of_same (by rw [acts.captures, enrol_captures])
  | jobStop slot acts => exact fits.of_same acts.captures
  | _ => exact fits

theorem Effect.poolFits (h : Effect s c t) (fits : s.poolFits) : t.poolFits := by
  cases h with
  | powerReset => exact poolFits_of_reset rfl
  | refLoss => rw [declareLoss_frame]; exact fits
  | edgeArrival => exact arrive_poolFits fits
  | edgeSeen => exact fits.of_same (see_acts ..).captures
  | deadlineExpiry =>
    exact fits.of_same (expire_keeps_frame State.captures JobActs.captures fun _ _ => rfl)
  | probeStep => rw [decideStep_frame]; exact fits
  | receiveFrame => rw [takeFrame_spares]; exact fits
  | linkReset => rw [resetNotices_frame]; exact fits
  | replyBegin => rw [beginReply_frame]; exact fits
  | noticeBegin => rw [beginNotice_frame]; exact fits
  | answer _ _ answers => exact answers.change.poolFits fits
  | _ => exact fits

/-! ## All of them -/

theorem Effect.capacities (h : Effect s c t) (within : s.capacities) : t.capacities := by
  obtain ⟨records, positive, watermark, intake, replies, credits, bounded, pool⟩ := within
  obtain ⟨records, positive, watermark⟩ := h.resultsFit ⟨records, positive, watermark⟩
  obtain ⟨intake, replies⟩ := h.linkFits ⟨intake, replies⟩
  obtain ⟨bounded, pool⟩ := h.poolFits ⟨bounded, pool⟩
  exact ⟨records, positive, watermark, intake, replies, h.credits credits, bounded, pool⟩

end Sys2Proof.Machine
end

section
/-! PROOF. Every saturating counter stays in its range (R10, R18, R54, R79, R112, R115, R142, R182), and the line-low
count in its own (R187); the notices and the deadline entries are within their places by their laws (R94, R163). -/

namespace Sys2Proof.Machine

variable {s t : State} {c : Instr} {payload : List Byte} {ch : Fin 8} {q : CaptureQueue}

/-! ## What keeps the glitch counter of a channel (R18) -/

theorem establish_glitches (c : Channel) : c.establish.glitches = c.glitches := rfl

theorem disable_glitches (c : Channel) : c.disable.glitches = c.glitches := rfl

theorem endProbe_glitches (c : Channel) : c.endProbe.glitches = c.glitches := by
  unfold Channel.endProbe
  dsimp only
  split <;> rfl

theorem apply_glitches (c : Channel) (payload : List Byte) : (c.apply payload).glitches = c.glitches := by
  unfold Channel.apply
  dsimp only
  split <;> rfl

theorem accept_glitches (c : Channel) (ch : Fin 8) : (c.accept ch).glitches = c.glitches := by
  unfold Channel.accept
  split <;> rfl

theorem moveInput_glitches (c : Channel) (level : Nat) : (c.moveInput level).glitches = c.glitches := by
  unfold Channel.moveInput
  split
  · rfl
  · rfl
  · split <;> rfl

theorem onTick_glitches (now : Tick) (c : Channel) : (c.onTick now).glitches = c.glitches := by
  unfold Channel.onTick Channel.probeSample
  split
  · rfl
  · rfl
  · split
    · rfl
    · split <;> rfl

theorem adopt_glitches (c : Channel) (p : ProbeRecord) (code : Nat) :
    (c.adopt p code).glitches = c.glitches := by
  unfold Channel.adopt
  split <;> rfl

theorem completeProbe_glitches (c : Channel) (p : ProbeRecord) :
    (c.completeProbe p).glitches = c.glitches := by
  rw [Channel.completeProbe, endProbe_glitches, adopt_glitches]

theorem cancelProbe_glitches (c : Channel) (p : ProbeRecord) :
    (c.cancelProbe p).glitches = c.glitches := by
  rw [Channel.cancelProbe, endProbe_glitches]

/-! ## What the requests on a job slot do to its counters (R37, R41, R58) -/

theorem define_counters {j : Job} (h : j.counters) (d : Definition) : (j.define d).counters :=
  ⟨Nat.zero_le _, h.2.1, Nat.zero_le _, Nat.zero_le _, Nat.zero_le 65535⟩

theorem clear_counters {j : Job} (h : j.counters) : j.clear.counters :=
  ⟨Nat.zero_le _, h.2.1, h.2.2.1, h.2.2.2.1, Nat.zero_le 65535⟩

theorem enrol_counters (slot : Fin 32) (d : Definition) (h : s.counters) : (s.enrol slot d).counters := by
  obtain ⟨-, lost, total, missed, -⟩ := h.2.2.2.1 slot
  exact setJob_counters (j := { s.job slot with
      settle := some (s.settleOf d), acc := .cleared, held := [], pendingMissed := 0 })
    ⟨Nat.zero_le _, lost, total, missed, Nat.zero_le 65535⟩ h

/-! ## Acts on several blocks -/

theorem reset_counters (tick : t.timebase.holdoverEntries ≤ 65535)
    (channels : ∀ ch, ∃ input, t.channel ch = Channel.reset input)
    (captures : t.captures = Vector.replicate 8 .reset) (jobs : t.jobs = Vector.replicate 32 .reset)
    (results : t.results = .reset) (link : t.link.counters.bounded ∧ t.link.lineLow ≤ 80000) :
    t.counters := by
  refine ⟨tick, fun ch => ?_, fun ch => ?_, fun slot => ?_, by rw [results]; decide, link⟩
  · obtain ⟨input, reset⟩ := channels ch
    rw [reset]
    exact Nat.zero_le _
  · rw [State.capture, captures, get_replicate]
    decide
  · rw [State.job, jobs, get_replicate]
    simp [Job.counters, Job.reset, Accumulators.cleared]

theorem channel_reset_of_mapBank (channels : t.channels = mapBank (fun c => Channel.reset c.input) s.channels)
    (ch : Fin 8) : t.channel ch = Channel.reset (s.channel ch).input := by
  rw [State.channel, channels, get_mapBank]
  rfl

theorem zero_bounded : LinkCounters.zero.bounded := by simp [LinkCounters.bounded, LinkCounters.zero]

/-- A link whose counters are in their range, in a device whose other counters are. -/
theorem link_counters {l : Link} (h : s.counters) (counters : l.counters.bounded) (line : l.lineLow ≤ 80000) :
    ({ s with link := l } : State).counters := by
  obtain ⟨entries, glitches, losses, jobs, refused, -, -⟩ := h
  exact ⟨entries, glitches, losses, jobs, refused, counters, line⟩

theorem setCounters_counters {k : LinkCounters} (h : s.counters) (bounded : k.bounded) :
    (s.setCounters k).counters :=
  link_counters h bounded h.2.2.2.2.2.2

/-- A refused count in its range, in a device whose other counters are. -/
theorem refused_counters {n : Nat} (h : s.counters) (most : n ≤ 65535) :
    ({ s with results := { s.results with refused := n } } : State).counters := by
  obtain ⟨entries, glitches, losses, jobs, -, link⟩ := h
  exact ⟨entries, glitches, losses, jobs, most, link⟩

theorem declareLoss_counters (h : s.counters) : s.declareLoss.counters := by
  unfold State.declareLoss
  dsimp only
  split
  · exact ⟨saturate_le _ _, h.2⟩
  · exact h
  · exact h

theorem logEdge_counters (e : AcceptedEdge) (h : s.counters) : (s.logEdge e).counters := by
  have loss := h.2.2.1 e.channel
  unfold State.logEdge
  dsimp only
  split
  · exact h
  · split
    · have appended := setCapture_counters (ch := e.channel) (q := (s.capture e.channel).append e) loss h
      split <;> exact appended
    · split <;> exact setCapture_counters (saturate_le _ _) h

/-- An edge that a job holds is no part of its counters (R45). -/
theorem holdEdge_counters (e : AcceptedEdge) (h : s.counters) : (s.holdEdge e).counters := by
  obtain ⟨entries, glitches, losses, jobs, rest⟩ := h
  refine ⟨entries, glitches, losses, fun slot => ?_, rest⟩
  obtain ⟨held, joined⟩ := hold_eq e (s.job slot)
  rw [State.holdEdge_job, joined]
  exact jobs slot

theorem arrive_counters (h : s.counters) : (s.arrive ch).counters := by
  unfold State.arrive
  dsimp only
  split
  · exact h
  · exact holdEdge_counters _ (logEdge_counters _ (setChannel_counters (h.2.1 ch) h))

theorem expire_counters (h : s.counters) : s.expire.counters := by
  obtain same | ⟨e, rest, -, acts⟩ := expire_cases s
  · rwa [same]
  · exact acts.counters h

theorem decideStep_counters (h : s.counters) : (s.decideStep ch).counters := by
  unfold State.decideStep
  dsimp only
  split
  · exact h
  · split
    · exact setChannel_counters (by rw [completeProbe_glitches]; exact h.2.1 ch) h
    · exact setChannel_counters (h.2.1 ch) h

theorem takeFrame_counters (frame : List Byte) (h : s.counters) : (s.takeFrame frame).counters := by
  obtain ⟨stray, badLength, truncated, badCheck, wrongClass, overrun⟩ := h.2.2.2.2.2.1
  unfold State.takeFrame
  dsimp only
  split
  · exact setCounters_counters (s := s.setReceiver .hunting) h
      ⟨stray, badLength, truncated, saturate_le _ _, wrongClass, overrun⟩
  · split
    · exact setCounters_counters (s := s.setReceiver .hunting) h
        ⟨stray, badLength, truncated, badCheck, saturate_le _ _, overrun⟩
    · split
      · exact setCounters_counters (s := s.setReceiver .hunting) h
          ⟨stray, badLength, truncated, badCheck, wrongClass, saturate_le _ _⟩
      · exact h

theorem cutOffNotice_counters (h : s.counters) : s.cutOffNotice.counters := by
  unfold State.cutOffNotice
  split
  · exact h
  · exact refused_counters h (saturate_le _ _)

theorem beginNotice_counters (h : s.counters) : s.beginNotice.counters := by
  unfold State.beginNotice
  split
  · exact h
  · refine refused_counters h ?_
    split
    · exact Nat.zero_le _
    · exact h.2.2.2.2.1

theorem lineLow_le (now : Tick) (rxd : Level) {l : Link} (line : l.lineLow ≤ 80000) :
    (l.onTick now rxd).lineLow ≤ 80000 := by
  unfold Link.onTick
  dsimp only
  split
  · exact line
  · split
    · exact Nat.min_le_right _ _
    · exact Nat.zero_le _

theorem onTick_counters (rxd : Level) (h : s.counters) : (s.onTick rxd).counters := by
  obtain ⟨entries, glitches, losses, jobs, refused, link, line⟩ := h
  refine ⟨entries, fun ch => ?_, losses, jobs, refused, link, lineLow_le _ _ line⟩
  have ticked : (s.onTick rxd).channel ch = (s.channel ch).onTick s.timebase.onTick.tick := get_mapBank ..
  rw [ticked, onTick_glitches]
  exact glitches ch

/-! ## Every command -/

theorem Change.counters (h : Change payload s c t) (law : s.counters) : t.counters := by
  have glitches := law.2.1
  have losses := law.2.2.1
  have jobs := law.2.2.2.1
  cases h with
  | zeroCounters => exact link_counters law zero_bounded law.2.2.2.2.2.2
  | softReset =>
    exact reset_counters law.1 (fun ch => ⟨_, channel_reset_of_mapBank rfl ch⟩) rfl rfl rfl law.2.2.2.2.2
  | chanSet ch => exact setChannel_counters (by rw [apply_glitches]; exact glitches ch) law
  | zeroGlitches ch => exact setChannel_counters (Nat.zero_le _) law
  | probeStart ch => exact setChannel_counters (glitches ch) law
  | probeCancel ch => exact setChannel_counters (by rw [cancelProbe_glitches]; exact glitches ch) law
  | captureSet ch =>
    refine setCapture_counters ?_ law
    unfold CaptureQueue.apply
    dsimp only
    split
    · exact losses ch
    · exact Nat.zero_le _
  | captureRead | captureFlush => exact setCapture_counters (Nat.zero_le _) law
  | jobDefine slot d => exact setJob_counters (define_counters (jobs slot) d) law
  | jobStart _ acts => exact acts.counters (enrol_counters _ _ law)
  | jobStop slot acts => exact acts.counters law
  | jobClear slot => exact setJob_counters (clear_counters (jobs slot)) law
  | limitSet slot w =>
    exact setJob_counters (j := { s.job slot with window := w, alert := .inside }) (jobs slot) law
  | _ => exact law

theorem Effect.counters (h : Effect s c t) (law : s.counters) : t.counters := by
  obtain ⟨-, glitches, -, -, -, ⟨stray, badLength, truncated, badCheck, wrongClass, overrun⟩, line⟩ := id law
  cases h with
  | powerReset =>
    exact reset_counters (Nat.zero_le _) (fun ch => ⟨_, channel_reset_of_mapBank rfl ch⟩) rfl rfl rfl
      ⟨zero_bounded, Nat.zero_le _⟩
  | initEnd =>
    refine link_counters law zero_bounded ?_
    simp only [Link.endInit]
    split <;> omega
  | refLoss => exact declareLoss_counters law
  | revert ch => exact setChannel_counters (saturate_le _ _) law
  | edgeAccepted ch => exact setChannel_counters (by rw [accept_glitches]; exact glitches ch) law
  | edgeArrival => exact arrive_counters law
  | edgeSeen => exact (see_acts ..).counters law
  | deadlineExpiry => exact expire_counters law
  | probeStep => exact decideStep_counters law
  | strayByte =>
    exact link_counters law ⟨saturate_le _ _, badLength, truncated, badCheck, wrongClass, overrun⟩ line
  | badLength =>
    exact link_counters law ⟨stray, saturate_le _ _, truncated, badCheck, wrongClass, overrun⟩ line
  | truncation =>
    exact link_counters law ⟨stray, badLength, saturate_le _ _, badCheck, wrongClass, overrun⟩ line
  | receiveFrame => exact takeFrame_counters (s := s.examined) _ law
  | linkReset =>
    exact cutOffNotice_counters (link_counters (l := s.link.cut) law law.2.2.2.2.2.1 (Nat.zero_le _))
  | replyBegin => rw [beginReply_frame]; exact law
  | noticeBegin => exact beginNotice_counters law
  | tick rxd => exact onTick_counters rxd law
  | comparatorOutput ch level =>
    exact setChannel_counters (by rw [moveInput_glitches]; exact glitches ch) law
  | answer _ _ answers => exact answers.change.counters law
  | _ => exact law

/-! ## The places of the notice queue and of the deadline list -/

/-- The 42 sources of notices (R162), numbered. -/
def Source.number : Source → Fin 42
  | .job slot => ⟨slot, by omega⟩
  | .channel ch => ⟨32 + ch, by omega⟩
  | .results => 40
  | .device => 41

theorem Source.number_injective : Function.Injective Source.number := by
  intro a b same
  cases a <;> cases b <;> simp only [Source.number, Fin.ext_iff] at same <;> grind

/-- No more than the 42 sources have a notice queued. -/
theorem queued_le (law : s.noticeSources) : s.notices.queued.length ≤ 42 := by
  have numbers := (List.Nodup.map Source.number_injective law).length_le_card
  simpa using numbers

/-- A running job has at most one entry, and a job that does not run has none. -/
theorem entries_of_slot_le (law : s.deadlineLaw) (slot : Fin 32) :
    (s.deadlines.entries.filter (fun e => e.slot == slot)).length
      ≤ if (s.job slot).state.running then 1 else 0 := by
  obtain ⟨own, entries⟩ := law.2.2 slot
  split
  · rw [entries, Job.expectedEntries]
    split <;> simp
  · rename_i stopped
    rw [State.slotLaw.entries_of_stopped (law.2.2 slot) (Bool.eq_false_iff.mpr stopped)]
    simp

/-- A list is as long as its parts by slot together. -/
theorem length_eq_sum_filter (l : List Entry) :
    l.length = ∑ slot : Fin 32, (l.filter (fun e => e.slot == slot)).length := by
  induction l with
  | nil => simp
  | cons e l ih =>
    have split (slot : Fin 32) : ((e :: l).filter (fun x => x.slot == slot)).length
        = (if e.slot = slot then 1 else 0) + (l.filter (fun x => x.slot == slot)).length := by
      by_cases own : e.slot = slot <;> simp [own]
      omega
    simp only [split, Finset.sum_add_distrib, List.length_cons, ← ih]
    simp
    omega

theorem length_filter_eq_sum {α : Type} (p : α → Bool) (l : List α) :
    (l.filter p).length = (l.map fun a => if p a then 1 else 0).sum := by
  induction l with
  | nil => rfl
  | cons a l ih =>
    by_cases holds : p a = true <;> simp [holds, ih]
    omega

theorem entries_le (law : s.deadlineLaw) : s.deadlines.entries.length ≤ 24 := by
  have running : ∑ slot : Fin 32, (if (s.job slot).state.running then 1 else 0) = s.runningJobs := by
    rw [State.runningJobs, countIn_eq_length_filter, length_filter_eq_sum, Fin.sum_univ_def]
    rfl
  calc s.deadlines.entries.length
      = ∑ slot : Fin 32, (s.deadlines.entries.filter (fun e => e.slot == slot)).length :=
        length_eq_sum_filter _
    _ ≤ ∑ slot : Fin 32, (if (s.job slot).state.running then 1 else 0) :=
        Finset.sum_le_sum fun slot _ => entries_of_slot_le law slot
    _ = s.deadlines.reservations := running.trans law.1.symm
    _ ≤ 24 := law.2.1

/-- Settles O26: the effect of the front command keeps each block within its capacity and each counter in its
range. -/
theorem everyStepKeepsTheCapacities : Obligations.EveryStepKeepsTheCapacities := by
  refine ⟨fun s t h => ?_, fun s => ⟨queued_le, entries_le⟩⟩
  obtain rfl | ⟨c, rest, effect⟩ := step_cases h
  · exact ⟨id, id⟩
  · exact ⟨effect.capacities, effect.counters⟩

end Sys2Proof.Machine
end

section
/-! PROOF. The laws of the channels: the shape of each (section 2.4), the channels of running jobs ENABLED (R24),
and at most two edges in transit (R17 to R20). All that a command can do to one channel is said once; a tick takes
every channel's sample. -/

namespace Sys2Proof.Machine

variable {s t : State} {i : Instr} {payload : List Byte} {ch : Fin 8} {c d : Channel}

/-! ## What a command can do to a channel -/

/-- What a command other than a tick can leave of a channel: the channel as it was, or the effect of one of the
rows of chapters 2 and 9 under its condition. A reset of the channels resets the jobs
too: `jobs` is the job table that the command leaves. -/
inductive ChannelAct (s : State) (jobs : Vector Job 32) (ch : Fin 8) : Channel → Prop
  | keep : ChannelAct s jobs ch (s.channel ch)
  | reset (idle : jobs = Vector.replicate 32 .reset) : ChannelAct s jobs ch (Channel.reset (s.channel ch).input)
  | revert (due : (s.channel ch).revertIsDue = true) :
      ChannelAct s jobs ch { s.channel ch with
        pending := none, glitches := saturate (s.channel ch).glitches 1 }
  | accept (due : (s.channel ch).acceptIsDue s.now = true) : ChannelAct s jobs ch ((s.channel ch).accept ch)
  | arrive (e : AcceptedEdge) (rest : List AcceptedEdge) (oldest : (s.channel ch).inTransit = e :: rest) :
      ChannelAct s jobs ch { s.channel ch with inTransit := rest }
  | completeProbe (p : ProbeRecord) (probing : (s.channel ch).state = .probing) :
      ChannelAct s jobs ch ((s.channel ch).completeProbe p)
  | nextStep (p : ProbeRecord) (probing : (s.channel ch).state = .probing) :
      ChannelAct s jobs ch ((s.channel ch).nextStep p s.now)
  | moveInput (level : Nat) : ChannelAct s jobs ch ((s.channel ch).moveInput level)
  | apply (payload : List Byte) (running : s.link.initialised = true) (free : s.inUse ch = false)
      (steady : (s.channel ch).state ≠ .probing) : ChannelAct s jobs ch ((s.channel ch).apply payload)
  | zeroGlitches : ChannelAct s jobs ch { s.channel ch with glitches := 0 }
  | startProbe (dwell : Nat) (adopt : Bool) (running : s.link.initialised = true)
      (free : s.inUse ch = false) : ChannelAct s jobs ch ((s.channel ch).startProbe s.now dwell adopt)
  | cancelProbe (p : ProbeRecord) (probing : (s.channel ch).state = .probing) :
      ChannelAct s jobs ch ((s.channel ch).cancelProbe p)

theorem ChannelAct.of_channels (same : t.channels = s.channels) : ChannelAct s t.jobs ch (t.channel ch) := by
  rw [State.channel, same]
  exact .keep

/-- Replacing one channel is an act on it, and keeps the others. -/
theorem ChannelAct.of_setChannel {k : Fin 8} (act : ChannelAct s t.jobs k c) (same : t.channels = s.channels.set k c) :
    ChannelAct s t.jobs ch (t.channel ch) := by
  have found : t.channel ch = (s.setChannel k c).channel ch := by rw [State.channel, same]; rfl
  rw [found, State.channel_setChannel]
  split
  · rename_i own
    rwa [own]
  · exact .keep

/-- Every channel at its reset values, its input as the board drives it (R30). -/
theorem ChannelAct.of_reset (reset : t.channels = mapBank (fun c => Channel.reset c.input) s.channels)
    (jobs : t.jobs = Vector.replicate 32 .reset) : ChannelAct s t.jobs ch (t.channel ch) := by
  rw [channel_reset_of_mapBank reset]
  exact .reset jobs

/-- An arrival takes the oldest edge in transit out of the channel (R20). -/
theorem arrive_channels (s : State) (ch : Fin 8) :
    (s.arrive ch).channels = s.channels
      ∨ ∃ e rest, (s.channel ch).inTransit = e :: rest
        ∧ (s.arrive ch).channels = s.channels.set ch { s.channel ch with inTransit := rest } := by
  unfold State.arrive
  dsimp only
  split
  · exact .inl rfl
  · rename_i e rest oldest
    refine .inr ⟨e, rest, oldest, ?_⟩
    rw [State.holdEdge_channels, logEdge_frame]
    rfl

theorem arrive_channel (s : State) (k ch : Fin 8) : ChannelAct s (s.arrive k).jobs ch ((s.arrive k).channel ch) := by
  obtain same | ⟨e, rest, oldest, channels⟩ := arrive_channels s k
  · exact .of_channels same
  · exact .of_setChannel (.arrive e rest oldest) channels

theorem decideStep_channel (s : State) (k ch : Fin 8) (due : (s.channel k).probeStepIsDue s.now = true) :
    ChannelAct s (s.decideStep k).jobs ch ((s.decideStep k).channel ch) := by
  have probing : (s.channel k).state = .probing := by
    simp only [Channel.probeStepIsDue, Bool.and_eq_true, beq_iff_eq] at due
    exact due.1
  unfold State.decideStep
  dsimp only
  split
  · exact .keep
  · split
    · exact .of_setChannel (.completeProbe _ probing) rfl
    · exact .of_setChannel (.nextStep _ probing) rfl

theorem Change.channel (h : Change payload s i t) (running : s.link.initialised = true) (ch : Fin 8) :
    ChannelAct s t.jobs ch (t.channel ch) := by
  cases h with
  | softReset => exact .of_reset rfl rfl
  | chanSet k free steady => exact .of_setChannel (.apply _ running free steady) rfl
  | zeroGlitches k => exact .of_setChannel .zeroGlitches rfl
  | probeStart k dwell adopt free => exact .of_setChannel (.startProbe dwell adopt running free) rfl
  | probeCancel k p probing => exact .of_setChannel (.cancelProbe p probing) rfl
  | jobStart _ acts => exact .of_channels (by rw [acts.channels, enrol_channels])
  | jobStop slot acts => exact .of_channels acts.channels
  | _ => exact .of_channels rfl

/-- Every command but a tick acts on a channel or keeps it. -/
theorem Effect.channel (h : Effect s i t) (noTick : ∀ rxd, i ≠ .tick rxd) (ch : Fin 8) :
    ChannelAct s t.jobs ch (t.channel ch) := by
  cases h with
  | powerReset => exact .of_reset rfl rfl
  | refLoss => exact .of_channels (by rw [declareLoss_frame])
  | revert k due => exact .of_setChannel (.revert due) rfl
  | edgeAccepted k due => exact .of_setChannel (.accept due) rfl
  | edgeArrival k => exact arrive_channel s k ch
  | edgeSeen => exact .of_channels (see_acts ..).channels
  | deadlineExpiry => exact .of_channels (expire_keeps_frame State.channels JobActs.channels fun _ _ => rfl)
  | probeStep k due => exact decideStep_channel s k ch due
  | receiveFrame => exact .of_channels (by rw [takeFrame_spares]; rfl)
  | linkReset => exact .of_channels (by rw [resetNotices_frame])
  | replyBegin => exact .of_channels (by rw [beginReply_frame])
  | noticeBegin => exact .of_channels (by rw [beginNotice_frame])
  | tick rxd => exact absurd rfl (noTick rxd)
  | comparatorOutput k level => exact .of_setChannel (.moveInput level) rfl
  | answer _ asks answers => exact answers.change.channel asks.1 ch
  | _ => exact .of_channels rfl

theorem onTick_channel (s : State) (rxd : Level) (ch : Fin 8) :
    (s.onTick rxd).channel ch = (s.channel ch).onTick s.timebase.onTick.tick := get_mapBank ..

/-! ## The shape of each channel (R16, R17, R20 to R23) -/

theorem shape_of_disabled (state : c.state = .disabled) :
    c.shape ↔ c.accepted = none ∧ c.pending = none ∧ c.inTransit = [] ∧ c.probe = none
      ∧ c.returnState = none := by
  simp [Channel.shape, state]

theorem shape_of_enabled (state : c.state = .enabled) :
    c.shape ↔ (∃ a, c.accepted = some a ∧ ∀ p, c.pending = some p → p.level ≠ a) ∧ c.probe = none
      ∧ c.returnState = none := by
  simp [Channel.shape, state]

theorem shape_of_probing (state : c.state = .probing) :
    c.shape ↔ c.accepted = none ∧ c.pending = none ∧ c.inTransit = [] ∧ c.probe.isSome = true
      ∧ c.returnState.isSome = true := by
  simp [Channel.shape, state]

/-- Outside ENABLED nothing is pending and nothing in transit. -/
theorem quiet_of_not_enabled (shape : c.shape) (state : c.state ≠ .enabled) :
    c.pending = none ∧ c.inTransit = [] := by
  cases found : c.state with
  | enabled => exact absurd found state
  | disabled => exact ⟨((shape_of_disabled found).mp shape).2.1, ((shape_of_disabled found).mp shape).2.2.1⟩
  | probing => exact ⟨((shape_of_probing found).mp shape).2.1, ((shape_of_probing found).mp shape).2.2.1⟩

/-- Outside PROBING there is no probe record and no return state. -/
theorem no_probe_of_steady (shape : c.shape) (steady : c.state ≠ .probing) :
    c.probe = none ∧ c.returnState = none := by
  cases found : c.state with
  | probing => exact absurd found steady
  | disabled => exact ((shape_of_disabled found).mp shape).2.2.2
  | enabled => exact ((shape_of_enabled found).mp shape).2

theorem establish_shape (probe : c.probe = none) (back : c.returnState = none) : c.establish.shape :=
  (shape_of_enabled rfl).mpr ⟨⟨_, rfl, fun _ none => by cases none⟩, probe, back⟩

theorem disable_shape (probe : c.probe = none) (back : c.returnState = none) : c.disable.shape :=
  (shape_of_disabled rfl).mpr ⟨rfl, rfl, rfl, probe, back⟩

theorem endProbe_shape (c : Channel) : c.endProbe.shape := by
  unfold Channel.endProbe
  dsimp only
  split
  · exact establish_shape rfl rfl
  · exact disable_shape rfl rfl
  · exact disable_shape rfl rfl

theorem apply_shape (shape : c.shape) (steady : c.state ≠ .probing) (payload : List Byte) :
    (c.apply payload).shape := by
  obtain ⟨probe, back⟩ := no_probe_of_steady shape steady
  unfold Channel.apply
  dsimp only
  split
  · exact establish_shape probe back
  · exact disable_shape probe back

/-- The shape does not look at the comparator, the input and the glitch counter. -/
theorem Channel.shape.of_same (shape : c.shape) (state : d.state = c.state) (accepted : d.accepted = c.accepted)
    (pending : d.pending = c.pending) (inTransit : d.inTransit = c.inTransit) (probe : d.probe = c.probe)
    (back : d.returnState = c.returnState) : d.shape := by
  rwa [Channel.shape, state, accepted, pending, inTransit, probe, back]

/-- The comparator follows the input; all else that the laws of a channel look at stays (R14, R155). -/
theorem moveInput_frame (c : Channel) (level : Nat) :
    c.moveInput level
      = { c with input := level, comparator := (c.moveInput level).comparator } := by
  unfold Channel.moveInput
  split
  · rfl
  · rfl
  · split <;> rfl

theorem moveInput_shape (shape : c.shape) (level : Nat) : (c.moveInput level).shape := by
  rw [moveInput_frame]
  exact shape.of_same rfl rfl rfl rfl rfl rfl

theorem ChannelAct.shape (act : ChannelAct s t.jobs ch d) (shape : (s.channel ch).shape) : d.shape := by
  cases act with
  | keep => exact shape
  | reset => exact (shape_of_disabled rfl).mpr ⟨rfl, rfl, rfl, rfl, rfl⟩
  | revert due =>
    have enabled : (s.channel ch).state = .enabled := by simp [Channel.revertIsDue] at due; exact due.1.1.1
    obtain ⟨⟨a, accepted, -⟩, rest⟩ := (shape_of_enabled enabled).mp shape
    exact (shape_of_enabled (by exact enabled)).mpr ⟨⟨a, accepted, fun _ none => by cases none⟩, rest⟩
  | accept due =>
    have enabled : (s.channel ch).state = .enabled := by simp [Channel.acceptIsDue] at due; exact due.1.1
    obtain ⟨-, rest⟩ := (shape_of_enabled enabled).mp shape
    unfold Channel.accept
    split
    · exact shape
    · exact (shape_of_enabled (by exact enabled)).mpr ⟨⟨_, rfl, fun _ none => by cases none⟩, rest⟩
  | arrive e rest oldest =>
    have enabled : (s.channel ch).state = .enabled := by
      by_contra other
      rw [(quiet_of_not_enabled shape other).2] at oldest
      cases oldest
    exact (shape_of_enabled (by exact enabled)).mpr ((shape_of_enabled enabled).mp shape)
  | completeProbe | cancelProbe => exact endProbe_shape _
  | nextStep p probing =>
    obtain ⟨accepted, pending, inTransit, -, back⟩ := (shape_of_probing probing).mp shape
    exact (shape_of_probing (by exact probing)).mpr ⟨accepted, pending, inTransit, rfl, back⟩
  | moveInput level => exact moveInput_shape shape level
  | apply payload _ _ steady => exact apply_shape shape steady payload
  | zeroGlitches => exact shape
  | startProbe => exact (shape_of_probing rfl).mpr ⟨rfl, rfl, rfl, rfl, rfl⟩

theorem filterSample_shape (now : Tick) (enabled : c.state = .enabled) (shape : c.shape) :
    (c.filterSample now).shape := by
  obtain ⟨⟨a, accepted, away⟩, rest⟩ := (shape_of_enabled enabled).mp shape
  refine (shape_of_enabled (c := c.filterSample now) enabled).mpr ⟨⟨a, accepted, fun p pending => ?_⟩, rest⟩
  simp only [Channel.filterSample, accepted, Option.some.injEq] at pending
  split at pending
  · exact away p pending
  · rename_i differs
    cases found : c.pending with
    | none =>
      rw [found] at pending
      cases pending
      exact fun same => differs same.symm
    | some old =>
      rw [found] at pending
      cases pending
      exact away old found

theorem onTick_shape (now : Tick) (shape : c.shape) : (c.onTick now).shape := by
  unfold Channel.onTick
  split
  · exact shape
  · exact filterSample_shape now ‹_› shape
  · rename_i probing
    unfold Channel.probeSample
    split
    · exact shape
    · split
      · exact shape
      · obtain ⟨accepted, pending, inTransit, -, back⟩ := (shape_of_probing probing).mp shape
        exact (shape_of_probing (by exact probing)).mpr ⟨accepted, pending, inTransit, rfl, back⟩

theorem Effect.channelShapes (h : Effect s i t) (shapes : s.channelShapes) : t.channelShapes := by
  intro ch
  by_cases tick : ∃ rxd, i = .tick rxd
  · obtain ⟨rxd, rfl⟩ := tick
    cases h with
    | wait => exact shapes ch
    | tick _ => rw [onTick_channel]; exact onTick_shape _ (shapes ch)
    | answer _ asks answers => exact (answers.change.channel asks.1 ch).shape (shapes ch)
  · exact (h.channel (fun rxd is => tick ⟨rxd, is⟩) ch).shape (shapes ch)

end Sys2Proof.Machine
end

section
/-! PROOF. The channels of running jobs stay ENABLED (R24): a channel in use leaves ENABLED by no command, and a job
begins to run on ENABLED channels alone (R40). -/

namespace Sys2Proof.Machine

variable {s t : State} {i : Instr} {payload : List Byte} {ch : Fin 8} {c : Channel} {jobs : Vector Job 32}
  {d : Definition} {slot : Fin 32}

/-! ## A channel in use -/

/-- No command takes a channel in use out of ENABLED, but a reset, which frees every job. -/
theorem ChannelAct.enabled (act : ChannelAct s jobs ch c) (used : s.inUse ch = true)
    (enabled : (s.channel ch).state = .enabled) :
    c.state = .enabled ∨ jobs = Vector.replicate 32 .reset := by
  have notProbing (probing : (s.channel ch).state = .probing) : False := by
    rw [enabled] at probing
    cases probing
  cases act with
  | reset idle => exact .inr idle
  | accept => unfold Channel.accept; split <;> exact .inl enabled
  | moveInput => rw [moveInput_frame]; exact .inl enabled
  | completeProbe _ probing | nextStep _ probing | cancelProbe _ probing => exact (notProbing probing).elim
  | apply _ _ free | startProbe _ _ _ free => rw [used] at free; cases free
  | _ => exact .inl enabled

theorem onTick_state (now : Tick) (c : Channel) : (c.onTick now).state = c.state := by
  unfold Channel.onTick Channel.probeSample
  split
  · rfl
  · rfl
  · split
    · rfl
    · split <;> rfl

/-! ## A job that runs -/

/-- The job of the slot runs with the definition. -/
def State.runsAs (s : State) (slot : Fin 32) (d : Definition) : Prop :=
  (s.job slot).state.running = true ∧ (s.job slot).definition = some d

theorem State.runsAs.of_jobs (runs : t.runsAs slot d) (jobs : t.jobs = s.jobs) : s.runsAs slot d := by
  rwa [State.runsAs, State.job, ← jobs]

theorem not_runsAs_of_reset (jobs : t.jobs = Vector.replicate 32 .reset) : ¬t.runsAs slot d := by
  rw [State.runsAs, State.job, jobs, get_replicate]
  rintro ⟨running, -⟩
  cases running

/-- Acts of a job that runs leave no other job running. -/
theorem JobActs.runsAs {k : Fin 32} (acts : JobActs k s t) (running : (s.job k).state.running = true)
    (runs : t.runsAs slot d) : s.runsAs slot d := by
  obtain ⟨after, defined⟩ := runs
  rw [acts.definition] at defined
  by_cases own : slot = k
  · exact ⟨own ▸ running, defined⟩
  · rw [acts.job_ne own] at after
    exact ⟨after, defined⟩

theorem holdEdge_runsAs (e : AcceptedEdge) (runs : (s.holdEdge e).runsAs slot d) : s.runsAs slot d := by
  obtain ⟨held, joined⟩ := hold_eq e (s.job slot)
  rw [State.runsAs, State.holdEdge_job, joined] at runs
  exact runs

theorem arrive_runsAs (runs : (s.arrive ch).runsAs slot d) : s.runsAs slot d := by
  unfold State.arrive at runs
  dsimp only at runs
  split at runs
  · exact runs
  · exact (holdEdge_runsAs _ runs).of_jobs (logEdge_sameJobs _ _).jobs

/-- Under R95 an expiry is the act of a job that runs. -/
theorem expire_runsAs (law : s.deadlineLaw) (runs : s.expire.runsAs slot d) : s.runsAs slot d := by
  obtain same | ⟨e, rest, entries, acts⟩ := expire_cases s
  · rwa [same] at runs
  · obtain ⟨b, next, -⟩ := expire_eq_takeBoundary law entries
    obtain ⟨_, owner⟩ := runs_of_next (law.lawful e.slot) next
    exact acts.runsAs owner.running runs

/-- A slot written with a job that does not run, and the others as they were. -/
theorem setJob_runsAs {k : Fin 32} {j : Job} (stopped : j.state.running = false)
    (runs : (s.setJob k j).runsAs slot d) : s.runsAs slot d := by
  rw [State.runsAs, State.job_setJob] at runs
  split at runs
  · rw [stopped] at runs
    cases runs.1
  · exact runs

/-- A start finds every channel that the definition references ENABLED (R40). -/
theorem jobStartCheck_enabled (check : jobStartCheck payload s = .ok d) (reference : d.references ch = true) :
    (s.channel ch).state = .enabled := by
  unfold jobStartCheck at check
  simp only [ite_error_eq_ok] at check
  obtain ⟨-, -, -, check⟩ := check
  split at check
  · cases check
  · simp only [ite_error_eq_ok, Except.ok.injEq] at check
    obtain ⟨notDisabled, notProbing, -, -, rfl⟩ := check
    simp only [State.referencedIn, Bool.or_eq_true, Bool.and_eq_true, beq_iff_eq, not_or] at notDisabled notProbing
    simp only [Definition.references, Bool.or_eq_true, Bool.and_eq_true, beq_iff_eq] at reference
    have steady : (s.channel ch).state ≠ .disabled ∧ (s.channel ch).state ≠ .probing := by
      obtain channelA | ⟨phase, channelB⟩ := reference
      · exact channelA ▸ ⟨notDisabled.1, notProbing.1⟩
      · exact channelB ▸ ⟨fun is => notDisabled.2 ⟨phase, is⟩, fun is => notProbing.2 ⟨phase, is⟩⟩
    cases state : (s.channel ch).state <;> simp_all

/-- A job that runs after a request ran before it with the same definition, or the request has started it. -/
theorem Change.runsAs (h : Change payload s i t) (runs : t.runsAs slot d) :
    s.runsAs slot d ∨ ∀ ch, d.references ch = true → (t.channel ch).state = .enabled := by
  cases h with
  | softReset => exact absurd runs (not_runsAs_of_reset rfl)
  | jobDefine | jobClear => exact .inl (setJob_runsAs rfl runs)
  | jobStart check acts =>
    by_cases own : slot = slotField payload
    · subst own
      have defined : (s.job (slotField payload)).definition = some d := by
        have after := runs.2
        rwa [acts.definition, enrol_job, if_pos rfl] at after
      have started := (jobStartCheck_ok check).2.1
      rw [defined] at started
      cases started
      refine .inr fun ch reference => ?_
      rw [acts.channel]
      exact jobStartCheck_enabled (s := s) check reference
    · rw [State.runsAs, acts.job_ne own, enrol_job, if_neg own] at runs
      exact .inl runs
  | jobStop k acts running =>
    obtain ⟨after, defined⟩ := runs
    rw [acts.definition] at defined
    by_cases own : slot = k
    · subst own
      exact .inl ⟨running after, defined⟩
    · rw [acts.job_ne own] at after
      exact .inl ⟨after, defined⟩
  | limitSet k w =>
    rw [State.runsAs, State.job_evaluateAlert, State.job_setJob] at runs
    split at runs
    · rename_i own
      exact .inl (own ▸ runs)
    · exact .inl runs
  | _ => exact .inl (runs.of_jobs rfl)

theorem Effect.runsAs (h : Effect s i t) (law : s.deadlineLaw) (runs : t.runsAs slot d) :
    s.runsAs slot d ∨ ∀ ch, d.references ch = true → (t.channel ch).state = .enabled := by
  cases h with
  | powerReset => exact absurd runs (not_runsAs_of_reset rfl)
  | refLoss => exact .inl (runs.of_jobs (by rw [declareLoss_frame]))
  | edgeArrival => exact .inl (arrive_runsAs runs)
  | edgeSeen k due =>
    have running : (s.job k).state.running = true := by simp [Job.seenIsDue] at due; exact due.1
    exact .inl ((see_acts ..).runsAs running runs)
  | deadlineExpiry => exact .inl (expire_runsAs law runs)
  | probeStep => exact .inl (runs.of_jobs (by rw [decideStep_frame]))
  | receiveFrame => exact .inl (runs.of_jobs (by rw [takeFrame_spares]; rfl))
  | linkReset => exact .inl (runs.of_jobs (by rw [resetNotices_frame]))
  | replyBegin => exact .inl (runs.of_jobs (by rw [beginReply_frame]))
  | noticeBegin => exact .inl (runs.of_jobs (by rw [beginNotice_frame]))
  | answer _ _ answers => exact answers.change.runsAs runs
  | _ => exact .inl (runs.of_jobs rfl)

/-! ## Every command -/

theorem Effect.channelsInUseEnabled (h : Effect s i t) (law : s.deadlineLaw)
    (enabled : s.channelsInUseEnabled) : t.channelsInUseEnabled := by
  intro slot d ch running defined reference
  obtain before | started := h.runsAs law ⟨running, defined⟩
  · have was := enabled slot d ch before.1 before.2 reference
    have used : s.inUse ch = true := inUse_iff_claimed.mpr ⟨slot, d, before.1, before.2, reference⟩
    by_cases tick : ∃ rxd, i = .tick rxd
    · obtain ⟨rxd, rfl⟩ := tick
      cases h with
      | wait => exact was
      | tick _ => rw [onTick_channel, onTick_state]; exact was
      | answer _ _ answers => cases answers.change; exact was
    · obtain still | idle := (h.channel (fun rxd is => tick ⟨rxd, is⟩) ch).enabled used was
      · exact still
      · exact absurd ⟨running, defined⟩ (not_runsAs_of_reset idle)
  · exact started ch reference

end Sys2Proof.Machine
end

section
/-! PROOF. At most two edges of a channel are in transit (R17 to R20): an acceptance finds its pending transition as
old as its run, so the new edge arrives two ticks later, and every edge before it within one. -/

namespace Sys2Proof.Machine

variable {s t : State} {i : Instr} {payload : List Byte} {ch : Fin 8} {c d : Channel} {jobs : Vector Job 32}
  {now : Tick}

/-! ## Ticks of an edge -/

theorem tickAfter_zero (t : Tick) : tickAfter t 0 = t := by simp [tickAfter]

theorem tickAfter_add (t : Tick) (m n : Nat) : tickAfter t (m + n) = tickAfter (tickAfter t m) n := by
  simp only [tickAfter, BitVec.ofNat_add]
  rw [BitVec.add_assoc]

theorem tickAfter_one (t : Tick) : tickAfter t 1 = t + 1 := rfl

/-- A run of samples is one older after one more tick. -/
theorem tickAfter_pred_succ {t : Tick} {n : Nat} (positive : 1 ≤ n) (old : tickAfter t (n - 1) = now) :
    tickAfter t n = now + 1 := by
  obtain ⟨m, rfl⟩ : ∃ m, n = m + 1 := ⟨n - 1, by omega⟩
  rw [tickAfter_add, tickAfter_one, ← old, Nat.add_sub_cancel]

theorem distance_eq_zero {a b : Tick} (h : distance a b = 0) : a = b := by
  unfold distance at h
  bv_omega

/-! ## The law of one channel -/

theorem transitLaw_of_quiet (pending : c.pending = none) (inTransit : c.inTransit = []) : c.transitLaw now := by
  refine ⟨?_, ?_, ?_, ?_⟩ <;> simp [pending, inTransit]

/-- The law looks at six fields of the channel. -/
theorem Channel.transitLaw.of_same (law : c.transitLaw now) (filter : d.filter = c.filter)
    (inTransit : d.inTransit = c.inTransit) (pending : d.pending = c.pending) (sample : d.sample = c.sample)
    (accepted : d.accepted = c.accepted) : d.transitLaw now := by
  have ahead (e : AcceptedEdge) : d.ahead now e = c.ahead now e := by
    rw [Channel.ahead, Channel.arrivalTick, filter]; rfl
  have aheads : d.ahead now = c.ahead now := funext ahead
  rwa [Channel.transitLaw, filter, inTransit, pending, sample, accepted, aheads]

theorem arrivalIsDue_cons {e : AcceptedEdge} {rest : List AcceptedEdge} (oldest : c.inTransit = e :: rest) :
    c.arrivalIsDue now = true ↔ now = c.arrivalTick e := by
  simp [Channel.arrivalIsDue, oldest]

/-- With no arrival due, every edge in transit still has a tick to go. -/
theorem ahead_pos (law : c.transitLaw now) (notDue : c.arrivalIsDue now = false) :
    ∀ e ∈ c.inTransit, 1 ≤ c.ahead now e := by
  intro e member
  cases inTransit : c.inTransit with
  | nil => rw [inTransit] at member; cases member
  | cons first rest =>
    have positive : 1 ≤ c.ahead now first := by
      by_contra none
      have arrives := distance_eq_zero (show distance now (c.arrivalTick first) = 0 from by
        simp only [Channel.ahead] at none; omega)
      rw [(arrivalIsDue_cons inTransit).mpr arrives] at notDue
      cases notDue
    rw [inTransit] at member
    obtain rfl | behind := List.mem_cons.mp member
    · exact positive
    · have order := law.2.1
      rw [inTransit, List.map_cons, List.pairwise_cons] at order
      have later := order.1 _ (List.mem_map_of_mem behind)
      omega

/-- After a revert nothing is pending (R18). -/
theorem transitLaw_without_pending (law : c.transitLaw now) (filter : d.filter = c.filter)
    (inTransit : d.inTransit = c.inTransit) (pending : d.pending = none) : d.transitLaw now := by
  have aheads : d.ahead now = c.ahead now := by
    funext e
    rw [Channel.ahead, Channel.arrivalTick, filter]; rfl
  obtain ⟨two, order, near, -⟩ := law
  rw [Channel.transitLaw, inTransit, pending, aheads]
  exact ⟨two, order, near, fun _ none => by cases none⟩

/-- An arrival takes the oldest edge out (R20). -/
theorem arrive_transitLaw {e : AcceptedEdge} {rest : List AcceptedEdge} (law : c.transitLaw now)
    (oldest : c.inTransit = e :: rest) : ({ c with inTransit := rest } : Channel).transitLaw now := by
  obtain ⟨two, order, near, pending⟩ := law
  rw [oldest] at two order near pending
  refine ⟨Nat.le_of_succ_le two, (List.pairwise_cons.mp order).2, fun x member => near x (.tail _ member), ?_⟩
  intro p found
  obtain ⟨one, most, young, reverting, within⟩ := pending p found
  exact ⟨one, most, young, reverting, fun x member => within x (.tail _ member)⟩

/-- An edge is accepted as its run reaches the filter width plus 1, so it arrives two ticks later; any edge
before it arrives at the next tick, since none arrives at this one (R17, R19, R20). -/
theorem accept_transitLaw (law : c.transitLaw now) (due : c.acceptIsDue now = true) (ch : Fin 8) :
    (c.accept ch).transitLaw now := by
  simp only [Channel.acceptIsDue, Bool.and_eq_true, Bool.not_eq_true'] at due
  obtain ⟨⟨-, notArriving⟩, full⟩ := due
  cases found : c.pending with
  | none => rw [found] at full; cases full
  | some p =>
    rw [found] at full
    have full : p.run = c.filter + 1 := by simpa using full
    have positive := ahead_pos law notArriving
    obtain ⟨-, order, -, pending⟩ := law
    obtain ⟨-, -, young, reverting, within⟩ := pending p found
    have fresh : c.sample ≠ c.accepted := fun reverts => by
      have := (reverting reverts).1
      omega
    have sampled : tickAfter p.firstTick c.filter = now := by
      have := young fresh
      rwa [full, Nat.add_sub_cancel] at this
    have before (e : AcceptedEdge) (member : e ∈ c.inTransit) : c.ahead now e = 1 := by
      have := positive e member
      have := within e member
      omega
    have accepted : c.accept ch = { c with
        accepted := some p.level, pending := none
        inTransit := c.inTransit ++ [⟨ch, p.firstTick, Level.polarity p.level⟩] } := by
      simp only [Channel.accept, found]
    have arrives : c.ahead now ⟨ch, p.firstTick, Level.polarity p.level⟩ = 2 := by
      rw [Channel.ahead, Channel.arrivalTick, tickAfter_add, sampled, distance, tickAfter]
      bv_omega
    rw [accepted]
    refine ⟨?_, ?_, ?_, fun _ none => by cases none⟩
    · rw [List.length_append, List.length_singleton]
      match inTransit : c.inTransit with
      | [] | [_] => simp
      | a :: b :: rest =>
        rw [inTransit] at before order
        rw [List.map_cons, List.map_cons, List.pairwise_cons] at order
        have later := order.1 _ (.head _)
        rw [before a (by simp), before b (by simp)] at later
        exact absurd later (Nat.lt_irrefl 1)
    · show (List.map (c.ahead now) _).Pairwise _
      rw [List.map_append, List.map_singleton, List.pairwise_append]
      refine ⟨order, List.pairwise_singleton .., ?_⟩
      rintro a member b last
      obtain ⟨e, edge, rfl⟩ := List.mem_map.mp member
      rw [List.mem_singleton] at last
      rw [last, arrives, before e edge]
      exact Nat.one_lt_two
    · intro e member
      show c.ahead now e ≤ 2
      obtain old | new := List.mem_append.mp member
      · rw [before e old]
        exact Nat.le_succ 1
      · rw [List.mem_singleton.mp new, arrives]

/-! ## A tick -/

/-- The edges come one tick nearer, and a run that grows is one sample longer (R16, R17). -/
theorem filterSample_transitLaw (law : c.transitLaw now) (enabled : c.state = .enabled)
    (accepted : c.accepted.isSome = true) (rest : c.eventIsDue now = false) :
    (c.filterSample (now + 1)).transitLaw (now + 1) := by
  simp only [Channel.eventIsDue, Bool.or_eq_false_iff] at rest
  obtain ⟨⟨⟨noRevert, noAccept⟩, noArrival⟩, -⟩ := rest
  have positive := ahead_pos law noArrival
  have nearer (e : AcceptedEdge) (member : e ∈ c.inTransit) : c.ahead (now + 1) e + 1 = c.ahead now e := by
    refine distance_next fun arrives => ?_
    have := positive e member
    rw [Channel.ahead, ← arrives, distance_self] at this
    omega
  have aheads : (c.filterSample (now + 1)).ahead (now + 1) = c.ahead (now + 1) := rfl
  obtain ⟨two, order, near, pending⟩ := law
  have old (p : PendingTransition) (found : c.pending = some p) :
      1 ≤ p.run ∧ p.run ≤ c.filter ∧ tickAfter p.firstTick p.run = now + 1
        ∧ ∀ e ∈ c.inTransit, c.ahead (now + 1) e + p.run + 1 ≤ 2 := by
    obtain ⟨one, most, young, -, within⟩ := pending p found
    have fresh : c.sample ≠ c.accepted := fun reverts => by
      simp [Channel.revertIsDue, enabled, found, reverts, accepted] at noRevert
    have unripe : p.run ≠ c.filter + 1 := fun full => by
      simp [Channel.acceptIsDue, enabled, found, full, noArrival] at noAccept
    refine ⟨one, by omega, tickAfter_pred_succ one (young fresh), fun e member => ?_⟩
    have := within e member
    have := nearer e member
    omega
  rw [Channel.transitLaw, aheads]
  refine ⟨two, ?_, fun e member => ?_, fun p found => ?_⟩
  · show (c.inTransit.map _).Pairwise _
    rw [List.pairwise_map] at order ⊢
    refine List.Pairwise.imp_of_mem ?_ order
    intro a b ma mb later
    have := nearer a ma
    have := nearer b mb
    omega
  · have := near e member
    have := nearer e member
    omega
  · simp only [Channel.filterSample] at found ⊢
    split at found
    · rename_i equal
      obtain ⟨one, most, aged, within⟩ := old p found
      refine ⟨one, by omega, fun differs => absurd equal.symm differs, fun _ => ⟨most, aged⟩, fun e member => ?_⟩
      have := within e member
      omega
    · rename_i differs
      cases before : c.pending with
      | none =>
        rw [before] at found
        cases found
        refine ⟨le_refl _, Nat.le_add_left .., fun _ => tickAfter_zero _, fun same => absurd same.symm differs,
          fun e member => ?_⟩
        have := near e member
        have := nearer e member
        show _ + 1 ≤ 2
        omega
      | some q =>
        rw [before] at found
        cases found
        obtain ⟨one, most, aged, within⟩ := old q before
        refine ⟨Nat.le_add_left .., Nat.succ_le_succ most, fun _ => aged, fun same => absurd same.symm differs,
          fun e member => ?_⟩
        have := within e member
        show _ + (q.run + 1) ≤ 2
        omega

theorem onTick_transitLaw (law : c.transitLaw now) (shape : c.shape) (rest : c.eventIsDue now = false) :
    (c.onTick (now + 1)).transitLaw (now + 1) := by
  by_cases enabled : c.state = .enabled
  · obtain ⟨⟨a, accepted, -⟩, -⟩ := (shape_of_enabled enabled).mp shape
    have sampled : c.onTick (now + 1) = c.filterSample (now + 1) := by simp [Channel.onTick, enabled]
    rw [sampled]
    exact filterSample_transitLaw law enabled (by rw [accepted]; rfl) rest
  · obtain ⟨pending, inTransit⟩ := quiet_of_not_enabled (onTick_shape (now + 1) shape) (by rwa [onTick_state])
    exact transitLaw_of_quiet pending inTransit

/-! ## Every other command -/

theorem establish_transitLaw (c : Channel) : c.establish.transitLaw now := transitLaw_of_quiet rfl rfl

theorem disable_transitLaw (c : Channel) : c.disable.transitLaw now := transitLaw_of_quiet rfl rfl

theorem endProbe_transitLaw (c : Channel) : c.endProbe.transitLaw now := by
  unfold Channel.endProbe
  dsimp only
  split
  · exact establish_transitLaw _
  · exact disable_transitLaw _
  · exact disable_transitLaw _

theorem ChannelAct.transitLaw (act : ChannelAct s jobs ch d) (shape : (s.channel ch).shape)
    (law : (s.channel ch).transitLaw s.now) : d.transitLaw s.now := by
  cases act with
  | keep => exact law
  | reset => exact transitLaw_of_quiet rfl rfl
  | revert => exact transitLaw_without_pending law rfl rfl rfl
  | accept due => exact accept_transitLaw law due ch
  | arrive e rest oldest => exact arrive_transitLaw law oldest
  | completeProbe | cancelProbe => exact endProbe_transitLaw _
  | nextStep p probing =>
    obtain ⟨-, pending, inTransit, -, -⟩ := (shape_of_probing probing).mp shape
    exact transitLaw_of_quiet pending inTransit
  | moveInput level => rw [moveInput_frame]; exact law.of_same rfl rfl rfl rfl rfl
  | apply payload =>
    unfold Channel.apply
    dsimp only
    split
    · exact establish_transitLaw _
    · exact disable_transitLaw _
  | zeroGlitches => exact law.of_same rfl rfl rfl rfl rfl
  | startProbe => exact transitLaw_of_quiet rfl rfl

/-- Before tick 0 has been counted, no command enables a channel: requests wait for the end of initialisation. -/
theorem ChannelAct.disabled (act : ChannelAct s jobs ch d) (running : s.link.initialised = false)
    (shape : (s.channel ch).shape) (disabled : (s.channel ch).state = .disabled) : d.state = .disabled := by
  have quiet := quiet_of_not_enabled shape (by rw [disabled]; decide)
  cases act with
  | reset => rfl
  | accept => unfold Channel.accept; split <;> exact disabled
  | completeProbe _ probing | nextStep _ probing | cancelProbe _ probing =>
    rw [disabled] at probing
    cases probing
  | moveInput => rw [moveInput_frame]; exact disabled
  | apply _ ended | startProbe _ _ ended => rw [running] at ended; cases ended
  | _ => exact disabled

/-! ## Before tick 0 -/

/-- Only a tick counts a tick, and only the reset makes the last abnormal tick absent (R1, R9). -/
theorem exec_clock (h : completes i s t) (noTick : ∀ rxd, i ≠ .tick rxd)
    (noReset : ∀ rate1 rate0, i ≠ .powerReset rate1 rate0) :
    t.now = s.now ∧ (t.timebase.lastAbnormal = none → s.timebase.lastAbnormal = none) := by
  cases i with
  | powerReset rate1 rate0 => exact absurd rfl (noReset rate1 rate0)
  | tick rxd => exact absurd rfl (noTick rxd)
  | refclkEdge => cases h; split <;> exact ⟨rfl, id⟩
  | refLoss =>
    cases h
    split
    · refine ⟨declareLoss_tick s, fun none => ?_⟩
      cases state : s.timebase.state <;> simp_all [State.declareLoss]
    · exact ⟨rfl, id⟩
  | regain =>
    cases h
    split
    · exact ⟨rfl, fun none => by simp [State.becomeNormal] at none⟩
    · exact ⟨rfl, id⟩
  | _ =>
    have same := exec_timebase rfl h
    rw [State.now, same]
    exact ⟨rfl, id⟩

/-- While no tick has been counted the initialisation goes on: it ends at tick 80,000 (R176). -/
theorem Effect.initialising (h : Effect s i t) (noTick : ∀ rxd, i ≠ .tick rxd) (law : s.timebase.lawful)
    (uncounted : s.timebase.lastAbnormal = none) (running : s.link.initialised = false) :
    t.link.initialised = false := by
  cases h with
  | powerReset => rfl
  | initEnd due =>
    obtain ⟨-, -, -, -, -, -, atZero, -⟩ := law
    have now : s.now = 0 := (atZero uncounted).2.1
    simp [initEndIsDue, now, tickAfter, Config.initTicks] at due
  | refLoss => rw [declareLoss_frame]; exact running
  | edgeArrival => rw [arrive_frame]; exact running
  | edgeSeen => rw [(see_acts ..).link]; exact running
  | deadlineExpiry => rw [expire_keeps_frame State.link JobActs.link fun _ _ => rfl]; exact running
  | probeStep => rw [decideStep_frame]; exact running
  | receiveFrame => rw [takeFrame_spares]; exact running
  | linkReset => rw [resetNotices_frame]; exact running
  | replyBegin => rw [beginReply_frame]; exact running
  | noticeBegin => rw [beginNotice_frame]; exact running
  | tick rxd => exact absurd rfl (noTick rxd)
  | answer _ asks => rw [asks.1] at running; cases running
  | _ => exact running

/-- A tick that does not wait finds no event of a channel (assumption 5). -/
theorem channel_rests (rest : workIsDue s = false) (ch : Fin 8) : (s.channel ch).eventIsDue s.now = false := by
  simp only [workIsDue, Bool.or_eq_false_iff] at rest
  obtain ⟨⟨⟨⟨⟨⟨⟨⟨⟨⟨⟨⟨-, rests⟩, -⟩, -⟩, -⟩, -⟩, -⟩, -⟩, -⟩, -⟩, -⟩, -⟩, -⟩ := rest
  rw [Bool.eq_false_iff] at rests ⊢
  exact fun due => rests ((anyIn_eq_true _ _).mpr ⟨ch, due⟩)

/-- A counted tick is the last abnormal one, or leaves an earlier one so (R9). -/
theorem onTick_counted (law : s.timebase.lawful) : s.timebase.onTick.lastAbnormal ≠ none := by
  obtain ⟨-, -, -, -, -, -, unticked, -⟩ := law
  intro none
  cases state : s.timebase.state <;> simp_all [Timebase.onTick]

theorem State.onTick_transitLaw (timebase : s.timebase.lawful) (shapes : s.channelShapes) (law : s.transitLaw)
    (rest : workIsDue s = false) (rxd : Level) : (s.onTick rxd).transitLaw := by
  obtain ⟨before, transit⟩ := law
  refine ⟨fun none => absurd none (onTick_counted timebase), fun ch => ?_⟩
  rw [onTick_channel]
  cases counted : s.timebase.lastAbnormal with
  | none =>
    have disabled := (before counted).2 ch
    obtain ⟨pending, inTransit⟩ := quiet_of_not_enabled (shapes ch) (by rw [disabled]; decide)
    have still (now : Tick) : (s.channel ch).onTick now = s.channel ch := by
      unfold Channel.onTick; rw [disabled]
    rw [still]
    exact transitLaw_of_quiet pending inTransit
  | some a =>
    have next : s.timebase.onTick.tick = s.now + 1 := nextTick_of_some counted
    show Channel.transitLaw s.timebase.onTick.tick _
    rw [next]
    exact Machine.onTick_transitLaw (transit ch) (shapes ch) (channel_rests rest ch)

/-- The law of the edges in transit, over every command. -/
theorem exec_transitLaw (h : completes i s t) (timebase : s.timebase.lawful) (shapes : s.channelShapes)
    (law : s.transitLaw) : t.transitLaw := by
  have effect := effect_of_completes h
  by_cases tick : ∃ rxd, i = .tick rxd
  · obtain ⟨rxd, rfl⟩ := tick
    cases effect with
    | wait => exact law
    | tick _ rest => exact State.onTick_transitLaw timebase shapes law rest rxd
    | answer _ asks answers =>
      cases answers.change
      exact law
  · have noTick : ∀ rxd, i ≠ .tick rxd := fun rxd is => tick ⟨rxd, is⟩
    by_cases reset : ∃ rate1 rate0, i = .powerReset rate1 rate0
    · obtain ⟨rate1, rate0, rfl⟩ := reset
      cases h
      have channels (ch : Fin 8) := channel_reset_of_mapBank (s := s)
        (t := { State.reset with
          channels := mapBank (fun (c : Channel) => Channel.reset c.input) s.channels
          link := .reset (strapRate rate1 rate0) s.link.rxd
          pending := s.pending }) rfl ch
      refine ⟨fun _ => ⟨rfl, fun ch => by rw [channels]; rfl⟩, fun ch => ?_⟩
      rw [channels]
      exact transitLaw_of_quiet rfl rfl
    · obtain ⟨now, counted⟩ := exec_clock h noTick fun r1 r0 is => reset ⟨r1, r0, is⟩
      refine ⟨fun none => ?_, fun ch => ?_⟩
      · have uncounted := counted none
        obtain ⟨running, disabled⟩ := law.1 uncounted
        exact ⟨effect.initialising noTick timebase uncounted running,
          fun ch => (effect.channel noTick ch).disabled running (shapes ch) (disabled ch)⟩
      · rw [now]
        exact (effect.channel noTick ch).transitLaw (shapes ch) (law.2 ch)

/-- Settles O20: the effect of the front command keeps the three laws. -/
theorem everyStepKeepsTheChannelLaws : Obligations.EveryStepKeepsTheChannelLaws := by
  intro s t h
  unfold step at h
  split at h
  · cases h
    exact ⟨id, fun _ => id, fun _ _ => id⟩
  · have effect := effect_of_completes h
    exact ⟨effect.channelShapes, effect.channelsInUseEnabled, fun timebase shapes law => exec_transitLaw h timebase shapes law⟩

end Sys2Proof.Machine
end

section
/-! PROOF. The timebase: what a tick counts (R1, R5, R8, R9, R187), the edge of REFCLK, the loss, the regain (R5 to
R8), and what TIME reports (R12). -/

namespace Sys2Proof.Machine

variable {s t u v : State} {i : Instr} {tag : Byte} {rest : List Request} {tb : Timebase}

/-- An event command whose condition holds has its effect. -/
theorem completes_of_due {due : Prop} [Decidable due] (row : exec i s = .next (if due then t else s))
    (holds : due) : completes i s t :=
  row.trans (congrArg _ (if_pos holds))

/-! ## TICK -/

theorem tick_completes (rests : workIsDue s = false) (rxd : Level) : completes (.tick rxd) s (s.onTick rxd) :=
  congrArg Host.Outcome.next (if_neg (Bool.eq_false_iff.mp rests))

/-- A RXD line that is high in IN_BREAK makes the link reset due (R187). -/
theorem onTick_resetDue (l : Link) (now : Tick) (rxd : Level) :
    (l.onTick now rxd).resetDue = true ↔ l.resetDue = true ∨ l.breakState = .inBreak ∧ rxd = .high := by
  simp [Link.onTick]

/-- The line-low count, outside the initialisation and IN_BREAK (R187). -/
theorem onTick_lineLow (l : Link) (now : Tick) (rxd : Level) :
    (l.onTick now rxd).lineLow =
      if l.initialised = false ∨ l.breakState = .inBreak then l.lineLow
      else if rxd = .low then min (l.lineLow + 1) 80000 else 0 := by
  simp only [Link.onTick, Bool.or_eq_true, Bool.not_eq_true', decide_eq_true_eq, Config.breakTicks]

/-- Settles O9: each count of the next tick is read off the tick in its block. -/
theorem tickCountsTime : Obligations.TickCountsTime := by
  intro s rxd rests
  refine ⟨s.onTick rxd, tick_completes rests rxd, ?_, rfl, rfl, rfl, ?_, rfl, ?_, ?_, rfl, ?_, ?_, rfl⟩
  · cases counted : s.timebase.lastAbnormal <;>
      simp [State.now, State.onTick, Timebase.onTick, Timebase.nextTick, counted]
  · simp [State.onTick, Timebase.onTick, Config.lossTicks]
  · intro abnormal
    have abnormal : (s.timebase.state != .normal) = true := by simpa using abnormal
    simp [State.onTick, Timebase.onTick, State.now, abnormal, Config.regainTicks]
  · intro normal
    have normal : (s.timebase.state != .normal) = false := by simpa using normal
    simp only [State.onTick, Timebase.onTick, normal]
    exact ⟨rfl, rfl, rfl⟩
  · exact onTick_lineLow ..
  · exact onTick_resetDue ..

/-! ## The edge of REFCLK, the regain and the loss (R5 to R8) -/

theorem refclkEdge_seen (noLoss : s.timebase.lossTaken = false) :
    completes .refclkEdge s { s with timebase := s.timebase.onEdge } :=
  congrArg Host.Outcome.next (if_neg (Bool.eq_false_iff.mp noLoss))

theorem refclkEdge_unseen (lost : s.timebase.lossTaken = true) : completes .refclkEdge s s :=
  congrArg Host.Outcome.next (if_pos lost)

/-- An edge begins a presence while the count is 80 and no loss is due, in START and HOLDOVER (R8). -/
theorem onEdge_regain (tb : Timebase) :
    tb.onEdge.regain =
      if tb.state ≠ .normal ∧ tb.sinceEdge = 80 ∧ tb.lossDue = false then some 0 else tb.regain := by
  simp only [Timebase.onEdge, Bool.and_eq_true, bne_iff_ne, beq_iff_eq, Bool.not_eq_true', and_assoc,
    Config.lossTicks]

/-- Settles O10: an edge that the loss of its tick does not forestall, and the regain. -/
theorem presenceAndRegain : Obligations.PresenceAndRegain := by
  refine ⟨fun s => ⟨fun seen => ?_, refclkEdge_unseen⟩, fun s abnormal full noLoss => ?_⟩
  · rw [← onEdge_regain]
    exact refclkEdge_seen seen
  · exact completes_of_due (row := rfl) (by simp [regainIsDue, abnormal, full, noLoss, Config.regainTicks])

/-- In START and HOLDOVER a loss abandons the regain and nothing else (R7). -/
theorem declareLoss_of_abnormal (abnormal : s.timebase.state ≠ .normal) :
    s.declareLoss = { s with timebase := { s.timebase with
      regain := none, lossDue := false, lossTaken := true } } := by
  unfold State.declareLoss
  dsimp only
  split
  · exact absurd ‹_› abnormal
  · rfl
  · rfl

/-- After a loss at the count of 80 the first edge of a later tick begins a presence (R5, R7, R8). -/
theorem edge_after_loss (abnormal : s.timebase.state ≠ .normal) (full : s.timebase.sinceEdge = 80) (rxd : Level) :
    (s.onTick rxd).timebase.onEdge.regain = some 0 := by
  rw [onEdge_regain, if_pos]
  exact ⟨abnormal, by simp [State.onTick, Timebase.onTick, full, Config.lossTicks],
    by simp [State.onTick, Timebase.onTick, full, Config.lossTicks]⟩

/-- Settles O11: the loss in NORMAL, and the loss in START and HOLDOVER with the edges that follow. -/
theorem lossDeclared : Obligations.LossDeclared := by
  intro s due
  have lost : completes .refLoss s s.declareLoss := completes_of_due (row := rfl) due
  refine ⟨fun normal => ?_, fun abnormal => ?_⟩
  · have entered : s.declareLoss = ({ s with timebase := { s.timebase with
        state := .holdover, holdoverEntries := min (s.timebase.holdoverEntries + 1) 65535,
        regain := none, lastAbnormal := some s.now, abnormalAge := 0, lossDue := false,
        lossTaken := true } }).raise .device 0x10#8 := by
      simp only [State.declareLoss, normal]
      rfl
    rwa [entered] at lost
  · rw [declareLoss_of_abnormal abnormal] at lost
    refine ⟨_, lost, rfl, refclkEdge_unseen rfl, fun full rxd u v rests ticked edge => ?_⟩
    cases (tick_completes rests rxd).symm.trans ticked
    cases (refclkEdge_seen (by rfl)).symm.trans edge
    exact edge_after_loss (s := { s with timebase := { s.timebase with
      regain := none, lossDue := false, lossTaken := true } }) abnormal full rxd

/-! ## TIME (R12) -/

theorem time_of_asks (q : s.asks tag 0x03 [] rest) (settled : referenceIsDue s = false) :
    completes .time s (s.answered tag rest 0x00 (time [] s).payload) := by
  have served : s.serve .time anyPayload time = finishRequest ⟨tag, 0x03, []⟩ (time [] s) :=
    serve_of_asks q rfl rfl (genericCheck_none rfl rfl)
  exact congrArg Host.Outcome.next
    ((if_neg (Bool.eq_false_iff.mp settled)).trans (served.trans (finishRequest_eq rfl q)))

/-- In NORMAL the last abnormal tick is a distance behind that R3 reads as earlier (R9). -/
theorem lastAbnormal_earlier {last : Tick} (law : tb.lawful) (normal : tb.state = .normal)
    (counted : tb.lastAbnormal = some last) (young : tb.abnormalAge < 2 ^ 47) :
    last ≠ tb.tick ∧ notEarlier last tb.tick = false := by
  obtain ⟨-, -, -, -, -, -, -, -, age⟩ := law
  obtain ⟨positive, back⟩ := age normal last counted
  have behind := back young
  unfold distance at behind
  refine ⟨fun same => ?_, ?_⟩
  · rw [same] at behind
    simp at behind
    omega
  · have far : 2 ^ 47 ≤ (last - tb.tick).toNat := by
      have negated : last - tb.tick = -(tb.tick - last) := by simp
      rw [negated, BitVec.toNat_neg, behind, Nat.mod_eq_of_lt (by omega)]
      omega
    exact decide_eq_false (Nat.not_lt.mpr far)

/-- Settles O12: the reply is the report of TIME, and the law of the timebase places the last abnormal tick. -/
theorem timeReportsTheTimebase : Obligations.TimeReportsTheTimebase := by
  intro s tag rest last q settled counted
  refine ⟨?_, fun law => ⟨fun abnormal => ?_, fun normal young => lastAbnormal_earlier law normal counted young⟩⟩
  · have reported := time_of_asks q settled
    rw [time, okay, Timebase.lastAbnormalTick, counted, leBytes_timebaseState] at reported
    exact reported
  · obtain ⟨-, -, -, -, -, -, -, here, -⟩ := law
    exact (here abnormal last counted).1

end Sys2Proof.Machine
end

section
/-! PROOF. The resets: the state after reset meets every law, power reset sets every block (R13, R30, R60, R104,
R121, R133, R150, R172, R176), and SOFT_RESET every block but the timebase and the link (R191). -/

namespace Sys2Proof.Machine

variable {s t : State} {tag : Byte} {rest : List Request} {slot : Fin 32} {ch : Fin 8}

/-! ## Banks at their reset values -/

theorem job_of_reset (jobs : t.jobs = Vector.replicate 32 .reset) (slot : Fin 32) : t.job slot = Job.reset := by
  rw [State.job, jobs, get_replicate]

theorem capture_of_reset (captures : t.captures = Vector.replicate 8 .reset) (ch : Fin 8) :
    t.capture ch = CaptureQueue.reset := by
  rw [State.capture, captures, get_replicate]

theorem freeCells_of_reset (captures : t.captures = Vector.replicate 8 .reset) : t.freeCells = 512 := by
  rw [State.freeCells, captures]
  decide

theorem channel_reset (ch : Fin 8) : State.reset.channel ch = Channel.reset 0 := get_replicate ..

/-! ## The laws after reset -/

theorem deadlineLaw_of_reset (jobs : t.jobs = Vector.replicate 32 .reset) (deadlines : t.deadlines = .reset) :
    t.deadlineLaw := by
  refine ⟨?_, ?_, fun k => ?_⟩
  · rw [deadlines, State.runningJobs, jobs, countIn_replicate _ _ _ rfl]
    rfl
  · rw [deadlines]
    exact Nat.zero_le 24
  · rw [job_of_reset jobs, deadlines]
    exact ⟨rfl, rfl⟩

theorem reset_capacities : State.reset.capacities :=
  have fits := resultsFit_of_reset (t := State.reset) rfl
  have pool := poolFits_of_reset (t := State.reset) rfl
  ⟨fits.1, fits.2.1, fits.2.2, Nat.zero_le 4, Nat.zero_le 4, Nat.one_le_ofNat, pool.1, pool.2⟩

theorem reset_transitLaw : State.reset.transitLaw := by
  refine ⟨fun _ => ⟨rfl, fun ch => ?_⟩, fun ch => ?_⟩
  · rw [channel_reset]
    rfl
  · rw [channel_reset]
    exact transitLaw_of_quiet rfl rfl

/-- Settles O3: a law at a time, each from the reset values of the blocks that it speaks of. -/
theorem resetIsLawful : Obligations.ResetIsLawful := by
  refine ⟨reset_lawful, deadlineLaw_of_reset rfl rfl, deadlineOrder_of_empty rfl, fun slot d ch running => ?_,
    fun ch => ?_, reset_capacities, alertLaw_of_reset rfl rfl, ?_, ?_, reset_transitLaw,
    fun slot d defined => ?_, ?_⟩
  · rw [job_of_reset (t := State.reset) rfl] at running
    cases running
  · rw [channel_reset]
    exact (shape_of_disabled rfl).mpr ⟨rfl, rfl, rfl, rfl, rfl⟩
  · exact List.nodup_singleton _
  · exact ⟨⟨nofun, nofun⟩, fun _ => ⟨rfl, rfl, rfl⟩⟩
  · rw [job_of_reset (t := State.reset) rfl] at defined
    cases defined
  · exact reset_counters (Nat.zero_le _) (fun ch => ⟨0, channel_reset ch⟩) rfl rfl rfl
      ⟨zero_bounded, Nat.zero_le _⟩

/-! ## POWER_RESET -/

/-- Settles O4: each block of the state that a power reset leaves is the block of the reset state. -/
theorem powerResetSetsEveryBlock : Obligations.PowerResetSetsEveryBlock := by
  intro rate1 rate0 s
  refine ⟨_, rfl, rfl, channel_reset_of_mapBank rfl, capture_of_reset rfl, freeCells_of_reset rfl,
    job_of_reset rfl, rfl, rfl, rfl, rfl, ?_, rfl, rfl, rfl, rfl, rfl, rfl, rfl, rfl, rfl, rfl, rfl, rfl, rfl, rfl⟩
  cases rate1 <;> cases rate0 <;> rfl

/-! ## SOFT_RESET (R191) -/

theorem softReset_of_asks (q : s.asks tag 0x05 [] rest) :
    completes .softReset s ((softReset [] s).state.answered tag rest 0x00 []) := by
  have served : s.serve .softReset anyPayload softReset = finishRequest ⟨tag, 0x05, []⟩ (softReset [] s) :=
    serve_of_asks q rfl rfl (genericCheck_none rfl rfl)
  exact congrArg Host.Outcome.next (served.trans (finishRequest_eq rfl q))

/-- Settles O5: each block of the state that a soft reset answers from. -/
theorem softResetSparesTimebaseAndLink : Obligations.SoftResetSparesTimebaseAndLink := by
  intro s tag rest q
  exact ⟨(softReset [] s).state, softReset_of_asks q, rfl, rfl, rfl, channel_reset_of_mapBank rfl,
    capture_of_reset rfl, freeCells_of_reset rfl, job_of_reset rfl, rfl, rfl, rfl, rfl⟩

end Sys2Proof.Machine
end

section
/-! PROOF. The channels (chapter 2): the comparator, the samples of a tick, a pending transition's end, and the
arrival of an edge. -/

namespace Sys2Proof.Machine

variable {s t : State} {ch : Fin 8} {c : Channel} {e x : AcceptedEdge} {rest : List AcceptedEdge} {slot : Fin 32}
  {channelA : Fin 8}

/-! ## COMPARATOR_OUTPUT (R14, R155) -/

theorem followInput_high (output : Level) (input high low : Nat) :
    followInput output input high low = .high
      ↔ output = .low ∧ 2 * high < input ∨ output = .high ∧ 2 * low ≤ input := by
  cases output <;> simp [followInput, above, below]

/-- At a single threshold the comparator keeps its output while the input rests on it (R155). -/
theorem followInput_threshold (output : Level) (input code : Nat) :
    followInput output input code code = .high
      ↔ 2 * code < input ∨ input = 2 * code ∧ output = .high := by
  rw [followInput_high]
  cases output
  · simp
  · simp only [reduceCtorEq, false_and, true_and, false_or, and_true]
    omega

/-- Settles O13: the comparator of the channel follows its input by the state of the channel. -/
theorem comparatorFollowsTheInput : Obligations.ComparatorFollowsTheInput := by
  intro s ch level
  refine ⟨s.setChannel ch ((s.channel ch).moveInput level), rfl, ?_⟩
  rw [State.channel_setChannel_self]
  refine ⟨?_, ?_, ?_, ?_⟩
  · rw [← moveInput_frame]
  · intro disabled
    simp [Channel.moveInput, disabled]
  · intro enabled
    simp only [Channel.moveInput, enabled]
    exact followInput_high ..
  · intro p probing record
    simp only [Channel.moveInput, probing, record]
    exact followInput_threshold ..

/-! ## A tick in each channel (R16, R17, R155) -/

theorem onTick_of_disabled (now : Tick) (disabled : c.state = .disabled) : c.onTick now = c := by
  simp [Channel.onTick, disabled]

theorem onTick_of_enabled (now : Tick) {a : Level} (enabled : c.state = .enabled) (accepted : c.accepted = some a) :
    c.onTick now = { c with
      sample := some c.comparator
      pending :=
        if c.comparator = a then c.pending
        else match c.pending with
          | none => some ⟨c.comparator, now, 1⟩
          | some p => some { p with run := p.run + 1 } } := by
  simp only [Channel.onTick, enabled, Channel.filterSample, accepted, Option.some.injEq, eq_comm (a := a)]
    <;> rfl

theorem onTick_of_probing (now : Tick) {p : ProbeRecord} (probing : c.state = .probing) (record : c.probe = some p) :
    c.onTick now = { c with
      probe := some (if now = tickAfter p.stepStart p.dwell then p
        else { p with
          highSeen := p.highSeen || c.comparator == .high
          lowSeen := p.lowSeen || c.comparator == .low }) } := by
  have sampled : c.onTick now = c.probeSample now := by simp [Channel.onTick, probing]
  simp only [sampled, Channel.probeSample, record, beq_iff_eq]
  split
  · rw [← record]
  · rfl

/-- Settles O14: each channel takes its sample by its state. -/
theorem tickSamplesEveryChannel : Obligations.TickSamplesEveryChannel := by
  intro s rxd rests
  refine ⟨s.onTick rxd, tick_completes rests rxd, fun ch => ?_⟩
  rw [onTick_channel]
  exact ⟨onTick_of_disabled _, fun _ => onTick_of_enabled _, fun _ => onTick_of_probing _⟩

/-! ## The end of a pending transition (R17, R18) -/

/-- Settles O15: a revert, and an acceptance that no arrival of its tick holds up. -/
theorem pendingTransitionRevertsOrIsAccepted : Obligations.PendingTransitionRevertsOrIsAccepted := by
  intro s ch p enabled pending
  refine ⟨fun a accepted sample => ?_, fun full noArrival => ?_⟩
  · exact completes_of_due (row := rfl) (by simp [Channel.revertIsDue, enabled, pending, accepted, sample])
  · have waits : (s.channel ch).arrivalIsDue s.now = false := by
      rw [Bool.eq_false_iff]
      intro arrives
      cases inTransit : (s.channel ch).inTransit with
      | nil => simp [Channel.arrivalIsDue, inTransit] at arrives
      | cons e more => exact noArrival e more inTransit ((arrivalIsDue_cons inTransit).mp arrives)
    have due : (s.channel ch).acceptIsDue s.now = true := by
      simp [Channel.acceptIsDue, enabled, waits, pending, full]
    have accepted : completes (.edgeAccepted ch) s (s.setChannel ch ((s.channel ch).accept ch)) :=
      completes_of_due (row := rfl) due
    simp only [Channel.accept, pending] at accepted
    exact accepted

/-! ## The arrival of an edge (R20, R45, R137) -/

/-- What a held edge that stands before an arriving one satisfies, and one that does not (R45). -/
theorem heldBefore_eq_true :
    heldBefore channelA x e = true
      ↔ (x.timestamp ≠ e.timestamp → notEarlier x.timestamp e.timestamp = false)
        ∧ (x.timestamp = e.timestamp → ¬(e.channel = channelA ∧ x.channel ≠ channelA)) := by
  by_cases same : x.timestamp = e.timestamp <;> simp [heldBefore, same, imp_iff_not_or]

theorem heldBefore_eq_false :
    heldBefore channelA x e = false
      ↔ (x.timestamp ≠ e.timestamp → notEarlier x.timestamp e.timestamp = true)
        ∧ (x.timestamp = e.timestamp → e.channel = channelA ∧ x.channel ≠ channelA) := by
  by_cases same : x.timestamp = e.timestamp <;> simp [heldBefore, same]

/-- Where an arriving edge is inserted among the held edges (R45). -/
theorem insertHeld_placed (channelA : Fin 8) (e : AcceptedEdge) (held : List AcceptedEdge) :
    ∃ before behind, held = before ++ behind ∧ insertHeld channelA e held = before ++ e :: behind
      ∧ (∀ x ∈ before, heldBefore channelA x e = true) ∧ ∀ x ∈ behind.head?, heldBefore channelA x e = false := by
  induction held with
  | nil => exact ⟨[], [], rfl, rfl, nofun, nofun⟩
  | cons y held ih =>
    unfold insertHeld
    split
    · rename_i first
      obtain ⟨before, behind, split, inserted, earlier, later⟩ := ih
      exact ⟨y :: before, behind, by rw [split]; rfl, by rw [inserted]; rfl,
        List.forall_mem_cons.mpr ⟨first, earlier⟩, later⟩
    · rename_i behind
      exact ⟨[], y :: held, rfl, rfl, nofun, by simpa using behind⟩

/-- The edge of another channel's queue, logged after the channel has moved. -/
theorem logEdge_setChannel (s : State) (ch : Fin 8) (c : Channel) (e : AcceptedEdge) :
    (s.setChannel ch c).logEdge e = (s.logEdge e).setChannel ch c := by
  unfold State.logEdge
  dsimp only [State.capture_setChannel]
  split
  · rfl
  · split
    · split <;> rfl
    · split <;> rfl

theorem arrive_of_oldest (oldest : (s.channel ch).inTransit = e :: rest) :
    s.arrive ch = ((s.logEdge e).setChannel ch { s.channel ch with inTransit := rest }).holdEdge e := by
  simp only [State.arrive, oldest, logEdge_setChannel]

theorem hold_of_other (other : ∀ d, (s.job slot).definition = some d →
    (s.job slot).state.running = false ∨ d.references e.channel = false) :
    (s.job slot).hold e = s.job slot := by
  unfold Job.hold
  split
  · rename_i d defined
    refine if_neg ?_
    obtain stopped | elsewhere := other d defined <;> simp [*]
  · rfl

theorem hold_of_referenced {j : Job} {d : Definition} (defined : j.definition = some d)
    (running : j.state.running = true) (referenced : d.references e.channel = true) :
    j.hold e = { j with held := insertHeld d.channelA e j.held } := by
  simp [Job.hold, defined, running, referenced]

/-- Settles O16: the edge leaves the channel, is logged, and is placed among the held edges of each job. -/
theorem edgeArrivesAtPoolAndJobs : Obligations.EdgeArrivesAtPoolAndJobs := by
  intro s ch e rest oldest arrives
  have due : (s.channel ch).arrivalIsDue s.now = true := (arrivalIsDue_cons oldest).mpr arrives
  have channels : (s.logEdge e).channels = s.channels := by rw [logEdge_frame]
  have arrived := arrive_of_oldest oldest
  have job (slot : Fin 32) : (s.arrive ch).job slot = (s.job slot).hold e := by
    have jobs : (s.logEdge e).jobs = s.jobs := (logEdge_sameJobs s e).jobs
    rw [arrived, State.holdEdge_job, State.job_setChannel, State.job, jobs]
    rfl
  refine ⟨s.arrive ch, completes_of_due (row := rfl) due, ?_, fun k other => ?_, ?_, ?_, ?_, fun slot => ⟨?_, ?_⟩⟩
  · rw [arrived, State.channel_holdEdge, State.channel_setChannel_self]
  · rw [arrived, State.channel_holdEdge, State.channel_setChannel_ne _ other, State.channel, channels]
    rfl
  · rw [arrived]
    rfl
  · rw [arrived]
    rfl
  · rw [arrived, logEdge_frame]
    rfl
  · intro other
    rw [job, hold_of_other other]
  · intro d defined running referenced
    obtain ⟨before, behind, split, inserted, earlier, later⟩ := insertHeld_placed d.channelA e (s.job slot).held
    refine ⟨before, behind, split, ?_, fun x member => heldBefore_eq_true.mp (earlier x member),
      fun x first => heldBefore_eq_false.mp (later x first)⟩
    rw [job, hold_of_referenced defined running referenced, inserted]

end Sys2Proof.Machine
end

section
/-! PROOF. What CHAN_SET answers: its checks in order, and the settings that the channel takes (R25, R26). -/

namespace Sys2Proof.Machine

variable {s t : State} {i : Instr} {tag code enable filter : Byte} {rest : List Request} {payload reply : List Byte}
  {ch : Fin 8} {high low index : Nat} {c : Channel} {a : Answer} {rc : ReplyCode}

/-! ## From a handler's answer to the request's -/

/-- A request whose owner refuses it is refused. -/
theorem completes_of_refusal (served : completes i s (finishRequest ⟨tag, code, payload⟩ a))
    (q : s.asks tag code payload rest) (refused : a = refuse s rc index) :
    completes i s (s.answered tag rest rc.toByte (leBytes 1 index)) := by
  rwa [refused, finishRequest_refuse q] at served

/-- A request whose owner answers it from another state is answered from there. -/
theorem completes_of_answer (served : completes i s (finishRequest ⟨tag, code, payload⟩ a))
    (q : s.asks tag code payload rest) (answered : a = ⟨t, rc, reply⟩) (link : t.link = s.link) :
    completes i s (t.answered tag rest rc.toByte reply) := by
  rwa [answered, finishRequest_eq (a := ⟨t, rc, reply⟩) link q] at served

/-! ## The payload (section 2.5) -/

/-- The seven bytes of a CHAN_SET with these fields. -/
def chanSetPayload (ch : Fin 8) (enable : Byte) (high low : Nat) (filter : Byte) : List Byte :=
  leBytes 1 ch.val ++ [enable] ++ leBytes 2 high ++ leBytes 2 low ++ [filter]

theorem chanSetPayload_eq (ch : Fin 8) (enable : Byte) (high low : Nat) (filter : Byte) :
    chanSetPayload ch enable high low filter
      = leBytes 1 ch.val ++ ([enable] ++ (leBytes 2 high ++ (leBytes 2 low ++ [filter]))) := by
  simp only [chanSetPayload, List.append_assoc]

/-- What the fields of a CHAN_SET read. -/
structure ChanFields (payload : List Byte) (ch : Fin 8) (enable : Byte) (high low : Nat) (filter : Byte) : Prop where
  channel : channelField payload = ch
  enable : field payload 1 1 = enable.toNat
  high : field payload 2 2 = high
  low : field payload 4 2 = low
  filter : field payload 6 1 = filter.toNat

theorem chanSetPayload_fields (highFits : high < 65536) (lowFits : low < 65536) :
    ChanFields (chanSetPayload ch enable high low filter) ch enable high low filter where
  channel := by rw [chanSetPayload_eq, channelField_cons]
  enable := field_byte _ 1
  high := by
    rw [chanSetPayload_eq, ← List.append_assoc (leBytes 1 _)]
    exact field_leBytes_two rfl highFits
  low := by
    rw [chanSetPayload_eq, ← List.append_assoc (leBytes 1 _), ← List.append_assoc (_ ++ _)]
    exact field_leBytes_two rfl lowFits
  filter := field_byte _ 6

/-! ## The checks on the fields (R25) -/

theorem chanSetCheck_eq (f : ChanFields payload ch enable high low filter) :
    chanSetCheck payload =
      if enable.toNat ≤ 1 then
        if high ≤ 1023 then
          if low ≤ 1023 ∧ low ≤ high then none else some (.badValue, 4)
        else some (.badValue, 3)
      else some (.badValue, 2) := by
  simp [chanSetCheck, f.enable, f.high, f.low, firstFailure_require, firstFailure]

/-! ## The settings (R15, R21, R26) -/

/-- The level that a code gives a channel's input (R15; assumption 11). -/
def Channel.levelAt (c : Channel) (code : Nat) : Level := if 2 * code < c.input then .high else .low

theorem setOutput_eq (c : Channel) (code : Nat) : setOutput c.input code = c.levelAt code := by
  simp [setOutput, above, Channel.levelAt]

/-- The channel ENABLED with its level established (R15). -/
theorem establish_eq (c : Channel) : c.establish = { c with
    state := .enabled, comparator := c.levelAt c.highCode, accepted := some (c.levelAt c.highCode), pending := none,
    inTransit := [], sample := none } := by
  simp only [Channel.establish, setOutput_eq]

theorem apply_of_enabled (f : ChanFields payload ch 1 high low filter) :
    c.apply payload = { c with
      state := .enabled, highCode := high, lowCode := low, filter := filter.toNat,
      comparator := c.levelAt high, accepted := some (c.levelAt high), pending := none, inTransit := [],
      sample := none } := by
  simp only [Channel.apply, f.enable, f.high, f.low, f.filter, establish_eq]
  rfl

theorem apply_of_disabled (f : ChanFields payload ch 0 high low filter) :
    c.apply payload = { c with
      state := .disabled, highCode := high, lowCode := low, filter := filter.toNat,
      accepted := none, pending := none, inTransit := [], sample := none } := by
  simp only [Channel.apply, f.enable, f.high, f.low, f.filter]
  rfl

theorem leBytes_level (level : Level) :
    leBytes 1 (levelCode (some level)) = [match level with | .low => 0 | .high => 1] := by
  cases level <;> rfl

/-! ## The answers -/

theorem chanSet_of_probing (f : ChanFields payload ch enable high low filter)
    (probing : (s.channel ch).state = .probing) : chanSet payload s = refuse s .channelBusy 0 := by
  simp only [chanSet, f.channel, probing, if_true]

theorem chanSet_of_claimed (f : ChanFields payload ch enable high low filter)
    (steady : (s.channel ch).state ≠ .probing) (claimed : s.claimed ch) :
    chanSet payload s = refuse s .channelInUse 0 := by
  simp only [chanSet, f.channel, if_neg steady, inUse_iff_claimed.mpr claimed, if_true]

/-- A free, steady channel is answered by the check on the fields. -/
theorem chanSet_of_free (f : ChanFields payload ch enable high low filter)
    (steady : (s.channel ch).state ≠ .probing) (free : ¬s.claimed ch) :
    chanSet payload s =
      match chanSetCheck payload with
      | some (code, detail) => refuse s code detail
      | none => okay (s.setChannel ch ((s.channel ch).apply payload))
          (leBytes 1 ((s.channel ch).apply payload).state.toCode
            ++ leBytes 1 (levelCode ((s.channel ch).apply payload).accepted)) := by
  have notInUse : ¬s.inUse ch = true := fun used => free (inUse_iff_claimed.mp used)
  simp only [chanSet, f.channel, if_neg steady, if_neg notInUse]
    <;> rfl

theorem chanSet_of_asks (q : s.asks tag 0x10 (chanSetPayload ch enable high low filter) rest) :
    completes .chanSet s (finishRequest ⟨tag, 0x10, chanSetPayload ch enable high low filter⟩
      (chanSet (chanSetPayload ch enable high low filter) s)) := by
  rw [chanSetPayload_eq] at q ⊢
  exact congrArg Host.Outcome.next (serve_of_channel q rfl rfl (fun _ => rfl) chanSet)

/-- Settles O18: the state of the channel, its use, and each field in index order decide the answer. -/
theorem chanSetChecksThenApplies : Obligations.ChanSetChecksThenApplies := by
  intro s tag rest ch enable filter high low highFits lowFits q
  have f := chanSetPayload_fields (ch := ch) (enable := enable) (filter := filter) highFits lowFits
  have served := chanSet_of_asks q
  refine ⟨fun probing => completes_of_refusal served q (chanSet_of_probing f probing), fun steady =>
    ⟨fun claimed => completes_of_refusal served q (chanSet_of_claimed f steady claimed), fun free => ?_⟩⟩
  have answer := chanSet_of_free f steady free
  have check := chanSetCheck_eq f
  refine ⟨fun above => ?_, fun enableOk above => ?_, fun enableOk highOk bad => ?_, fun highOk lowOk =>
    ⟨fun one => ?_, fun zero => ?_⟩⟩
  · rw [check, if_neg (Nat.not_le.mpr above)] at answer
    exact completes_of_refusal served q answer
  · rw [check, if_pos enableOk, if_neg (Nat.not_le.mpr above)] at answer
    exact completes_of_refusal served q answer
  · have fails : ¬(low ≤ 1023 ∧ low ≤ high) := by omega
    rw [check, if_pos enableOk, if_pos highOk, if_neg fails] at answer
    exact completes_of_refusal served q answer
  · subst one
    have passes : low ≤ 1023 ∧ low ≤ high := ⟨Nat.le_trans lowOk highOk, lowOk⟩
    rw [check, if_pos (by decide), if_pos highOk, if_pos passes, apply_of_enabled f] at answer
    simp only [leBytes_level] at answer
    exact completes_of_answer served q answer rfl
  · subst zero
    have passes : low ≤ 1023 ∧ low ≤ high := ⟨Nat.le_trans lowOk highOk, lowOk⟩
    rw [check, if_pos (by decide), if_pos highOk, if_pos passes, apply_of_disabled f] at answer
    exact completes_of_answer served q answer rfl

end Sys2Proof.Machine
end

section
/-! PROOF. The level probe (chapter 9): what PROBE START and PROBE CANCEL answer, and what each step decides. -/

namespace Sys2Proof.Machine

variable {s t : State} {tag action dwell adopt : Byte} {rest : List Request} {payload : List Byte} {ch : Fin 8}
  {c : Channel} {p : ProbeRecord}

/-! ## The payload (section 9.1) -/

/-- The four bytes of a PROBE with these fields. -/
def probePayload (ch : Fin 8) (action dwell adopt : Byte) : List Byte := leBytes 1 ch.val ++ [action, dwell, adopt]

/-- What the fields of a PROBE read. -/
structure ProbeFields (payload : List Byte) (ch : Fin 8) (action dwell adopt : Byte) : Prop where
  channel : channelField payload = ch
  action : field payload 1 1 = action.toNat
  dwell : field payload 2 1 = dwell.toNat
  adopt : field payload 3 1 = adopt.toNat

theorem probePayload_fields (ch : Fin 8) (action dwell adopt : Byte) :
    ProbeFields (probePayload ch action dwell adopt) ch action dwell adopt where
  channel := channelField_cons ..
  action := field_byte _ 1
  dwell := field_byte _ 2
  adopt := field_byte _ 3

theorem probePayload_passes (ch : Fin 8) (action dwell adopt : Byte) :
    genericCheck .probe (probePayload ch action dwell adopt) = none :=
  genericCheck_none rfl (if_neg (Nat.not_lt.mpr (field_channel_le ch _)))

/-- Which of the two rows answers a PROBE (R159; assumption 16). -/
theorem probeCancels_iff : probeCancels (probePayload ch action dwell adopt) = true ↔ action = 1 := by
  have actionField := (probePayload_fields ch action dwell adopt).action
  have one : action.toNat = 1 ↔ action = 1 := BitVec.toNat_inj (y := 1)
  rw [probeCancels, Bool.and_eq_true, beq_iff_eq, beq_iff_eq, actionField, one]
  exact and_iff_right rfl

theorem probeStart_of_asks (q : s.asks tag 0x12 (probePayload ch action dwell adopt) rest) (starts : action ≠ 1) :
    completes .probeStart s (finishRequest ⟨tag, 0x12, probePayload ch action dwell adopt⟩
      (probeStart (probePayload ch action dwell adopt) s)) := by
  have mine : (!probeCancels (probePayload ch action dwell adopt)) = true := by
    rw [Bool.not_eq_true', Bool.eq_false_iff, ne_eq, probeCancels_iff]
    exact starts
  exact congrArg Host.Outcome.next
    (serve_of_asks (mine := fun p => !probeCancels p) q rfl mine (probePayload_passes ..))

theorem probeCancel_of_asks (q : s.asks tag 0x12 (probePayload ch 1 dwell adopt) rest) :
    completes .probeCancel s (finishRequest ⟨tag, 0x12, probePayload ch 1 dwell adopt⟩
      (probeCancel (probePayload ch 1 dwell adopt) s)) :=
  congrArg Host.Outcome.next (serve_of_asks q rfl (probeCancels_iff.mpr rfl) (probePayload_passes ..))

/-! ## PROBE START (R153 to R155) -/

theorem probeStartCheck_eq (f : ProbeFields payload ch action dwell adopt) :
    probeStartCheck payload s =
      if 1 < action.toNat then some (.badValue, 2)
      else if (s.channel ch).state = .probing then some (.channelBusy, 0)
      else if s.inUse ch then some (.channelInUse, 0)
      else if dwell = 0 then some (.badValue, 3)
      else if 1 < adopt.toNat then some (.badValue, 4)
      else none := by
  have zero : dwell.toNat = 0 ↔ dwell = 0 := BitVec.toNat_inj (y := 0)
  simp only [probeStartCheck, f.channel, f.action, f.dwell, f.adopt, gt_iff_lt, zero]

theorem probeStart_of_failure {code : ReplyCode} {index : Nat}
    (check : probeStartCheck payload s = some (code, index)) : probeStart payload s = refuse s code index := by
  simp only [probeStart, check]

/-- The first sample of a step that begins is the only one so far (R155). -/
theorem beginStep_eq (c : Channel) (p : ProbeRecord) (highSeen : p.highSeen = false) (lowSeen : p.lowSeen = false) :
    c.beginStep p = { c with
      comparator := c.levelAt p.trial
      probe := some { p with highSeen := c.levelAt p.trial == .high, lowSeen := c.levelAt p.trial == .low } } := by
  simp only [Channel.beginStep, ProbeRecord.see, setOutput_eq, highSeen, lowSeen, Bool.false_or]

/-- Step 1 begins at trial code 512 with its first sample (R22, R154, R155). -/
theorem startProbe_eq (c : Channel) (now : Tick) (dwell : Nat) (adopt : Bool) :
    c.startProbe now dwell adopt = { c with
      state := .probing, returnState := some c.toReturn, accepted := none, pending := none, inTransit := [],
      sample := none, comparator := c.levelAt 512
      probe := some
        { trial := 512, step := 1, dwell := dwell, stepStart := now, highSeen := c.levelAt 512 == .high,
          lowSeen := c.levelAt 512 == .low, mixed := 0, adopt := adopt } } := by
  rw [Channel.startProbe, beginStep_eq _ _ rfl rfl]
  rfl

theorem probeStart_of_pass (f : ProbeFields payload ch action dwell adopt)
    (check : probeStartCheck payload s = none) :
    probeStart payload s =
      ⟨s.setChannel ch ((s.channel ch).startProbe s.now (40 * dwell.toNat) (adopt == 1)), .accepted,
        leBytes 1 (s.channel ch).toReturn.toCode ++ tickBytes (tickAfter s.now (400 * dwell.toNat))⟩ := by
  have whole : 10 * (40 * dwell.toNat) = 400 * dwell.toNat := by omega
  have adopts : (adopt.toNat == 1) = (adopt == 1) := by
    rw [Bool.eq_iff_iff, beq_iff_eq, beq_iff_eq]
    exact BitVec.toNat_inj (y := 1)
  simp only [probeStart, check, f.channel, f.dwell, f.adopt, whole, adopts]

theorem leBytes_returnState (back : ReturnState) :
    leBytes 1 back.toCode = [match back with | .disabled => 0 | .enabled => 1] := by
  cases back <;> rfl

/-- Settles O21: the checks decide in order, and a probe that passes them begins its first step. -/
theorem probeStartChecksThenBegins : Obligations.ProbeStartChecksThenBegins := by
  intro s tag rest ch action dwell adopt q starts
  have served := probeStart_of_asks q starts
  have f := probePayload_fields ch action dwell adopt
  have check := probeStartCheck_eq (s := s) f
  have refuses {code : ReplyCode} {index : Nat}
      (fails : probeStartCheck (probePayload ch action dwell adopt) s = some (code, index)) :=
    completes_of_refusal served q (probeStart_of_failure fails)
  refine ⟨fun above => refuses (check.trans (if_pos above)), fun start => ?_⟩
  subst start
  rw [if_neg (by decide)] at check
  refine ⟨fun probing => refuses (check.trans (if_pos probing)), fun steady => ?_⟩
  rw [if_neg steady] at check
  refine ⟨fun claimed => refuses (check.trans (if_pos (inUse_iff_claimed.mpr claimed))), fun free => ?_⟩
  rw [if_neg (fun used => free (inUse_iff_claimed.mp used))] at check
  refine ⟨fun zero => refuses (check.trans (if_pos zero)), fun dwells above => ?_, fun dwells valid => ?_⟩
  · rw [if_neg dwells, if_pos above] at check
    exact refuses check
  · rw [if_neg dwells, if_neg (Nat.not_lt.mpr valid)] at check
    have begun := probeStart_of_pass f check
    rw [startProbe_eq, leBytes_returnState] at begun
    exact completes_of_answer served q begun rfl

/-! ## The return from a probe (R15, R23) -/

theorem endProbe_of_enabled (back : c.returnState = some .enabled) :
    c.endProbe = { c with
      state := .enabled, comparator := c.levelAt c.highCode, accepted := some (c.levelAt c.highCode),
      pending := none, inTransit := [], sample := none, returnState := none, probe := none } := by
  simp only [Channel.endProbe, back, establish_eq]
  rfl

theorem endProbe_of_disabled (back : c.returnState = some .disabled) :
    c.endProbe = { c with
      state := .disabled, accepted := none, pending := none, inTransit := [], sample := none,
      returnState := none, probe := none } := by
  simp only [Channel.endProbe, back]
  rfl

/-! ## The steps (R155 to R158) -/

theorem probeStep_completes (probing : (s.channel ch).state = .probing) (record : (s.channel ch).probe = some p)
    (ends : s.now = tickAfter p.stepStart p.dwell) : completes (.probeStep ch) s (s.decideStep ch) :=
  completes_of_due (row := rfl) (by simp [Channel.probeStepIsDue, probing, record, ends])

/-- A step before the tenth is followed by the next, with its bit set (R155, R156). -/
theorem decideStep_of_early (record : (s.channel ch).probe = some p) (early : p.step ≤ 9) :
    s.decideStep ch = s.setChannel ch ((s.channel ch).nextStep p s.now) := by
  have notLast : p.step ≠ 10 := by omega
  simp only [State.decideStep, record, if_neg notLast]

theorem decideStep_of_last (record : (s.channel ch).probe = some p) (last : p.step = 10) :
    s.decideStep ch = (s.setChannel ch ((s.channel ch).completeProbe p)).raise (.channel ch) 0x04#8 := by
  simp only [State.decideStep, record, if_pos last]
  rfl

theorem mixedAfter_eq (p : ProbeRecord) :
    p.mixedAfter = if p.highSeen = true ∧ p.lowSeen = true then p.mixed + 1 else p.mixed := by
  simp only [ProbeRecord.mixedAfter, Bool.and_eq_true]

theorem nextStep_eq (c : Channel) (now : Tick) :
    c.nextStep p now = { c with
      comparator := c.levelAt (p.decided + 2 ^ (9 - p.step))
      probe := some
        { trial := p.decided + 2 ^ (9 - p.step), step := p.step + 1, dwell := p.dwell, stepStart := now,
          highSeen := c.levelAt (p.decided + 2 ^ (9 - p.step)) == .high,
          lowSeen := c.levelAt (p.decided + 2 ^ (9 - p.step)) == .low, mixed := p.mixedAfter,
          adopt := p.adopt } } := by
  have weight : stepWeight (p.step + 1) = 2 ^ (9 - p.step) := by rw [stepWeight, Nat.add_sub_add_right 9 1]
  rw [Channel.nextStep, beginStep_eq _ _ rfl rfl, weight]

/-- The codes that a completed probe leaves, and its result, before the channel takes its return state (R157,
R158). -/
theorem adopt_eq (c : Channel) (p : ProbeRecord) (code : Nat) :
    c.adopt p code = { c with
      highCode := if p.adopt = true then min (code / 2 + (c.highCode - c.lowCode) / 2) 1023 else c.highCode
      lowCode := if p.adopt = true then
          (if p.adopt = true then min (code / 2 + (c.highCode - c.lowCode) / 2) 1023 else c.highCode)
            - (c.highCode - c.lowCode)
        else c.lowCode } := by
  cases adopts : p.adopt <;> simp [Channel.adopt, adopts, adoptedHigh, adoptedLow]

/-- Settles O22: the step number tells the next step from the completion, and the return state the two ends. -/
theorem probeStepsDecideTheCode : Obligations.ProbeStepsDecideTheCode := by
  intro s ch p probing record ends code mixed
  have decided := probeStep_completes probing record ends
  have bits : p.mixedAfter = mixed := mixedAfter_eq p
  refine ⟨fun early => ?_, fun last => ?_⟩
  · rw [decideStep_of_early record early, nextStep_eq, bits] at decided
    exact decided
  · rw [decideStep_of_last record last, Channel.completeProbe, adopt_eq, bits] at decided
    refine ⟨fun back => ?_, fun back => ?_⟩
    · rw [endProbe_of_enabled (by exact back)] at decided
      exact decided
    · rw [endProbe_of_disabled (by exact back)] at decided
      exact decided

/-! ## PROBE CANCEL (R159) -/

theorem probeCancel_of_steady (f : ProbeFields payload ch action dwell adopt)
    (steady : (s.channel ch).state ≠ .probing) :
    probeCancel payload s = okay s (leBytes 1 (s.channel ch).state.toCode) := by
  simp only [probeCancel, f.channel, if_neg steady]

theorem probeCancel_of_probing (f : ProbeFields payload ch action dwell adopt)
    (probing : (s.channel ch).state = .probing) (record : (s.channel ch).probe = some p) :
    probeCancel payload s
      = okay ((s.setChannel ch ((s.channel ch).cancelProbe p)).raise (.channel ch) 0x04#8) [2] := by
  simp only [probeCancel, f.channel, probing, record, if_true]
  rfl

/-- Settles O23: the state found, and in PROBING the return state, decide what is stored and answered. -/
theorem probeCancelStoresTheResultSoFar : Obligations.ProbeCancelStoresTheResultSoFar := by
  intro s tag rest ch dwell adopt q
  have served := probeCancel_of_asks q
  have f := probePayload_fields ch 1 dwell adopt
  refine ⟨fun disabled => ?_, fun enabled => ?_, fun p probing record => ?_⟩
  · have answer := probeCancel_of_steady (s := s) f (by rw [disabled]; decide)
    rw [disabled] at answer
    exact completes_of_answer served q answer rfl
  · have answer := probeCancel_of_steady (s := s) f (by rw [enabled]; decide)
    rw [enabled] at answer
    exact completes_of_answer served q answer rfl
  · have answer := probeCancel_of_probing f probing record
    rw [Channel.cancelProbe] at answer
    refine ⟨fun back => ?_, fun back => ?_⟩
    · rw [endProbe_of_enabled (by exact back)] at answer
      exact completes_of_answer served q answer rfl
    · rw [endProbe_of_disabled (by exact back)] at answer
      exact completes_of_answer served q answer rfl

end Sys2Proof.Machine
end

section
/-! PROOF. What RESULT_FETCH, RESULT_SETUP and RESULT_FLUSH answer and do to the result queue (R116, R118, R119),
with the bytes of a record (R195). -/

namespace Sys2Proof.Machine

variable {s : State} {tag most mark : Byte} {rest : List Request}

/-! ## The bytes of a record (R195) -/

/-- The layout of R195, field by field. -/
def Record.layout (r : Record) : List Byte :=
  leBytes 1 r.slot.val ++ leBytes 4 r.sequence.toNat
    ++ ([match r.kind with
          | .freqFixed => 0 | .freqSync => 1 | .period => 2 | .width => 3 | .phase => 4
          | .tally => 5,
        match r.status with
          | .complete => 0 | .interim => 1 | .target => 2 | .stalled => 3
          | .partialStop => 4 | .spanLimit => 5] : List Byte)
    ++ leBytes 1 ((if r.holdover = true then 1 else 0)
      + (if r.limitOut = true then 2 else 0)
      + (if r.min.isSome = true ∧ r.max.isSome = true then 4 else 0)
      + (if r.total.isSome = true then 8 else 0)
      + (if r.skipped.isSome = true then 16 else 0))
    ++ leBytes 2 r.lostBefore ++ leBytes 2 r.missed ++ leBytes 6 r.startTick.toNat
    ++ leBytes 6 r.endTick.toNat ++ leBytes 4 r.count ++ leBytes 6 r.span
    ++ leBytes 8 r.value
    ++ (match r.min, r.max with
        | some lo, some hi => leBytes 6 lo ++ leBytes 6 hi | _, _ => [])
    ++ (match r.total with | some n => leBytes 6 n | none => [])
    ++ (match r.skipped with | some n => leBytes 2 n | none => [])

theorem leBytes_kind (kind : Kind) :
    leBytes 1 kind.toCode = [match kind with
      | .freqFixed => 0 | .freqSync => 1 | .period => 2 | .width => 3 | .phase => 4 | .tally => 5] := by
  cases kind <;> rfl

theorem leBytes_status (status : RecordStatus) :
    leBytes 1 status.toCode = [match status with
      | .complete => 0 | .interim => 1 | .target => 2 | .stalled => 3 | .partialStop => 4 | .spanLimit => 5] := by
  cases status <;> rfl

theorem minMax_isSome (r : Record) : r.minMax.isSome = true ↔ r.min.isSome = true ∧ r.max.isSome = true := by
  unfold Record.minMax
  cases r.min <;> cases r.max <;> simp

/-- Min and max stand in the record together or not at all (R86). -/
theorem minMax_bytes (r : Record) :
    optBytes minMaxBytes r.minMax
      = match r.min, r.max with | some lo, some hi => leBytes 6 lo ++ leBytes 6 hi | _, _ => [] := by
  unfold Record.minMax
  cases r.min <;> cases r.max <;> rfl

theorem optBytes_leBytes (size : Nat) (n : Option Nat) :
    optBytes (leBytes size) n = match n with | some n => leBytes size n | none => [] := by
  cases n <;> rfl

/-- A set bit counts its weight in a flags byte. -/
theorem weight_bit (weight : Nat) (b : Bool) : weight * bit b = if b = true then weight else 0 := by
  cases b <;> simp [bit]

theorem flagsByte_eq (r : Record) :
    r.flagsByte = (if r.holdover = true then 1 else 0)
      + (if r.limitOut = true then 2 else 0)
      + (if r.min.isSome = true ∧ r.max.isSome = true then 4 else 0)
      + (if r.total.isSome = true then 8 else 0)
      + (if r.skipped.isSome = true then 16 else 0) := by
  simp only [Record.flagsByte, weight_bit, minMax_isSome]
  rfl

theorem record_bytes (r : Record) : r.bytes = r.layout := by
  rw [Record.bytes, flagsByte_eq, minMax_bytes, optBytes_leBytes, optBytes_leBytes, leBytes_kind, leBytes_status,
    List.append_assoc (leBytes 1 r.slot.val ++ leBytes 4 r.sequence.toNat)] <;> rfl

/-! ## RESULT_FETCH (R116) -/

theorem resultFetch_eq (s : State) (most : Byte) :
    resultFetch [most] s
      = if most = 0 ∨ 4 < most.toNat then refuse s .badValue 1
        else okay (s.setRecords (s.results.records.drop most.toNat))
          (leBytes 1 (s.results.records.take most.toNat).length
            ++ leBytes 1 (s.results.records.drop most.toNat).length
            ++ (s.results.records.take most.toNat).flatMap Record.layout) := by
  have maxField : field [most] 0 1 = most.toNat := field_byte _ 0
  have zero : most.toNat = 0 ↔ most = 0 := BitVec.toNat_inj (y := 0)
  have layout : Record.bytes = Record.layout := funext record_bytes
  simp only [resultFetch, maxField, layout, zero, Bool.or_eq_true, decide_eq_true_eq, gt_iff_lt]

theorem resultFetch_of_asks (q : s.asks tag 0x28 [most] rest) :
    completes .resultFetch s (finishRequest ⟨tag, 0x28, [most]⟩ (resultFetch [most] s)) :=
  congrArg Host.Outcome.next (serve_of_asks q rfl rfl (genericCheck_none rfl rfl))

theorem resultFetch_refuses (q : s.asks tag 0x28 [most] rest) (outside : most = 0 ∨ 4 < most.toNat) :
    completes .resultFetch s (s.answered tag rest 0x12 [1]) :=
  completes_of_refusal (resultFetch_of_asks q) q ((resultFetch_eq s most).trans (if_pos outside))

/-- The records taken stand before those that remain. -/
theorem resultFetch_takes (q : s.asks tag 0x28 [most] rest) (inside : ¬(most = 0 ∨ 4 < most.toNat)) :
    ∃ taken left, s.results.records = taken ++ left
      ∧ taken.length = min most.toNat s.results.records.length
      ∧ completes .resultFetch s ((s.setRecords left).answered tag rest 0x00
          (leBytes 1 taken.length ++ leBytes 1 left.length ++ taken.flatMap Record.layout)) :=
  ⟨s.results.records.take most.toNat, s.results.records.drop most.toNat, (List.take_append_drop ..).symm,
    List.length_take, completes_of_answer (resultFetch_of_asks q) q
      ((resultFetch_eq s most).trans (if_neg inside)) rfl⟩

/-! ## RESULT_SETUP (R118) -/

theorem resultSetup_eq (s : State) (mark : Byte) :
    resultSetup [mark] s
      = if mark = 0 ∨ 96 < mark.toNat then refuse s .badValue 1
        else okay { s with results := { s.results with watermark := mark.toNat } }
          ([mark] ++ leBytes 1 s.results.records.length) := by
  have markField : field [mark] 0 1 = mark.toNat := field_byte _ 0
  have zero : mark.toNat = 0 ↔ mark = 0 := BitVec.toNat_inj (y := 0)
  have byte : leBytes 1 mark.toNat = [mark] := by rw [leBytes_one, BitVec.ofNat_toNat, BitVec.setWidth_eq]
  simp only [resultSetup, markField, zero, byte, Bool.or_eq_true, decide_eq_true_eq, gt_iff_lt, Config.resultPlaces]

theorem resultSetup_of_asks (q : s.asks tag 0x29 [mark] rest) :
    completes .resultSetup s (finishRequest ⟨tag, 0x29, [mark]⟩ (resultSetup [mark] s)) :=
  congrArg Host.Outcome.next (serve_of_asks q rfl rfl (genericCheck_none rfl rfl))

theorem resultSetup_refuses (q : s.asks tag 0x29 [mark] rest) (outside : mark = 0 ∨ 96 < mark.toNat) :
    completes .resultSetup s (s.answered tag rest 0x12 [1]) :=
  completes_of_refusal (resultSetup_of_asks q) q ((resultSetup_eq s mark).trans (if_pos outside))

theorem resultSetup_sets (q : s.asks tag 0x29 [mark] rest) (inside : ¬(mark = 0 ∨ 96 < mark.toNat)) :
    completes .resultSetup s ({ s with results := { s.results with
      watermark := mark.toNat } }.answered tag rest 0x00 ([mark] ++ leBytes 1 s.results.records.length)) :=
  completes_of_answer (resultSetup_of_asks q) q ((resultSetup_eq s mark).trans (if_neg inside)) rfl

/-! ## RESULT_FLUSH (R119) -/

theorem resultFlush_flushes (q : s.asks tag 0x2A [] rest) :
    completes .resultFlush s ((s.setRecords []).answered tag rest 0x00
      (leBytes 1 s.results.records.length)) :=
  have served : completes .resultFlush s (finishRequest ⟨tag, 0x2A, []⟩ (resultFlush [] s)) :=
    congrArg Host.Outcome.next (serve_of_asks q rfl rfl (genericCheck_none rfl rfl))
  completes_of_answer served q rfl rfl

/-- Settles O45: the check on the one field of a request decides between its refusal and its effect. -/
theorem resultRequestsFetchSetUpAndFlush : Obligations.ResultRequestsFetchSetUpAndFlush := by
  refine ⟨fun s tag most rest q => ⟨resultFetch_refuses q, fun some few => resultFetch_takes q ?_⟩,
    fun s tag mark rest q => ⟨resultSetup_refuses q, fun some fits => resultSetup_sets q ?_⟩,
    fun s tag rest q => resultFlush_flushes q⟩
  · exact fun outside => outside.elim some (Nat.not_lt.mpr few)
  · exact fun outside => outside.elim some (Nat.not_lt.mpr fits)

end Sys2Proof.Machine
end

section
/-! PROOF. A notice is sent with the snapshot of its source (R166 to R168, R197), and a link reset returns the one
it cuts off (R170, R171, R187, R188). -/

namespace Sys2Proof.Machine

variable {s : State} {n : QueuedNotice} {rest queued before behind : List QueuedNotice} {source : Source}
  {flags old : BitVec 8}

/-! ## The snapshot (R167, R197) -/

theorem source_code (x : Source) :
    x.code = match x with | .job _ => 1 | .channel _ => 2 | .results => 3 | .device => 4 := by
  cases x <;> rfl

theorem source_index (x : Source) :
    x.index = match x with
      | .job slot => slot.val | .channel ch => ch.val | .results => 0 | .device => 0 := by
  cases x <;> rfl

theorem leBytes_jobState (state : JobState) :
    leBytes 1 state.toCode = [match state with
      | .free => 0 | .idle => 1 | .armed => 2 | .active => 3 | .hold => 4 | .done => 5] := by
  cases state <;> rfl

/-- A channel's last probe result in its notice: its code and how it ended (R197). -/
theorem noticeProbe_bytes (last : Option ProbeResult) :
    leBytes 1 (bit last.isSome)
        ++ optBytes (fun (r : ProbeResult) => leBytes 2 r.code ++ leBytes 1 r.status.toCode) last
      = match last with
        | none => [0]
        | some r => (1 : Byte) :: leBytes 2 r.code
            ++ ([match r.status with | .done => 0 | .cancelled => 1] : List Byte) := by
  cases last with
  | none => rfl
  | some r => cases status : r.status <;> simp [optBytes, status, ProbeStatus.toCode, leBytes_one, bit]

/-- The detail of each kind of source, in the layout of R197. -/
def State.detailLayout (s : State) : Source → List Byte
  | .job slot =>
    ([match (s.job slot).state with
      | .free => 0 | .idle => 1 | .armed => 2 | .active => 3 | .hold => 4 | .done => 5] : List Byte)
      ++ leBytes 4 (s.job slot).sequence.toNat
  | .channel ch =>
    leBytes 2 (s.capture ch).entries.length ++ leBytes 2 (s.capture ch).loss
      ++ (match (s.channel ch).lastProbe with
        | none => [0]
        | some r => (1 : Byte) :: leBytes 2 r.code
            ++ ([match r.status with | .done => 0 | .cancelled => 1] : List Byte))
  | .results => leBytes 1 s.results.records.length ++ leBytes 2 s.results.refused
  | .device =>
    ([match s.notices.cause with | .power => 0 | .soft => 1] : List Byte)
      ++ leBytes 2 s.link.counters.stray ++ leBytes 2 s.link.counters.badLength
      ++ leBytes 2 s.link.counters.truncated ++ leBytes 2 s.link.counters.badCheck
      ++ leBytes 2 s.link.counters.wrongClass ++ leBytes 2 s.link.counters.overrun

theorem noticeDetail_eq (s : State) (x : Source) : s.noticeDetail x = s.detailLayout x := by
  cases x with
  | job slot => exact congrArg (· ++ _) (leBytes_jobState _)
  | channel ch =>
    rw [State.noticeDetail, State.detailLayout, List.append_assoc _ (leBytes 1 _), noticeProbe_bytes]
  | results => rfl
  | device =>
    have cause : leBytes 1 s.notices.cause.toCode = [match s.notices.cause with | .power => 0 | .soft => 1] := by
      cases s.notices.cause <;> rfl
    rw [State.noticeDetail, cause]
    rfl

/-! ## NOTICE_BEGIN and NOTICE_SENT -/

theorem noticeBegin_completes (free : transmitterFree s = true) (noReply : s.link.replies = [])
    (head : s.notices.queued = n :: rest) (credit : 1 ≤ s.notices.credits) :
    completes .noticeBegin s s.beginNotice :=
  completes_of_due (row := rfl) (by simp [noticeBeginIsDue, free, noReply, head, credit])

theorem beginNotice_eq (head : s.notices.queued = n :: rest) :
    s.beginNotice = { s with
      notices := { s.notices with
        queued := rest, credits := s.notices.credits - 1,
        inFlight := some ⟨n.source, n.flags, s.noticePayload n,
          if n.source = .results then s.results.refused else 0⟩ },
      results := { s.results with
        refused := if n.source = .results then 0 else s.results.refused },
      link := { s.link with
        transmitter := .sending (frameBytes classNotice 0 n.source.code (s.noticePayload n)) s.now true } } := by
  simp only [State.beginNotice, head]

/-- The last byte of a frame has been sent (R168, R186). -/
theorem frameIsSent_of_sending {frame : List Byte} {start : Tick} {notice : Bool}
    (sending : s.link.transmitter = .sending frame start notice)
    (sent : byteEnd s.link.rate frame.length ≤ distance start s.now) : frameIsSent s = true := by
  simp only [frameIsSent, sending]
  exact decide_eq_true sent

/-- Settles O52: the frame that begins carries the snapshot, and its last byte ends the transmission. -/
theorem noticeIsSentWithItsSnapshot : Obligations.NoticeIsSentWithItsSnapshot := by
  refine ⟨fun s n rest initialised idle noReset noReply head credit => ?_, fun s frame start sending sent => ?_⟩
  · have begun := noticeBegin_completes (transmitterFree_iff.mpr ⟨initialised, idle, noReset⟩) noReply head credit
    rw [beginNotice_eq head, State.noticePayload, noticeDetail_eq, source_code, source_index] at begun
    obtain ⟨source, flags⟩ := n
    cases source <;> exact begun
  · exact completes_of_due (row := rfl)
      (by simp [frameIsSent_of_sending sending sent, sending, Transmitter.sendsNotice])

/-! ## LINK_RESET (R170, R171, R187, R188) -/

/-- A returned notice of a source with none queued stands alone at the head (R170). -/
theorem returnNotice_of_absent (absent : ∀ n ∈ queued, n.source ≠ source) :
    returnNotice source flags queued = ⟨source, flags⟩ :: queued := by
  have none : queued.find? (fun n => n.source = source) = none := by simpa using absent
  have all : queued.filter (fun n => n.source != source) = queued := by simpa using absent
  simp [returnNotice, none, all]

/-- A returned notice takes the flags of the source's queued notice, and stands at the head for both (R170). -/
theorem returnNotice_of_queued (alone : ∀ n ∈ before ++ behind, n.source ≠ source) :
    returnNotice source flags (before ++ ⟨source, old⟩ :: behind)
      = ⟨source, old ||| flags⟩ :: (before ++ behind) := by
  have ahead : ∀ n ∈ before, n.source ≠ source := fun n member => alone n (List.mem_append_left _ member)
  have after : ∀ n ∈ behind, n.source ≠ source := fun n member => alone n (List.mem_append_right _ member)
  have found : (before ++ ⟨source, old⟩ :: behind).find? (fun n => n.source = source) = some ⟨source, old⟩ := by
    have none : before.find? (fun n => n.source = source) = none := by simpa using ahead
    rw [List.find?_append, none, List.find?_cons_of_pos (by simp)]
    rfl
  have left : (before ++ ⟨source, old⟩ :: behind).filter (fun n => n.source != source) = before ++ behind := by
    have keepsBefore : before.filter (fun n => n.source != source) = before := by simpa using ahead
    have keepsBehind : behind.filter (fun n => n.source != source) = behind := by simpa using after
    rw [List.filter_append, List.filter_cons_of_neg (by simp), keepsBefore, keepsBehind]
  simp only [returnNotice, found, left]

theorem cutOffNotice_of_none (lands : s.notices.inFlight = none) : s.cutOffNotice = s := by
  simp only [State.cutOffNotice, lands]

theorem cutOffNotice_of_some {f : InFlight} (flies : s.notices.inFlight = some f) :
    s.cutOffNotice = { s with
      notices := { s.notices with
        queued := returnNotice f.source f.flags s.notices.queued, inFlight := none
        credits := min (s.notices.credits + 1) 16 }
      results := { s.results with refused := min (s.results.refused + f.refusedTaken) 65535 } } := by
  simp only [State.cutOffNotice, flies]
  rfl

/-- A link reset that is due waits for the transmitter's byte alone (R187). -/
theorem linkResetIsDue_of_boundary (due : s.link.resetDue = true)
    (stands : s.link.transmitter = .idle
      ∨ ∃ frame start notice k, s.link.transmitter = .sending frame start notice
          ∧ 1 ≤ k ∧ k ≤ frame.length ∧ byteEnd s.link.rate k = distance start s.now) :
    linkResetIsDue s = true := by
  obtain idle | ⟨frame, start, notice, k, sending, first, last, ends⟩ := stands
  · simp [linkResetIsDue, due, idle]
  · obtain ⟨m, rfl⟩ : ∃ m, k = m + 1 := ⟨k - 1, by omega⟩
    have boundary : byteBoundary s = true := by
      simp only [byteBoundary, sending, List.any_eq_true, List.mem_range, beq_iff_eq]
      exact ⟨m, last, ends⟩
    simp [linkResetIsDue, due, boundary]

/-- A link reset raises its flag and leaves one credit (R171). -/
theorem resetNotices_eq (s : State) :
    s.resetNotices = { s.cutOffNotice with notices := { s.cutOffNotice.notices with
      queued := mergeNotice .device 0x08#8 s.cutOffNotice.notices.queued, credits := 1 } } := rfl

/-- Settles O56: the break, and the link reset with and without a notice in flight. -/
theorem breakAndLinkReset : Obligations.BreakAndLinkReset := by
  refine ⟨fun s initialised noBreak low => ?_, fun s due stands => ?_⟩
  · exact completes_of_due (row := rfl) (by simp [breakIsDue, initialised, noBreak, low, Config.breakTicks])
  · have reset : completes .linkReset s ({ s with link := s.link.cut }).resetNotices :=
      completes_of_due (row := rfl) (linkResetIsDue_of_boundary due stands)
    refine ⟨_, ({ s with link := s.link.cut }).cutOffNotice.notices.queued, reset, ?_⟩
    rw [resetNotices_eq]
    cases flies : s.notices.inFlight with
    | none =>
      rw [cutOffNotice_of_none (by exact flies)]
      refine ⟨rfl, rfl, rfl, ?_, fun _ => ⟨rfl, rfl⟩, fun f is => by cases is⟩
      rw [← flies]
    | some f =>
      rw [cutOffNotice_of_some (by exact flies)]
      refine ⟨rfl, rfl, rfl, rfl, nofun, fun g is => ?_⟩
      cases is
      refine ⟨rfl, returnNotice_of_absent, fun before old behind split alone => ?_⟩
      show returnNotice f.source f.flags s.notices.queued = _
      rw [split, returnNotice_of_queued alone]

end Sys2Proof.Machine
end

section
/-! PROOF. What the transmitter sends and TXD carries (R175, R177, R186), and the link at the end of initialisation
(R176). -/

namespace Sys2Proof.Machine

variable {s : State} {r : Reply} {rest : List Reply} {frame : List Byte} {start : Tick} {k place n : Nat}

/-! ## REPLY_BEGIN (R184, R186) -/

theorem beginReply_eq (head : s.link.replies = r :: rest) :
    s.beginReply = { s with link := { s.link with
      replies := rest, transmitter := .sending (frameBytes 0x02 r.tag r.code r.payload) s.now false } } := by
  simp only [State.beginReply, head]
  rfl

/-! ## TXD (R175, R177) -/

theorem length_charBits (b : Byte) : (charBits b).length = 10 := rfl

/-- Bit `place` of byte `k` of a frame on the line. -/
theorem frameBits_getElem? : ∀ (frame : List Byte) (k : Nat), place < 10 →
    (frame.flatMap charBits)[10 * k + place]? = (frame[k]?).bind fun b => (charBits b)[place]?
  | [], _, _ => by simp
  | b :: frame, 0, small => by
    rw [List.flatMap_cons, Nat.mul_zero, Nat.zero_add, List.getElem?_append_left (by rwa [length_charBits])]
    rfl
  | b :: frame, k + 1, small => by
    have behind : 10 * (k + 1) + place - (charBits b).length = 10 * k + place := by rw [length_charBits]; omega
    rw [List.flatMap_cons, List.getElem?_append_right (by rw [length_charBits]; omega), behind,
      frameBits_getElem? frame k small]
    rfl

theorem length_frameBits (frame : List Byte) : (frame.flatMap charBits).length = 10 * frame.length := by
  induction frame with
  | nil => rfl
  | cons b frame ih =>
    rw [List.flatMap_cons, List.length_append, ih, length_charBits, List.length_cons]
    omega

/-- A low start bit, eight data bits with the least significant first, a high stop bit (R175). -/
theorem charBits_low (b : Byte) (small : place < 10) :
    (charBits b)[place]? = some .low
      ↔ place = 0 ∨ (1 ≤ place ∧ place ≤ 8 ∧ b.getLsbD (place - 1) = false) := by
  interval_cases place <;> simp [charBits]

/-- The bits whose time has elapsed. -/
theorem txd_of_sending {notice : Bool} (sending : s.link.transmitter = .sending frame start notice) :
    s.txd = (frame.flatMap charBits).getD
      (distance start s.now * s.link.rate.bitsPerSecond / 40000000) .high := by
  simp only [State.txd, sending, State.sinceFrame]

/-- While a bit's time elapses the line carries it. -/
theorem txd_low_iff {notice : Bool} {b : Byte} (sending : s.link.transmitter = .sending frame start notice)
    (byte : frame[k]? = some b) (small : place < 10)
    (reached : (10 * k + place) * 40000000 ≤ distance start s.now * s.link.rate.bitsPerSecond)
    (next : ¬(10 * k + place + 1) * 40000000 ≤ distance start s.now * s.link.rate.bitsPerSecond) :
    s.txd = .low ↔ place = 0 ∨ (1 ≤ place ∧ place ≤ 8 ∧ b.getLsbD (place - 1) = false) := by
  have elapsed : distance start s.now * s.link.rate.bitsPerSecond / 40000000 = 10 * k + place :=
    Nat.div_eq_of_lt_le reached (Nat.lt_of_not_le next)
  have found := frameBits_getElem? frame k small
  rw [byte, Option.bind_some] at found
  rw [txd_of_sending sending, elapsed, List.getD_eq_getElem?_getD, found, ← charBits_low b small]
  cases at' : (charBits b)[place]? with
  | none =>
    rw [List.getElem?_eq_none_iff, length_charBits] at at'
    omega
  | some level => simp

theorem txd_high_after {notice : Bool} (sending : s.link.transmitter = .sending frame start notice)
    (reached : (10 * frame.length) * 40000000 ≤ distance start s.now * s.link.rate.bitsPerSecond) :
    s.txd = .high := by
  have elapsed : 10 * frame.length ≤ distance start s.now * s.link.rate.bitsPerSecond / 40000000 :=
    (Nat.le_div_iff_mul_le (by decide)).mpr reached
  rw [txd_of_sending sending, List.getD_eq_getElem?_getD,
    List.getElem?_eq_none (by rw [length_frameBits]; exact elapsed)]
  rfl

/-! ## INIT_END (R176) -/

/-- RXD that is low as initialisation ends begins a character at that tick (assumption 28). -/
theorem hear_of_first (rate : LineRate) (now : Tick) (rxd : Level) :
    (hear rate false now .high rxd none).character
      = if rxd = .low then some ⟨now, if sampleOffset rate 0 = 0 then [.low] else []⟩ else none := by
  cases rxd with
  | high => rfl
  | low =>
    have begun : distance now now = 0 := distance_self now
    by_cases first : sampleOffset rate 0 = 0
    · simp [hear, characterAt, begun, first, Character.sample]
    · simp [hear, characterAt, begun, first, Ne.symm first]

/-- Settles O57: the reply's frame, the line that carries it, and the end of initialisation. -/
theorem repliesAndTheEndOfInitialisation : Obligations.RepliesAndTheEndOfInitialisation := by
  refine ⟨fun s r rest initialised idle noReset head => ?_, fun s frame start sending sent => ?_,
    fun s idle => ?_, fun s frame start notice sending => ⟨fun k place b byte small reached next =>
      txd_low_iff sending byte small reached next, txd_high_after sending⟩, fun s running now => ?_⟩
  · have begun : completes .replyBegin s s.beginReply := completes_of_due (row := rfl)
      (by simp [replyBeginIsDue, transmitterFree_iff.mpr ⟨initialised, idle, noReset⟩, head])
    rwa [beginReply_eq head] at begun
  · exact completes_of_due (row := rfl)
      (by simp [frameIsSent_of_sending sending sent, sending, Transmitter.sendsReply])
  · simp only [State.txd, idle]
  · have ended : completes .initEnd s { s with link := s.link.endInit s.now } := completes_of_due (row := rfl)
      (by simp [initEndIsDue, running, now, tickAfter, Config.initTicks])
    rw [Link.endInit, hear_of_first, now] at ended
    exact ended

end Sys2Proof.Machine
end

section
/-! PROOF. The receiver: the frame that it collects byte by byte (R179, R181), and the characters that it samples on
RXD (R175). -/

namespace Sys2Proof.Machine

variable {s : State} {b : Byte} {bytes : List Byte} {last : Tick} {rate : LineRate} {inBreak : Bool} {now : Tick}
  {rxd : Level} {c : Character} {place : Nat}

/-! ## The byte of this tick (R179) -/

theorem takes_of_completed (initialised : s.link.initialised = true) (unbroken : s.link.breakState = .none)
    (completed : s.link.completed = some b) : s.takes b = true := by
  simp [State.takes, Link.listens, initialised, unbroken, completed]

theorem not_takes (other : s.link.completed ≠ some b) : s.takes b = false := by
  simp [State.takes, other]

theorem not_hunting_of_other (other : s.link.completed ≠ some b) : s.huntingFor b = false := by
  simp [State.huntingFor, not_takes other]

theorem not_collecting_of_other (other : s.link.completed ≠ some b) : s.collecting b = none := by
  unfold State.collecting
  rw [not_takes other]
  cases s.link.receiver <;> rfl

theorem huntingFor_of_takes (takes : s.takes b = true) (hunting : s.link.receiver = .hunting) :
    s.huntingFor b = true := by
  simp [State.huntingFor, takes, hunting]

/-! ## A byte that joins the frame, and one that ends it (R179) -/

theorem frameByte_of_collecting (collecting : s.collecting b = some bytes)
    (joins : (if lengthIsNext bytes then lengthOk b else !lastIsNext bytes) = true) :
    completes (.frameByte b) s (s.examined.setReceiver (.inFrame (bytes ++ [b]) s.now)) := by
  show execFrameByte b s = _
  rw [execFrameByte, collecting]
  exact congrArg Host.Outcome.next (if_pos joins)

theorem badLength_of_collecting (collecting : s.collecting b = some bytes)
    (bad : (lengthIsNext bytes && !lengthOk b) = true) :
    completes (.badLength b) s ((s.examined.setReceiver .hunting).setCounters { s.link.counters with
      badLength := saturate s.link.counters.badLength 1 }) := by
  show execBadLength b s = _
  rw [execBadLength, collecting]
  exact congrArg Host.Outcome.next (if_pos bad)

theorem lengthOk_iff : lengthOk b = true ↔ 3 ≤ b.toNat ∧ b.toNat ≤ 252 := by simp [lengthOk]

/-! ## The samples of a character (R175) -/

/-- A character begins as RXD falls, and its start bit may be sampled at once (assumption 28). -/
theorem hear_of_none (before : Level) :
    hear rate inBreak now before rxd none =
      ⟨if before = .high ∧ rxd = .low then some ⟨now, if sampleOffset rate 0 = 0 then [.low] else []⟩ else none,
        none⟩ := by
  by_cases falls : before = .high ∧ rxd = .low
  · obtain ⟨rfl, rfl⟩ := falls
    have begun : distance now now = 0 := distance_self now
    by_cases first : sampleOffset rate 0 = 0
    · simp [hear, characterAt, begun, first, Character.sample]
    · simp [hear, characterAt, begun, first, Ne.symm first]
  · simp [hear, characterAt, falls]

theorem hear_between (before : Level) (between : distance c.start now ≠ sampleOffset rate c.bits.length) :
    hear rate inBreak now before rxd (some c) = ⟨some c, none⟩ := by
  simp [hear, characterAt, between]

theorem hear_at (before : Level) (at_ : distance c.start now = sampleOffset rate c.bits.length) :
    hear rate inBreak now before rxd (some c) = c.sample inBreak rxd := by
  simp [hear, characterAt, at_]

/-- A start bit sampled high begins no character (assumption 28), and the other bits before the stop bit join. -/
theorem sample_of_more (more : c.bits.length ≠ 9) :
    c.sample inBreak rxd
      = ⟨if c.bits = [] ∧ rxd = .high then none else some ⟨c.start, c.bits ++ [rxd]⟩, none⟩ := by
  by_cases false_ : c.bits = [] ∧ rxd = .high
  · simp [Character.sample, false_]
  · have keeps : ¬((decide (c.bits.length = 0) && decide (rxd = .high)) = true) := by simpa using false_
    simp only [Character.sample, if_neg keeps, if_neg more, if_neg false_]

/-- The stop bit completes the character (R175). -/
theorem sample_of_last (full : c.bits.length = 9) :
    c.sample inBreak rxd
      = ⟨none, if rxd = .high ∧ inBreak = false then some (byteOf (c.bits.drop 1)) else none⟩ := by
  simp [Character.sample, full]

/-- The bits of a byte's number are the levels sampled, least significant first (R175). -/
theorem testBit_spelled : ∀ (bits : List Level) (i : Nat),
    (bits.foldr (fun level n => bit (level == .high) + 2 * n) 0).testBit i = true ↔ bits[i]? = some .high
  | [], i => by simp
  | level :: bits, 0 => by cases level <;> simp [bit, Nat.testBit_zero, Nat.add_mod]
  | level :: bits, i + 1 => by
    have half : (bit (level == .high) + 2 * bits.foldr (fun level n => bit (level == .high) + 2 * n) 0) / 2
        = bits.foldr (fun level n => bit (level == .high) + 2 * n) 0 := by
      cases level with
      | low => simp [bit]
      | high => simp [bit]; omega
    rw [List.foldr_cons, Nat.testBit_add_one, half, testBit_spelled bits i, List.getElem?_cons_succ]

theorem byteOf_getLsbD (bits : List Level) {i : Nat} (small : i < 8) :
    (byteOf bits).getLsbD i = true ↔ bits[i]? = some .high := by
  rw [byteOf, BitVec.getLsbD_ofNat, Bool.and_eq_true, decide_eq_true_eq, testBit_spelled]
  exact and_iff_right small

/-- A bit's sample lies within that bit's time, rounded up to whole ticks at its start (R175). -/
theorem sample_within {bps point : Nat} (place : Nat) (positive : 0 < bps) (point_lt : point < 40000000 / bps) :
    place * 40000000 ≤ ((place * 40000000 + bps - 1) / bps + point) * bps
      ∧ ((place * 40000000 + bps - 1) / bps + point) * bps < (place + 1) * 40000000 := by
  have whole := Nat.div_mul_le_self 40000000 bps
  have point_le : point * bps + bps ≤ 40000000 / bps * bps := by
    rw [← Nat.succ_mul]
    exact Nat.mul_le_mul_right bps point_lt
  have under := Nat.div_mul_le_self (place * 40000000 + bps - 1) bps
  have above := Nat.lt_div_mul_add (a := place * 40000000 + bps - 1) positive
  rw [Nat.add_mul]
  omega

theorem sampleOffset_within (rate : LineRate) (place : Nat) :
    place * 40000000 ≤ sampleOffset rate place * rate.bitsPerSecond
      ∧ sampleOffset rate place * rate.bitsPerSecond < (place + 1) * 40000000 := by
  have positive : 0 < rate.bitsPerSecond := by cases rate <;> decide
  have ticks : 0 < 40000000 / rate.bitsPerSecond := by cases rate <;> decide
  exact sample_within place positive (Nat.mod_lt _ ticks)

/-! ## What the receiver has of RXD after a tick -/

theorem onTick_heard (initialised : s.link.initialised = true) (rxd : Level) :
    (s.onTick rxd).link.character
        = (hear s.link.rate (s.link.breakState == .inBreak) (s.onTick rxd).now s.link.rxd rxd
            s.link.character).character
      ∧ (s.onTick rxd).link.completed
        = (hear s.link.rate (s.link.breakState == .inBreak) (s.onTick rxd).now s.link.rxd rxd
            s.link.character).byte := by
  simp [State.onTick, Link.onTick, initialised, State.now]

theorem onTick_unheard (running : s.link.initialised = false) (rxd : Level) :
    (s.onTick rxd).link.character = none ∧ (s.onTick rxd).link.completed = none := by
  simp [State.onTick, Link.onTick, running]

/-- Settles O54: the bytes that the receiver examines, the truncation, and the samples of a tick. -/
theorem receiverCollectsAFrame : Obligations.ReceiverCollectsAFrame := by
  refine ⟨?_, fun s bytes last receiver late => ?_, fun s b other => ?_, fun s rxd rests => ?_, sampleOffset_within⟩
  · intro s b initialised unbroken completed t
    refine ⟨fun hunting => ⟨?_, fun other => ?_⟩,
      fun bytes last receiver inTime => ⟨fun one => ⟨fun low high => ?_, fun outside => ?_⟩, fun some more => ?_⟩⟩
    · rintro rfl
      exact completes_of_due (row := rfl) (huntingFor_of_takes (takes_of_completed initialised unbroken completed) hunting)
    · have hunts := huntingFor_of_takes (takes_of_completed initialised unbroken completed) hunting
      exact completes_of_due (row := rfl) (by simpa [hunts, frameSync] using other)
    · refine frameByte_of_collecting (collecting_of_inFrame initialised unbroken completed receiver inTime) ?_
      rw [if_pos (by simp [lengthIsNext, one])]
      exact lengthOk_iff.mpr ⟨low, high⟩
    · have bad : lengthOk b = false := by
        rw [Bool.eq_false_iff, ne_eq, lengthOk_iff]
        omega
      exact badLength_of_collecting (collecting_of_inFrame initialised unbroken completed receiver inTime)
        (by simp [lengthIsNext, one, bad])
    · have later : lengthIsNext bytes = false := by
        simp only [lengthIsNext, beq_eq_false_iff_ne]
        omega
      have notLast : lastIsNext bytes = false := by
        simp only [lastIsNext, lengthOf, Bool.and_eq_false_iff, decide_eq_false_iff_not, beq_eq_false_iff_ne]
        omega
      exact frameByte_of_collecting (collecting_of_inFrame initialised unbroken completed receiver inTime)
        (by simp [later, notLast])
  · exact completes_of_due (row := rfl) (by simp [truncationIsDue, receiver, late, Config.gapTicks])
  · have hunts := not_hunting_of_other other
    have collects := not_collecting_of_other other
    refine ⟨?_, ?_, ?_, ?_, ?_⟩
    · simp [completes, exec, execStrayByte, hunts]
    · simp [completes, exec, execFrameByte, collects]
    · simp [completes, exec, execBadLength, collects]
    · simp [completes, exec, execReceiveFrame, collects]
    · rintro rfl
      have hunts : s.huntingFor frameSync = false := hunts
      simp [completes, exec, execSync, hunts]
  · refine ⟨s.onTick rxd, tick_completes rests rxd, fun running => onTick_unheard running rxd, fun initialised => ?_⟩
    obtain ⟨character, completed⟩ := onTick_heard initialised rxd
    rw [character, completed]
    refine ⟨fun idle => ?_, fun c begun => ?_⟩
    · rw [idle, hear_of_none]
      exact ⟨rfl, rfl⟩
    · rw [begun]
      refine ⟨fun between => ?_, fun at_ => ?_⟩
      · rw [hear_between _ between]
        exact ⟨rfl, rfl⟩
      · rw [hear_at _ at_]
        refine ⟨fun more => ?_, fun full => ?_⟩
        · rw [sample_of_more more]
          exact ⟨rfl, rfl⟩
        · rw [sample_of_last full]
          refine ⟨rfl, fun dropped => if_neg ?_, fun stop unbroken => ⟨_, if_pos ?_, fun i small => ?_⟩⟩
          · rintro ⟨stop, unbroken⟩
            obtain low | broken := dropped
            · rw [stop] at low
              cases low
            · rw [broken] at unbroken
              cases unbroken
          · exact ⟨stop, by rw [unbroken]; rfl⟩
          · rw [byteOf_getLsbD _ small, List.getElem?_drop, Nat.add_comm]

end Sys2Proof.Machine
end

section
/-! PROOF. The generic checks of the dispatcher (R185), and a refused request, which changes nothing (R184). -/

namespace Sys2Proof.Machine

variable {s t : State} {i : Instr} {tag code : Byte} {payload : List Byte} {rest : List Request} {rc : RequestCode}

/-! ## Codes, lengths and index fields (R185, R192) -/

/-- The twenty codes, their requests and the lengths of their payloads. -/
def requestTable : List (Byte × RequestCode × Nat) :=
  [(0x01, .describe, 0), (0x02, .status, 1), (0x03, .time, 0), (0x04, .grant, 1),
    (0x05, .softReset, 0), (0x10, .chanSet, 7), (0x11, .chanGet, 2), (0x12, .probe, 4),
    (0x18, .captureSet, 7), (0x19, .captureRead, 2), (0x1A, .captureFlush, 1),
    (0x20, .jobDefine, 32), (0x21, .jobStart, 8), (0x22, .jobStop, 2), (0x23, .jobClear, 1),
    (0x24, .jobGet, 1), (0x28, .resultFetch, 1), (0x29, .resultSetup, 1), (0x2A, .resultFlush, 0),
    (0x2C, .limitSet, 28)]

theorem requestTable_rows : ∀ row ∈ requestTable,
    requestCodeOf row.1 = some row.2.1 ∧ row.2.1.payloadLength = row.2.2 := by decide

theorem requestCodeOf_eq_none : ∀ code : Byte, (∀ row ∈ requestTable, code ≠ row.1) → requestCodeOf code = none := by
  decide

/-- A slot above 31 is refused at field 1. -/
theorem badIndex_of_slot (named : rc ∈ [RequestCode.jobDefine, .jobStart, .jobStop, .jobClear, .jobGet, .limitSet])
    (above : 31 < field payload 0 1) : rc.badIndex payload = some 1 := by
  simp only [List.mem_cons, List.not_mem_nil, or_false] at named
  rcases named with rfl | rfl | rfl | rfl | rfl | rfl <;> exact if_pos above

/-- A channel above 7 is refused at field 1. -/
theorem badIndex_of_channel
    (named : rc ∈ [RequestCode.chanSet, .chanGet, .probe, .captureSet, .captureRead, .captureFlush])
    (above : 7 < field payload 0 1) : rc.badIndex payload = some 1 := by
  simp only [List.mem_cons, List.not_mem_nil, or_false] at named
  rcases named with rfl | rfl | rfl | rfl | rfl | rfl <;> exact if_pos above

/-- A channel A above 7 is refused at field 3. -/
theorem badIndex_of_channelA (slot : field payload 0 1 ≤ 31) (above : 7 < field payload 2 1) :
    RequestCode.jobDefine.badIndex payload = some 3 :=
  (if_neg (Nat.not_lt.mpr slot)).trans (if_pos above)

theorem genericCheck_of_length (length : payload.length ≠ rc.payloadLength) :
    genericCheck rc payload = some (.badLength, 0) := if_pos length

theorem genericCheck_of_badIndex {index : Nat} (length : payload.length = rc.payloadLength)
    (bad : rc.badIndex payload = some index) : genericCheck rc payload = some (.badIndex, index) := by
  simp [genericCheck, length, bad]

/-- The row that answers a request refuses it as the generic checks say (R185; assumptions 15, 16, 29). -/
theorem row_refuses (q : s.asks tag code payload rest) (names : requestCodeOf code = some rc)
    (settled : rc = .time ∨ rc = .jobStop → referenceIsDue s = false) {refusal : ReplyCode} {detail : Nat}
    (check : genericCheck rc payload = some (refusal, detail)) :
    completes (rc.row payload) s (s.answered tag rest refusal.toByte (leBytes 1 detail)) := by
  cases rc with
  | probe =>
    cases cancels : probeCancels payload with
    | true =>
      have row : RequestCode.row .probe payload = .probeCancel := if_pos cancels
      rw [row]
      exact congrArg Host.Outcome.next (serve_of_refused q names cancels check)
    | false =>
      have row : RequestCode.row .probe payload = .probeStart := if_neg (by rw [cancels]; exact Bool.false_ne_true)
      rw [row]
      exact congrArg Host.Outcome.next
        (serve_of_refused (mine := fun p => !probeCancels p) q names (by rw [cancels]; rfl) check)
  | time =>
    exact congrArg Host.Outcome.next
      ((if_neg (Bool.eq_false_iff.mp (settled (.inl rfl)))).trans (serve_of_refused q names rfl check))
  | jobStop =>
    exact congrArg Host.Outcome.next
      ((if_neg (Bool.eq_false_iff.mp (settled (.inr rfl)))).trans (serve_of_refused q names rfl check))
  | _ => exact congrArg Host.Outcome.next (serve_of_refused q names rfl check)

theorem unknownRequest_refuses (q : s.asks tag code payload rest) (unknown : requestCodeOf code = none) :
    completes .unknownRequest s (s.answered tag rest 0x10 [0]) := by
  show execUnknownRequest s = _
  rw [execUnknownRequest, q.dueRequest]
  exact congrArg Host.Outcome.next ((if_pos unknown).trans (finishRequest_refuse q .unknownRequest 0))

/-- Settles O58: the row of the table that has the code gives the length, and the request the index fields. -/
theorem dispatcherChecksCodeLengthIndex : Obligations.DispatcherChecksCodeLengthIndex := by
  intro s tag code payload rest q
  refine ⟨fun unknown => unknownRequest_refuses q (requestCodeOf_eq_none code unknown), fun row member is settled => ?_⟩
  obtain ⟨names, length⟩ := requestTable_rows row member
  rw [← is] at names
  have refuses {refusal : ReplyCode} {detail : Nat} := row_refuses (refusal := refusal) (detail := detail) q names settled
  have byte (offset : Nat) := field_byte payload offset
  refine ⟨fun other => ?_, fun same => ⟨fun named above => ?_, fun named above => ?_, fun define slot above => ?_⟩⟩
  · exact refuses (genericCheck_of_length (length ▸ other))
  · rw [← byte] at above
    exact refuses (genericCheck_of_badIndex (same.trans length.symm) (badIndex_of_slot named above))
  · rw [← byte] at above
    exact refuses (genericCheck_of_badIndex (same.trans length.symm) (badIndex_of_channel named above))
  · rw [← byte] at slot above
    have refused := refuses (genericCheck_of_badIndex (same.trans length.symm)
      (define ▸ badIndex_of_channelA slot above))
    rwa [define] at refused

/-! ## A refusal changes nothing (R184) -/

/-- Only the answer to a request puts a reply behind those that wait. -/
theorem Effect.answers_of_reply {r : Reply} (h : Effect s i t) (longer : t.link.replies = s.link.replies ++ [r]) :
    ∃ tag code payload rest a, s.asks tag code payload rest ∧ Answers payload s i a
      ∧ t = finishRequest ⟨tag, code, payload⟩ a := by
  have noLonger (same : t.link.replies = s.link.replies) : False := by
    rw [same] at longer
    exact List.append_ne_nil_of_right_ne_nil [] (List.cons_ne_nil r []) (List.self_eq_append_right.mp longer)
  have notEmpty (empty : t.link.replies = []) : False := by
    rw [empty] at longer
    exact List.append_ne_nil_of_right_ne_nil _ (List.cons_ne_nil r []) longer.symm
  cases h with
  | answer _ asks answers => exact ⟨_, _, _, _, _, asks, answers, rfl⟩
  | powerReset | initEnd => exact (notEmpty rfl).elim
  | linkReset => exact (notEmpty (by rw [resetNotices_frame]; rfl)).elim
  | refLoss => exact (noLonger (by rw [declareLoss_frame])).elim
  | edgeArrival => exact (noLonger (by rw [arrive_frame])).elim
  | edgeSeen => exact (noLonger (by rw [(see_acts ..).link])).elim
  | deadlineExpiry =>
    exact (noLonger (congrArg Link.replies (expire_keeps_frame State.link JobActs.link fun _ _ => rfl))).elim
  | probeStep => exact (noLonger (by rw [decideStep_frame])).elim
  | receiveFrame => exact (noLonger (by rw [takeFrame_spares]; rfl)).elim
  | noticeBegin => exact (noLonger (by rw [beginNotice_frame])).elim
  | replyBegin =>
    cases replies : s.link.replies with
    | nil =>
      have idle : s.beginReply = s := by simp only [State.beginReply, replies]
      exact (noLonger (by rw [idle])).elim
    | cons first others =>
      rw [beginReply_eq replies, replies] at longer
      have shorter := congrArg List.length longer
      simp at shorter
      omega
  | _ => exact (noLonger rfl).elim

/-- What a request's owner makes leaves the replies that wait. -/
theorem Answers.replies {a : Answer} (h : Answers payload s i a) : a.state.link.replies = s.link.replies := by
  obtain ⟨-, link⟩ := h.change.transmission
  rw [link]

/-- Settles O59: the one reply that a command adds is its answer to the request that the dispatcher takes, and a
refusal is answered from the state as it was. -/
theorem refusedRequestChangesNothing : Obligations.RefusedRequestChangesNothing := by
  intro c s t tag code payload rest r q done longer notOk notAccepted
  obtain ⟨tag', code', payload', rest', a, asks, answers, rfl⟩ := (effect_of_completes done).answers_of_reply longer
  have same := asks.intake.symm.trans q.intake
  cases same
  simp only [finishRequest, answers.replies, List.append_cancel_left_eq, List.cons.injEq, and_true] at longer
  subst longer
  obtain ⟨unchanged, oneByte⟩ := answers.refusal (fun ok => notOk (by rw [ok]; rfl))
    (fun accepted => notAccepted (by rw [accepted]; rfl))
  exact ⟨finishRequest_eq (by rw [unchanged]) q |>.trans (by rw [unchanged]), rfl, oneByte⟩

end Sys2Proof.Machine
end

section
/-! PROOF. The expiry of each kind of boundary (R47, R48, R100): a START opens the measurement, a CLOSE and a STALL
end it, a REPORT forms the INTERIM record, and a PERIODIC job finds its next start. -/

namespace Sys2Proof.Machine

variable {s t : State} {slot : Fin 32} {d : Definition} {settle m : Nat} {purpose : Purpose} {b e opened : Tick}

/-! ## An expiry is the boundary, taken (R100) -/

theorem takeBoundary_of_dropEntry {u : State} {boundary : Boundary} (defined : (s.job slot).definition = some d)
    (same : u.dropEntry slot = s.dropEntry slot) : u.takeBoundary slot boundary = s.takeBoundary slot boundary := by
  have job : u.job slot = s.job slot := by simpa using congrArg (fun v : State => v.job slot) same
  simp only [State.takeBoundary, job, defined, same]

theorem State.expires.completes (h : s.expires slot d settle purpose b) :
    completes .deadlineExpiry s (s.takeBoundary slot ⟨purpose, b⟩) := by
  obtain ⟨defined, settles, now, settled, rest, entries⟩ := h
  have due : (expiryIsDue s && !referenceIsDue s) = true := by simp [expiryIsDue, entries, settled]
  have expired : Machine.completes .deadlineExpiry s s.expire := completes_of_due (row := rfl) due
  have boundary : tickBefore s.now (s.job slot).settleTicks = b := by
    rw [Job.settleTicks, settles, now]
    exact tickBefore_tickAfter b settle
  have taken : s.expire = s.takeBoundary slot ⟨purpose, b⟩ := by
    simp only [State.expire, entries, boundary]
    exact takeBoundary_of_dropEntry defined (dropEntry_head s slot entries rfl)
  rwa [taken] at expired

/-! ## START (R43, R55, R62) -/

/-- Opening a measurement writes the job and its entry alone. -/
theorem openMeasurement_frame (s : State) (slot : Fin 32) (d : Definition) (t : Tick) :
    s.openMeasurement slot d t = { s with
      jobs := (s.openMeasurement slot d t).jobs, deadlines := (s.openMeasurement slot d t).deadlines } := by
  unfold State.openMeasurement State.changeBoundary
  split <;> rfl

theorem openMeasurement_jobBecomes (settles : (s.job slot).settle = some settle) (t : Tick) :
    s.jobBecomes slot ((s.job slot).opensAt d t none) settle s.deadlines.reservations
      (s.openMeasurement slot d t) := by
  obtain ⟨job, -, reservations, stands⟩ := openMeasurement_spec s slot d t settle settles
  obtain ⟨-, -, -, -, -, -, -, -, -, others⟩ := (openMeasurement_acts slot s d t).spares
  rw [job] at stands
  exact ⟨openMeasurement_frame s slot d t, job, others, reservations, stands⟩

/-- What a job becomes, its own entry dropped first. -/
theorem State.jobBecomes.of_dropEntry {j : Job} {reservations : Nat}
    (h : (s.dropEntry slot).jobBecomes slot j settle reservations t) : s.jobBecomes slot j settle reservations t := by
  obtain ⟨frame, job, others, held, stands⟩ := h
  exact ⟨frame, job, others, held, stands.of_eq (otherEntries_dropEntry s slot) rfl⟩

/-- Settles O35: the START is taken, and opening the measurement says what the job becomes. -/
theorem startExpiryOpensTheMeasurement : Obligations.StartExpiryOpensTheMeasurement := by
  intro s slot d settle b expires
  have opens : s.takeBoundary slot ⟨.start, b⟩ = (s.dropEntry slot).openMeasurement slot d b := by
    simp only [State.takeBoundary, expires.1]
  have expired := expires.completes
  rw [opens] at expired
  obtain ⟨-, settles, -⟩ := expires
  exact ⟨_, expired, (openMeasurement_jobBecomes (s := s.dropEntry slot) settles b).of_dropEntry⟩

/-! ## CLOSE and STALL (R67, R70) -/

/-- A measurement that ends at a boundary, its own entry dropped first. -/
theorem dropEntry_complete_ends (settles : (s.job slot).settle = some settle)
    (opens : (s.job slot).openTick = some opened) (status : RecordStatus) (b : Tick) :
    s.ends slot d settle opened (s.job slot).acc (s.job slot).held status b b none
      ((s.dropEntry slot).complete slot d status b none).state := by
  have ended := complete_spec (s.dropEntry slot) slot d status b opened b none none settle settles
    (by simp [Job.opened, opens]) (fun _ => by cases status <;> exact ⟨rfl, rfl⟩) (fun _ => rfl)
  exact ended.of_worked (a' := (s.job slot).acc) (h' := (s.job slot).held) rfl rfl (fun _ _ => rfl) rfl
    (otherEntries_dropEntry s slot)

/-- The expiry of a CLOSE or of a STALL ends the measurement as of the boundary tick. -/
theorem State.expires.ends (h : s.expires slot d settle purpose b) (opens : (s.job slot).openTick = some opened)
    (closing : purpose = .close ∨ purpose = .stall) :
    ∃ t, Machine.completes .deadlineExpiry s t
      ∧ s.ends slot d settle opened (s.job slot).acc (s.job slot).held
          (if purpose = .close then .complete else .stalled) b b none t := by
  have expired := h.completes
  obtain ⟨defined, settles, -⟩ := h
  refine ⟨_, expired, ?_⟩
  obtain rfl | rfl := closing <;> simp only [State.takeBoundary, defined]
  · exact dropEntry_complete_ends settles opens .complete b
  · exact dropEntry_complete_ends settles opens .stalled b

/-- Settles O36: either boundary ends the measurement. -/
theorem closeAndStallEndTheMeasurement : Obligations.CloseAndStallEndTheMeasurement := by
  intro s slot d settle purpose b opened expires opens closing
  exact expires.ends opens (closing.imp And.left And.left)

/-! ## REPORT (R83) -/

theorem distance_tickBefore {n : Nat} (fits : n < 2 ^ 48) (b : Tick) : distance (tickBefore b n) b = n := by
  have back : b - (b - BitVec.ofNat 48 n) = BitVec.ofNat 48 n := by bv_omega
  rw [distance, tickBefore, back, BitVec.toNat_ofNat, Nat.mod_eq_of_lt fits]

/-- The window that a REPORT ends: from the report before it, with the edges counted in it (R82, R83). -/
theorem Record.tells.window {r : Record} {j : Job} (tells : r.tells d j opened b) (kind : d.kind = .tally)
    (reports : 0 < d.report) (fits : d.report < 2 ^ 32) (next : j.next = some ⟨.report, b⟩) :
    r.startTick = tickBefore b d.report ∧ r.endTick = b ∧ r.count = j.acc.count ∧ r.span = d.report
      ∧ r.value = j.acc.count * 40000000000 / d.report ∧ r.total = some j.acc.total := by
  obtain ⟨start, ends, count, span, value, -, total, -⟩ := tells
  simp only [kind, next, if_pos reports] at start span value total
  have span : r.span = d.report := by
    rw [span, start]
    exact distance_tickBefore (by omega) b
  refine ⟨start, ends, count, span, ?_, total⟩
  rw [value, span, count, milliHertz]
  split
  · rename_i zero
    obtain none | never := zero
    · rw [none, Nat.zero_mul, Nat.zero_div]
    · omega
  · rfl

/-- An INTERIM record is formed and handed on, the count restarts, and the next report is set (R83). -/
theorem interimReport_spec (s : State) (slot : Fin 32) (d : Definition) (b opened : Tick)
    (settles : (s.job slot).settle = some settle) (opens : (s.job slot).openTick = some opened) :
    ∃ r : Record, s.takesRecord slot d .interim opened r (s.interimReport slot d b)
      ∧ r.tells d (s.job slot) opened b
      ∧ (s.interimReport slot d b).job slot = { s.job slot with
          acc := { (s.job slot).acc with count := 0 }, next := some ⟨.report, tickAfter b d.report⟩,
          sequence := (s.job slot).sequence + 1, pendingMissed := 0, latest := some r,
          lostPending := ((s.interimReport slot d b).job slot).lostPending,
          lostTotal := ((s.interimReport slot d b).job slot).lostTotal,
          alert := ((s.interimReport slot d b).job slot).alert }
      ∧ (s.interimReport slot d b).deadlines.reservations = s.deadlines.reservations
      ∧ Entry.placed s.now ⟨tickAfter (tickAfter b d.report) settle, slot, .report⟩ (s.otherEntries slot)
          (s.interimReport slot d b).deadlines.entries := by
  obtain ⟨r, takes, tells, deadlines, job⟩ := produce_spec s slot d .interim b opened (by simp [Job.opened, opens])
  have now : (s.produce slot d .interim b).now = s.now :=
    congrArg Timebase.tick (produce_acts slot s d .interim b).spares.1
  have others : (s.produce slot d .interim b).otherEntries slot = s.otherEntries slot := by
    rw [State.otherEntries, deadlines]
    rfl
  obtain ⟨-, becomes, -, reservations, stands⟩ := jobBecomes_setBoundary
    (s := s.produce slot d .interim b) (slot := slot) (settle := settle) (b := ⟨.report, tickAfter b d.report⟩)
    (j := { (s.produce slot d .interim b).job slot with
      acc := { ((s.produce slot d .interim b).job slot).acc with count := 0 } })
    (by rw [job]; exact settles)
  have acts : JobActs slot (s.produce slot d .interim b) (s.interimReport slot d b) := by
    refine .after (setBoundary_acts ..) (write_acts slot _ _ rfl rfl rfl ?_)
    exact fun counters => counters
  have sequence : r.sequence = (s.job slot).sequence + 1 := takes.2.2.2.1
  refine ⟨r, takes.after acts rfl ⟨_, becomes, rfl, rfl, rfl, rfl, rfl⟩, tells, ?_, ?_, ?_⟩
  · have reported : (s.interimReport slot d b).job slot = _ := becomes
    rw [reported, job, sequence]
  · have reported : (s.interimReport slot d b).deadlines.reservations = _ := reservations
    rw [reported, deadlines]
  · exact stands.of_eq others now

/-- Settles O37: the REPORT forms the record of its window, its own entry dropped first. -/
theorem reportExpiryFormsAnInterimRecord : Obligations.ReportExpiryFormsAnInterimRecord := by
  intro s slot d settle b opened expires kind reports fits next opens
  have reported : s.takeBoundary slot ⟨.report, b⟩ = (s.dropEntry slot).interimReport slot d b := by
    simp only [State.takeBoundary, expires.1]
  have expired := expires.completes
  rw [reported] at expired
  obtain ⟨-, settles, -⟩ := expires
  obtain ⟨r, takes, tells, job, reservations, placed⟩ :=
    interimReport_spec (s.dropEntry slot) slot d b opened settles opens
  obtain ⟨start, ends, count, span, value, total⟩ := Record.tells.window tells kind reports fits next
  rw [otherEntries_dropEntry] at placed
  exact ⟨_, r, expired, (interimReport_acts slot (s.dropEntry slot) d b).spares, takes, tells, start, ends, count,
    span, value, total, job, reservations, placed⟩

end Sys2Proof.Machine
end

section
/-! PROOF. The next start of a PERIODIC job that ends at a CLOSE or a STALL (R54, R55). -/

namespace Sys2Proof.Machine

variable {s t : State} {slot : Fin 32} {d : Definition} {settle m : Nat} {purpose : Purpose} {b e opened : Tick}
  {a : Accumulators} {held : List AcceptedEdge} {status : RecordStatus} {endTick reopen : Tick} {first : Option Tick}

/-! ## What a PERIODIC end leaves of the job -/

theorem opensAt_next (j : Job) (d : Definition) (t : Tick) (first : Option Tick) :
    (j.opensAt d t first).next = d.firstBoundary t := by
  unfold Job.opensAt Definition.firstBoundary
  cases d.kind <;> rfl

/-- The job's counts after a PERIODIC end, HOLD for a start that lies ahead of the horizon, and the next measurement
for one that does not (R54, R55). -/
structure Job.Restarts (before j : Job) (d : Definition) (m : Nat) (start horizon : Tick) (a : Accumulators)
    (first : Option Tick) : Prop where
  missedTotal : j.missedTotal = if m = 1 then before.missedTotal else min (before.missedTotal + (m - 1)) 65535
  pendingMissed : j.pendingMissed = min (m - 1) 65535
  holds : notEarlier horizon start = false →
    j.state = .hold ∧ j.next = some ⟨.start, start⟩ ∧ j.openTick = before.openTick ∧ j.acc = a
  opens : notEarlier horizon start = true →
    j.state = .active ∧ j.openTick = some start ∧ j.acc.count = 0 ∧ j.acc.firstEdge = first
      ∧ j.next = d.firstBoundary start

theorem State.ends.restarts (h : s.ends slot d settle opened a held status endTick reopen first t)
    (periodic : d.repeating = .periodic) (one : 1 ≤ m) (reaches : distance opened endTick ≤ m * d.period)
    (least : m = 1 ∨ (m - 1) * d.period < distance opened endTick) :
    (2 ≤ m → t.raised (.job slot) 0x08#8) ∧ (s.job slot).Restarts (t.job slot) d m
      (tickAfter opened (m * d.period)) (tickBefore s.now settle) a first := by
  obtain ⟨-, r, -, -, -, -, -, grid⟩ := h
  obtain ⟨raised, holds, opens⟩ := grid periodic m one reaches least
  refine ⟨raised, ?_⟩
  cases later : notEarlier (tickBefore s.now settle) (tickAfter opened (m * d.period)) with
  | false =>
    have job := holds later
    exact ⟨by rw [job], by rw [job], fun _ => by rw [job]; exact ⟨rfl, rfl, rfl, rfl⟩,
      fun now => by rw [later] at now; cases now⟩
  | true =>
    have job := opens later
    refine ⟨by rw [job]; rfl, by rw [job]; rfl, fun ahead => ?_, fun _ => ?_⟩
    · rw [later] at ahead
      cases ahead
    · rw [job, opensAt_next]
      exact ⟨rfl, rfl, rfl, rfl, rfl⟩

theorem State.ends.goes_on (h : s.ends slot d settle opened a held status endTick reopen first t)
    (goes : d.repeating ≠ .once) : s.sparesOthers slot t
      ∧ t.deadlines.reservations = s.deadlines.reservations
      ∧ s.entryStands slot (t.job slot).next settle t := by
  obtain ⟨spares, r, -, -, -, on, -⟩ := h
  exact ⟨spares, on goes⟩

/-! ## The grid (R36, R54) -/

theorem notEarlier_self (t : Tick) : notEarlier t t = true := by
  simp [notEarlier, distance_self, Config.halfRange]

theorem distance_tickAfter {n : Nat} (fits : n < 2 ^ 48) (t : Tick) : distance t (tickAfter t n) = n := by
  have ahead : t + BitVec.ofNat 48 n - t = BitVec.ofNat 48 n := by bv_omega
  rw [distance, tickAfter, ahead, BitVec.toNat_ofNat, Nat.mod_eq_of_lt fits]

/-- A tick is earlier than one that lies behind it by less than half the range (R3). -/
theorem notEarlier_of_behind {n k : Nat} (behind : n < k) (near : k < 2 ^ 32) (t : Tick) :
    notEarlier (tickAfter t n) (tickAfter t k) = false := by
  have back : t + BitVec.ofNat 48 n - (t + BitVec.ofNat 48 k) = BitVec.ofNat 48 n - BitVec.ofNat 48 k := by bv_omega
  have far : ¬(BitVec.ofNat 48 n - BitVec.ofNat 48 k).toNat < 2 ^ 47 := by
    rw [BitVec.toNat_sub, BitVec.toNat_ofNat, BitVec.toNat_ofNat, Nat.mod_eq_of_lt (by omega : n < 2 ^ 48),
      Nat.mod_eq_of_lt (by omega : k < 2 ^ 48)]
    omega
  rw [notEarlier, distance, tickAfter, tickAfter, back]
  exact decide_eq_false far

/-- A gate that fits its period meets the first grid point (R36). -/
theorem one_of_gate {gate period : Nat} (fits : gate ≤ period) (period_lt : period < 2 ^ 32)
    (least : m = 1 ∨ (m - 1) * period < distance opened (tickAfter opened gate)) (one : 1 ≤ m) : m = 1 := by
  rw [distance_tickAfter (by omega)] at least
  obtain done | more := least
  · exact done
  · by_contra several
    have whole : period ≤ (m - 1) * period := Nat.le_mul_of_pos_left period (by omega)
    omega

/-- The first boundary of a kind that ends at the purpose (R42, R95). -/
theorem firstBoundary_of_closing (closing : (purpose = .stall ∧ d.kind ≠ .freqFixed ∧ d.kind ≠ .tally)
      ∨ (purpose = .close ∧ d.kind = .freqFixed)) (t : Tick) :
    d.firstBoundary t
      = some (if purpose = .close then ⟨.close, tickAfter t d.gate⟩ else ⟨.stall, tickAfter t d.stall⟩) := by
  obtain ⟨rfl, notGate, notBatch⟩ | ⟨rfl, gate⟩ := closing
  · cases kind : d.kind <;> simp_all [Definition.firstBoundary]
  · simp [Definition.firstBoundary, gate]

/-- Settles O43: the end at the boundary, whose tick is the horizon, restarts the job on its grid. -/
theorem periodicJobFindsTheNextStart : Obligations.PeriodicJobFindsTheNextStart := by
  intro s slot d settle m purpose e opened expires opens periodic closing _ period_lt one reaches least start first
  obtain ⟨t, expired, ends⟩ := expires.ends opens (closing.symm.imp And.left And.left)
  obtain ⟨spares, reservations, stands⟩ := ends.goes_on (by rw [periodic]; decide)
  obtain ⟨raised, restarts⟩ := ends.restarts periodic one reaches least
  have horizon : tickBefore s.now settle = e := by
    obtain ⟨-, -, now, -⟩ := expires
    rw [now]
    exact tickBefore_tickAfter e settle
  rw [horizon] at restarts
  have boundary (t : Tick) : d.firstBoundary t = some (first t) := firstBoundary_of_closing closing t
  have atEnd (at_ : start = e) : (t.job slot).state = .active ∧ (t.job slot).openTick = some e
      ∧ (t.job slot).acc.count = 0 ∧ (t.job slot).acc.firstEdge = none ∧ (t.job slot).next = some (first e) := by
    have opened' := restarts.opens (by rw [show tickAfter opened (m * d.period) = e from at_]; exact notEarlier_self e)
    rwa [show tickAfter opened (m * d.period) = e from at_, boundary] at opened'
  refine ⟨t, expired, spares, fun m1 => ?_, fun several => ?_, reservations, fun ahead => ?_, fun at_ => ?_,
    fun closes gate => ?_⟩
  · rw [restarts.missedTotal, restarts.pendingMissed, if_pos m1, m1]
    exact ⟨rfl, rfl⟩
  · rw [restarts.missedTotal, restarts.pendingMissed, if_neg (by omega)]
    exact ⟨rfl, rfl, raised several⟩
  · obtain ⟨state, next, openTick, acc⟩ := restarts.holds ahead
    rw [next] at stands
    exact ⟨state, next, openTick.trans opens, acc, stands⟩
  · obtain ⟨state, openTick, count, firstEdge, next⟩ := atEnd at_
    rw [next] at stands
    have purpose_eq : (first e).purpose = purpose := by
      simp only [first]
      obtain ⟨rfl, -⟩ | ⟨rfl, -⟩ := closing <;> rfl
    refine ⟨state, openTick, count, firstEdge, next, ?_⟩
    rw [← purpose_eq]
    exact stands
  · have firstPoint (fits : d.gate ≤ d.period) : start = tickAfter opened d.period := by
      have m1 := one_of_gate fits period_lt (gate ▸ least) one
      simp only [start, m1, Nat.one_mul]
    refine ⟨fun abuts => ?_, fun waits => ?_⟩
    · obtain ⟨state, openTick, -, -, next⟩ := atEnd (by rw [firstPoint (Nat.le_of_eq abuts.symm), abuts, gate])
      refine ⟨state, openTick, ?_⟩
      simpa only [first, if_pos closes] using next
    · have here := firstPoint (Nat.le_of_lt waits)
      have ahead : notEarlier e start = false := by
        rw [here, gate]
        exact notEarlier_of_behind waits period_lt opened
      obtain ⟨state, next, -⟩ := restarts.holds ahead
      exact ⟨state, by rw [next, ← here]⟩

end Sys2Proof.Machine
end

section
/-! PROOF. The limit unit (R124, R127 to R129): the verdict on a record, and what handing a record on does to the
alert state, the latest result and the result queue (R106, R110 to R112). -/

namespace Sys2Proof.Machine

variable {s : State} {slot : Fin 32} {r : Record} {w : Window} {value : Nat}

/-! ## The verdict (R124, R127) -/

theorem region_outside : w.region value = .outside ↔ value < w.low ∨ w.high < value := by
  unfold Window.region
  simp only [Bool.or_eq_true, decide_eq_true_eq]
  split
  · simp [*]
  · split <;> simp [*]

theorem region_core :
    w.region value = .core
      ↔ w.low ≤ value ∧ value ≤ w.high ∧ w.low + w.band ≤ value ∧ value + w.band ≤ w.high := by
  unfold Window.region
  simp only [Bool.or_eq_true, Bool.and_eq_true, decide_eq_true_eq]
  split
  · rename_i out
    exact ⟨nofun, fun ⟨low, high, _⟩ => by omega⟩
  · rename_i inside
    split
    · rename_i core
      exact ⟨fun _ => ⟨by omega, by omega, core⟩, fun _ => rfl⟩
    · rename_i margin
      exact ⟨nofun, fun ⟨_, _, core⟩ => absurd core margin⟩

theorem region_evaluated : w.region value ≠ .notEvaluated := by
  unfold Window.region
  split
  · exact nofun
  · split <;> exact nofun

theorem verdict_of_evaluated {status : RecordStatus}
    (evaluated : status = .complete ∨ status = .interim ∨ status = .target) :
    verdict (some w) status value = w.region value := by
  obtain rfl | rfl | rfl := evaluated <;> rfl

/-! ## A record handed on (R106) -/

/-- The limit unit's verdict on a record of the slot. -/
def State.verdictOn (s : State) (slot : Fin 32) (r : Record) : Verdict :=
  verdict (s.job slot).window r.status r.value

/-- The state in which the limit unit has evaluated the record. -/
def State.evaluated (s : State) (slot : Fin 32) (r : Record) : State := s.moveAlert slot (s.verdictOn slot r)

/-- The record with the verdict on it (R128). -/
def State.judged (s : State) (slot : Fin 32) (r : Record) : Record :=
  { r with limitOut := s.verdictOn slot r == .outside }

theorem handOn_unqueued : s.handOn slot r false
    = (s.evaluated slot r).setJob slot { (s.evaluated slot r).job slot with latest := some (s.judged slot r) } := rfl

theorem handOn_queued : s.handOn slot r true = (s.evaluated slot r).offerRecord slot (s.judged slot r) := rfl

theorem evaluated_results : (s.evaluated slot r).results = s.results := moveAlert_results ..

theorem evaluated_job :
    (s.evaluated slot r).job slot
      = { s.job slot with alert := (s.job slot).alert.after (s.verdictOn slot r) } :=
  (moveAlert_job slot s _ slot).trans (if_pos rfl)

theorem offerRecord_job (u : State) (x : Record) :
    (u.offerRecord slot x).job slot =
      if u.results.records.length < 96 then (u.recordTaken slot x).job slot else (u.recordRefused slot x).job slot := by
  split
  · rename_i room
    rw [offerRecord_of_room room]
    split <;> rfl
  · rename_i full
    rw [offerRecord_of_full full]
    rfl

theorem recordTaken_job (u : State) (x : Record) :
    (u.recordTaken slot x).job slot = { u.job slot with
      latest := some { x with lostBefore := (u.job slot).lostPending }, lostPending := 0 } :=
  State.job_setJob_self u slot _

theorem recordRefused_job (u : State) (x : Record) :
    (u.recordRefused slot x).job slot = { u.job slot with
      latest := some x, lostPending := min ((u.job slot).lostPending + 1) 65535,
      lostTotal := min ((u.job slot).lostTotal + 1) 65535 } :=
  State.job_setJob_self u slot _

/-- The latest result is the record with the verdict on it, and the alert state follows the verdict (R107, R128,
R129). -/
theorem handOn_job (queue : Bool) :
    ∃ lost, ((s.handOn slot r queue).job slot).latest = some { s.judged slot r with lostBefore := lost }
      ∧ ((s.handOn slot r queue).job slot).alert = (s.job slot).alert.after (s.verdictOn slot r) := by
  cases queue with
  | false =>
    rw [handOn_unqueued, State.job_setJob_self, evaluated_job]
    exact ⟨_, rfl, rfl⟩
  | true =>
    rw [handOn_queued, offerRecord_job]
    split
    · rw [recordTaken_job, evaluated_job]
      exact ⟨_, rfl, rfl⟩
    · rw [recordRefused_job, evaluated_job]
      exact ⟨_, rfl, rfl⟩

/-- A flag that the limit unit has raised stays raised. -/
theorem handOn_raised {source : Source} {flags : BitVec 8} (queue : Bool)
    (raised : (s.evaluated slot r).raised source flags) : (s.handOn slot r queue).raised source flags := by
  cases queue with
  | false => exact (write_acts slot (s.evaluated slot r) _ rfl rfl rfl id).raised raised
  | true => exact (offerRecord_acts slot (s.evaluated slot r) (s.judged slot r)).raised raised

theorem handOn_of_full (full : 96 ≤ s.results.records.length) :
    (s.handOn slot r true).results = { s.results with refused := min (s.results.refused + 1) 65535 } := by
  rw [handOn_queued, offerRecord_of_full (by rw [evaluated_results]; exact Nat.not_lt.mpr full)]
  show ({ (s.evaluated slot r).results with
    refused := min ((s.evaluated slot r).results.refused + 1) 65535 } : ResultQueue) = _
  rw [evaluated_results]

theorem handOn_of_room (room : s.results.records.length < 96) :
    ∃ r' : Record, ((s.handOn slot r true).job slot).latest = some r'
      ∧ r'.lostBefore = (s.job slot).lostPending
      ∧ (s.handOn slot r true).results = { s.results with records := s.results.records ++ [r'] } := by
  have fits : (s.evaluated slot r).results.records.length < 96 := by rwa [evaluated_results]
  have pending : ((s.evaluated slot r).job slot).lostPending = (s.job slot).lostPending := by rw [evaluated_job]
  refine ⟨{ s.judged slot r with lostBefore := ((s.evaluated slot r).job slot).lostPending }, ?_, pending, ?_⟩
  · rw [handOn_queued, offerRecord_job, if_pos fits, recordTaken_job]
  · have taken : (s.handOn slot r true).results = ((s.evaluated slot r).recordTaken slot (s.judged slot r)).results := by
      rw [handOn_queued, offerRecord_of_room fits]
      split <;> rfl
    rw [taken]
    show ({ (s.evaluated slot r).results with
      records := (s.evaluated slot r).results.records ++ [_] } : ResultQueue) = _
    rw [evaluated_results]

/-- Settles O47: the verdict by window and status, and each thing that the record handed on moves. -/
theorem limitUnitMovesTheAlertState : Obligations.LimitUnitMovesTheAlertState := by
  refine ⟨fun _ _ => rfl, fun w status value => ⟨?_, ?_, fun evaluated => ?_⟩, fun s slot r queue => ?_⟩
  · rintro (rfl | rfl) <;> rfl
  · rintro rfl
    rfl
  · rw [verdict_of_evaluated evaluated]
    exact ⟨region_outside, region_core, region_evaluated⟩
  · intro v t
    obtain ⟨lost, latest, alert⟩ := handOn_job (s := s) (slot := slot) (r := r) queue
    obtain ⟨raisesOut, raisesIn⟩ := moveAlert_raised s slot v
    obtain ⟨out, core, stays⟩ := verdict_alert (s.job slot).alert v
    refine ⟨⟨_, latest, beq_iff_eq, rfl⟩, fun outside => ⟨alert.trans (out outside), fun inside =>
      handOn_raised queue (raisesOut outside inside)⟩, fun inCore => ⟨alert.trans (core inCore), fun outside =>
      handOn_raised queue (raisesIn inCore outside)⟩, fun unmoved => alert.trans (stays unmoved), ?_, ?_, ?_⟩
    · rintro rfl
      exact evaluated_results
    · rintro rfl full
      exact handOn_of_full full
    · rintro rfl room
      exact handOn_of_room room

end Sys2Proof.Machine
end

section
/-! PROOF. What JOB_START answers: its checks in order (R40), and the state of its start mode (R41 to R44). -/

namespace Sys2Proof.Machine

variable {s t : State} {tag mode : Byte} {rest : List Request} {payload : List Byte} {slot : Fin 32} {start : Tick}
  {d : Definition} {j j' : Job} {settle n : Nat}

/-! ## The payload (section 3.4) -/

/-- The eight bytes of a JOB_START with these fields. -/
def jobStartPayload (slot : Fin 32) (mode : Byte) (start : Tick) : List Byte :=
  leBytes 1 slot.val ++ [mode] ++ leBytes 6 start.toNat

/-- What the fields of a JOB_START read. -/
structure StartFields (payload : List Byte) (slot : Fin 32) (mode : Byte) (start : Tick) : Prop where
  slot : slotField payload = slot
  mode : field payload 1 1 = mode.toNat
  start : BitVec.ofNat 48 (field payload 2 6) = start

theorem jobStartPayload_fields (slot : Fin 32) (mode : Byte) (start : Tick) :
    StartFields (jobStartPayload slot mode start) slot mode start where
  slot := by rw [jobStartPayload, List.append_assoc, slotField_cons]
  mode := field_byte _ 1
  start := by
    have whole : jobStartPayload slot mode start = (leBytes 1 slot.val ++ [mode]) ++ (leBytes 6 start.toNat ++ []) :=
      by rw [jobStartPayload, List.append_nil]
    have fits : start.toNat < 256 ^ 6 := start.isLt
    have read : field (jobStartPayload slot mode start) 2 6 = leNat (leBytes 6 start.toNat) :=
      whole ▸ field_append rfl (length_leBytes 6 _)
    rw [read, leNat_leBytes_of_lt fits, BitVec.ofNat_toNat, BitVec.setWidth_eq]

theorem jobStart_of_asks (q : s.asks tag 0x21 (jobStartPayload slot mode start) rest) :
    completes .jobStart s (finishRequest ⟨tag, 0x21, jobStartPayload slot mode start⟩
      (jobStart (jobStartPayload slot mode start) s)) := by
  have slotOk : field (jobStartPayload slot mode start) 0 1 ≤ 31 := by
    rw [jobStartPayload, List.append_assoc]
    exact field_slot_le slot _
  exact congrArg Host.Outcome.next
    (serve_of_asks q rfl rfl (genericCheck_none rfl (if_neg (Nat.not_lt.mpr slotOk))))

/-! ## The checks (R40) -/

theorem referencedIn_iff {state : ChannelState} :
    s.referencedIn d state = true ↔ ∃ ch, d.references ch = true ∧ (s.channel ch).state = state := by
  simp only [State.referencedIn, Definition.references, Bool.or_eq_true, Bool.and_eq_true, beq_iff_eq]
  constructor
  · rintro (stateA | ⟨phase, stateB⟩)
    · exact ⟨_, .inl rfl, stateA⟩
    · exact ⟨_, .inr ⟨phase, rfl⟩, stateB⟩
  · rintro ⟨ch, rfl | ⟨phase, rfl⟩, here⟩
    · exact .inl here
    · exact .inr ⟨phase, here⟩

theorem referencedIn_eq_false {state : ChannelState} :
    s.referencedIn d state = false ↔ ∀ ch, d.references ch = true → (s.channel ch).state ≠ state := by
  rw [Bool.eq_false_iff, ne_eq, referencedIn_iff, not_exists]
  exact forall_congr' fun ch => not_and

/-- The start tick of mode AT does not lie 1 to 2^32 - 1 ticks ahead (R40). -/
def State.startsLate (s : State) (mode : Byte) (start : Tick) : Prop :=
  mode = 1 ∧ (distance s.now start = 0 ∨ 2 ^ 32 ≤ distance s.now start)

/-- The checks on a slot whose definition is `d`, the mode and the slot's state having passed. -/
theorem jobStartCheck_of_definition (f : StartFields payload slot mode start) (modeOk : mode.toNat ≤ 2)
    (defined : (s.job slot).definition = some d)
    (stopped : (s.job slot).state = .idle ∨ (s.job slot).state = .done) [Decidable (s.startsLate mode start)] :
    jobStartCheck payload s =
      if s.referencedIn d .disabled = true then .error (.channelDisabled, 0)
      else if s.referencedIn d .probing = true then .error (.channelBusy, 0)
      else if s.startsLate mode start then .error (.startLate, 3)
      else if 24 ≤ s.deadlines.reservations then .error (.deadlinesExhausted, 0)
      else .ok d := by
  have known : (s.job slot).state ≠ .free := by rintro free; simp [free] at stopped
  have notRunning : ¬(s.job slot).state.running = true := by
    obtain state | state := stopped <;> rw [state] <;> decide
  have one : mode.toNat = 1 ↔ mode = 1 := BitVec.toNat_inj (y := 1)
  have late : (mode.toNat = 1 && !(1 ≤ distance s.now start && distance s.now start ≤ 4294967295)) = true
      ↔ s.startsLate mode start := by
    simp only [Bool.and_eq_true, decide_eq_true_eq, Bool.not_eq_true', Bool.and_eq_false_iff, decide_eq_false_iff_not,
      one, State.startsLate]
    exact and_congr_right fun _ => by omega
  simp only [jobStartCheck, f.slot, f.mode, f.start, if_neg (Nat.not_lt.mpr modeOk), if_neg known, if_neg notRunning,
    defined, late, Config.reservations, ge_iff_le]

theorem jobStartCheck_of_mode (f : StartFields payload slot mode start) (above : 2 < mode.toNat) :
    jobStartCheck payload s = .error (.badValue, 2) := by
  simp only [jobStartCheck, f.mode, gt_iff_lt, if_pos above]

theorem jobStartCheck_of_free (f : StartFields payload slot mode start) (modeOk : mode.toNat ≤ 2)
    (free : (s.job slot).state = .free) : jobStartCheck payload s = .error (.jobFree, 0) := by
  simp only [jobStartCheck, f.slot, f.mode, gt_iff_lt, if_neg (Nat.not_lt.mpr modeOk), if_pos free]

theorem jobStartCheck_of_running (f : StartFields payload slot mode start) (modeOk : mode.toNat ≤ 2)
    (running : (s.job slot).state.running = true) : jobStartCheck payload s = .error (.jobRunning, 0) := by
  have known : (s.job slot).state ≠ .free := by rintro free; simp [free, JobState.running] at running
  simp only [jobStartCheck, f.slot, f.mode, gt_iff_lt, if_neg (Nat.not_lt.mpr modeOk), if_neg known, if_pos running]

theorem jobStart_of_error {code : ReplyCode} {index : Nat} (check : jobStartCheck payload s = .error (code, index)) :
    jobStart payload s = refuse s code index := by
  simp only [jobStart, check]

/-- Settles O30: the checks decide in the order of R40. -/
theorem jobStartChecksInOrder : Obligations.JobStartChecksInOrder := by
  intro s tag mode rest slot start q
  have served := jobStart_of_asks q
  have f := jobStartPayload_fields slot mode start
  have refuses {code : ReplyCode} {index : Nat}
      (fails : jobStartCheck (jobStartPayload slot mode start) s = .error (code, index)) :=
    completes_of_refusal served q (jobStart_of_error fails)
  refine ⟨fun above => refuses (jobStartCheck_of_mode f above), fun modeOk =>
    ⟨fun free => refuses (jobStartCheck_of_free f modeOk free),
      fun running => refuses (jobStartCheck_of_running f modeOk running), fun d defined stopped => ?_⟩⟩
  classical
  have check := jobStartCheck_of_definition f modeOk defined stopped
  refine ⟨fun disabled => refuses (check.trans (if_pos (referencedIn_iff.mpr disabled))), fun noneDisabled => ?_⟩
  rw [if_neg (Bool.eq_false_iff.mp (referencedIn_eq_false.mpr noneDisabled))] at check
  refine ⟨fun probing => refuses (check.trans (if_pos (referencedIn_iff.mpr probing))), fun noneProbing => ?_⟩
  rw [if_neg (Bool.eq_false_iff.mp (referencedIn_eq_false.mpr noneProbing))] at check
  refine ⟨fun timed late => refuses (check.trans (if_pos ⟨timed, late⟩)), fun ahead full => ?_⟩
  have inTime : ¬s.startsLate mode start := by
    rintro ⟨timed, late⟩
    obtain ⟨some, below⟩ := ahead timed
    omega
  exact refuses (check.trans ((if_neg inTime).trans (if_pos full)))

/-! ## The start modes (R41 to R44) -/

theorem settleOf_eq : s.settleOf d = 4 + (if d.kind = .phase then
    max (s.channel d.channelA).filter (s.channel d.channelB).filter else (s.channel d.channelA).filter) :=
  Nat.add_comm ..

theorem setJob_setJob (s : State) (slot : Fin 32) (j j' : Job) : (s.setJob slot j).setJob slot j' = s.setJob slot j' := by
  simp only [State.setJob, Vector.set_set]

/-- A job that is enrolled and then written is written with a reservation taken (R41, R92). -/
theorem setJob_enrol (s : State) (slot : Fin 32) (d : Definition) (j : Job) :
    (s.enrol slot d).setJob slot j = (s.setJob slot j).takeReservation := by
  rw [← setJob_setJob s slot { s.job slot with
    settle := some (s.settleOf d), acc := .cleared, held := [], pendingMissed := 0 } j]
  rfl

theorem State.jobBecomes.link {reservations : Nat} (h : s.jobBecomes slot j settle reservations t) :
    t.link = s.link := by
  rw [h.1]

/-- What a job becomes, written before with a reservation taken. -/
theorem State.jobBecomes.of_enrolled
    (h : (s.setJob slot j').takeReservation.jobBecomes slot j settle (s.deadlines.reservations + 1) t) :
    s.jobBecomes slot j settle (s.deadlines.reservations + 1) t := by
  obtain ⟨frame, job, others, held, stands⟩ := h
  refine ⟨frame, job, fun k other => (others k other).trans ?_, held, stands.of_eq rfl rfl⟩
  rw [State.job_takeReservation, State.job_setJob, if_neg other]

/-- The job of a start once it is enrolled (R41). -/
def Job.enrolled (j : Job) (settle : Nat) : Job :=
  { j with
    settle := some settle, held := [], pendingMissed := 0,
    acc := { count := 0, firstEdge := none, lastProgress := none, sum := 0, min := none, max := none,
             pendingStart := none, skipped := 0, total := 0 } }

theorem enrol_own (s : State) (slot : Fin 32) (d : Definition) :
    (s.enrol slot d).job slot = (s.job slot).enrolled (s.settleOf d) := by
  rw [enrol_job, if_pos rfl]
  rfl

/-- A job that is started NOW opens its measurement at this tick (R42). -/
theorem startNow_jobBecomes (s : State) (slot : Fin 32) (d : Definition) :
    s.jobBecomes slot ({ (s.job slot).enrolled (s.settleOf d) with startBase := d.base s.now }.opensAt d s.now none)
      (s.settleOf d) (s.deadlines.reservations + 1) ((s.enrol slot d).startNow slot d) := by
  rw [State.startNow, setJob_enrol, enrol_own]
  have opens := openMeasurement_jobBecomes (d := d) (settle := s.settleOf d) (slot := slot)
    (s := (s.setJob slot { (s.job slot).enrolled (s.settleOf d) with startBase := d.base s.now }).takeReservation)
    (by rw [State.job_takeReservation, State.job_setJob_self]; rfl) s.now
  rw [State.job_takeReservation, State.job_setJob_self] at opens
  exact opens.of_enrolled

/-- A job that is started AT a tick waits for a START at it (R43). -/
theorem startAt_jobBecomes (s : State) (slot : Fin 32) (d : Definition) (start : Tick) :
    s.jobBecomes slot { (s.job slot).enrolled (s.settleOf d) with
        state := .armed, subMode := some .at, startBase := d.base start, next := some ⟨.start, start⟩ }
      (s.settleOf d) (s.deadlines.reservations + 1) ((s.enrol slot d).startAt slot d start) := by
  have waits := jobBecomes_setBoundary (s := s.enrol slot d) (slot := slot) (settle := s.settleOf d)
    (j := { (s.enrol slot d).job slot with state := .armed, subMode := some .at, startBase := d.base start })
    (b := ⟨.start, start⟩) (by rw [enrol_own]; rfl)
  rw [enrol_own] at waits
  rw [State.startAt, enrol_own]
  exact waits.of_enrolled

theorem startOnEdge_eq (s : State) (slot : Fin 32) (d : Definition) :
    (s.enrol slot d).startOnEdge slot = (s.setJob slot { (s.job slot).enrolled (s.settleOf d) with
      state := .armed, subMode := some .onEdge, armingTick := some s.now, next := none }).takeReservation := by
  rw [State.startOnEdge, setJob_enrol, enrol_own]
  rfl

/-- A start that passes its checks is answered by its mode. -/
theorem jobStart_of_ok (f : StartFields payload slot mode start) (check : jobStartCheck payload s = .ok d) :
    jobStart payload s =
      match mode.toNat with
      | 0 => okay ((s.enrol slot d).startNow slot d) ([3] ++ leBytes 2 (s.settleOf d) ++ [1] ++ leBytes 6 s.now.toNat)
      | 1 => okay ((s.enrol slot d).startAt slot d start)
          ([2] ++ leBytes 2 (s.settleOf d) ++ [1] ++ leBytes 6 start.toNat)
      | _ => okay ((s.enrol slot d).startOnEdge slot) ([2] ++ leBytes 2 (s.settleOf d) ++ [0]) := by
  simp only [jobStart, check, f.slot, f.mode, f.start]
    <;> rfl

/-- A start in mode `mode` with a channel ENABLED and a reservation free passes its checks. -/
theorem jobStartCheck_passes (f : StartFields payload slot mode start) (modeOk : mode.toNat ≤ 2)
    (defined : (s.job slot).definition = some d) (stopped : (s.job slot).state = .idle ∨ (s.job slot).state = .done)
    (enabled : ∀ ch, d.references ch = true → (s.channel ch).state = .enabled)
    (inTime : ¬s.startsLate mode start) (free : s.deadlines.reservations < 24) : jobStartCheck payload s = .ok d := by
  classical
  have noneIn (state : ChannelState) (other : .enabled ≠ state) : ¬s.referencedIn d state = true :=
    Bool.eq_false_iff.mp (referencedIn_eq_false.mpr fun ch reference => enabled ch reference ▸ other)
  rw [jobStartCheck_of_definition f modeOk defined stopped, if_neg (noneIn .disabled nofun), if_neg
    (noneIn .probing nofun), if_neg inTime, if_neg (Nat.not_le.mpr free)]

/-- Settles O29: each mode's answer, past the checks. -/
theorem jobStartTakesTheModesState : Obligations.JobStartTakesTheModesState := by
  intro s tag mode rest slot start d q defined stopped enabled free
  have served := jobStart_of_asks q
  have f := jobStartPayload_fields slot mode start
  have passes (modeOk : mode.toNat ≤ 2) (inTime : ¬s.startsLate mode start) :=
    jobStart_of_ok f (jobStartCheck_passes f modeOk defined stopped enabled inTime free)
  rw [← settleOf_eq]
  intro zeros base
  refine ⟨fun now => ?_, fun timed later near => ?_, fun onEdge => ?_⟩
  · subst now
    have answer := passes (by decide) (fun late => nomatch late.1)
    have becomes := startNow_jobBecomes s slot d
    exact ⟨_, completes_of_answer served q answer becomes.link, becomes⟩
  · subst timed
    have answer := passes (by decide) (fun late => by obtain ⟨-, late⟩ := late; omega)
    have becomes := startAt_jobBecomes s slot d start
    exact ⟨_, completes_of_answer served q answer becomes.link, becomes⟩
  · subst onEdge
    have answer := passes (by decide) (fun late => nomatch late.1)
    rw [startOnEdge_eq] at answer
    exact completes_of_answer served q answer rfl

end Sys2Proof.Machine
end

section
/-! PROOF. What JOB_STOP answers: its check, the PARTIAL record, and the job that leaves the running states (R56,
R87). -/

namespace Sys2Proof.Machine

variable {s t : State} {tag keep : Byte} {rest : List Request} {payload : List Byte} {slot : Fin 32} {opened : Tick}
  {d : Definition} {j : Job} {settle : Nat} {r : Record}

/-! ## The payload (section 3.7) -/

/-- The two bytes of a JOB_STOP with these fields. -/
def jobStopPayload (slot : Fin 32) (keep : Byte) : List Byte := leBytes 1 slot.val ++ [keep]

theorem jobStop_of_asks (q : s.asks tag 0x22 (jobStopPayload slot keep) rest) (settled : referenceIsDue s = false) :
    completes .jobStop s (finishRequest ⟨tag, 0x22, jobStopPayload slot keep⟩ (jobStop (jobStopPayload slot keep) s)) := by
  have passes : genericCheck .jobStop (jobStopPayload slot keep) = none :=
    genericCheck_none rfl (if_neg (Nat.not_lt.mpr (field_slot_le slot _)))
  have waitsNot : ¬referenceIsDue s = true := Bool.eq_false_iff.mp settled
  exact congrArg Host.Outcome.next ((if_neg waitsNot).trans (serve_of_asks q rfl rfl passes))

/-! ## The answer -/

/-- The reply of JOB_STOP is the state found, and only a running job leaves its state (R56). -/
theorem jobStop_eq (s : State) (slot : Fin 32) (keep : Byte) :
    jobStop (jobStopPayload slot keep) s =
      if 1 < keep.toNat then refuse s .badValue 2
      else
        okay
          (if (s.job slot).state.running = true then
            (if keep = 1 then s.keepPartial slot else s).leaveRunning slot .idle
          else if keep = 1 then s.keepPartial slot else s)
          (leBytes 1 (s.job slot).state.toCode) := by
  have slotOk : slotField (jobStopPayload slot keep) = slot := slotField_cons ..
  have keepOk : field (jobStopPayload slot keep) 1 1 = keep.toNat := field_byte _ 1
  have one : keep.toNat = 1 ↔ keep = 1 := BitVec.toNat_inj (y := 1)
  simp only [jobStop, slotOk, keepOk, one, gt_iff_lt]

/-- A job that leaves the running states keeps its accumulators and its open tick (R51, R56, R93). -/
theorem leaveRunning_eq (s : State) (slot : Fin 32) (state : JobState) :
    s.leaveRunning slot state = { s.setJob slot { s.job slot with
        state := state, subMode := none, armingTick := none, settle := none, startBase := none, next := none,
        held := [] } with
      deadlines := { entries := s.otherEntries slot, reservations := s.deadlines.reservations - 1 } } := by
  have cleared : (s.clearBoundary slot).job slot = { s.job slot with next := none } := State.job_setJob_self ..
  have written (j j' : Job) : ((s.setJob slot j).dropEntry slot).setJob slot j'
      = (s.setJob slot j').dropEntry slot := congrArg (State.dropEntry · slot) (setJob_setJob s slot j j')
  rw [State.leaveRunning, cleared, State.clearBoundary, written]
  rfl

/-! ## The PARTIAL record (R56, R87) -/

theorem keepPartial_of_notActive (state : (s.job slot).state ≠ .active) : s.keepPartial slot = s := by
  unfold State.keepPartial
  dsimp only
  split
  · rename_i active _
    exact absurd active state
  · rfl

theorem keepPartial_of_active (state : (s.job slot).state = .active) (defined : (s.job slot).definition = some d)
    (settles : (s.job slot).settle = some settle) (opens : (s.job slot).openTick = some opened) :
    s.keepPartial slot = s.produce slot d .partialStop
      (if notEarlier (tickBefore s.now settle) opened = true then tickBefore s.now settle else opened) := by
  have horizon : s.horizon slot = tickBefore s.now settle := by rw [State.horizon, Job.settleTicks, settles]; rfl
  have openTick : (s.job slot).opened (tickBefore s.now settle) = opened := by rw [Job.opened, opens]; rfl
  unfold State.keepPartial State.partialEnd
  simp only [state, defined, horizon, openTick]

/-- A PARTIAL record is not evaluated (R127). -/
theorem verdict_partialStop (window : Option Window) (value : Nat) :
    verdict window .partialStop value = .notEvaluated := by
  cases window <;> rfl

/-- So it is not marked, and the alert state stays. -/
theorem State.takesRecord.partialStop (takes : s.takesRecord slot d .partialStop opened r t) :
    r.limitOut = false ∧ (t.job slot).alert = (s.job slot).alert := by
  obtain ⟨_, _, _, _, _, _, _, _, ⟨out, _, _, stays⟩, _⟩ := takes
  rw [verdict_partialStop] at out stays
  exact ⟨Bool.eq_false_iff.mpr fun marked => (nomatch out.mp marked), stays (.inr rfl)⟩

/-- ALERT stays where no job's window or alert state has changed (R130). -/
theorem alert_of_sameJobs (before : s.alertLaw) (after : t.alertLaw)
    (own : (t.job slot).window = (s.job slot).window ∧ (t.job slot).alert = (s.job slot).alert)
    (others : ∀ k, k ≠ slot → t.job k = s.job k) : t.alert = s.alert := by
  rw [alertLaw_iff.mp before, alertLaw_iff.mp after]
  refine anyIn_drives_congr fun k => ?_
  by_cases same : k = slot
  · exact same ▸ drivesAlert_congr own.1 own.2
  · exact congrArg Job.drivesAlert (others k same)

/-- What a stop with keep partial leaves of an ACTIVE job: the PARTIAL record, handed on, and the job IDLE. -/
theorem keepPartial_leaveRunning_spec (d : Definition) (endTick : Tick)
    (opens : (s.job slot).openTick = some opened) :
    ∃ r, s.takesRecord slot d .partialStop opened r ((s.produce slot d .partialStop endTick).leaveRunning slot .idle)
      ∧ r.tells d (s.job slot) opened endTick
      ∧ ((s.produce slot d .partialStop endTick).leaveRunning slot .idle).job slot = { s.job slot with
          state := .idle, subMode := none, armingTick := none, settle := none, startBase := none, next := none,
          held := [], sequence := (s.job slot).sequence + 1, pendingMissed := 0, latest := some r,
          lostPending := (((s.produce slot d .partialStop endTick).leaveRunning slot .idle).job slot).lostPending,
          lostTotal := (((s.produce slot d .partialStop endTick).leaveRunning slot .idle).job slot).lostTotal }
      ∧ ((s.produce slot d .partialStop endTick).leaveRunning slot .idle).deadlines =
          { entries := s.otherEntries slot, reservations := s.deadlines.reservations - 1 } := by
  obtain ⟨r, takes, tells, deadlines, job⟩ :=
    produce_spec s slot d .partialStop endTick opened (by simp [Job.opened, opens])
  have left := leaveRunning_eq (s.produce slot d .partialStop endTick) slot .idle
  have acts := leaveRunning_acts slot (s.produce slot d .partialStop endTick) .idle
  obtain ⟨-, alert⟩ := takes.partialStop
  have sequence : r.sequence = (s.job slot).sequence + 1 := takes.2.2.2.1
  have own := congrArg (fun u : State => u.job slot) left
  have own : ((s.produce slot d .partialStop endTick).leaveRunning slot .idle).job slot = _ :=
    own.trans (State.job_setJob_self ..)
  refine ⟨r, takes.after acts (by rw [left]; rfl) ⟨_, own, rfl, rfl, rfl, rfl, rfl⟩, tells, ?_, ?_⟩
  · rw [own, job, alert, sequence]
  · rw [left, State.otherEntries, deadlines]
    rfl

/-- Settles O31: the keep partial, the state found, and the record decide what is left. -/
theorem jobStopLeavesTheRunningStates : Obligations.JobStopLeavesTheRunningStates := by
  intro s tag keep rest slot q settled found
  have served := jobStop_of_asks q settled
  have code : leBytes 1 (s.job slot).state.toCode = [found] := leBytes_jobState _
  have answer := jobStop_eq s slot keep
  rw [code] at answer
  refine ⟨fun above => completes_of_refusal served q (answer.trans (if_pos above)), fun keepOk => ?_⟩
  rw [if_neg (Nat.not_lt.mpr keepOk)] at answer
  refine ⟨fun stopped => ?_, fun running notKept => ?_, fun d settle opened one active defined settles opens => ?_⟩
  · rw [if_neg (Bool.eq_false_iff.mp stopped), keepPartial_of_stopped stopped, ite_self] at answer
    exact completes_of_answer served q answer rfl
  · have none : (if keep = 1 then s.keepPartial slot else s) = s := by
      obtain zero | notActive := notKept
      · rw [if_neg (by rw [zero]; decide)]
      · rw [keepPartial_of_notActive notActive, ite_self]
    rw [if_pos running, none, leaveRunning_eq] at answer
    exact completes_of_answer served q answer rfl
  · have running : (s.job slot).state.running = true := by rw [active]; rfl
    rw [if_pos running, if_pos one, keepPartial_of_active active defined settles opens] at answer
    generalize (if notEarlier (tickBefore s.now settle) opened = true then tickBefore s.now settle else opened) = endTick
      at answer ⊢
    obtain ⟨r, takes, tells, job, deadlines⟩ := keepPartial_leaveRunning_spec d endTick opens
    have acts : JobActs slot s _ := .after (leaveRunning_acts slot _ .idle) (produce_acts slot s d .partialStop endTick)
    obtain ⟨notOut, alert⟩ := takes.partialStop
    have spares := acts.spares
    obtain ⟨-, -, -, link, -, -, -, -, -, others⟩ := spares
    have three : found = 3 := by simp only [found, active]
    have answered := completes_of_answer served q answer link
    rw [three] at answered
    exact ⟨_, r, answered, acts.spares, takes, tells, notOut, job, deadlines, fun law =>
      alert_of_sameJobs law (acts.alertLaw law) ⟨by rw [job], alert⟩ others⟩

end Sys2Proof.Machine
end

section
/-! PROOF. What JOB_CLEAR and JOB_GET answer (R58, R59), with the bytes of a JOB_GET reply and how many they are
(R198). -/

namespace Sys2Proof.Machine

variable {s t : State} {tag : Byte} {rest : List Request} {slot : Fin 32} {j : Job} {r : Record}

/-! ## JOB_CLEAR (R58) -/

theorem slotField_one (slot : Fin 32) : slotField (leBytes 1 slot.val) = slot := by
  have alone := slotField_cons slot []
  rwa [List.append_nil] at alone

/-- The dispatcher hands a request of a slot's number alone to its owner (R185). -/
theorem serve_of_slot {code : Byte} {rc : RequestCode} (q : s.asks tag code (leBytes 1 slot.val) rest)
    (known : requestCodeOf code = some rc) (one : rc.payloadLength = 1)
    (indexed : ∀ payload, rc.badIndex payload = if field payload 0 1 > 31 then some 1 else none)
    (handler : List Byte → State → Answer) :
    s.serve rc anyPayload handler = finishRequest ⟨tag, code, leBytes 1 slot.val⟩ (handler (leBytes 1 slot.val) s) := by
  have slotOk := field_slot_le slot []
  rw [List.append_nil] at slotOk
  have inRange := (indexed (leBytes 1 slot.val)).trans (if_neg (Nat.not_lt.mpr slotOk))
  exact serve_of_asks q known rfl (genericCheck_none ((length_leBytes 1 _).trans one.symm) inRange)

theorem jobClear_eq (s : State) (slot : Fin 32) :
    jobClear (leBytes 1 slot.val) s =
      if (s.job slot).state.running = true then refuse s .jobRunning 0
      else okay (s.setJob slot (s.job slot).clear).evaluateAlert (leBytes 1 (s.job slot).state.toCode) := by
  simp only [jobClear, slotField_one]

/-! ## The bytes of a JOB_GET reply (R198) -/

/-- An optional tick stands in six bytes, or not at all. -/
theorem optBytes_tick (t : Option Tick) :
    optBytes tickBytes t = (t.map (fun t => leBytes 6 t.toNat)).getD [] := by
  cases t <;> rfl

theorem optBytes_settle (settle : Option Nat) :
    optBytes (leBytes 2) settle = match settle with | none => [] | some n => leBytes 2 n := by
  cases settle <;> rfl

theorem optBytes_subMode (mode : Option ArmedMode) :
    optBytes (fun m => leBytes 1 m.toCode) mode
      = match mode with | none => [] | some .at => [1] | some .onEdge => [2] := by
  obtain _ | mode := mode
  · rfl
  · cases mode <;> rfl

theorem leBytes_select (select : Select) :
    leBytes 1 select.toCode = [match select with | .none => 0 | .rise => 1 | .fall => 2 | .both => 3] := by
  cases select <;> rfl

theorem leBytes_repeat (repeating : Repeat) :
    leBytes 1 repeating.toCode = [match repeating with | .once => 0 | .continuous => 1 | .periodic => 2] := by
  cases repeating <;> rfl

theorem leBytes_purpose (purpose : Purpose) :
    leBytes 1 purpose.toCode = [match purpose with | .start => 0 | .close => 1 | .stall => 2 | .report => 3] := by
  cases purpose <;> rfl

theorem leBytes_alert (alert : AlertState) :
    leBytes 1 alert.toCode = [match alert with | .inside => 0 | .outside => 1] := by
  cases alert <;> rfl

/-- A Boolean in one byte. -/
theorem leBytes_oneBit (b : Bool) : leBytes 1 (bit b) = [if b = true then 1 else 0] := by
  cases b <;> rfl

theorem optBytes_definition (definition : Option Definition) :
    optBytes Definition.bytes definition = match definition with
      | none => []
      | some d =>
        [match d.kind with
          | .freqFixed => 0 | .freqSync => 1 | .period => 2 | .width => 3 | .phase => 4 | .tally => 5]
        ++ leBytes 1 d.channelA.val
        ++ [match d.selectA with | .none => 0 | .rise => 1 | .fall => 2 | .both => 3]
        ++ leBytes 1 d.channelB.val
        ++ [match d.selectB with | .none => 0 | .rise => 1 | .fall => 2 | .both => 3]
        ++ leBytes 4 d.gate ++ leBytes 2 d.count ++ leBytes 4 d.report ++ leBytes 6 d.target ++ leBytes 4 d.stall
        ++ [match d.repeating with | .once => 0 | .continuous => 1 | .periodic => 2]
        ++ leBytes 4 d.period ++ [if d.queueResults = true then 1 else 0] := by
  obtain _ | d := definition
  · rfl
  · show d.bytes = _
    rw [Definition.bytes, leBytes_kind, leBytes_select, leBytes_select, leBytes_repeat, leBytes_oneBit] <;> rfl

theorem optBytes_boundary (next : Option Boundary) :
    optBytes Boundary.bytes next = match next with
      | none => []
      | some b =>
        [match b.purpose with | .start => 0 | .close => 1 | .stall => 2 | .report => 3] ++ leBytes 6 b.tick.toNat := by
  obtain _ | b := next
  · rfl
  · show b.bytes = _
    rw [Boundary.bytes, leBytes_purpose] <;> rfl

theorem optBytes_window (window : Option Window) :
    optBytes Window.bytes window = match window with
      | none => []
      | some w => leBytes 8 w.low ++ leBytes 8 w.high ++ leBytes 8 w.band
          ++ [if w.stallOut = true then 1 else 0] ++ [if w.drive = true then 1 else 0] := by
  obtain _ | w := window
  · rfl
  · show w.bytes = _
    rw [Window.bytes, leBytes_oneBit, leBytes_oneBit]

theorem minMax_isSome_eq (r : Record) : r.minMax.isSome = (r.min.isSome && r.max.isSome) := by
  rw [Bool.eq_iff_iff, minMax_isSome, Bool.and_eq_true]

/-- Min and max of the accumulators stand in the reply together or not at all. -/
theorem accumulators_minMax_bytes (a : Accumulators) :
    optBytes minMaxBytes a.minMax
      = match a.min, a.max with | some lo, some hi => leBytes 6 lo ++ leBytes 6 hi | _, _ => [] := by
  unfold Accumulators.minMax
  cases a.min <;> cases a.max <;> rfl

theorem accumulators_minMax_isSome (a : Accumulators) : a.minMax.isSome = (a.min.isSome && a.max.isSome) := by
  unfold Accumulators.minMax
  cases a.min <;> cases a.max <;> rfl

theorem optBytes_record (latest : Option Record) :
    optBytes Record.bytes latest = match latest with
      | none => []
      | some r => leBytes 1 r.slot.val ++ leBytes 4 r.sequence.toNat
          ++ [match r.kind with
              | .freqFixed => 0 | .freqSync => 1 | .period => 2 | .width => 3 | .phase => 4 | .tally => 5]
          ++ [match r.status with
              | .complete => 0 | .interim => 1 | .target => 2 | .stalled => 3 | .partialStop => 4 | .spanLimit => 5]
          ++ leBytes 1 ((if r.holdover = true then 1 else 0) + (if r.limitOut = true then 2 else 0)
            + (if (r.min.isSome && r.max.isSome) = true then 4 else 0) + (if r.total.isSome = true then 8 else 0)
            + (if r.skipped.isSome = true then 16 else 0))
          ++ leBytes 2 r.lostBefore ++ leBytes 2 r.missed ++ leBytes 6 r.startTick.toNat
          ++ leBytes 6 r.endTick.toNat ++ leBytes 4 r.count ++ leBytes 6 r.span ++ leBytes 8 r.value
          ++ (match r.min, r.max with
            | some lo, some hi => leBytes 6 lo ++ leBytes 6 hi | _, _ => [])
          ++ (match r.total with | some n => leBytes 6 n | none => [])
          ++ (match r.skipped with | some n => leBytes 2 n | none => []) := by
  obtain _ | r := latest
  · rfl
  · show r.bytes = _
    rw [Record.bytes, flagsByte_eq, leBytes_kind, leBytes_status, minMax_bytes, optBytes_leBytes, optBytes_leBytes]
    simp only [Bool.and_eq_true]
    rfl

/-- A bit for each optional field (R198). -/
theorem presence_eq (j : Job) :
    j.presence = (if j.subMode.isSome = true then 1 else 0) + (if j.definition.isSome = true then 2 else 0)
      + (if j.settle.isSome = true then 4 else 0) + (if j.startBase.isSome = true then 8 else 0)
      + (if j.openTick.isSome = true then 16 else 0) + (if j.next.isSome = true then 32 else 0)
      + (if j.acc.firstEdge.isSome = true then 64 else 0) + (if j.acc.lastProgress.isSome = true then 128 else 0)
      + (if (j.acc.min.isSome && j.acc.max.isSome) = true then 256 else 0)
      + (if j.acc.pendingStart.isSome = true then 512 else 0) + (if j.window.isSome = true then 1024 else 0)
      + (if j.latest.isSome = true then 2048 else 0) := by
  simp only [Job.presence, weight_bit, accumulators_minMax_isSome]
  rfl

/-! ## How many bytes they are (R198) -/

/-- The bytes of an optional field of a fixed size. -/
def bytesIf (present : Bool) (size : Nat) : Nat := if present = true then size else 0

theorem bytesIf_le (present : Bool) (size : Nat) : bytesIf present size ≤ size := by
  cases present
  · exact Nat.zero_le size
  · exact Nat.le_refl size

theorem length_optBytes {α : Type} {f : α → List Byte} {size : Nat} (fixed : ∀ x, (f x).length = size) (o : Option α) :
    (optBytes f o).length = bytesIf o.isSome size := by
  cases o with
  | none => rfl
  | some x => exact fixed x

theorem length_tickBytes (t : Tick) : (tickBytes t).length = 6 := length_leBytes 6 _

theorem length_minMaxBytes (m : Nat × Nat) : (minMaxBytes m).length = 12 := by
  simp only [minMaxBytes, List.length_append, length_leBytes]

theorem length_definition (d : Definition) : d.bytes.length = 31 := by
  simp only [Definition.bytes, List.length_append, length_leBytes]

theorem length_boundary (b : Boundary) : b.bytes.length = 7 := by
  simp only [Boundary.bytes, List.length_append, length_leBytes, length_tickBytes]

theorem length_window (w : Window) : w.bytes.length = 26 := by
  simp only [Window.bytes, List.length_append, length_leBytes]

theorem length_getBytes (slot : Fin 32) (j : Job) :
    (j.getBytes slot).length = 37 + bytesIf j.subMode.isSome 1 + bytesIf j.definition.isSome 31
      + bytesIf j.settle.isSome 2 + bytesIf j.startBase.isSome 6 + bytesIf j.openTick.isSome 6
      + bytesIf j.next.isSome 7 + bytesIf j.acc.firstEdge.isSome 6 + bytesIf j.acc.lastProgress.isSome 6
      + bytesIf j.acc.minMax.isSome 12 + bytesIf j.acc.pendingStart.isSome 6 + bytesIf j.window.isSome 26
      + (optBytes Record.bytes j.latest).length := by
  delta Job.getBytes
  simp only [List.length_append, length_leBytes, length_optBytes (length_leBytes 2),
    length_optBytes (fun m : ArmedMode => length_leBytes 1 m.toCode), length_optBytes length_tickBytes,
    length_optBytes length_definition, length_optBytes length_boundary, length_optBytes length_window,
    length_optBytes length_minMaxBytes]
  omega

/-- What is left is 37 bytes. -/
theorem length_getBytes_of_absent (subMode : j.subMode = none) (definition : j.definition = none)
    (settle : j.settle = none) (startBase : j.startBase = none) (openTick : j.openTick = none) (next : j.next = none)
    (firstEdge : j.acc.firstEdge = none) (lastProgress : j.acc.lastProgress = none) (min : j.acc.min = none)
    (pendingStart : j.acc.pendingStart = none) (window : j.window = none) (latest : j.latest = none) :
    (j.getBytes slot).length = 37 := by
  have minMax : j.acc.minMax = none := by rw [Accumulators.minMax, min]
  rw [length_getBytes, subMode, definition, settle, startBase, openTick, next, firstEdge, lastProgress, minMax,
    pendingStart, window, latest]
  rfl

/-- A record of a kind that has no total, or of one that has neither min and max nor skipped starts (R86). -/
theorem length_record_le (r : Record) (fields : r.total = none ∨ (r.min = none ∧ r.skipped = none)) :
    r.bytes.length ≤ 56 := by
  have length : r.bytes.length
      = 42 + bytesIf r.minMax.isSome 12 + bytesIf r.total.isSome 6 + bytesIf r.skipped.isSome 2 := by
    simp only [Record.bytes, List.length_append, length_leBytes, length_optBytes (length_leBytes _),
      length_optBytes length_minMaxBytes, length_tickBytes]
  have minMaxBound := bytesIf_le r.minMax.isSome 12
  have totalBound := bytesIf_le r.total.isSome 6
  have skippedBound := bytesIf_le r.skipped.isSome 2
  obtain total | ⟨min, -⟩ := fields
  · have absent : bytesIf r.total.isSome 6 = 0 := by rw [total]; rfl
    omega
  · have absent : bytesIf r.minMax.isSome 12 = 0 := by rw [minMax_isSome_eq, min]; rfl
    omega

theorem length_getBytes_le (fields : ∀ r, j.latest = some r → r.total = none ∨ (r.min = none ∧ r.skipped = none)) :
    (j.getBytes slot).length ≤ 202 := by
  have latest : (optBytes Record.bytes j.latest).length ≤ 56 := by
    cases record : j.latest with
    | none => exact Nat.zero_le 56
    | some r => exact length_record_le r (fields r record)
  have subMode := bytesIf_le j.subMode.isSome 1
  have definition := bytesIf_le j.definition.isSome 31
  have settle := bytesIf_le j.settle.isSome 2
  have startBase := bytesIf_le j.startBase.isSome 6
  have openTick := bytesIf_le j.openTick.isSome 6
  have next := bytesIf_le j.next.isSome 7
  have firstEdge := bytesIf_le j.acc.firstEdge.isSome 6
  have lastProgress := bytesIf_le j.acc.lastProgress.isSome 6
  have minMax := bytesIf_le j.acc.minMax.isSome 12
  have pendingStart := bytesIf_le j.acc.pendingStart.isSome 6
  have window := bytesIf_le j.window.isSome 26
  rw [length_getBytes]
  omega

/-- Settles O32: what JOB_CLEAR leaves, and each field of a JOB_GET reply in its bytes. -/
theorem jobClearAndJobGet : Obligations.JobClearAndJobGet := by
  refine ⟨fun s tag rest slot q => ?_, fun s tag rest slot q => ?_⟩
  · have served : completes .jobClear s (finishRequest ⟨tag, 0x23, leBytes 1 slot.val⟩ (jobClear (leBytes 1 slot.val) s)) :=
      congrArg Host.Outcome.next (serve_of_slot q rfl rfl (fun _ => rfl) jobClear)
    have answer := jobClear_eq s slot
    refine ⟨fun running => completes_of_refusal served q (answer.trans (if_pos running)), fun stopped => ?_⟩
    rw [if_neg (Bool.eq_false_iff.mp stopped), leBytes_jobState] at answer
    refine completes_of_answer served q answer ?_
    rw [State.evaluateAlert_link, State.setJob_link]
  · have served : completes .jobGet s (finishRequest ⟨tag, 0x24, leBytes 1 slot.val⟩ (jobGet (leBytes 1 slot.val) s)) :=
      congrArg Host.Outcome.next (serve_of_slot q rfl rfl (fun _ => rfl) jobGet)
    have answer : jobGet (leBytes 1 slot.val) s = okay s ((s.job slot).getBytes slot) := by
      simp only [jobGet, slotField_one]
    intro j present kindCode selectCode byte ticks reply
    have layout : (s.job slot).getBytes slot = reply := by
      delta Job.getBytes
      rw [leBytes_jobState, presence_eq, optBytes_subMode, optBytes_definition, optBytes_settle,
        optBytes_tick, optBytes_tick, optBytes_boundary, optBytes_tick, optBytes_tick, accumulators_minMax_bytes,
        optBytes_tick, leBytes_alert, optBytes_window, optBytes_record]
      rfl
    rw [layout] at answer
    refine ⟨completes_of_answer served q answer rfl, ?_, fun fields => ?_⟩
    · intro subMode definition settle startBase openTick next firstEdge lastProgress min pendingStart window latest
      exact layout ▸ length_getBytes_of_absent subMode definition settle startBase openTick next firstEdge lastProgress
        min pendingStart window latest
    · exact layout ▸ length_getBytes_le fields

end Sys2Proof.Machine
end

section
/-! PROOF. The step of each kind at an edge of its measurement (sections 4.2 to 4.7): what is counted or measured,
what moves the STALL boundary, what completes the measurement, and what meets the span limit. -/

namespace Sys2Proof.Machine

variable {s t : State} {slot : Fin 32} {d : Definition} {settle : Nat} {e : AcceptedEdge} {rest : List AcceptedEdge}
  {opened last first start tick : Tick} {a : Accumulators}

/-! ## The edges that a kind acts on (R63) -/

theorem actsOn_of_qualifies (channel : e.channel = d.channelA) (admits : d.selectA.admits e.polarity = true) :
    d.actsOn e = true := by
  unfold Definition.actsOn
  split <;> simp [channel, admits]

/-- A step that hands no edge on is the whole of what the job does with the edge. -/
theorem State.processes.steps {u : State} (h : s.processes slot d settle e rest) (acts : d.actsOn e = true)
    (step : (s.unheld slot rest).kindStep slot d e = ⟨u, false⟩) : completes (.edgeSeen slot) s u := by
  have act := (h.act acts).trans step
  have seen := h.1.exec (by rw [act])
  rwa [act] at seen

@[simp] theorem unheld_job (s : State) (slot : Fin 32) (rest : List AcceptedEdge) :
    (s.unheld slot rest).job slot = { s.job slot with held := rest } := State.job_setJob_self ..

theorem unheld_acc (s : State) (slot : Fin 32) (rest : List AcceptedEdge) :
    ((s.unheld slot rest).job slot).acc = (s.job slot).acc := by
  rw [unheld_job]

/-! ## The counting kinds (R69, R82, R84) -/

/-- The accumulators of a TALLY job after an edge (R82). -/
def afterTally (a : Accumulators) (t : Tick) : Accumulators :=
  { a with count := min (a.count + 1) 4294967295, total := a.total + 1, lastProgress := some t }

theorem kindStep_of_freqFixed (kind : d.kind = .freqFixed) :
    (s.unheld slot rest).kindStep slot d e = ⟨s.setJob slot { s.job slot with
      held := rest, acc := { (s.job slot).acc with count := (s.job slot).acc.count + 1 } }, false⟩ := by
  simp only [State.kindStep, kind, unheld_setAcc]
  simp only [State.unheld, State.job_setJob_self]

/-- A TALLY edge completes the batch where it makes the total equal the target (R84). -/
theorem kindStep_of_tally (kind : d.kind = .tally) :
    (s.unheld slot rest).kindStep slot d e =
      if 0 < d.target ∧ (s.job slot).acc.total + 1 = d.target then
        (s.worked slot rest (afterTally (s.job slot).acc e.timestamp)).complete slot d .target e.timestamp
          (some e.timestamp)
      else ⟨s.worked slot rest (afterTally (s.job slot).acc e.timestamp), false⟩ := by
  simp only [State.kindStep, kind, State.tallyEdge, unheld_setAcc, unheld_acc, Bool.and_eq_true, decide_eq_true_eq, gt_iff_lt]
  rfl

/-- A TALLY batch that reaches its target ends at the edge, which is handed on to none (R84, R50 to R52). -/
theorem tally_ends (h : s.processes slot d settle e rest) (acts : d.actsOn e = true) (kind : d.kind = .tally)
    (opens : (s.job slot).openTick = some opened) (reaches : 0 < d.target ∧ (s.job slot).acc.total + 1 = d.target)
    (aperiodic : d.repeating ≠ .periodic) :
    ∃ t, completes (.edgeSeen slot) s t
      ∧ s.ends slot d settle opened (afterTally (s.job slot).acc e.timestamp) rest .target e.timestamp e.timestamp none
        t := by
  have step := (kindStep_of_tally (s := s) (slot := slot) (rest := rest) (e := e) kind).trans (if_pos reaches)
  have settles : (s.job slot).settle = some settle := h.1.2.2.1
  have now : s.now = tickAfter e.timestamp settle := h.1.2.2.2.2.1
  have again := complete_again (e := e) (opened := opened)
    (s.worked slot rest (afterTally (s.job slot).acc e.timestamp)) slot d .target e.timestamp (by simpa using settles)
    (by simp [Job.opened, opens]) now
  have alone : ((s.worked slot rest (afterTally (s.job slot).acc e.timestamp)).complete slot d .target e.timestamp
      (some e.timestamp)).again = false := by
    rw [again]
    cases repeating : d.repeating with
    | once => rfl
    | continuous => rfl
    | periodic => exact absurd repeating aperiodic
  have ended := complete_worked s slot d (afterTally (s.job slot).acc e.timestamp) rest .target e.timestamp opened
    e.timestamp (some e.timestamp) none settle settles (by simp [Job.opened, opens]) (fun _ => ⟨rfl, rfl⟩) (fun _ => rfl)
  generalize (s.worked slot rest (afterTally (s.job slot).acc e.timestamp)).complete slot d .target e.timestamp
    (some e.timestamp) = completed at step alone ended
  obtain ⟨u, again⟩ := completed
  subst alone
  exact ⟨u, h.steps acts step, ended⟩

theorem spanLimitEnd_of_tally (kind : d.kind = .tally) :
    (s.job slot).spanLimitEnd d tick =
      match (s.job slot).acc.lastProgress with
      | some last =>
        if notEarlier last ((s.job slot).windowStart d tick) = true then last else (s.job slot).windowStart d tick
      | none => (s.job slot).windowStart d tick := by
  simp only [Job.spanLimitEnd, kind]
    <;> rfl

theorem windowStart_eq (j : Job) (opens : j.openTick = some opened) :
    j.windowStart d tick = match j.next with
      | some b => if 0 < d.report then tickBefore b.tick d.report else opened
      | none => opened := by
  simp only [Job.windowStart, Job.opened, opens, gt_iff_lt, Option.getD_some]
    <;> rfl

/-- Settles O38: one step of each counting kind, and the span limit of a TALLY batch. -/
theorem countingKindsCountEdges : Obligations.CountingKindsCountEdges := by
  intro s slot d settle e rest channel admits
  have acts := actsOn_of_qualifies channel admits
  intro a later
  refine ⟨fun h => ⟨fun kind => h.steps acts (kindStep_of_freqFixed kind), fun kind => ⟨fun short => ?_,
    fun opened opens target reaches aperiodic =>
      tally_ends h acts kind opens ⟨Nat.pos_of_ne_zero target, reaches⟩ aperiodic⟩⟩, ?_⟩
  · have falls : ¬(0 < d.target ∧ (s.job slot).acc.total + 1 = d.target) := by
      rintro ⟨target, reaches⟩
      obtain untargeted | misses := short
      · omega
      · exact misses reaches
    exact h.steps acts ((kindStep_of_tally kind).trans (if_neg falls))
  · intro opened h kind allowed window
    have ends := spanLimitEnd_of_tally (s := s) (slot := slot) (tick := e.timestamp) kind
    have windowStart : (s.job slot).windowStart d e.timestamp = window := windowStart_eq (s.job slot) h.2.2.1
    rw [windowStart] at ends
    have aperiodic {p : Prop} (periodic : d.repeating = .periodic) : p :=
      absurd periodic (allowed.2.2.2.2.2.2.2.2.1 kind)
    refine ⟨fun last progress late => limits_end h acts allowed ?_ aperiodic, fun early =>
      limits_end h acts allowed ?_ aperiodic⟩
    · rw [ends, progress]
      exact if_pos late
    · rw [ends]
      cases progress : (s.job slot).acc.lastProgress with
      | none => rfl
      | some last => exact if_neg (Bool.eq_false_iff.mp (early last progress))

/-! ## Progress and completion (R66) -/

/-- Progress that does not complete the measurement moves the STALL boundary (R66). -/
theorem progress_jobBecomes (settles : (s.job slot).settle = some settle) (a : Accumulators) (t : Tick) :
    s.jobBecomes slot { s.job slot with held := rest, acc := a, next := some ⟨.stall, tickAfter t d.stall⟩ } settle
      s.deadlines.reservations ((s.unheld slot rest).progress slot d a t) := by
  rw [State.progress, unheld_setAcc]
  exact jobBecomes_setBoundary (by exact settles)

/-- One interval, width or delay enters min and max. -/
theorem measure_eq (a : Accumulators) (x : Nat) :
    a.measure x = { a with
      min := match a.min with | some m => some (min m x) | none => some x
      max := match a.max with | some m => some (max m x) | none => some x } := by
  have least (m : Nat) : (if x < m then some x else some m) = some (min m x) := by split <;> congr 1 <;> omega
  have most (m : Nat) : (if m < x then some x else some m) = some (max m x) := by split <;> congr 1 <;> omega
  unfold Accumulators.measure
  simp only [least, most]
    <;> rfl

theorem progressOrComplete_of_not (u : State) (a : Accumulators) {closes : Bool} (goesOn : ¬closes = true) :
    u.progressOrComplete slot d a tick closes = ⟨u.progress slot d a tick, false⟩ :=
  if_neg goesOn

theorem progressOrComplete_of_closes (a : Accumulators) {closes : Bool} (close : closes = true) :
    (s.unheld slot rest).progressOrComplete slot d a tick closes
      = (s.worked slot rest a).complete slot d .complete tick (some tick) := by
  rw [State.progressOrComplete, if_pos close, unheld_setAcc]

/-- An edge that comes before the STALL of the last progress follows it by less than T (R66). -/
theorem distance_lt_of_before {n : Nat} (later : notEarlier tick last = true)
    (before : notEarlier tick (tickAfter last n) = false) : distance last tick < n := by
  have late : (tick - last).toNat < 140737488355328 := of_decide_eq_true later
  have early : ¬(tick - (last + BitVec.ofNat 48 n)).toNat < 140737488355328 :=
    of_decide_eq_false before
  have apart : tick - (last + BitVec.ofNat 48 n) = (tick - last) - BitVec.ofNat 48 n := by rw [sub_sub]
  rw [apart, BitVec.toNat_sub, BitVec.toNat_ofNat] at early
  rw [distance]
  omega

/-- The span limit of a kind that stalls ends the measurement at its last progress tick (R65). -/
theorem limitEnds_at_progress (h : s.limits slot d settle opened e rest) (acts : d.actsOn e = true) (allowed : d.allowed)
    (kind : d.kind = .period ∨ d.kind = .width ∨ d.kind = .phase) (progress : (s.job slot).acc.lastProgress = some last)
    (next : (s.job slot).next = some ⟨.stall, tickAfter last d.stall⟩) (later : notEarlier e.timestamp last = true) :
    s.limitEnds slot d settle opened e rest last := by
  have before : notEarlier e.timestamp (tickAfter last d.stall) = false := h.1.2.2.2.2.2.2 _ next
  have ends : (s.job slot).spanLimitEnd d e.timestamp = last := by
    unfold Job.spanLimitEnd
    obtain kind | kind | kind := kind <;> simp only [kind, progress, Option.getD_some]
  exact limits_end h acts allowed ends fun _ => ⟨distance_lt_of_before later before, kind⟩

/-! ## The interval kinds (R71 to R74) -/

theorem kindStep_of_first (kind : d.kind = .period ∨ d.kind = .freqSync) (fresh : (s.job slot).acc.firstEdge = none) :
    (s.unheld slot rest).kindStep slot d e = ⟨(s.unheld slot rest).progress slot d
      { (s.job slot).acc with firstEdge := some e.timestamp, lastProgress := some e.timestamp } e.timestamp, false⟩ := by
  obtain kind | kind := kind <;> simp only [State.kindStep, kind, unheld_acc, fresh]

/-- The accumulators after an interval: min and max are PERIOD's (R72, R74). -/
def afterInterval (a : Accumulators) (kind : Kind) (last t : Tick) : Accumulators :=
  { a with
    count := a.count + 1, lastProgress := some t,
    min := if kind = .period then
        (match a.min with | some m => some (min m (distance last t)) | none => some (distance last t)) else a.min,
    max := if kind = .period then
        (match a.max with | some m => some (max m (distance last t)) | none => some (distance last t)) else a.max }

/-- Which interval completes the measurement (R72, R74). -/
def Definition.intervalCloses (d : Definition) (a : Accumulators) (first t : Tick) : Prop :=
  (d.kind = .period ∧ a.count + 1 = d.count) ∨ (d.kind = .freqSync ∧ notEarlier t (tickAfter first d.gate) = true)

theorem kindStep_of_interval (kind : d.kind = .period ∨ d.kind = .freqSync)
    (begun : (s.job slot).acc.firstEdge = some first) (progress : (s.job slot).acc.lastProgress = some last) :
    ∃ closes : Bool, (closes = true ↔ d.intervalCloses (s.job slot).acc first e.timestamp)
      ∧ (s.unheld slot rest).kindStep slot d e = (s.unheld slot rest).progressOrComplete slot d
          (afterInterval (s.job slot).acc d.kind last e.timestamp) e.timestamp closes := by
  obtain kind | kind := kind
  · refine ⟨(s.job slot).acc.count + 1 == d.count, ?_, ?_⟩
    · simp [Definition.intervalCloses, kind]
    · simp only [State.kindStep, kind, unheld_acc, begun, progress, measure_eq, Option.getD_some, afterInterval, if_true]
  · refine ⟨notEarlier e.timestamp (tickAfter first d.gate), ?_, ?_⟩
    · simp [Definition.intervalCloses, kind]
    · have other : ¬Kind.freqSync = .period := nofun
      simp only [State.kindStep, kind, unheld_acc, begun, afterInterval, if_neg other]

/-- Settles O39: the first edge, a later one that closes or not, and the span limit of PERIOD. -/
theorem intervalKindsMeasureBetweenEdges : Obligations.IntervalKindsMeasureBetweenEdges := by
  intro s slot d settle e rest channel admits kind
  have acts := actsOn_of_qualifies channel admits
  intro a
  refine ⟨fun h => ⟨fun fresh => ?_, fun first last begun progress => ?_⟩,
    fun opened last h period allowed progress next later =>
      limitEnds_at_progress h acts allowed (.inl period) progress next later⟩
  · exact ⟨_, h.steps acts (kindStep_of_first kind fresh), progress_jobBecomes h.1.2.2.1 _ _⟩
  · obtain ⟨closes, closes_iff, step⟩ := kindStep_of_interval (rest := rest) (e := e) kind begun progress
    refine ⟨fun goesOn => ?_, fun opened opens ends allowed => ?_⟩
    · rw [progressOrComplete_of_not _ _ (fun close => goesOn (closes_iff.mp close))] at step
      exact ⟨_, h.steps acts step, progress_jobBecomes h.1.2.2.1 _ _⟩
    · rw [progressOrComplete_of_closes _ (closes_iff.mpr ends)] at step
      have notCounting : d.kind ≠ .freqFixed ∧ d.kind ≠ .tally := by
        obtain kind | kind := kind <;> rw [kind] <;> exact ⟨nofun, nofun⟩
      have notSampling : (d.kind = .width → d.selectA.admits e.polarity = false)
          ∧ (d.kind = .phase → e.channel ≠ d.channelA) := by
        obtain kind | kind := kind <;> rw [kind] <;> exact ⟨nofun, nofun⟩
      have ended := closes_end h acts notCounting step allowed opens notSampling
      rwa [if_pos kind.symm] at ended

/-! ## The sample kinds (R76, R77, R79, R80) -/

/-- An edge of WIDTH or PHASE that sets the pending start (R76, R79). -/
def Definition.startsSample (d : Definition) (e : AcceptedEdge) : Prop :=
  (d.kind = .width ∨ d.kind = .phase) ∧ e.channel = d.channelA ∧ d.selectA.admits e.polarity = true

/-- An edge of WIDTH or PHASE that completes a sample (R77, R80). -/
def Definition.stopsSample (d : Definition) (e : AcceptedEdge) : Prop :=
  (d.kind = .width ∧ e.channel = d.channelA ∧ d.selectA.admits e.polarity = false)
    ∨ (d.kind = .phase ∧ e.channel ≠ d.channelA ∧ e.channel = d.channelB ∧ d.selectB.admits e.polarity = true)

theorem Definition.stopsSample.acts (stops : d.stopsSample e) : d.actsOn e = true := by
  obtain ⟨kind, channel, -⟩ | ⟨kind, -, channel, admits⟩ := stops
  · simp [Definition.actsOn, kind, channel]
  · simp [Definition.actsOn, kind, channel, admits]

/-- The accumulators after a sample (R77, R80). -/
def afterSample (a : Accumulators) (start t : Tick) : Accumulators :=
  { a with
    count := a.count + 1, sum := a.sum + distance start t, lastProgress := some t, pendingStart := none,
    min := match a.min with | some m => some (min m (distance start t)) | none => some (distance start t),
    max := match a.max with | some m => some (max m (distance start t)) | none => some (distance start t) }

theorem sampleTo_eq (a : Accumulators) (start t : Tick) : a.sampleTo start t = afterSample a start t := by
  simp only [Accumulators.sampleTo, measure_eq, afterSample]

theorem kindStep_of_widthStart (kind : d.kind = .width) (admits : d.selectA.admits e.polarity = true) :
    (s.unheld slot rest).kindStep slot d e = ⟨s.worked slot rest
      { (s.job slot).acc with pendingStart := some e.timestamp }, false⟩ := by
  simp only [State.kindStep, kind, admits, if_true, unheld_acc, unheld_setAcc]

theorem kindStep_of_phaseStart (kind : d.kind = .phase) (channel : e.channel = d.channelA) :
    (s.unheld slot rest).kindStep slot d e = ⟨s.worked slot rest
      { (s.job slot).acc with
        pendingStart := some e.timestamp
        skipped := if (s.job slot).acc.pendingStart = none then (s.job slot).acc.skipped
          else min ((s.job slot).acc.skipped + 1) 65535 }, false⟩ := by
  have skipped : (if (s.job slot).acc.pendingStart.isSome = true then saturate (s.job slot).acc.skipped 1
      else (s.job slot).acc.skipped) = if (s.job slot).acc.pendingStart = none then (s.job slot).acc.skipped
        else min ((s.job slot).acc.skipped + 1) 65535 := by
    cases (s.job slot).acc.pendingStart <;> rfl
  simp only [State.kindStep, kind, channel, if_true, unheld_acc, unheld_setAcc, skipped]

/-- What an edge that can complete a sample does turns on the pending start (R77, R80). -/
theorem kindStep_of_stop (stops : d.stopsSample e) :
    (s.unheld slot rest).kindStep slot d e =
      match (s.job slot).acc.pendingStart with
      | none => ⟨s.unheld slot rest, false⟩
      | some start => (s.unheld slot rest).progressOrComplete slot d (afterSample (s.job slot).acc start e.timestamp)
          e.timestamp ((s.job slot).acc.count + 1 == d.count) := by
  obtain ⟨kind, -, trailing⟩ | ⟨kind, other, -⟩ := stops
  · simp only [State.kindStep, kind, trailing, Bool.false_eq_true, if_false, unheld_acc, sampleTo_eq]
      <;> rfl
  · simp only [State.kindStep, kind, if_neg other, unheld_acc, sampleTo_eq]
      <;> rfl

/-- Settles O40: an edge that starts a sample, one that stops it, and the span limit of the sample kinds. -/
theorem sampleKindsMeasureFromThePendingStart : Obligations.SampleKindsMeasureFromThePendingStart := by
  intro s slot d settle e rest a starts stops
  have startActs (begins : starts) : d.actsOn e = true := actsOn_of_qualifies begins.2.1 begins.2.2
  have stopActs (finishes : stops) : d.actsOn e = true := Definition.stopsSample.acts finishes
  have sampling (finishes : stops) : d.kind = .width ∨ d.kind = .phase := finishes.imp And.left And.left
  refine ⟨fun h => ⟨fun begins width => ?_, fun begins phase => ?_, fun finishes idle => ?_,
    fun start finishes pending => ?_⟩, fun opened last h acts allowed progress next later => ?_⟩
  · exact h.steps (startActs begins) (kindStep_of_widthStart width begins.2.2)
  · exact h.steps (startActs begins) (kindStep_of_phaseStart phase begins.2.1)
  · have step := kindStep_of_stop (s := s) (slot := slot) (rest := rest) finishes
    rw [idle] at step
    exact h.steps (stopActs finishes) step
  · have step := kindStep_of_stop (s := s) (slot := slot) (rest := rest) finishes
    rw [pending] at step
    refine ⟨fun misses => ?_, fun opened opens reaches allowed => ?_⟩
    · have step := step.trans (progressOrComplete_of_not _ _ fun closes => misses (beq_iff_eq.mp closes))
      exact ⟨_, h.steps (stopActs finishes) step, progress_jobBecomes h.1.2.2.1 _ _⟩
    · have step := step.trans (progressOrComplete_of_closes _ (beq_iff_eq.mpr reaches))
      have notCounting : d.kind ≠ .freqFixed ∧ d.kind ≠ .tally := by
        obtain kind | kind := sampling finishes <;> rw [kind] <;> exact ⟨nofun, nofun⟩
      have notInterval : ¬(d.kind = .freqSync ∨ d.kind = .period) := by
        obtain kind | kind := sampling finishes <;> rw [kind] <;> nofun
      have isStop : (d.kind = .width → d.selectA.admits e.polarity = false)
          ∧ (d.kind = .phase → e.channel ≠ d.channelA) := by
        obtain ⟨kind, -, trailing⟩ | ⟨kind, other, -⟩ := finishes
        · exact ⟨fun _ => trailing, fun phase => nomatch kind.symm.trans phase⟩
        · exact ⟨fun width => (nomatch kind.symm.trans width), fun _ => other⟩
      have ended := closes_end h (stopActs finishes) notCounting step allowed opens isStop
      rwa [if_neg notInterval] at ended
  · have actsOn : d.actsOn e = true := acts.elim startActs stopActs
    have kind : d.kind = .width ∨ d.kind = .phase := acts.elim And.left sampling
    exact limitEnds_at_progress h actsOn allowed (.inr kind) progress next later

end Sys2Proof.Machine
end

section
/-! PROOF. A boundary is taken before the edge of its tick (R48, R49): after the boundary the job waits for that
edge, and how much fuel is left does not matter to what it does with it. -/

namespace Sys2Proof.Machine

variable {s t : State} {slot : Fin 32} {d : Definition} {settle f : Nat} {e : AcceptedEdge} {rest : List AcceptedEdge}
  {opened tick : Tick} {purpose : Purpose} {b : Boundary} {j k : Job} {held : List AcceptedEdge}

/-! ## The job that waits for the edge at the boundary's tick -/

/-- After a boundary at the tick of the edge a job that still runs has opened a measurement there, holds for a later
start, or counts on in the TALLY batch whose report it was (R48, R52, R55, R83). -/
inductive Job.AwaitsAt (j : Job) (d : Definition) (t : Tick) : Prop where
  | opens (k : Job) (opened : j = k.opensAt d t none) : j.AwaitsAt d t
  | holds (state : j.state = .hold) (later : ∀ b, j.next = some b → notEarlier t b.tick = false) : j.AwaitsAt d t
  | counts (kind : d.kind = .tally) (state : j.state = .active)
      (later : ∀ b, j.next = some b → notEarlier t b.tick = false) : j.AwaitsAt d t

theorem Job.AwaitsAt.running (h : j.AwaitsAt d tick) : j.state.running = true := by
  cases h with
  | opens k opened => rw [opened]; rfl
  | holds state _ => rw [state]; rfl
  | counts _ state _ => rw [state]; rfl

theorem Job.AwaitsAt.holding (h : j.AwaitsAt d tick) (held : List AcceptedEdge) :
    ({ j with held := held } : Job).AwaitsAt d tick := by
  cases h with
  | opens k opened => exact .opens { k with held := held } (by rw [opened]; rfl)
  | holds state later => exact .holds state later
  | counts kind state later => exact .counts kind state later

/-! ## The fuel that is left does not matter (R49) -/

/-- An edge that a TALLY batch hands on is one that met the span limit of a CONTINUOUS job, which has opened its next
batch there. -/
theorem tally_again_opens (kind : d.kind = .tally) (allowed : d.allowed) (active : (s.job slot).state = .active)
    (settles : (s.job slot).settle = some settle) (again : (s.actOnEdge slot d e).again = true) :
    ∃ k : Job, (s.actOnEdge slot d e).state.job slot = k.opensAt d e.timestamp none := by
  have aperiodic : d.repeating ≠ .periodic := allowed.2.2.2.2.2.2.2.2.1 kind
  have acts : s.actOnEdge slot d e = if notEarlier e.timestamp ((s.job slot).opened e.timestamp) = true then
      s.processEdge slot d e else ⟨s, false⟩ := by
    simp only [State.actOnEdge, active]
  rw [acts] at again ⊢
  split at again
  · rename_i late
    rw [if_pos late]
    unfold State.processEdge at again ⊢
    dsimp only at again ⊢
    split at again
    · cases again
    · rename_i actsOn
      rw [if_neg actsOn]
      split at again
      · rename_i limit
        rw [if_pos limit]
        unfold State.complete State.actRepeat at again ⊢
        cases repeating : d.repeating with
        | once => rw [repeating] at again; cases again
        | periodic => exact absurd repeating aperiodic
        | continuous =>
          refine ⟨_, (openMeasurement_spec _ slot d e.timestamp settle ?_).1⟩
          obtain ⟨r, -, -, -, job⟩ := produce_spec s slot d .spanLimit
            ((s.job slot).spanLimitEnd d e.timestamp) _ rfl
          exact (congrArg Job.settle job).trans settles
      · unfold State.kindStep State.tallyEdge at again
        simp only [kind] at again
        split at again
        · unfold State.complete State.actRepeat at again
          cases repeating : d.repeating with
          | once => rw [repeating] at again; cases again
          | continuous => rw [repeating] at again; cases again
          | periodic => exact absurd repeating aperiodic
        · cases again
  · cases again

/-- One unit of fuel more or less leaves the same state of a job that awaits the edge. -/
theorem seeEdge_of_awaits (awaits : (s.job slot).AwaitsAt d e.timestamp) (defined : (s.job slot).definition = some d)
    (settles : (s.job slot).settle = some settle) (allowed : d.allowed) (f : Nat) :
    seeEdge (f + 3) s slot e = seeEdge (f + 2) s slot e := by
  cases awaits with
  | opens k opened => rw [seeEdge_at_open s defined allowed opened, seeEdge_at_open s defined allowed opened]
  | holds state later =>
    have idle : s.actOnEdge slot d e = ⟨s, false⟩ := by simp only [State.actOnEdge, state]
    rw [seeEdge_now _ defined later, seeEdge_now _ defined later, idle]
    rfl
  | counts kind state later =>
    rw [seeEdge_now _ defined later, seeEdge_now _ defined later]
    cases again : (s.actOnEdge slot d e).again with
    | false => rfl
    | true =>
      obtain ⟨k, opened⟩ := tally_again_opens kind allowed state settles again
      have same := (actOnEdge_acts slot s d e).definition slot
      rw [if_pos rfl, if_pos rfl, seeEdge_at_open _ (same.trans defined) allowed opened,
        seeEdge_at_open _ (same.trans defined) allowed opened]

/-! ## What the boundary leaves of the job -/

/-- A boundary that does not end a ONCE measurement is taken the same way whichever edges the job holds. -/
theorem takeBoundary_holding (defined : (s.job slot).definition = some d)
    (goesOn : b.purpose = .start ∨ b.purpose = .report ∨ d.repeating ≠ .once) :
    (s.holding slot held).takeBoundary slot b = (s.takeBoundary slot b).holding slot held := by
  have defined' : ((s.holding slot held).job slot).definition = some d := by rw [holding_job]; exact defined
  have dropped : (s.holding slot held).dropEntry slot = (s.dropEntry slot).holding slot held := rfl
  simp only [State.takeBoundary, defined, defined', dropped]
  obtain ⟨purpose, tick⟩ := b
  cases purpose with
  | start => exact holding_openMeasurement ..
  | report => exact holding_interimReport ..
  | close =>
    obtain other | other | continues := goesOn
    · cases other
    · cases other
    · exact (holding_complete _ slot d held .complete tick none).2.2 continues
  | stall =>
    obtain other | other | continues := goesOn
    · cases other
    · cases other
    · exact (holding_complete _ slot d held .stalled tick none).2.2 continues

/-- A ONCE measurement that ends discards them. -/
theorem takeBoundary_holding_of_once (defined : (s.job slot).definition = some d)
    (closing : b.purpose = .close ∨ b.purpose = .stall) (once : d.repeating = .once) :
    (s.holding slot held).takeBoundary slot b = s.takeBoundary slot b := by
  have defined' : ((s.holding slot held).job slot).definition = some d := by rw [holding_job]; exact defined
  have dropped : (s.holding slot held).dropEntry slot = (s.dropEntry slot).holding slot held := rfl
  simp only [State.takeBoundary, defined, defined', dropped]
  obtain closes | stalls := closing
  · rw [closes]
    exact (holding_complete _ slot d held .complete b.tick none).2.1 once
  · rw [stalls]
    exact (holding_complete _ slot d held .stalled b.tick none).2.1 once

/-- The purposes of a boundary that ends a measurement, and the status it ends with. -/
theorem takeBoundary_ends (defined : (s.job slot).definition = some d) (settles : (s.job slot).settle = some settle)
    (closing : purpose = .close ∨ purpose = .stall) :
    s.ends slot d settle ((s.job slot).opened tick) (s.job slot).acc (s.job slot).held
      (if purpose = .close then .complete else .stalled) tick tick none (s.takeBoundary slot ⟨purpose, tick⟩) := by
  have ends (status : RecordStatus) : s.ends slot d settle ((s.job slot).opened tick) (s.job slot).acc (s.job slot).held
      status tick tick none ((s.dropEntry slot).complete slot d status tick none).state :=
    (complete_spec (s.dropEntry slot) slot d status tick ((s.job slot).opened tick) tick none none settle settles rfl
      (fun _ => by cases status <;> exact ⟨rfl, rfl⟩) (fun _ => rfl)).of_worked (a' := (s.job slot).acc)
      (h' := (s.job slot).held) rfl rfl (fun _ _ => rfl) rfl (otherEntries_dropEntry s slot)
  obtain rfl | rfl := closing <;> simp only [State.takeBoundary, defined]
  · exact ends .complete
  · exact ends .stalled

/-- A measurement that ends at a boundary, at the horizon, goes on as one that awaits the edge there. -/
theorem State.ends.awaits {a : Accumulators} {status : RecordStatus}
    (h : s.ends slot d settle opened a held status tick tick none t) (goesOn : d.repeating ≠ .once) (allowed : d.allowed)
    (horizon : tickBefore s.now settle = tick) :
    (t.job slot).AwaitsAt d tick ∧ (t.job slot).settle = (s.job slot).settle ∧ (t.job slot).held = held := by
  obtain ⟨-, r, -, -, -, -, continues, grid⟩ := h
  cases repeating : d.repeating with
  | once => exact absurd repeating goesOn
  | continuous =>
    have job := continues repeating
    exact ⟨.opens _ job, by rw [job]; rfl, by rw [job]; rfl⟩
  | periodic =>
    have periods := allowed.2.2.2.2.2.2.2.2.2
    rw [if_pos repeating] at periods
    have positive : 0 < d.period := by omega
    obtain ⟨-, holds, opens⟩ := grid repeating _ (one_le_gridSteps opened tick d.period) (gridSteps_reaches positive)
      (gridSteps_least positive)
    rw [horizon] at holds opens
    cases later : notEarlier tick (d.nextStart opened tick) with
    | false =>
      have job := holds later
      refine ⟨.holds (by rw [job]) fun b next => ?_, by rw [job], by rw [job]⟩
      rw [job] at next
      obtain rfl := Option.some.inj next
      exact later
    | true =>
      have job := opens later
      have now : tickAfter opened (gridSteps opened tick d.period * d.period) = tick :=
        (nextStart_eq positive periods.2.1 later).symm
      rw [now] at job
      exact ⟨.opens _ job, by rw [job]; rfl, by rw [job]; rfl⟩

theorem interimReport_job (s : State) (slot : Fin 32) (d : Definition) (tick : Tick) :
    (s.interimReport slot d tick).job slot = { (s.produce slot d .interim tick).job slot with
      acc := { ((s.produce slot d .interim tick).job slot).acc with count := 0 }
      next := some ⟨.report, tickAfter tick d.report⟩ } := by
  unfold State.interimReport
  rw [setBoundary_job, if_pos rfl, State.job_setJob_self]

/-- A running job whose boundary has been taken awaits the edge at its tick, but for one whose ONCE measurement has
ended. -/
theorem takeBoundary_awaits (defined : (s.job slot).definition = some d) (settles : (s.job slot).settle = some settle)
    (horizon : tickBefore s.now settle = tick) (allowed : d.allowed)
    (goesOn : purpose = .start ∨ purpose = .report ∨ d.repeating ≠ .once)
    (reports : purpose = .report → d.kind = .tally ∧ (s.job slot).state = .active ∧ 0 < d.report) :
    ((s.takeBoundary slot ⟨purpose, tick⟩).job slot).AwaitsAt d tick
      ∧ ((s.takeBoundary slot ⟨purpose, tick⟩).job slot).settle = some settle
      ∧ ((s.takeBoundary slot ⟨purpose, tick⟩).job slot).held = (s.job slot).held := by
  have ending (closing : purpose = .close ∨ purpose = .stall) (continues : d.repeating ≠ .once) :=
    settles ▸ (takeBoundary_ends (tick := tick) defined settles closing).awaits continues allowed horizon
  cases purpose with
  | start =>
    simp only [State.takeBoundary, defined]
    obtain ⟨job, -⟩ := openMeasurement_spec (s.dropEntry slot) slot d tick settle settles
    exact ⟨.opens _ job, by rw [job]; exact settles, by rw [job]; rfl⟩
  | report =>
    obtain ⟨kind, active, some⟩ := reports rfl
    simp only [State.takeBoundary, defined]
    obtain ⟨r, -, -, -, produced⟩ := produce_spec (s.dropEntry slot) slot d .interim tick _ rfl
    have reported := interimReport_job (s.dropEntry slot) slot d tick
    rw [produced] at reported
    have near : d.report < 2 ^ 32 := by
      obtain none | ⟨-, -, near⟩ := allowed.2.2.2.2.2.1
      · omega
      · exact near
    refine ⟨.counts kind (by rw [reported]; exact active) fun b next => ?_, by rw [reported]; exact settles,
      by rw [reported]; rfl⟩
    rw [reported] at next
    obtain rfl := Option.some.inj next
    have start : tickAfter tick 0 = tick := BitVec.add_zero tick
    have before := notEarlier_of_behind some near tick
    rwa [start] at before
  | close => exact ending (.inl rfl) (by simpa using goesOn)
  | stall => exact ending (.inr rfl) (by simpa using goesOn)

/-! ## The two orders -/

/-- An edge of a job that no longer runs is not seen. -/
theorem edgeSeen_of_stopped (stopped : (s.job slot).state.running = false) : completes (.edgeSeen slot) s s := by
  have waits : ¬((s.job slot).seenIsDue s.now && !referenceIsDue s) = true := by simp [Job.seenIsDue, stopped]
  exact congrArg Host.Outcome.next (if_neg waits)

/-- The edge alone: the boundary at its tick is taken first (R49). -/
theorem edgeSeen_of_boundary (running : (s.job slot).state.running = true) (defined : (s.job slot).definition = some d)
    (settles : (s.job slot).settle = some settle) (holds : (s.job slot).held = e :: rest)
    (now : s.now = tickAfter e.timestamp settle) (settled : referenceIsDue s = false)
    (next : (s.job slot).next = some ⟨purpose, e.timestamp⟩) :
    completes (.edgeSeen slot) s
      (seeEdge 281474976710655 ((s.holding slot rest).takeBoundary slot ⟨purpose, e.timestamp⟩) slot e) := by
  have seen := seen_without slot running holds settles now settled
  have first := seeEdge_boundary (s := s.holding slot rest) (slot := slot) (d := d) (e := e) 281474976710655
    (by rw [holding_job]; exact defined) (b := ⟨purpose, e.timestamp⟩) (by rw [holding_job]; exact next)
    (notEarlier_self e.timestamp)
  exact first ▸ seen

/-- The REPORT of a running job is a TALLY batch's (R95). -/
theorem Job.boundaryLaw.report (law : j.boundaryLaw) (running : j.state.running = true)
    (defined : j.definition = some d) (next : j.next = some ⟨.report, tick⟩) :
    d.kind = .tally ∧ j.state = .active ∧ 0 < d.report := by
  unfold Job.boundaryLaw at law
  cases state : j.state with
  | free | idle | done => rw [state] at running; cases running
  | armed =>
    simp only [state, defined, next, Job.nextIs, Option.some.injEq, Boundary.mk.injEq] at law
    simp at law
  | hold =>
    simp only [state, defined, next, Job.nextIs, Option.some.injEq, Boundary.mk.injEq] at law
    simp at law
  | active =>
    simp only [state, defined, Job.activeBoundary, Job.nextIs, next, Option.some.injEq, Boundary.mk.injEq] at law
    cases kind : d.kind <;> simp [kind] at law
    exact ⟨rfl, rfl, law⟩

theorem Job.boundaryLaw.close (law : j.boundaryLaw) (active : j.state = .active) (defined : j.definition = some d)
    (kind : d.kind = .freqFixed) (next : j.next = some ⟨purpose, tick⟩) : purpose = .close := by
  simp only [Job.boundaryLaw, active, defined, Job.activeBoundary, kind, Job.nextIs, next] at law
  obtain ⟨_, same⟩ := law
  exact congrArg Boundary.purpose (Option.some.inj same)

/-- A gate that a CONTINUOUS job opened at the edge counts it as its first (R52, R69). -/
theorem actOnEdge_of_freshGate (k : Job) (fresh : s.job slot = k.opensAt d e.timestamp none) (kind : d.kind = .freqFixed)
    (channel : e.channel = d.channelA) (admits : d.selectA.admits e.polarity = true) :
    s.actOnEdge slot d e = ⟨s.setAcc slot { (s.job slot).acc with count := 1 }, false⟩ := by
  have active : (s.job slot).state = .active := by rw [fresh]; rfl
  have opens : (s.job slot).opened e.timestamp = e.timestamp := by rw [Job.opened, fresh]; rfl
  have count : (s.job slot).acc.count = 0 := by rw [fresh]; rfl
  have acts := actsOn_of_qualifies channel admits
  simp [State.actOnEdge, active, opens, notEarlier_self, State.processEdge, acts, distance_self, State.kindStep, kind,
    count]

/-- The expiry of a boundary, and then the edge at its tick, of a job that goes on: what the edge alone leaves. -/
theorem expiry_then_edge (awaits : ((s.takeBoundary slot ⟨purpose, e.timestamp⟩).job slot).AwaitsAt d e.timestamp)
    (settles : ((s.takeBoundary slot ⟨purpose, e.timestamp⟩).job slot).settle = some settle)
    (holds : ((s.takeBoundary slot ⟨purpose, e.timestamp⟩).job slot).held = e :: rest)
    (defined : (s.job slot).definition = some d) (now : s.now = tickAfter e.timestamp settle)
    (settled : referenceIsDue s = false) (allowed : d.allowed) :
    completes (.edgeSeen slot) (s.takeBoundary slot ⟨purpose, e.timestamp⟩)
      (seeEdge 281474976710655 ((s.takeBoundary slot ⟨purpose, e.timestamp⟩).holding slot rest) slot e) := by
  have acts := takeBoundary_acts slot s ⟨purpose, e.timestamp⟩
  have defined' := (acts.definition slot).trans defined
  have now' := acts.now.trans now
  have timebase := acts.timebase
  generalize s.takeBoundary slot ⟨purpose, e.timestamp⟩ = u at *
  have settled' : referenceIsDue u = false := by
    rw [← settled]
    unfold referenceIsDue lossIsDue regainIsDue
    rw [timebase]
  have seen := seen_without slot awaits.running holds settles now' settled'
  have same : seeEdge 281474976710656 (u.holding slot rest) slot e = seeEdge 281474976710655 (u.holding slot rest) slot e :=
    seeEdge_of_awaits (d := d) (settle := settle) (by rw [holding_job]; exact awaits.holding rest)
      (by rw [holding_job]; exact defined') (by rw [holding_job]; exact settles) allowed 281474976710653
  rwa [same] at seen

/-- The edge is not seen where the boundary has ended a ONCE measurement. -/
theorem seeEdge_of_done (state : (s.job slot).state = .done) (next : (s.job slot).next = none)
    (defined : (s.job slot).definition = some d) (f : Nat) : seeEdge (f + 1) s slot e = s := by
  have idle : s.actOnEdge slot d e = ⟨s, false⟩ := by simp only [State.actOnEdge, state]
  rw [seeEdge_now f defined (by rw [next]; nofun), idle]
  rfl

/-- The CLOSE of a CONTINUOUS gate that ends at the edge, and the edge, which the next gate counts. -/
theorem close_then_edge (defined : (s.job slot).definition = some d) (settles : (s.job slot).settle = some settle)
    (opens : (s.job slot).openTick = some opened) (kind : d.kind = .freqFixed) (continuous : d.repeating = .continuous)
    (allowed : d.allowed) (channel : e.channel = d.channelA) (admits : d.selectA.admits e.polarity = true) :
    ∃ (t : State) (r : Record),
      seeEdge 281474976710655 ((s.holding slot rest).takeBoundary slot ⟨.close, e.timestamp⟩) slot e = t
        ∧ s.sparesOthers slot t ∧ s.takesRecord slot d .complete opened r t
        ∧ r.tells d (s.job slot) opened e.timestamp ∧ (t.job slot).state = .active
        ∧ (t.job slot).openTick = some e.timestamp ∧ (t.job slot).acc.count = 1 ∧ (t.job slot).held = rest
        ∧ (t.job slot).next = some ⟨.close, tickAfter e.timestamp d.gate⟩ := by
  have ends := takeBoundary_ends (s := s.holding slot rest) (slot := slot) (tick := e.timestamp) (d := d)
    (settle := settle) (by rw [holding_job]; exact defined) (by rw [holding_job]; exact settles) (.inl rfl)
  have acts := takeBoundary_acts slot (s.holding slot rest) ⟨.close, e.timestamp⟩
  generalize (s.holding slot rest).takeBoundary slot ⟨.close, e.timestamp⟩ = u at ends acts
  have openTick : ((s.holding slot rest).job slot).opened e.timestamp = opened := by
    rw [holding_job, Job.opened, opens]
    rfl
  rw [openTick] at ends
  have ends := ends.of_worked (s := s) (a' := (s.job slot).acc) (h' := rest) rfl (holding_job ..)
    (fun _ other => s.job_setJob_ne other _) rfl rfl
  rw [holding_job, if_pos rfl] at ends
  obtain ⟨spares, r, takes, tells, -, -, continues, -⟩ := ends
  obtain ⟨j, fresh, held⟩ : ∃ j : Job, u.job slot = j.opensAt d e.timestamp none ∧ j.held = rest :=
    ⟨_, continues continuous, rfl⟩
  have defined' : (u.job slot).definition = some d := by
    rw [acts.definition, holding_job]
    exact defined
  have seen : seeEdge 281474976710655 u slot e = (u.actOnEdge slot d e).state :=
    seeEdge_at_open u defined' allowed fresh 281474976710654
  rw [actOnEdge_of_freshGate _ fresh kind channel admits] at seen
  have counted := setAcc_acts slot u { (u.job slot).acc with count := 1 } fun _ => by rw [fresh]; exact Nat.zero_le _
  have job : (u.setAcc slot { (u.job slot).acc with count := 1 }).job slot
      = { u.job slot with acc := { (u.job slot).acc with count := 1 } } := State.job_setJob_self ..
  refine ⟨_, r, seen, spares.trans counted.spares, takes.after counted rfl ⟨_, job, rfl, rfl, rfl, rfl, rfl⟩, tells, ?_⟩
  rw [job, fresh]
  have next : d.firstBoundary e.timestamp = some ⟨.close, tickAfter e.timestamp d.gate⟩ := by
    simp only [Definition.firstBoundary, kind]
  exact ⟨rfl, rfl, rfl, held, (opensAt_next j d e.timestamp none).trans next⟩

/-- Settles O42: the boundary is taken alike with the edge held or not, and the job then awaits the edge. -/
theorem boundaryIsTakenBeforeTheEdge : Obligations.BoundaryIsTakenBeforeTheEdge := by
  intro s slot d settle e rest purpose running defined settles holds now settled next law allowed
  have horizon : tickBefore s.now settle = e.timestamp := by rw [now]; exact tickBefore_tickAfter e.timestamp settle
  have alone := edgeSeen_of_boundary running defined settles holds now settled next
  refine ⟨fun more entries => ?_, fun opened opens active kind continuous channel admits => ?_⟩
  · have expires : s.expires slot d settle purpose e.timestamp := ⟨defined, settles, now, settled, more, entries⟩
    have expired := expires.completes
    by_cases goesOn : purpose = .start ∨ purpose = .report ∨ d.repeating ≠ .once
    · obtain ⟨awaits, settles', holds'⟩ := takeBoundary_awaits defined settles horizon allowed goesOn
        fun report => law.report running defined (report ▸ next)
      rw [takeBoundary_holding defined goesOn] at alone
      exact ⟨_, _, expired, expiry_then_edge awaits settles' (holds'.trans holds) defined now settled allowed, alone⟩
    · obtain ⟨notStart, notReport, once⟩ : purpose ≠ .start ∧ purpose ≠ .report ∧ d.repeating = .once := by
        simpa [not_or] using goesOn
      have closing : purpose = .close ∨ purpose = .stall := by
        cases purpose with
        | start => exact absurd rfl notStart
        | report => exact absurd rfl notReport
        | close => exact .inl rfl
        | stall => exact .inr rfl
      have defined' := ((takeBoundary_acts slot s ⟨purpose, e.timestamp⟩).definition slot).trans defined
      obtain ⟨-, r, -, -, done, -⟩ := takeBoundary_ends (tick := e.timestamp) defined settles closing
      obtain ⟨job, -⟩ := done once
      rw [takeBoundary_holding_of_once defined closing once] at alone
      have same : seeEdge 281474976710655 (s.takeBoundary slot ⟨purpose, e.timestamp⟩) slot e
          = s.takeBoundary slot ⟨purpose, e.timestamp⟩ :=
        seeEdge_of_done (by rw [job]) (by rw [job]) defined' 281474976710654
      rw [same] at alone
      exact ⟨_, _, expired, edgeSeen_of_stopped (by rw [job]; rfl), alone⟩
  · obtain rfl := law.close active defined kind next
    obtain ⟨t, r, same, left⟩ :=
      close_then_edge (rest := rest) defined settles opens kind continuous allowed channel admits
    exact ⟨t, r, same ▸ alone, left⟩

end Sys2Proof.Machine
end

section
/-! PROOF. The edges that a job ignores or passes over, and the edge that opens the measurement of a job armed
ON_EDGE (R44, R46, R63). -/

namespace Sys2Proof.Machine

variable {s t u : State} {slot : Fin 32} {d : Definition} {settle n m : Nat} {e : AcceptedEdge}
  {rest : List AcceptedEdge} {opened armed tick : Tick} {j k : Job} {a : Accumulators}

/-! ## The edges that qualify (R44, R63) -/

/-- An edge of channel A with the polarity that the definition selects. -/
def Definition.qualifiesA (d : Definition) (e : AcceptedEdge) : Prop :=
  e.channel = d.channelA ∧ d.selectA.admits e.polarity = true

/-- The edges that a kind acts on. -/
theorem actsOn_iff : d.actsOn e = true ↔ match d.kind with
    | .width => e.channel = d.channelA
    | .phase => d.qualifiesA e ∨ (e.channel = d.channelB ∧ d.selectB.admits e.polarity = true)
    | .freqFixed | .freqSync | .period | .tally => d.qualifiesA e := by
  unfold Definition.actsOn Definition.qualifiesA
  cases d.kind <;> simp

theorem opensOn_iff (arms : j.armingTick = some armed) :
    j.opensOn d e = true ↔ d.qualifiesA e ∧ notEarlier e.timestamp armed = true := by
  simp only [Job.opensOn, arms, Bool.and_eq_true, beq_iff_eq, Definition.qualifiesA]

/-! ## An edge that changes nothing but the held edges (R46, R63) -/

theorem State.sees.ignores (h : s.sees slot d settle e rest)
    (idle : (s.unheld slot rest).actOnEdge slot d e = ⟨s.unheld slot rest, false⟩) :
    completes (.edgeSeen slot) s (s.setJob slot { s.job slot with held := rest }) := by
  have seen := h.exec (by rw [idle])
  rwa [idle] at seen

theorem actOnEdge_of_hold (state : (s.job slot).state = .hold) : s.actOnEdge slot d e = ⟨s, false⟩ := by
  simp only [State.actOnEdge, state]

theorem actOnEdge_of_armedAt (state : (s.job slot).state = .armed) (mode : (s.job slot).subMode = some .at) :
    s.actOnEdge slot d e = ⟨s, false⟩ := by
  simp [State.actOnEdge, state, mode]

theorem actOnEdge_of_notOpening (state : (s.job slot).state = .armed) (arms : (s.job slot).armingTick = some armed)
    (other : ¬d.qualifiesA e ∨ notEarlier e.timestamp armed = false) : s.actOnEdge slot d e = ⟨s, false⟩ := by
  have shut : (s.job slot).opensOn d e = false := by
    rw [Bool.eq_false_iff, ne_eq, opensOn_iff arms]
    rintro ⟨qualifies, late⟩
    obtain not | early := other
    · exact not qualifies
    · rw [early] at late
      cases late
  simp [State.actOnEdge, state, shut]

theorem actOnEdge_of_active (state : (s.job slot).state = .active) (opens : (s.job slot).openTick = some opened)
    (other : notEarlier e.timestamp opened = false ∨ ¬d.actsOn e = true) : s.actOnEdge slot d e = ⟨s, false⟩ := by
  have openTick : (s.job slot).opened e.timestamp = opened := by rw [Job.opened, opens]; rfl
  simp only [State.actOnEdge, state, openTick]
  obtain early | passed := other
  · rw [if_neg (Bool.eq_false_iff.mp early)]
  · have passes : s.processEdge slot d e = ⟨s, false⟩ := by simp [State.processEdge, passed]
    rw [passes, ite_self]

/-! ## The edge that opens the measurement (R44) -/

theorem State.jobBecomes.of_written (h : (s.setJob slot k).jobBecomes slot j settle n t) :
    s.jobBecomes slot j settle n t := by
  obtain ⟨frame, job, others, held, stands⟩ := h
  exact ⟨frame, job, fun i other => (others i other).trans (s.job_setJob_ne other k), held, stands.of_eq rfl rfl⟩

/-- A job that becomes another and then writes its accumulators has become the one with those. -/
theorem State.jobBecomes.setAcc (h : s.jobBecomes slot j settle n t) (a : Accumulators) :
    s.jobBecomes slot { j with acc := a } settle n (t.setAcc slot a) := by
  obtain ⟨frame, job, others, held, stands⟩ := h
  refine ⟨by rw [frame]; rfl, ?_, fun i other => (t.job_setJob_ne other _).trans (others i other), held, stands⟩
  rw [State.setAcc, State.job_setJob_self, job]

/-- One that then sets its next boundary has its entry there. -/
theorem State.jobBecomes.trans {j' : Job} (h : s.jobBecomes slot j settle n t) (h' : t.jobBecomes slot j' settle m u) :
    s.jobBecomes slot j' settle m u := by
  obtain ⟨frame, -, others, -, stands⟩ := h
  obtain ⟨frame', job', others', held', stands'⟩ := h'
  refine ⟨by rw [frame', frame], job', fun i other => (others' i other).trans (others i other), held',
    stands'.of_eq stands.others (by rw [frame]; rfl)⟩

theorem State.jobBecomes.progress (h : s.jobBecomes slot j settle n t) (settles : j.settle = some settle)
    (a : Accumulators) (tick : Tick) :
    s.jobBecomes slot { j with acc := a, next := some ⟨.stall, tickAfter tick d.stall⟩ } settle n
      (t.progress slot d a tick) := by
  obtain ⟨-, job, -, held, -⟩ := id h
  have moved := jobBecomes_setBoundary (s := t) (slot := slot) (settle := settle) (j := { t.job slot with acc := a })
    (b := ⟨.stall, tickAfter tick d.stall⟩) (by rw [job]; exact settles)
  rw [held, job] at moved
  rw [State.progress, State.setAcc, job]
  exact h.trans moved

/-- The job that a qualifying edge opens, its start base set under PERIODIC (R44). -/
def Job.startsAt (j : Job) (d : Definition) (t : Tick) : Job :=
  { j with startBase := if d.repeating = .periodic then some t else j.startBase }

/-- An edge that opens a measurement is processed in it (R44). -/
theorem actOnEdge_of_opening (state : (s.job slot).state = .armed) (mode : (s.job slot).subMode = some .onEdge)
    (arms : (s.job slot).armingTick = some armed) (qualifies : d.qualifiesA e)
    (late : notEarlier e.timestamp armed = true) :
    s.actOnEdge slot d e
      = ((s.setJob slot ((s.job slot).startsAt d e.timestamp)).openMeasurement slot d e.timestamp).processEdge slot d e := by
  have opens : (s.job slot).opensOn d e = true := (opensOn_iff arms).mpr ⟨qualifies, late⟩
  have opening : ((s.job slot).subMode = some .onEdge && (s.job slot).opensOn d e) = true := by simp [mode, opens]
  unfold State.actOnEdge
  simp only [state]
  exact (if_pos opening).trans (by rw [Job.startsAt, state, mode])

theorem processEdge_of_fresh (fresh : s.job slot = j.opensAt d e.timestamp none) (acts : d.actsOn e = true) :
    s.processEdge slot d e = s.kindStep slot d e ∧ s.actOnEdge slot d e = s.kindStep slot d e := by
  have active : (s.job slot).state = .active := by rw [fresh]; rfl
  have openTick : (s.job slot).opened e.timestamp = e.timestamp := by rw [Job.opened, fresh]; rfl
  have near : ¬Config.spanLimit ≤ distance e.timestamp e.timestamp := by rw [distance_self]; decide
  have processed : s.processEdge slot d e = s.kindStep slot d e := by
    simp only [State.processEdge, openTick, acts, Bool.not_true, Bool.false_eq_true, if_false, ge_iff_le, if_neg near]
  refine ⟨processed, ?_⟩
  rw [← processed]
  simp only [State.actOnEdge, active, openTick, notEarlier_self, if_true]

/-- What a fresh measurement takes of the edge that opened it (R69, R71, R74, R76, R79, R82). -/
def openingAcc (kind : Kind) (t : Tick) : Accumulators :=
  { count := if (kind == .freqFixed || kind == .tally) = true then 1 else 0,
    firstEdge := if (kind == .freqSync || kind == .period) = true then some t else none,
    lastProgress := if (kind == .freqSync || kind == .period || kind == .tally) = true then some t else none,
    sum := 0, min := none, max := none,
    pendingStart := if (kind == .width || kind == .phase) = true then some t else none, skipped := 0,
    total := if (kind == .tally) = true then 1 else 0 }

/-- A kind's step at the edge that opened its measurement, but for a TALLY batch that the edge completes. -/
theorem kindStep_of_fresh (becomes : s.jobBecomes slot (j.opensAt d e.timestamp none) settle n t)
    (settles : j.settle = some settle) (qualifies : d.qualifiesA e) (goesOn : d.kind ≠ .tally ∨ d.target ≠ 1) :
    (t.kindStep slot d e).again = false
      ∧ s.jobBecomes slot { j.opensAt d e.timestamp none with acc := openingAcc d.kind e.timestamp } settle n
          (t.kindStep slot d e).state := by
  obtain ⟨channel, admits⟩ := qualifies
  have acc : (t.job slot).acc = .cleared := by rw [becomes.2.1]; rfl
  have counted (a : Accumulators) := becomes.setAcc a
  have next : (j.opensAt d e.timestamp none).next = d.firstBoundary e.timestamp := opensAt_next ..
  have timed (a : Accumulators) (stalls : d.firstBoundary e.timestamp = some ⟨.stall, tickAfter e.timestamp d.stall⟩) :
      s.jobBecomes slot { j.opensAt d e.timestamp none with acc := a } settle n (t.progress slot d a e.timestamp) := by
    have moved := becomes.progress (d := d) settles a e.timestamp
    rw [← stalls, ← next] at moved
    exact moved
  unfold State.kindStep
  cases kind : d.kind with
  | freqFixed => exact ⟨rfl, acc ▸ counted _⟩
  | freqSync =>
    simp only [acc, Accumulators.cleared]
    exact ⟨trivial, timed _ (by simp only [Definition.firstBoundary, kind])⟩
  | period =>
    simp only [acc, Accumulators.cleared]
    exact ⟨trivial, timed _ (by simp only [Definition.firstBoundary, kind])⟩
  | width =>
    simp only [admits, if_true]
    exact ⟨trivial, acc ▸ counted _⟩
  | phase =>
    simp only [channel, if_true]
    exact ⟨trivial, acc ▸ counted _⟩
  | tally =>
    have short : ¬(decide (d.target > 0) && decide (0 + 1 = d.target)) = true := by
      simp only [Bool.and_eq_true, decide_eq_true_eq]
      rintro ⟨-, one⟩
      obtain other | more := goesOn
      · exact other kind
      · exact more one.symm
    simp only [State.tallyEdge, acc, Accumulators.cleared, short]
    exact ⟨rfl, counted _⟩

/-- The measurement that opens at the edge, with the edge still held or not (R44). -/
theorem openMeasurement_of_starts (settles : (s.job slot).settle = some settle) (held : List AcceptedEdge)
    (tick : Tick) :
    s.jobBecomes slot (({ (s.job slot).startsAt d tick with held := held } : Job).opensAt d tick none) settle
      s.deadlines.reservations
      ((s.setJob slot { (s.job slot).startsAt d tick with held := held }).openMeasurement slot d tick) := by
  have opens := openMeasurement_jobBecomes (d := d) (slot := slot) (settle := settle)
    (s := s.setJob slot { (s.job slot).startsAt d tick with held := held })
    (by rw [State.job_setJob_self]; exact settles) tick
  rw [State.job_setJob_self] at opens
  exact opens.of_written

/-- Settles O41: what each state does with an edge it ignores, and what the edge that opens a measurement leaves. -/
theorem ignoredAndOpeningEdges : Obligations.IgnoredAndOpeningEdges := by
  intro s slot d settle e rest h qualifiesA qualifiesB acts
  have unheld : (s.unheld slot rest).job slot = { s.job slot with held := rest } := unheld_job ..
  refine ⟨?_, fun armed state mode arms qualifies late => ?_⟩
  · rintro (⟨state, mode⟩ | state | ⟨armed, state, arms, other⟩ | ⟨opened, state, opens, other⟩) <;>
      refine h.ignores ?_
    · exact actOnEdge_of_armedAt (by rw [unheld]; exact state) (by rw [unheld]; exact mode)
    · exact actOnEdge_of_hold (by rw [unheld]; exact state)
    · exact actOnEdge_of_notOpening (by rw [unheld]; exact state) (by rw [unheld]; exact arms) other
    · exact actOnEdge_of_active (by rw [unheld]; exact state) (by rw [unheld]; exact opens)
        (other.imp id fun passes actsOn => passes (actsOn_iff.mp actsOn))
  intro opened counts takes
  obtain ⟨running, defined, settles, holds, now, settled, -⟩ := id h
  have actsOn : d.actsOn e = true := actsOn_of_qualifies qualifies.1 qualifies.2
  have opening := actOnEdge_of_opening (s := s.unheld slot rest) (slot := slot) (d := d) (e := e) (armed := armed)
    (by rw [unheld]; exact state) (by rw [unheld]; exact mode) (by rw [unheld]; exact arms) qualifies late
  have written : (s.unheld slot rest).setJob slot (((s.unheld slot rest).job slot).startsAt d e.timestamp)
      = s.setJob slot { (s.job slot).startsAt d e.timestamp with held := rest } := by
    rw [unheld, State.unheld, setJob_setJob]
    rfl
  rw [written] at opening
  have becomes := openMeasurement_of_starts (d := d) settles rest e.timestamp
  generalize without : (s.setJob slot { (s.job slot).startsAt d e.timestamp with held := rest }).openMeasurement slot d
    e.timestamp = w at opening becomes
  obtain ⟨processed, acted⟩ := processEdge_of_fresh (s := w) (d := d) (e := e) (slot := slot)
    (j := { (s.job slot).startsAt d e.timestamp with held := rest }) becomes.2.1 actsOn
  rw [processed] at opening
  refine ⟨fun allowed => ?_, fun goesOn => ?_⟩
  · have again : (w.actOnEdge slot d e).again = false :=
      fresh_again (o := e.timestamp) w allowed (by rw [becomes.2.1]; rfl) (by rw [becomes.2.1]; rfl)
        (by rw [becomes.2.1]; rfl) (notEarlier_self _) (by rw [distance_self]; decide)
    have same : seeEdge 281474976710656 w slot e = (w.kindStep slot d e).state :=
      (seeEdge_at_open w (by rw [becomes.2.1]; exact defined) allowed becomes.2.1 281474976710655).trans
        (congrArg EdgeStep.state acted)
    have seen := h.exec (by rw [opening, ← acted]; exact again)
    rw [opening] at seen
    have still := openMeasurement_of_starts (d := d) settles (s.job slot).held e.timestamp
    have lifted := holding_openMeasurement (s.setJob slot { (s.job slot).startsAt d e.timestamp with
      held := (s.job slot).held }) slot d rest e.timestamp
    rw [setJob_holding, without] at lifted
    generalize (s.setJob slot { (s.job slot).startsAt d e.timestamp with held := (s.job slot).held }).openMeasurement
      slot d e.timestamp = u at still lifted
    obtain ⟨frame, job, -⟩ := id still
    have seenThen := seen_without (u := u) slot (e := e) (rest := rest) (settle := settle) (by rw [job]; rfl)
      (by rw [job]; exact holds) (by rw [job]; exact settles) (by rw [frame]; exact now) (by rw [frame]; exact settled)
    rw [← lifted, same] at seenThen
    exact ⟨u, _, seen, seenThen, still⟩
  · obtain ⟨alone, left⟩ := kindStep_of_fresh (t := w) becomes settles qualifies goesOn
    rw [← opening] at alone left
    exact ⟨_, h.exec alone, left⟩

end Sys2Proof.Machine
end

section
/-! PROOF. A job definition and its bytes (R34 to R36, R194): what is read back, and which field refuses a payload. -/

namespace Sys2Proof.Machine

variable {payload : List Byte} {d : Definition} {k : Kind} {r : RawDefinition} {i : Nat}

/-! ## The raw fields and their bytes (R194) -/

/-- The raw fields that a definition stands for. -/
def Definition.raw (d : Definition) : RawDefinition where
  kind := d.kind.toCode
  channelA := d.channelA.val
  selectA := d.selectA.toCode
  channelB := d.channelB.val
  selectB := d.selectB.toCode
  gate := d.gate
  count := d.count
  report := d.report
  target := d.target
  stall := d.stall
  repeating := d.repeating.toCode
  period := d.period
  queueResults := bit d.queueResults

/-- The bytes of raw fields, from offset 1. -/
def RawDefinition.bytes (r : RawDefinition) : List Byte :=
  leBytes 1 r.kind ++ leBytes 1 r.channelA ++ leBytes 1 r.selectA ++ leBytes 1 r.channelB ++ leBytes 1 r.selectB
    ++ leBytes 4 r.gate ++ leBytes 2 r.count ++ leBytes 4 r.report ++ leBytes 6 r.target ++ leBytes 4 r.stall
    ++ leBytes 1 r.repeating ++ leBytes 4 r.period ++ leBytes 1 r.queueResults

theorem raw_bytes (d : Definition) : d.raw.bytes = d.bytes := rfl

/-- Every raw field fits the bytes it has in the payload. -/
structure RawDefinition.Fits (r : RawDefinition) : Prop where
  kind : r.kind < 256 ^ 1
  channelA : r.channelA < 256 ^ 1
  selectA : r.selectA < 256 ^ 1
  channelB : r.channelB < 256 ^ 1
  selectB : r.selectB < 256 ^ 1
  gate : r.gate < 256 ^ 4
  count : r.count < 256 ^ 2
  report : r.report < 256 ^ 4
  target : r.target < 256 ^ 6
  stall : r.stall < 256 ^ 4
  repeating : r.repeating < 256 ^ 1
  period : r.period < 256 ^ 4
  queueResults : r.queueResults < 256 ^ 1

theorem field_past_byte {offset : Nat} (behind : 1 ≤ offset) (b : Byte) (l : List Byte) (width : Nat) :
    field (b :: l) offset width = field l (offset - 1) width := by
  obtain ⟨n, rfl⟩ := Nat.exists_eq_add_of_le' behind
  exact field_cons_succ b l n width

theorem field_past {n offset : Nat} (behind : n ≤ offset) (value : Nat) (l : List Byte) (width : Nat) :
    field (leBytes n value ++ l) offset width = field l (offset - n) width := by
  have past : (leBytes n value ++ l).drop offset = l.drop (offset - n) := by
    have length := length_leBytes n value
    rw [List.drop_append, length, List.drop_eq_nil_of_le (by omega), List.nil_append]
  rw [field, field, past]

theorem field_front {n value : Nat} (fits : value < 256 ^ n) (l : List Byte) :
    field (leBytes n value ++ l) 0 n = value :=
  (field_append (a := []) (c := l) rfl (length_leBytes n value)).trans (leNat_leBytes_of_lt fits)

/-- Raw fields that fit are read back from their bytes. -/
theorem rawDefinition_bytes (fits : r.Fits) (slot : Byte) : rawDefinition (slot :: r.bytes) = r := by
  have whole : slot :: r.bytes = slot :: (leBytes 1 r.kind ++ (leBytes 1 r.channelA ++ (leBytes 1 r.selectA
      ++ (leBytes 1 r.channelB ++ (leBytes 1 r.selectB ++ (leBytes 4 r.gate ++ (leBytes 2 r.count
      ++ (leBytes 4 r.report ++ (leBytes 6 r.target ++ (leBytes 4 r.stall ++ (leBytes 1 r.repeating
      ++ (leBytes 4 r.period ++ (leBytes 1 r.queueResults ++ []))))))))))))) := by
    simp only [RawDefinition.bytes, List.append_assoc, List.append_nil]
  simp [rawDefinition, whole, field_past_byte, field_past, field_front fits.kind, field_front fits.channelA,
    field_front fits.selectA, field_front fits.channelB, field_front fits.selectB, field_front fits.gate,
    field_front fits.count, field_front fits.report, field_front fits.target, field_front fits.stall,
    field_front fits.repeating, field_front fits.period, field_front fits.queueResults, -List.append_nil]

/-- The bytes of a field, and those behind it. -/
theorem leBytes_field (offset n : Nat) (inside : offset + n ≤ payload.length) :
    leBytes n (field payload offset n) ++ payload.drop (offset + n) = payload.drop offset := by
  have length : ((payload.drop offset).take n).length = n := by
    rw [List.length_take, List.length_drop]
    omega
  have read : leBytes n (field payload offset n) = (payload.drop offset).take n := by
    have back := leBytes_leNat ((payload.drop offset).take n)
    rwa [length] at back
  rw [read, ← List.drop_drop, List.take_append_drop]

/-- The raw fields of a payload have its bytes. -/
theorem bytes_rawDefinition (length : payload.length = 32) : (rawDefinition payload).bytes = payload.drop 1 := by
  have last : payload.drop 32 = [] := List.drop_eq_nil_of_le (by omega)
  have step (offset n : Nat) (inside : offset + n ≤ 32) := leBytes_field (payload := payload) offset n (by omega)
  have ends : leBytes 1 (field payload 31 1) = payload.drop 31 := by
    rw [← step 31 1 (by decide), last, List.append_nil]
  simp only [RawDefinition.bytes, rawDefinition, List.append_assoc, ends, step 27 4 (by decide), step 26 1 (by decide),
    step 22 4 (by decide), step 16 6 (by decide), step 12 4 (by decide), step 10 2 (by decide), step 6 4 (by decide),
    step 5 1 (by decide), step 4 1 (by decide), step 3 1 (by decide), step 2 1 (by decide), step 1 1 (by decide)]

/-! ## Codes (R193) -/

theorem kindOf_toCode (k : Kind) : kindOf k.toCode = some k := by
  cases k <;> rfl

theorem toCode_of_kindOf : ∀ {n : Nat}, kindOf n = some k → k.toCode = n
  | 0, h | 1, h | 2, h | 3, h | 4, h | 5, h => by cases h; rfl

theorem kindOf_of_above : ∀ {n : Nat}, 5 < n → kindOf n = none
  | _ + 6, _ => rfl

theorem kindOf_of_below : ∀ {n : Nat}, n ≤ 5 → ∃ k, kindOf n = some k
  | 0, _ | 1, _ | 2, _ | 3, _ | 4, _ | 5, _ => ⟨_, rfl⟩

theorem selectOf_toCode (select : Select) : (selectOf select.toCode).getD .none = select := by
  cases select <;> rfl

theorem toCode_selectOf : ∀ {n : Nat}, n ≤ 3 → ((selectOf n).getD .none).toCode = n
  | 0, _ | 1, _ | 2, _ | 3, _ => rfl

theorem repeatOf_toCode (repeating : Repeat) : (repeatOf repeating.toCode).getD .once = repeating := by
  cases repeating <;> rfl

theorem toCode_repeatOf : ∀ {n : Nat}, n ≤ 2 → ((repeatOf n).getD .once).toCode = n
  | 0, _ | 1, _ | 2, _ => rfl

theorem bit_beq_one (b : Bool) : (bit b == 1) = b := by
  cases b <;> rfl

theorem bit_le_one (b : Bool) : bit b ≤ 1 := by
  cases b <;> decide

theorem bit_of_code : ∀ {n : Nat}, n ≤ 1 → bit (n == 1) = n
  | 0, _ | 1, _ => rfl

/-- The raw fields of a definition build it. -/
theorem build_raw (d : Definition) : d.raw.build d.kind = d := by
  simp only [RawDefinition.build, Definition.raw, Fin.ofNat_val_eq_self, selectOf_toCode, repeatOf_toCode, bit_beq_one]

/-! ## The checks, one by one (R34 to R36) -/

/-- The check of a field, by its index. -/
def RawDefinition.checkAt (r : RawDefinition) (k : Kind) : Nat → Check
  | 4 => checkSelectA k r.selectA
  | 5 => checkChannelB k r.channelA r.channelB
  | 6 => checkSelectB k r.selectB
  | 7 => require (if k.gated then 400 ≤ r.gate else r.gate == 0) 7
  | 8 => require (if k.countsToN then 1 ≤ r.count else r.count == 0) 8
  | 9 => require (r.report == 0 || (k == .tally && 4000 ≤ r.report)) 9
  | 10 => require (r.target == 0 || k == .tally) 10
  | 11 => require (if k.stalls then 4000 ≤ r.stall else r.stall == 0) 11
  | 12 => checkRepeat k r.repeating
  | 13 => checkPeriod k r
  | 14 => require (r.queueResults ≤ 1) 14
  | _ => none

theorem checkFields_eq (k : Kind) (r : RawDefinition) :
    checkFields k r = firstFailure ((List.range' 4 11).map (r.checkAt k)) := rfl

/-- What a field must satisfy, by its index, in the codes of the payload (R35, R36). -/
def RawDefinition.passes (r : RawDefinition) : Nat → Prop
  | 4 => 1 ≤ r.selectA ∧ r.selectA ≤ 3 ∧ (r.kind = 3 → r.selectA ≤ 2)
  | 5 => if r.kind = 4 then r.channelB ≤ 7 ∧ r.channelB ≠ r.channelA else r.channelB = 0
  | 6 => if r.kind = 4 then 1 ≤ r.selectB ∧ r.selectB ≤ 3 else r.selectB = 0
  | 7 => if r.kind ≤ 1 then 400 ≤ r.gate else r.gate = 0
  | 8 => if r.kind ≤ 1 ∨ r.kind = 5 then r.count = 0 else 1 ≤ r.count
  | 9 => r.report = 0 ∨ (r.kind = 5 ∧ 4000 ≤ r.report)
  | 10 => r.target = 0 ∨ r.kind = 5
  | 11 => if r.kind = 0 ∨ r.kind = 5 then r.stall = 0 else 4000 ≤ r.stall
  | 12 => r.repeating ≤ 2 ∧ (r.kind = 5 → r.repeating ≠ 2)
  | 13 => if r.repeating = 2 then 4000 ≤ r.period ∧ (r.kind = 0 → r.gate ≤ r.period) else r.period = 0
  | 14 => r.queueResults ≤ 1
  | _ => True

/-- How a field that does not pass is refused. -/
def RawDefinition.refusal (r : RawDefinition) (i : Nat) : ReplyCode × Nat :=
  if i = 5 ∧ r.kind = 4 ∧ 7 < r.channelB then (.badIndex, 5) else (.badValue, i)

/-- A field's check lets exactly the values pass that the tables allow, and refuses the others. -/
structure RawDefinition.Decides (r : RawDefinition) (k : Kind) (i : Nat) : Prop where
  passing : r.passes i → r.checkAt k i = none
  failing : ¬r.passes i → r.checkAt k i = some (r.refusal i)

theorem decides_of_require {ok : Bool} (check : r.checkAt k i = require ok i) (other : i ≠ 5)
    (same : ok = true ↔ r.passes i) : r.Decides k i where
  passing pass := check.trans (require_eq_none.mpr (same.mpr pass))
  failing fail := by
    have refused : ok = false := Bool.eq_false_iff.mpr (mt same.mp fail)
    rw [check, refused, RawDefinition.refusal, if_neg fun five => other five.1]
    rfl

/-- A channel B out of range is refused as an index (R34). -/
theorem decides_channelB (code : k.toCode = r.kind) : r.Decides k 5 := by
  have phase : r.kind = 4 ↔ k = .phase := by rw [← code]; cases k <;> decide
  have check : r.checkAt k 5 = checkChannelB k r.channelA r.channelB := rfl
  have pass : r.passes 5 ↔ if r.kind = 4 then r.channelB ≤ 7 ∧ r.channelB ≠ r.channelA else r.channelB = 0 := Iff.rfl
  constructor
  · rw [check, pass, checkChannelB]
    by_cases isPhase : k = .phase
    · rw [if_pos (phase.mpr isPhase), if_pos isPhase]
      rintro ⟨inRange, apart⟩
      rw [if_neg (Nat.not_lt.mpr inRange), require_eq_none]
      simpa using apart
    · rw [if_neg (mt phase.mp isPhase), if_neg isPhase, require_eq_none, beq_iff_eq]
      exact id
  · rw [check, pass, checkChannelB, RawDefinition.refusal]
    by_cases isPhase : k = .phase
    · rw [if_pos (phase.mpr isPhase), if_pos isPhase]
      intro fail
      by_cases above : 7 < r.channelB
      · rw [if_pos above, if_pos ⟨rfl, phase.mpr isPhase, above⟩]
      · have same : (r.channelB != r.channelA) = false := by
          have equal : r.channelB = r.channelA := by by_contra apart; exact fail ⟨by omega, apart⟩
          simp [equal]
        rw [if_neg above, if_neg fun out => above out.2.2, same]
        rfl
    · rw [if_neg (mt phase.mp isPhase), if_neg isPhase, if_neg fun out => isPhase (phase.mp out.2.1)]
      intro fail
      have some : (r.channelB == 0) = false := by simpa using fail
      rw [some]
      rfl

/-- The check of the period reads a repeat mode that has passed, so a TALLY job's is not PERIODIC there (R36). -/
theorem decides_period (code : k.toCode = r.kind) (repeats : r.passes 12) : r.Decides k 13 := by
  refine decides_of_require rfl (by decide) ?_
  by_cases periodic : r.repeating = 2
  · have other : k ≠ .tally := by
      rintro rfl
      exact repeats.2 code.symm periodic
    cases k <;> simp_all [RawDefinition.passes, ← code, Kind.toCode]
  · simp [RawDefinition.passes, periodic]

/-- Every field decides once those before it have passed. In all but the fields 5, 13 and 14 the kind, or its code,
picks one of two conditions. -/
theorem decides_field (code : k.toCode = r.kind) : ∀ {i : Nat}, 4 ≤ i → i ≤ 14 →
    (∀ n, 4 ≤ n → n < i → r.passes n) → r.Decides k i
  | 5, _, _, _ => decides_channelB code
  | 13, _, _, before => decides_period code (before 12 (by decide) (by decide))
  | 14, _, _, _ => decides_of_require rfl (by decide) decide_eq_true_iff
  | 4, _, _, _ | 12, _, _, _ => by
    refine decides_of_require rfl (by decide) ?_
    cases k <;> simp [RawDefinition.passes, ← code, Kind.toCode] <;> omega
  | 6, _, _, _ | 7, _, _, _ | 8, _, _, _ | 9, _, _, _ | 10, _, _, _ | 11, _, _, _ => by
    refine decides_of_require rfl (by decide) ?_
    cases k <;> simp [RawDefinition.passes, ← code, Kind.toCode, Kind.gated, Kind.countsToN, Kind.stalls]
  | 0, low, _, _ | 1, low, _, _ | 2, low, _, _ | 3, low, _, _ => absurd low (by decide)
  | _ + 15, _, high, _ => absurd high (by omega)

/-! ## The first field that fails (R34) -/

/-- Checks that all pass find no failure. -/
theorem firstFailure_of_all {check : Nat → Check} {first count : Nat}
    (all : ∀ i, first ≤ i → i < first + count → check i = none) :
    firstFailure ((List.range' first count).map check) = none := by
  rw [firstFailure_eq_none]
  intro c listed
  obtain ⟨i, inside, rfl⟩ := List.mem_map.mp listed
  obtain ⟨low, high⟩ := List.mem_range'_1.mp inside
  exact all i low high

/-- The lowest check that fails is the one found. -/
theorem firstFailure_of_first {check : Nat → Check} {refusal : ReplyCode × Nat} : ∀ {first count i : Nat}, first ≤ i →
    i < first + count → (∀ n, first ≤ n → n < i → check n = none) → check i = some refusal →
    firstFailure ((List.range' first count).map check) = some refusal
  | first, 0, i, low, high, _, _ => absurd high (by omega)
  | first, count + 1, i, low, high, before, fails => by
    rw [List.range'_succ, List.map_cons]
    by_cases here : first = i
    · rw [here, fails]
      rfl
    · rw [before first (Nat.le_refl first) (by omega)]
      exact firstFailure_of_first (by omega) (by omega) (fun n above => before n (by omega)) fails

theorem checkFields_of_pass (code : k.toCode = r.kind) (all : ∀ i, 4 ≤ i → i ≤ 14 → r.passes i) :
    checkFields k r = none := by
  rw [checkFields_eq]
  exact firstFailure_of_all fun i low high =>
    (decides_field code low (by omega) fun n above below => all n above (by omega)).passing (all i low (by omega))

theorem checkFields_of_fail (code : k.toCode = r.kind) (low : 4 ≤ i) (high : i ≤ 14)
    (before : ∀ n, 4 ≤ n → n < i → r.passes n) (fail : ¬r.passes i) : checkFields k r = some (r.refusal i) := by
  rw [checkFields_eq]
  refine firstFailure_of_first low (by omega) (fun n above below => ?_) ((decides_field code low high before).failing fail)
  exact (decides_field code above (by omega) fun m lowest lower => before m lowest (by omega)).passing
    (before n above below)

/-- Fields that are let through have all passed. -/
theorem passes_of_checkFields (code : k.toCode = r.kind) (checks : checkFields k r = none) :
    ∀ i, 4 ≤ i → i ≤ 14 → r.passes i := by
  intro i
  induction i using Nat.strong_induction_on with
  | _ i ih =>
    intro low high
    by_contra fail
    have refused := checkFields_of_fail code low high (fun n above below => ih n below above (by omega)) fail
    rw [checks] at refused
    cases refused

theorem readDefinition_eq (known : kindOf (field payload 1 1) = some k) :
    readDefinition payload = match checkFields k (rawDefinition payload) with
      | some refusal => .error refusal
      | none => .ok ((rawDefinition payload).build k) := by
  have kind : kindOf (rawDefinition payload).kind = some k := known
  simp only [readDefinition, kind]
    <;> rfl

/-! ## Definitions with allowed values (R35, R36) -/

theorem select_toCode_pos {select : Select} : 1 ≤ select.toCode ↔ select ≠ .none := by
  cases select <;> decide

theorem select_toCode_le (select : Select) : select.toCode ≤ 3 := by
  cases select <;> decide

theorem repeat_toCode_le (repeating : Repeat) : repeating.toCode ≤ 2 := by
  cases repeating <;> decide

theorem repeat_toCode_two {repeating : Repeat} : repeating.toCode = 2 ↔ repeating = .periodic := by
  cases repeating <;> decide

/-- The codes of the kinds that the tables name. -/
theorem kind_toCode_eq {kind named : Kind} : kind.toCode = named.toCode ↔ kind = named :=
  ⟨fun same => Option.some.inj ((kindOf_toCode kind).symm.trans (same ▸ kindOf_toCode named)), congrArg Kind.toCode⟩

/-- The gate that a kind allows, by its code; its count; and its stall (R35). -/
theorem gate_by_code {kind : Kind} {gate : Nat} (allowed : match kind with
      | .freqFixed | .freqSync => 400 ≤ gate ∧ gate < 2 ^ 32
      | .period | .width | .phase | .tally => gate = 0) :
    if kind.toCode ≤ 1 then 400 ≤ gate else gate = 0 := by
  cases kind with
  | freqFixed | freqSync => exact allowed.1
  | period | width | phase | tally => exact allowed

theorem count_by_code {kind : Kind} {count : Nat} (allowed : match kind with
      | .period | .width | .phase => 1 ≤ count ∧ count ≤ 65535
      | .freqFixed | .freqSync | .tally => count = 0) :
    if kind.toCode ≤ 1 ∨ kind.toCode = 5 then count = 0 else 1 ≤ count := by
  cases kind with
  | period | width | phase => exact allowed.1
  | freqFixed | freqSync | tally => exact allowed

theorem stall_by_code {kind : Kind} {stall : Nat} (allowed : match kind with
      | .freqSync | .period | .width | .phase => 4000 ≤ stall ∧ stall < 2 ^ 32
      | .freqFixed | .tally => stall = 0) :
    if kind.toCode = 0 ∨ kind.toCode = 5 then stall = 0 else 4000 ≤ stall := by
  cases kind with
  | freqSync | period | width | phase => exact allowed.1
  | freqFixed | tally => exact allowed

/-- The fields of a definition with allowed values pass. -/
theorem raw_passes (allowed : d.allowed) (low : 4 ≤ i) (high : i ≤ 14) : d.raw.passes i := by
  obtain ⟨selectA, channelB, selectB, gate, count, report, target, stall, tally, period⟩ := allowed
  have isFreqFixed : d.kind.toCode = 0 ↔ d.kind = .freqFixed := kind_toCode_eq (named := .freqFixed)
  have isWidth : d.kind.toCode = 3 ↔ d.kind = .width := kind_toCode_eq (named := .width)
  have isPhase : d.kind.toCode = 4 ↔ d.kind = .phase := kind_toCode_eq (named := .phase)
  have isTally : d.kind.toCode = 5 ↔ d.kind = .tally := kind_toCode_eq (named := .tally)
  match i, low, high with
  | 4, _, _ =>
    have admitted : d.selectA ≠ .none := by
      cases kind : d.kind with
      | width =>
        rw [kind] at selectA
        obtain rise | fall := selectA
        · rw [rise]; nofun
        · rw [fall]; nofun
      | _ =>
        rw [kind] at selectA
        exact selectA
    refine ⟨select_toCode_pos.mpr admitted, select_toCode_le _, fun width => ?_⟩
    rw [isWidth.mp width] at selectA
    show d.selectA.toCode ≤ 2
    obtain rise | fall := selectA
    · rw [rise]; decide
    · rw [fall]; decide
  | 5, _, _ =>
    split at channelB
    · rename_i phase
      exact (if_pos (isPhase.mpr phase)).mpr
        ⟨Nat.lt_succ_iff.mp d.channelB.isLt, fun same => channelB (Fin.ext same)⟩
    · rename_i other
      exact (if_neg (mt isPhase.mp other)).mpr (congrArg Fin.val channelB)
  | 6, _, _ =>
    split at selectB
    · rename_i phase
      exact (if_pos (isPhase.mpr phase)).mpr ⟨select_toCode_pos.mpr selectB, select_toCode_le _⟩
    · rename_i other
      exact (if_neg (mt isPhase.mp other)).mpr (congrArg Select.toCode selectB)
  | 7, _, _ => exact gate_by_code gate
  | 8, _, _ => exact count_by_code count
  | 9, _, _ => exact report.imp id fun ⟨kind, most, _⟩ => ⟨isTally.mpr kind, most⟩
  | 10, _, _ => exact target.imp id fun ⟨kind, _⟩ => isTally.mpr kind
  | 11, _, _ => exact stall_by_code stall
  | 12, _, _ => exact ⟨repeat_toCode_le _, fun kind => mt repeat_toCode_two.mp (tally (isTally.mp kind))⟩
  | 13, _, _ =>
    split at period
    · rename_i periodic
      exact (if_pos (repeat_toCode_two.mpr periodic)).mpr
        ⟨period.1, fun kind => period.2.2 (isFreqFixed.mp kind)⟩
    · rename_i other
      exact (if_neg (mt repeat_toCode_two.mp other)).mpr period
  | 14, _, _ => exact bit_le_one d.queueResults
  | 0, low, _ | 1, low, _ | 2, low, _ | 3, low, _ => exact absurd low (by decide)
  | _ + 15, _, high => exact absurd high (by omega)

theorem raw_fits (allowed : d.allowed) : d.raw.Fits := by
  obtain ⟨-, -, -, gate, count, report, target, stall, -, period⟩ := allowed
  have kind : d.kind.toCode ≤ 5 := by cases d.kind <;> decide
  have channelA := d.channelA.isLt
  have channelB := d.channelB.isLt
  have selectA := select_toCode_le d.selectA
  have selectB := select_toCode_le d.selectB
  have repeating := repeat_toCode_le d.repeating
  have queued := bit_le_one d.queueResults
  refine ⟨?_, ?_, ?_, ?_, ?_, ?gateFits, ?countFits, ?_, ?_, ?stallFits, ?_, ?periodFits, ?_⟩
  case gateFits => cases k : d.kind <;> rw [k] at gate <;> simp only [Definition.raw] <;> omega
  case countFits => cases k : d.kind <;> rw [k] at count <;> simp only [Definition.raw] <;> omega
  case stallFits => cases k : d.kind <;> rw [k] at stall <;> simp only [Definition.raw] <;> omega
  case periodFits => split at period <;> simp only [Definition.raw] <;> omega
  all_goals simp only [Definition.raw]; omega

/-- Raw fields that pass, with channel A in range, are those of the definition they build. -/
theorem raw_build (code : k.toCode = r.kind) (channelA : r.channelA ≤ 7) (pass : ∀ i, 4 ≤ i → i ≤ 14 → r.passes i) :
    (r.build k).raw = r := by
  obtain ⟨-, selectA, -⟩ : r.passes 4 := pass 4 (by decide) (by decide)
  have channelB : r.passes 5 := pass 5 (by decide) (by decide)
  have selectB : r.passes 6 := pass 6 (by decide) (by decide)
  obtain ⟨repeating, -⟩ : r.passes 12 := pass 12 (by decide) (by decide)
  have queued : r.passes 14 := pass 14 (by decide) (by decide)
  have channelB : r.channelB ≤ 7 := by
    simp only [RawDefinition.passes] at channelB
    split at channelB <;> omega
  have selectB : r.selectB ≤ 3 := by
    simp only [RawDefinition.passes] at selectB
    split at selectB <;> omega
  have channel {n : Nat} (inRange : n ≤ 7) : (Fin.ofNat 8 n).val = n := Nat.mod_eq_of_lt (Nat.lt_succ_of_le inRange)
  simp only [Definition.raw, RawDefinition.build, code, channel channelA, channel channelB, toCode_selectOf selectA,
    toCode_selectOf selectB, toCode_repeatOf repeating, bit_of_code queued]

/-- Settles O27: raw fields are their bytes, a definition is its raw fields, and the first field that fails refuses
them. -/
theorem definitionsReadBack : Obligations.DefinitionsReadBack := by
  refine ⟨fun slot d allowed => ?_, fun payload d length channelA read => ?_, fun payload length above => ?_,
    fun payload length below channelA => ?_⟩
  · have raw : rawDefinition (slot :: d.bytes) = d.raw := rawDefinition_bytes (raw_fits allowed) slot
    have known : kindOf (field (slot :: d.bytes) 1 1) = some d.kind :=
      (congrArg (fun r => kindOf (RawDefinition.kind r)) raw).trans (kindOf_toCode d.kind)
    rw [readDefinition_eq known, raw, checkFields_of_pass rfl fun i => raw_passes allowed, build_raw]
  · have inRange : (rawDefinition payload).channelA ≤ 7 := by
      show field payload 2 1 ≤ 7
      rw [field_byte]
      exact channelA
    cases known : kindOf (field payload 1 1) with
    | none =>
      have unknown : kindOf (rawDefinition payload).kind = none := known
      simp only [readDefinition, unknown] at read
      cases read
    | some k =>
      have code : k.toCode = (rawDefinition payload).kind := toCode_of_kindOf known
      rw [readDefinition_eq known] at read
      cases checks : checkFields k (rawDefinition payload) with
      | some refusal => rw [checks] at read; cases read
      | none =>
        rw [checks] at read
        cases read
        have raw := raw_build code inRange (passes_of_checkFields code checks)
        refine ⟨build_allowed checks inRange (field_lt payload 6 4) (field_lt payload 10 2) (field_lt payload 12 4)
          (field_lt payload 16 6) (field_lt payload 22 4) (field_lt payload 27 4), ?_⟩
        rw [← raw_bytes, raw, bytes_rawDefinition length]
  · have unknown : kindOf (rawDefinition payload).kind = none := by
      refine kindOf_of_above ?_
      rw [rawDefinition, field_byte]
      exact above
    simp only [readDefinition, unknown]
  · intro f freqFixed gated width phase tally passes
    have few : field payload 1 1 ≤ 5 := by rw [field_byte]; exact below
    obtain ⟨k, known⟩ := kindOf_of_below few
    have code : k.toCode = (rawDefinition payload).kind := toCode_of_kindOf known
    have same (i : Nat) : passes i ↔ (rawDefinition payload).passes i := Iff.rfl
    have read := readDefinition_eq known
    refine ⟨fun i low high fail before => ?_, fun all => ?_⟩
    · rw [checkFields_of_fail code low high (fun n above less => (same n).mp (before n above less))
        (mt (same i).mpr fail)] at read
      exact read
    · rw [checkFields_of_pass code fun i low high => (same i).mp (all i low high)] at read
      exact ⟨_, read⟩

end Sys2Proof.Machine
end
